-- ==== Sys2Proof/Word.lean ====
section
/-! DEFINITION. Word.lean: the machine's words, lane masks and the plainest list helpers. -/

namespace Sys2Proof

abbrev Byte := BitVec 8
abbrev Word := BitVec 32
abbrev DWord := BitVec 64
/-- One bit per lane of a weave, lane 0 in bit 0 (R2, R125). -/
abbrev Mask := BitVec 32
/-- A program counter: 52 bits, a byte address (R124). -/
abbrev Pc := BitVec 52

/-- One lane of a vector register: 32 value bits and the side bit (R132). -/
structure Lane where
  val : Word
  sb : Bool
  deriving DecidableEq, Repr

/-- A lane holding `w` with side bit 0. -/
def Lane.ofWord (w : Word) : Lane := ⟨w, false⟩

def Lane.zero : Lane := ⟨0, false⟩

/-- The lane numbers 0 to 31, in increasing order. -/
def laneList : List Nat := List.range 32

/-- The mask whose bit i is `f i`. -/
def maskOf (f : Nat → Bool) : Mask :=
  laneList.foldl (fun acc i => if f i then acc ||| BitVec.twoPow 32 i else acc) 0

/-- The lanes of a mask in increasing order. -/
def maskLanes (m : Mask) : List Nat := laneList.filter fun i => m.getLsbD i

/-- The lowest lane of a mask. -/
def lowestLane (m : Mask) : Option Nat := laneList.find? fun i => m.getLsbD i

def allOnes32 : Word := BitVec.allOnes 32

/-- The i-th entry of a list, or `d` past its end. -/
def nthD {α : Type} (xs : List α) (i : Nat) (d : α) : α := xs.getD i d

/-- Replace the i-th entry by its image; nothing happens past the end. -/
def modNth {α : Type} (xs : List α) (i : Nat) (f : α → α) : List α :=
  match xs, i with
  | [], _ => []
  | x :: xs, 0 => f x :: xs
  | x :: xs, i + 1 => x :: modNth xs i f

/-- Byte k (0 lowest) of a number, little-endian (R5). -/
def byteOf (x k : Nat) : Byte := BitVec.ofNat 8 (x >>> (8 * k))

/-- The n lowest bytes of a number, lowest first (R5). -/
def bytesLE (n x : Nat) : List Byte := (List.range n).map (byteOf x)

/-- The number whose little-endian bytes are the list (R5). -/
def natLE : List Byte → Nat
  | [] => 0
  | b :: bs => b.toNat + 256 * natLE bs

/-- Bits [hi:lo] of a number. -/
def bitsOf (x lo len : Nat) : Nat := (x >>> lo) % 2 ^ len

/-- Two's-complement reading of the low n bits. -/
def signedOf (n x : Nat) : Int :=
  let y := x % 2 ^ n
  if n = 0 then 0 else if y < 2 ^ (n - 1) then (y : Int) else (y : Int) - 2 ^ n

/-- An integer reduced to n bits. -/
def wrapNat (n : Nat) (x : Int) : Nat := (x % (2 ^ n : Nat)).toNat

/-- Round `x` up to a multiple of `n`. -/
def roundUp (x n : Nat) : Nat := (x + n - 1) / n * n

/-- Welt route length between two dies: 0, 1 or 2 hops (R12). -/
def weltHops (a b : Nat) : Nat :=
  (if a % 2 = b % 2 then 0 else 1) + (if a / 2 = b / 2 then 0 else 1)

end Sys2Proof
end

