-- ==== Sys2Proof/Config.lean ====
section
/-! DEFINITION. Config.lean: what the implementation fixes, and the free values, which nothing constrains. -/

namespace Sys2Proof.Config

/-- A free 32-bit value for each number: State.fresh and the lane feed it. DESIGN CHOICE, log entry 3. -/
opaque freeWord : Nat → Nat → Word
/-- A free byte for each number. DESIGN CHOICE, log entry 3. -/
opaque freeByte : Nat → Nat → Byte
/-- A free bit, one for each pair of numbers. DESIGN CHOICE, log entry 3. -/
opaque freeBit : Nat → Nat → Bool
/-- A free choice below a bound is this value reduced by the bound. DESIGN CHOICE, log entry 3. -/
opaque freePick : Nat → Nat
/-- What a byte written under one key reads as under another, by key pair and physical address (R65). -/
opaque crossKeyByte : Nat → Nat → Nat → Byte → Byte
/-- The entry of the resident handler of each cause, which the firmware image fixes (R227). -/
opaque handlerEntry : Nat → Pc
/-- Bytes of the XMSS signature over some bytes under each leaf index (R70). -/
opaque xmssByte : List Byte → Nat → Nat → Byte
/-- Bytes of the SHAKE256 digest of a firmware image (R70). -/
opaque firmwareDigest : List Byte → Nat → Byte
/-- The fused minimum version, a 64-bit thermometer code (R69). -/
opaque fusedMinimum : DWord
/-- The image that runs until one has been staged. -/
opaque factoryImage : List Byte
/-- Whether an image's signature verifies, and the version it carries (R69); the image's layout is not given. -/
opaque imageSigned : List Byte → Bool
opaque imageVersion : List Byte → Nat
/-- The value of a thermometer code: its ones. -/
def thermometer (x : DWord) : Nat := ((List.range 64).filter fun i => x.getLsbD i).length
/-- The checks of R69: the boot ROM's of the running image and FW_STAGE's of a new one. -/
def imageVerifies (bs : List Byte) : Bool := imageSigned bs && decide (thermometer fusedMinimum ≤ imageVersion bs)
/-- The Job ID and fabric address of the management context, fixed at boot (R59). -/
opaque managementJob : DWord
opaque managementAddr : DWord

/-- The place of each object of Scevar's state in die 0's HBM, which nothing gives (R56). DESIGN CHOICE, log entry 9. -/
opaque scevarObject : Nat → BitVec 64

/-- L1 capacity in 64-byte lines: 128 KiB (R122). -/
def l1Lines : Nat := 2048
/-- Core TLB entries (R156). -/
def coreTlb : Nat := 64
/-- Last-level TLB entries of a die (R156). -/
def dieTlb : Nat := 16384
/-- Walks a die runs at once (R156). -/
def maxWalks : Nat := 128
/-- Operations in a core's Accord queue (R220). -/
def accordDepth : Nat := 32
/-- Engine operations of a crew in flight (R353). -/
def maxTickets : Nat := 64

/-- Where the 4 MiB ring of Scevar's log lies in die 0's HBM: DESIGN CHOICE, log entry 107, its highest populated 4 MiB (R17, R56). -/
def logBase : Nat := 0x27FFC00000

end Sys2Proof.Config
end

