-- ==== Sys2Proof/Syntax.lean ====
section
/-! DEFINITION. Syntax.lean: operands, the five instruction formats, the other agents' steps and `Instr`, one constructor
per row of the opcode table. -/

namespace Sys2Proof

/-- A 10-bit operand field (R262). `undef` holds codes 832 to 1018. -/
inductive Operand where
  | v (n : Fin 640)
  | g (n : Fin 128)
  | h (n : Fin 16)
  | hg (n : Fin 16)
  | p (n : Fin 16)
  | q (n : Fin 16)
  | undef (n : Fin 187)
  | laneid
  | imm
  | zero
  | ones
  | none
  deriving DecidableEq, Repr

/-- The 16 format codes of a TY field (R265). `named` is code 0: no type written. -/
inductive Ty where
  | named | f32 | bf16 | f16 | i8 | ui8 | i16 | ui16 | i32 | ui32 | i64 | ui64 | e8m0 | t8 | t6 | i8g
  deriving DecidableEq, Repr

/-- The selectors of `ICMP` (R279, R282). -/
inductive CmpSel where
  | eq | ne | lt | le | gt | ge
  deriving DecidableEq, Repr

/-- The selectors of `FCMP` (R314). -/
inductive FcmpSel where
  | eq | ne | lt | le | gt | ge | un | or
  deriving DecidableEq, Repr

/-- The selectors of `QRED`, `REDW` and `SCANW` (R305, R307). -/
inductive RedSel where
  | add | min | max | and | or | xor
  deriving DecidableEq, Repr

/-- The selectors of `SHFL` (R306). -/
inductive ShflSel where
  | idx | up | down | xor
  deriving DecidableEq, Repr

/-- The selectors of `VOTE` (R307). -/
inductive VoteSel where
  | all | any | uni
  deriving DecidableEq, Repr

/-- The common upper half (R260); `grp` is the G bit, MAJ bit 120. -/
structure Head where
  grp : Bool
  grd : Fin 16
  neg : Bool
  d : Operand
  a : Operand
  b : Operand
  c : Operand
  em : BitVec 3
  deriving DecidableEq, Repr

/-- V format (R264). -/
structure VForm where
  hd : Head
  mod : BitVec 4
  ty1 : Ty
  ty2 : Ty
  imm : Word
  deriving DecidableEq, Repr

/-- M format (R266). -/
structure MForm where
  hd : Head
  xb : Fin 8
  wid : BitVec 3
  ord : BitVec 3
  scp : BitVec 3
  ch : BitVec 2
  atop : BitVec 5
  disp : Word
  deriving DecidableEq, Repr

/-- B format (R267). -/
structure BForm where
  hd : Head
  tok : BitVec 8
  off : Word
  deriving DecidableEq, Repr

/-- E format (R268). -/
structure EForm where
  hd : Head
  ah : Fin 128
  th : Fin 16
  ctl : BitVec 21
  imm : Word
  deriving DecidableEq, Repr

/-- S format (R269). -/
structure SForm where
  hd : Head
  csr : BitVec 16
  imm : Word
  deriving DecidableEq, Repr

/-- The cause space (R231). -/
inductive Cause where
  | noCause
  | illegalOpcode
  | illegalOperand
  | privilegedOperand
  | privilegedOpcode
  | reservedField
  | regRange
  | feEmpty
  | tokenOverflow
  | tokenUnderflow
  | tokenMismatch
  | pcMisaligned
  | softwareTrap
  | pageNotPresent
  | pageProtection
  | pageUnresolved
  | paUnbacked
  | kindStraddle
  | addrNoncanon
  | scratchRange
  | commonsRange
  | firewallBlocked
  | atomicSplit
  | memoryUe
  | pageAnswerLate
  | poolEntryBad
  | linkFatal
  | tssAuthFail
  | peerUnset
  | tableStale
  | tableUnbound
  | tableSpilled
  | tableRamFull
  | indexRange
  | formatDivergence
  | formatInvalid
  | formatMismatch
  | accQuota
  | planeRange
  | packetInvalid
  | queueOverrun
  | queueFetchFault
  | signalUnderflow
  | signalAborted
  | enqRefused
  | launchInvalid
  | barrierScope
  | barrierRearrive
  | rateInconsistent
  | graphInvalid
  | graphDeadlock
  | graphWorkspace
  | graphFaulted
  | rateMismatch
  | channelRange
  | intDivZero
  | breakpoint
  | debugHalt
  | service
  | doubleTrap
  | residencyImpossible
  | stashFull
  | preemptSaveFailed
  | forcedReset
  | thermalShutdown
  | scevarFatal
  | firmwareRejected
  | queueDestroyed
  deriving DecidableEq, Repr

/-- The 7-bit code of a cause (R231). -/
def Cause.code : Cause → Nat
  | .noCause => 0x00
  | .illegalOpcode => 0x01
  | .illegalOperand => 0x02
  | .privilegedOperand => 0x03
  | .privilegedOpcode => 0x04
  | .reservedField => 0x05
  | .regRange => 0x06
  | .feEmpty => 0x07
  | .tokenOverflow => 0x08
  | .tokenUnderflow => 0x09
  | .tokenMismatch => 0x0A
  | .pcMisaligned => 0x0B
  | .softwareTrap => 0x0C
  | .pageNotPresent => 0x10
  | .pageProtection => 0x11
  | .pageUnresolved => 0x12
  | .paUnbacked => 0x13
  | .kindStraddle => 0x14
  | .addrNoncanon => 0x15
  | .scratchRange => 0x16
  | .commonsRange => 0x17
  | .firewallBlocked => 0x18
  | .atomicSplit => 0x19
  | .memoryUe => 0x1A
  | .pageAnswerLate => 0x1B
  | .poolEntryBad => 0x1C
  | .linkFatal => 0x1D
  | .tssAuthFail => 0x1E
  | .peerUnset => 0x1F
  | .tableStale => 0x30
  | .tableUnbound => 0x31
  | .tableSpilled => 0x32
  | .tableRamFull => 0x33
  | .indexRange => 0x34
  | .formatDivergence => 0x35
  | .formatInvalid => 0x36
  | .formatMismatch => 0x37
  | .accQuota => 0x38
  | .planeRange => 0x39
  | .packetInvalid => 0x40
  | .queueOverrun => 0x41
  | .queueFetchFault => 0x42
  | .signalUnderflow => 0x43
  | .signalAborted => 0x44
  | .enqRefused => 0x45
  | .launchInvalid => 0x46
  | .barrierScope => 0x47
  | .barrierRearrive => 0x48
  | .rateInconsistent => 0x49
  | .graphInvalid => 0x4A
  | .graphDeadlock => 0x4B
  | .graphWorkspace => 0x4C
  | .graphFaulted => 0x4D
  | .rateMismatch => 0x4E
  | .channelRange => 0x4F
  | .intDivZero => 0x50
  | .breakpoint => 0x60
  | .debugHalt => 0x61
  | .service => 0x62
  | .doubleTrap => 0x63
  | .residencyImpossible => 0x64
  | .stashFull => 0x65
  | .preemptSaveFailed => 0x66
  | .forcedReset => 0x67
  | .thermalShutdown => 0x68
  | .scevarFatal => 0x69
  | .firmwareRejected => 0x6A
  | .queueDestroyed => 0x6B

/-- A TSS key (R66): the one fixed at boot, one that CTX_SET names, or none, for a message that no key authenticates. -/
inductive TssKey where
  | boot
  | named (id : Nat)
  | bad
  deriving DecidableEq, Repr

/-- The envelope of a host message: its context, its MSN, whether it passed TSS authentication, and whether acting on
this part of it completes it (R31, R32, R66). -/
structure Msg where
  port : Nat
  ctx : Nat
  msn : Nat
  auth : TssKey
  fin : Bool
  deriving DecidableEq, Repr

/-- A signal operation (R44). -/
inductive SigOp where
  | add (delta : DWord)
  | set (x : DWord)
  | abort
  deriving DecidableEq, Repr

/-- A 64-byte line that can be armed (R109): of a crew's scratch, of a commons slice, of HBM. -/
inductive WLine where
  | scratch (cid line : Nat)
  | commons (owner die line : Nat)
  | hbm (line : Nat)
  deriving DecidableEq, Repr

/-- Why a pre-emption is requested (R119). -/
inductive Preempt where
  | forUnit (die lid unit : Nat)
  | forSwitch (owner : Nat)
  | forPark (die : Nat)
  | forHalt (lid : Nat)
  deriving DecidableEq, Repr

/-- What a weave that leaves a barrier tells its record: the die it was on, and the count it knows of its unit's arrival (R343). -/
structure Leave where
  die : Nat
  mine : Option Word
  deriving DecidableEq, Repr

/-- Why an instance fails: the cause, and the channel whose memory has failed for good, if one has (R87). -/
structure InstFault where
  ch : Option Nat
  cause : Cause
  deriving DecidableEq, Repr

/-- Where an uncorrectable error lies (R235). -/
inductive UeSite where
  | hbm (pa : Nat)
  | commons (owner die off : Nat)
  | bdir (rec : Nat)
  | registerFile (cid widx : Nat) (bank : Option Nat)
  | scratchpad (cid : Nat) (bank : Option Nat)
  | accumulator (cid : Nat) (bank : Option Nat)
  | tableRam (cid th : Nat) (bank : Option Nat)
  | emptyCore (core kind bank : Nat)
  | l1 (core line : Nat)
  | icache (core line : Nat)
  | tlb (core owner vpn : Nat)
  | dieTlb (die owner vpn : Nat)
  | stash (cid : Nat)
  deriving DecidableEq, Repr

/-- One constructor for each row of spec/opcode_table.json: 157 weave instructions and 103 steps of the module's
other agents. -/
inductive Instr where
  /-- A CREATE written to `QCMD` (R35). -/
  | qcmdCreate (m : Msg) (w : DWord)
  /-- A DESTROY written to `QCMD` (R48). -/
  | qcmdDestroy (m : Msg) (w : DWord)
  /-- A RESUME written to `QCMD` (R36). -/
  | qcmdResume (m : Msg) (w : DWord)
  /-- A `SIGOP` write with operation ADD (R44). -/
  | sigopAdd (m : Msg) (ref delta : DWord)
  /-- A `SIGOP` write with operation SET (R44). -/
  | sigopSet (m : Msg) (ref x : DWord)
  /-- A host RMA write (R31 to R33, R161). -/
  | rmaWrite (m : Msg) (key off : Nat) (data : List Byte)
  /-- A host RMA read (R31, R33, R161). -/
  | rmaRead (m : Msg) (key off len : Nat)
  /-- A message kind the device does not support (R30). -/
  | unsupportedOperation (m : Msg)
  /-- A doorbell write (R37). -/
  | tailPointerWrite (m : Msg) (q : Nat) (t : DWord)
  /-- A write that covers no control register whole (R33). -/
  | controlPagePartialWrite (m : Msg) (off len : Nat)
  /-- The 64-byte read of the packet at HEAD returns (R37). -/
  | packetRead (q : Nat)
  /-- The packet read returns a fault (R49). -/
  | queueFetchFault (q : Nat)
  /-- A LAUNCH packet starts (R41, R90 to R95). -/
  | launch (q : Nat) (idx : Nat)
  /-- A WAITSIG packet starts (R45). -/
  | waitsig (q : Nat) (idx : Nat)
  /-- A COPY packet starts (R41). -/
  | copyPacket (q : Nat) (idx : Nat)
  /-- A GRAPH packet with GOP 1 starts or is taken up again (R78 to R81). -/
  | bind (q : Nat) (idx : Nat)
  /-- A GRAPH packet with GOP 2 (R82). -/
  | run (q : Nat) (idx : Nat)
  /-- A GRAPH packet with GOP 3 (R83). -/
  | patch (q : Nat) (idx : Nat)
  /-- A GRAPH packet with GOP 4 (R81). -/
  | unbind (q : Nat) (idx : Nat)
  /-- A NOTE packet (R41). -/
  | note (q : Nat) (idx : Nat)
  /-- A packet reaches its completion point (R46). -/
  | packetCompletion (q : Nat) (idx : Nat) (err : Option Cause) (addr : DWord)
  /-- The next message of a command link is delivered (R54, R55). -/
  | commandLinkMessage (leaf : Nat) (toLeaf : Bool)
  /-- Management command 0x01 (R59, R60). -/
  | tenantCreate (m : Msg) (w : DWord)
  /-- Management command 0x02. -/
  | tenantDestroy (m : Msg) (w : DWord)
  /-- Management command 0x03. -/
  | ctxSet (m : Msg) (w : DWord)
  /-- Management command 0x04. -/
  | keySet (m : Msg) (w : DWord)
  /-- Management command 0x05. -/
  | peerSet (m : Msg) (w : DWord)
  /-- Management command 0x06. -/
  | qgrant (m : Msg) (w : DWord)
  /-- Management command 0x07. -/
  | migrateOut (m : Msg) (w : DWord)
  /-- Management command 0x08. -/
  | migrateIn (m : Msg) (w : DWord)
  /-- Management command 0x09 (R70). -/
  | attest (m : Msg) (w : DWord)
  /-- Management command 0x0A (R69). -/
  | fwStage (m : Msg) (w : DWord)
  /-- A whole write to `PWR_CTL` (R26). -/
  | pwrCtlWrite (m : Msg) (v : Word)
  /-- PREQ of a die goes from 0 to 1 (R27). -/
  | diePark (die : Nat)
  /-- The parked die's compute domain powers down (R27, R29). -/
  | diePowerDown (die : Nat)
  /-- PREQ of a die goes from 1 to 0 (R28). -/
  | dieUnpark (die : Nat)
  /-- The 200 µs of an unpark have passed (R28). -/
  | unparkComplete (die : Nat)
  /-- A whole write to `PART_CFG` (R62). -/
  | partCfgWrite (m : Msg) (v : Word)
  /-- A whole write to `RRU_CFG` (R121). -/
  | rruCfgWrite (m : Msg) (v : Word)
  /-- A write of a port's split mode (R20). -/
  | portConfigWrite (m : Msg) (port : Nat) (split : Bool)
  /-- A whole write to another register of the management space (R59). -/
  | registerWrite (m : Msg) (off : Nat) (v : DWord)
  /-- The device applies ECLR (R67); owner 255 is the management block. -/
  | eclrWrite (owner : Nat)
  /-- The host's answer to a page request (R160). -/
  | pageRequestAnswer (m : Msg) (owner slot : Nat)
  /-- The device acts on RQCONS (R162). -/
  | rqconsWrite (m : Msg) (owner : Nat)
  /-- The device acts on GIVEN (R162). -/
  | givenWrite (m : Msg) (owner : Nat)
  /-- The device acts on DLCONS (R162, R164). -/
  | dlconsWrite (m : Msg) (owner : Nat)
  /-- The device acts on DLCTL (R162, R163). -/
  | dlctlWrite (m : Msg) (owner : Nat)
  /-- The device acts on TLBGEN (R157, R162). -/
  | tlbgenWrite (m : Msg) (owner : Nat)
  /-- A write needs a log entry and the log is full (R164). -/
  | dirtyLogFull (owner : Nat)
  /-- A performance-state transition completes (R22). -/
  | pstateTransitionDone (die : Nat)
  /-- A link starts to retrain (R14). -/
  | linkRetrain (link : Nat)
  /-- Retraining fails (R14). -/
  | linkFatal (link : Nat)
  /-- A port's link comes up (R20). -/
  | portLinkUp (port : Nat)
  /-- The dispatcher places a unit on a die (R92 to R95). -/
  | unitPlacement (die : Nat)
  /-- A gang is placed or gains reservations (R96). -/
  | gangPlacement (die : Nat)
  /-- A continuation bin is released (R97). -/
  | continuationRelease (lid die bin : Nat)
  /-- An ARRIVE reaches a BDIR record; `mine` is the member's arrival generation (R104). -/
  | bdirArrive (rec cid : Nat) (mine : Option Word)
  /-- An EXIT reaches a BDIR record from a die; `mine` is the leaving member's arrival generation (R104). -/
  | bdirExit (rec : Nat) (mine : Leave)
  /-- A generation notice reaches a die (R104, R105). -/
  | generationNotice (rec : Nat) (gen : Word) (die : Nat)
  /-- The save in progress on a die finishes (R113, R114). -/
  | saveComplete (die : Nat)
  /-- The restore in progress on a die finishes (R114, R243). -/
  | restoreComplete (die : Nat)
  /-- A pre-emption is requested (R119). -/
  | preemptionRequest (req : Preempt)
  /-- The drain window of a pre-emption ends (R119). -/
  | drainExpiry (id : Nat)
  /-- A spinner's arming ends (R109, R377). -/
  | armingEnd (cid widx : Nat)
  /-- A write to an armed line reaches its watcher (R109). -/
  | armedLineWrite (cid widx : Nat) (line : WLine)
  /-- QUANT passes for an unwatched waiter (R110). -/
  | quantExpiry (cid widx stamp : Nat)
  /-- 64 times QUANT passes for a watched waiter (R110). -/
  | watchedTimeout (cid widx stamp : Nat)
  /-- The timeout of a `WAITA` passes (R341). -/
  | waitaTimeout (cid widx stamp : Nat)
  /-- A load's data is complete in its destination (R140). -/
  | loadComplete (id : Nat)
  /-- A division's result is complete (R138). -/
  | idivComplete (id : Nat)
  /-- Work that left issue raises a deferred trap (R225). -/
  | deferredTrap (cid widx : Nat)
  /-- A page walk ends (R156). -/
  | pageWalkComplete (die owner vpn : Nat)
  /-- A copy's bytes are all performed (R165, R166). -/
  | copyComplete (id : Nat)
  /-- A copy fails (R166). -/
  | copyFail (id : Nat)
  /-- A shadow flip commits (R168). -/
  | publCommit (id : Nat)
  /-- A UN line has been in L1 for 4 µs (R150). -/
  | unLineExpiry (core line : Nat)
  /-- A graph instance releases its next firing (R84). -/
  | firingRelease (gid inst : Nat)
  /-- A feeder moves the next record of a channel (R85, R86). -/
  | feederMove (gid inst ch : Nat)
  /-- A graph instance fails (R87); `ch` is the channel whose feeder's access failed, the one after the last for the object's image. -/
  | instanceFail (gid inst : Nat) (c : InstFault)
  /-- The `LKA` at the head of a core's Accord queue retires (R217, R222). -/
  | lkaRetire (core : Nat)
  /-- The build at the head of a core's Accord queue completes (R213, R223). -/
  | tableBuildComplete (core : Nat)
  /-- A debug halt ends (R245). -/
  | debugResume (cid widx : Nat)
  | bra (f : BForm)
  | brx (f : BForm)
  | call (f : BForm)
  | ret (f : BForm)
  | exit_ (f : BForm)
  | ifb (f : BForm)
  | elsb (f : BForm)
  | join (f : BForm)
  | loop (f : BForm)
  | brkl (f : BForm)
  | contl (f : BForm)
  | lend (f : BForm)
  | nop (f : BForm)
  | yld (f : BForm)
  | bkpt (f : BForm)
  | trap (f : BForm)
  | iadd (f : VForm)
  | isub (f : VForm)
  | iadc (f : VForm)
  | isbb (f : VForm)
  | imul (f : VForm)
  | imulh (f : VForm)
  | imad (f : VForm)
  | idiv (f : VForm)
  | irem (f : VForm)
  | imin (f : VForm)
  | imax (f : VForm)
  | iabs (f : VForm)
  | ineg (f : VForm)
  | and_ (f : VForm)
  | or_ (f : VForm)
  | xor_ (f : VForm)
  | not_ (f : VForm)
  | andn (f : VForm)
  | shl (f : VForm)
  | shr (f : VForm)
  | sar (f : VForm)
  | rotl (f : VForm)
  | bfx (f : VForm)
  | bfi (f : VForm)
  | popc (f : VForm)
  | clz (f : VForm)
  | ctz (f : VForm)
  | brev (f : VForm)
  | sel (f : VForm)
  | mov (f : VForm)
  | movi (f : VForm)
  | movh (f : VForm)
  | lea (f : VForm)
  | shape (f : VForm)
  | icmp (sel : CmpSel) (f : VForm)
  | pand (f : VForm)
  | por (f : VForm)
  | pxor (f : VForm)
  | pnot (f : VForm)
  | pmov (f : VForm)
  | qswz (f : VForm)
  | qbc (f : VForm)
  | qred (sel : RedSel) (f : VForm)
  | shfl (sel : ShflSel) (f : VForm)
  | ball (f : VForm)
  | match_ (f : VForm)
  | vote (sel : VoteSel) (f : VForm)
  | redw (sel : RedSel) (f : VForm)
  | scanw (sel : RedSel) (f : VForm)
  | exmr (f : VForm)
  | exmw (f : VForm)
  | hlpr (f : VForm)
  | sreg (f : VForm)
  | sregw (f : VForm)
  | fadd (f : VForm)
  | fsub (f : VForm)
  | fmul (f : VForm)
  | ffma (f : VForm)
  | fmin (f : VForm)
  | fmax (f : VForm)
  | fcls (f : VForm)
  | frnd (f : VForm)
  | fscl (f : VForm)
  | fcmp (sel : FcmpSel) (f : VForm)
  | frcp (f : VForm)
  | frsq (f : VForm)
  | fex2 (f : VForm)
  | flg2 (f : VForm)
  | fsin (f : VForm)
  | fcos (f : VForm)
  | fsqrt (f : VForm)
  | fdiv (f : VForm)
  | badd2 (f : VForm)
  | bmul2 (f : VForm)
  | bfma2 (f : VForm)
  | hadd2 (f : VForm)
  | hmul2 (f : VForm)
  | hfma2 (f : VForm)
  | cvt (f : VForm)
  | tenc (f : VForm)
  | tdec (f : VForm)
  | gpack (f : VForm)
  | gunpk (f : VForm)
  | gscl (f : VForm)
  | ld (f : MForm)
  | st (f : MForm)
  | atom (f : MForm)
  | pft (f : MForm)
  | lds (f : MForm)
  | sts (f : MForm)
  | atoms (f : MForm)
  | ldc (f : MForm)
  | stc (f : MForm)
  | atomc (f : MForm)
  | bred (f : MForm)
  | bupd (f : MForm)
  | xlb (f : MForm)
  | cctl (f : MForm)
  | fence (f : MForm)
  | ifence (f : MForm)
  | iflush (f : MForm)
  | watch (f : MForm)
  | unwch (f : MForm)
  | waita (f : MForm)
  | bara (f : MForm)
  | barw (f : MForm)
  | baraw (f : MForm)
  | barq (f : MForm)
  | sigadd (f : MForm)
  | sigwt (f : MForm)
  | tbld (f : EForm)
  | tblds (f : EForm)
  | tinv (f : EForm)
  | tspill (f : EForm)
  | tfill (f : EForm)
  | tstat (f : EForm)
  | plnset (f : EForm)
  | lka (f : EForm)
  | ard (f : EForm)
  | awr (f : EForm)
  | azro (f : EForm)
  | arel (f : EForm)
  | cpy (f : EForm)
  | cpyg (f : EForm)
  | cpys (f : EForm)
  | publ (f : EForm)
  | cstat (f : EForm)
  | coll (f : EForm)
  | emit (f : EForm)
  | enq (f : EForm)
  | rtake (f : EForm)
  | rsplit (f : EForm)
  | rpop (f : EForm)
  | rpush (f : EForm)
  | rdone (f : EForm)
  | tret (f : SForm)
  | mapp (f : SForm)
  | tlbi (f : SForm)
  | svc (f : SForm)
  | csrr (f : SForm)
  | csrw (f : SForm)
  /-- A port's link goes down (R20). -/
  | portLinkDown (port : Nat)
  /-- Retraining succeeds (R14). -/
  | linkRetrainComplete (link : Nat)
  /-- An `ARD`'s registers are filled (R352). -/
  | ardComplete (id : Nat)
  /-- The tile or table operation at the head of a core's Accord queue takes effect (R220, R349). -/
  | accordOpRetire (core : Nat)
  /-- A collective's bytes are performed (R357). -/
  | collectiveComplete (id : Nat)
  /-- The wait tables re-read every registered signal (R44). -/
  | waitTableReread
  /-- A peer's signal operation, the next peer message, arrives (R50). -/
  | remoteSignalOperation
  /-- A peer's notification, the next peer message, arrives (R50, R51). -/
  | signalNotification
  /-- A peer's message for a migrated tenant, the next peer message, is relayed (R51). -/
  | migrationRelay
  /-- The watchdog restarts Scevar (R58). -/
  | scevarRestart
  /-- Scevar writes a CHECKPOINT record (R57). -/
  | checkpoint
  /-- A tenant switch of the next partition whose slice has ended (R64). -/
  | tenantSwitch
  /-- The 10 µs power sample, its reading in State.env (R23). -/
  | powerSample
  /-- The dies that State.env reports at 105 °C are forced to P5 (R24). -/
  | thermalLimit
  /-- The module reaches 115 °C (R24). -/
  | thermalShutdown
  /-- A flit of the link that State.env names fails its CRC (R14). -/
  | flitCrcFail
  /-- A patrol-scrub pass, its reading in State.env (R18). -/
  | patrolScrub
  /-- An uncorrectable error, its place the next of State.env, is found (R235). -/
  | memoryUe
  /-- The module is reset (R69). -/
  | moduleReset
  /-- A peer's registration, the next peer message, arrives (R50). -/
  | remoteWaitRegistration
  /-- The RRU of each die chooses an incoming unit and a victim where a slot is needed (R112). -/
  | slotNeeded
  deriving DecidableEq, Repr

end Sys2Proof
end

