-- ==== Sys2Proof/Decode.lean ====
section
/-! DEFINITION. Decode.lean: the 128-bit instruction word, its static fate, the decoder and the encoder
(R259 to R270, R278 to R283). -/

namespace Sys2Proof

/-- Why a pattern is rejected before it is executed, in the order in which the causes are tried (R226, R280). -/
inductive Reject where
  | illegalOpcode
  | reservedField
  | illegalOperand
  deriving DecidableEq, Repr

def Reject.cause : Reject → Cause
  | .illegalOpcode => .illegalOpcode
  | .reservedField => .reservedField
  | .illegalOperand => .illegalOperand

/-- The operand a 10-bit code names (R262). -/
def operandOf (x : BitVec 10) : Operand :=
  let n := x.toNat
  if h : n < 640 then .v ⟨n, h⟩
  else if n < 768 then .g (Fin.ofNat 128 (n - 640))
  else if n < 784 then .h (Fin.ofNat 16 (n - 768))
  else if n < 800 then .hg (Fin.ofNat 16 (n - 784))
  else if n < 816 then .p (Fin.ofNat 16 (n - 800))
  else if n < 832 then .q (Fin.ofNat 16 (n - 816))
  else if n < 1019 then .undef (Fin.ofNat 187 (n - 832))
  else if n = 1019 then .laneid
  else if n = 1020 then .imm
  else if n = 1021 then .zero
  else if n = 1022 then .ones
  else .none

/-- The code of an operand (R262). -/
def codeOfOperand : Operand → Nat
  | .v n => n.val
  | .g n => 640 + n.val
  | .h n => 768 + n.val
  | .hg n => 784 + n.val
  | .p n => 800 + n.val
  | .q n => 816 + n.val
  | .undef n => 832 + n.val
  | .laneid => 1019
  | .imm => 1020
  | .zero => 1021
  | .ones => 1022
  | .none => 1023

/-- The format a TY code names (R265). -/
def tyOf (x : BitVec 4) : Ty :=
  match x.toNat with
  | 0 => .named | 1 => .f32 | 2 => .bf16 | 3 => .f16 | 4 => .i8 | 5 => .ui8 | 6 => .i16 | 7 => .ui16
  | 8 => .i32 | 9 => .ui32 | 10 => .i64 | 11 => .ui64 | 12 => .e8m0 | 13 => .t8 | 14 => .t6 | _ => .i8g

/-- The TY code of a format (R265). -/
def codeOfTy : Ty → Nat
  | .named => 0 | .f32 => 1 | .bf16 => 2 | .f16 => 3 | .i8 => 4 | .ui8 => 5 | .i16 => 6 | .ui16 => 7
  | .i32 => 8 | .ui32 => 9 | .i64 => 10 | .ui64 => 11 | .e8m0 => 12 | .t8 => 13 | .t6 => 14 | .i8g => 15

/-- The position of each selector in its list, added to the first minor of its range (R282). -/
def CmpSel.pos : CmpSel → Nat
  | .eq => 0 | .ne => 1 | .lt => 2 | .le => 3 | .gt => 4 | .ge => 5
def FcmpSel.pos : FcmpSel → Nat
  | .eq => 0 | .ne => 1 | .lt => 2 | .le => 3 | .gt => 4 | .ge => 5 | .un => 6 | .or => 7
def RedSel.pos : RedSel → Nat
  | .add => 0 | .min => 1 | .max => 2 | .and => 3 | .or => 4 | .xor => 5
def ShflSel.pos : ShflSel → Nat
  | .idx => 0 | .up => 1 | .down => 2 | .xor => 3
def VoteSel.pos : VoteSel → Nat
  | .all => 0 | .any => 1 | .uni => 2

/-- The class of an operand field. -/
inductive Kind where
  | v | g | h | hg | p | q | undef | laneid | imm | zero | ones | none
  deriving DecidableEq, Repr

def kindOf : Operand → Kind
  | .v _ => .v
  | .g _ => .g
  | .h _ => .h
  | .hg _ => .hg
  | .p _ => .p
  | .q _ => .q
  | .undef _ => .undef
  | .laneid => .laneid
  | .imm => .imm
  | .zero => .zero
  | .ones => .ones
  | .none => .none

/-- Operand class lists. D of a used destination may be 1023, which discards the result (R262). -/
def kDL : List Kind := [.v, .none]
def kDF : List Kind := [.v, .h, .none]
def kDG : List Kind := [.g, .none]
def kDGh : List Kind := [.g, .hg, .none]
def kSL : List Kind := [.v, .g, .h, .hg, .laneid, .imm, .zero, .ones, .q]
def kSG : List Kind := [.g, .hg, .q, .imm, .zero, .ones]
def kSF : List Kind := [.v, .g, .h, .hg, .laneid, .imm, .zero, .ones]
def kV : List Kind := [.v]
def kVH : List Kind := [.v, .h]
def kVG : List Kind := [.v, .g]
def kG : List Kind := [.g]
def kGn : List Kind := [.g, .none]
def kGp : List Kind := [.g, .hg]
def kGpN : List Kind := [.g, .hg, .none]
def kGpO : List Kind := [.g, .hg, .ones]
def kP : List Kind := [.p]
def kQ : List Kind := [.q]
def kPn : List Kind := [.p, .none]
def kQn : List Kind := [.q, .none]
def kIZ : List Kind := [.imm, .zero]
def kIZO : List Kind := [.imm, .zero, .ones]
def kPQZO : List Kind := [.p, .q, .zero, .ones]
def kQZO : List Kind := [.q, .zero, .ones]
def kPmD : List Kind := [.p, .v, .none]
def kPmS : List Kind := [.p, .q, .zero, .ones, .v, .g, .h, .hg, .laneid, .imm]
def kPmDG : List Kind := [.q, .g, .none]
def kPmSG : List Kind := [.q, .zero, .ones, .g, .hg, .imm]
def kOff : List Kind := [.v, .g, .hg, .h, .zero]
def kDat : List Kind := [.v, .g, .h, .hg, .zero, .ones]
def kDatN : List Kind := [.v, .g, .h, .hg, .zero, .ones, .none]
def kSc : List Kind := [.v, .g, .hg, .imm, .zero, .ones]
def kScG : List Kind := [.g, .hg, .imm, .zero, .ones]
def kFw : List Kind := [.v, .g, .imm, .zero, .ones]

/-- How many registers a field names, and where the run may start. -/
inductive Run where
  | one | pair | ty1 | ty2 | wid | sreg | csr | run3 | run4 | run8 | run12 | run16 | run16e
  deriving DecidableEq, Repr

/-- The TY values an instruction accepts (R283). -/
inductive TyRule where
  | none | int | bfx | cvt | tenc | tdec | gpack | gunpk | gscl | red
  deriving DecidableEq, Repr

/-- The MOD values an instruction accepts (R283, R296). -/
inductive ModRule where
  | zero | sat | round | gpack | red | sreg | sregw
  deriving DecidableEq, Repr

/-- What the opcode map and the descriptions say of one instruction's fields. An empty class list is an unused field. -/
structure Spec where
  lane : Bool := false
  grp : Bool := false
  ld : List Kind := []
  la : List Kind := []
  lb : List Kind := []
  lc : List Kind := []
  gd : List Kind := []
  ga : List Kind := []
  gb : List Kind := []
  gc : List Kind := []
  rd : Run := .one
  ra : Run := .one
  rb : Run := .one
  rc : Run := .one
  ty : TyRule := .none
  md : ModRule := .zero

/-- An instruction's lower half, by format. -/
inductive Form where
  | v (f : VForm)
  | m (f : MForm)
  | b (f : BForm)
  | e (f : EForm)
  | s (f : SForm)
  | event
  deriving DecidableEq, Repr

def Form.head? : Form → Option Head
  | .v f => some f.hd
  | .m f => some f.hd
  | .b f => some f.hd
  | .e f => some f.hd
  | .s f => some f.hd
  | .event => none

/-- How an instruction is made from its format's fields. -/
inductive Maker where
  | v (k : VForm → Instr)
  | m (k : MForm → Instr)
  | b (k : BForm → Instr)
  | e (k : EForm → Instr)
  | s (k : SForm → Instr)


/-- The operand classes, runs, types and modifiers of each instruction (R283, R285, R309, R329, R347 and each
description). An event has none. -/
def specOf : Instr → Spec
  | .qcmdCreate .. => ({} : Spec)
  | .qcmdDestroy .. => ({} : Spec)
  | .qcmdResume .. => ({} : Spec)
  | .sigopAdd .. => ({} : Spec)
  | .sigopSet .. => ({} : Spec)
  | .rmaWrite .. => ({} : Spec)
  | .rmaRead .. => ({} : Spec)
  | .unsupportedOperation .. => ({} : Spec)
  | .tailPointerWrite .. => ({} : Spec)
  | .controlPagePartialWrite .. => ({} : Spec)
  | .packetRead .. => ({} : Spec)
  | .queueFetchFault .. => ({} : Spec)
  | .launch .. => ({} : Spec)
  | .waitsig .. => ({} : Spec)
  | .copyPacket .. => ({} : Spec)
  | .bind .. => ({} : Spec)
  | .run .. => ({} : Spec)
  | .patch .. => ({} : Spec)
  | .unbind .. => ({} : Spec)
  | .note .. => ({} : Spec)
  | .packetCompletion .. => ({} : Spec)
  | .commandLinkMessage .. => ({} : Spec)
  | .tenantCreate .. => ({} : Spec)
  | .tenantDestroy .. => ({} : Spec)
  | .ctxSet .. => ({} : Spec)
  | .keySet .. => ({} : Spec)
  | .peerSet .. => ({} : Spec)
  | .qgrant .. => ({} : Spec)
  | .migrateOut .. => ({} : Spec)
  | .migrateIn .. => ({} : Spec)
  | .attest .. => ({} : Spec)
  | .fwStage .. => ({} : Spec)
  | .pwrCtlWrite .. => ({} : Spec)
  | .diePark .. => ({} : Spec)
  | .diePowerDown .. => ({} : Spec)
  | .dieUnpark .. => ({} : Spec)
  | .unparkComplete .. => ({} : Spec)
  | .partCfgWrite .. => ({} : Spec)
  | .rruCfgWrite .. => ({} : Spec)
  | .portConfigWrite .. => ({} : Spec)
  | .registerWrite .. => ({} : Spec)
  | .eclrWrite .. => ({} : Spec)
  | .pageRequestAnswer .. => ({} : Spec)
  | .rqconsWrite .. => ({} : Spec)
  | .givenWrite .. => ({} : Spec)
  | .dlconsWrite .. => ({} : Spec)
  | .dlctlWrite .. => ({} : Spec)
  | .tlbgenWrite .. => ({} : Spec)
  | .dirtyLogFull .. => ({} : Spec)
  | .pstateTransitionDone .. => ({} : Spec)
  | .linkRetrain .. => ({} : Spec)
  | .linkFatal .. => ({} : Spec)
  | .portLinkUp .. => ({} : Spec)
  | .unitPlacement .. => ({} : Spec)
  | .gangPlacement .. => ({} : Spec)
  | .continuationRelease .. => ({} : Spec)
  | .bdirArrive .. => ({} : Spec)
  | .bdirExit .. => ({} : Spec)
  | .generationNotice .. => ({} : Spec)
  | .slotNeeded => ({} : Spec)
  | .saveComplete .. => ({} : Spec)
  | .restoreComplete .. => ({} : Spec)
  | .preemptionRequest .. => ({} : Spec)
  | .drainExpiry .. => ({} : Spec)
  | .armingEnd .. => ({} : Spec)
  | .armedLineWrite .. => ({} : Spec)
  | .quantExpiry .. => ({} : Spec)
  | .watchedTimeout .. => ({} : Spec)
  | .waitaTimeout .. => ({} : Spec)
  | .loadComplete .. => ({} : Spec)
  | .idivComplete .. => ({} : Spec)
  | .deferredTrap .. => ({} : Spec)
  | .pageWalkComplete .. => ({} : Spec)
  | .copyComplete .. => ({} : Spec)
  | .copyFail .. => ({} : Spec)
  | .publCommit .. => ({} : Spec)
  | .unLineExpiry .. => ({} : Spec)
  | .firingRelease .. => ({} : Spec)
  | .feederMove .. => ({} : Spec)
  | .instanceFail .. => ({} : Spec)
  | .lkaRetire .. => ({} : Spec)
  | .tableBuildComplete .. => ({} : Spec)
  | .debugResume .. => ({} : Spec)
  | .bra _ => { lane := true, grp := true }
  | .brx _ => { lane := true, grp := true, la := kVG, ga := kGp, ra := .pair }
  | .call _ => { lane := true, grp := true }
  | .ret _ => { lane := true, grp := true }
  | .exit_ _ => { lane := true, grp := true }
  | .ifb _ => { lane := true, la := kP }
  | .elsb _ => { lane := true }
  | .join _ => { lane := true }
  | .loop _ => { lane := true }
  | .brkl _ => { lane := true, la := kP }
  | .contl _ => { lane := true, la := kP }
  | .lend _ => { lane := true, la := kP }
  | .nop _ => { lane := true, grp := true }
  | .yld _ => { lane := true, grp := true }
  | .bkpt _ => { lane := true, grp := true }
  | .trap _ => { lane := true, grp := true }
  | .iadd _ => { lane := true, grp := true, ld := kDL, la := kSL, lb := kSL, gd := kDG, ga := kSG, gb := kSG, rd := .ty1, ra := .ty1, rb := .ty1, ty := .int, md := .sat }
  | .isub _ => { lane := true, grp := true, ld := kDL, la := kSL, lb := kSL, gd := kDG, ga := kSG, gb := kSG, rd := .ty1, ra := .ty1, rb := .ty1, ty := .int, md := .sat }
  | .iadc _ => { lane := true, grp := true, ld := kDL, la := kSL, lb := kSL, lc := kP, gd := kDG, ga := kSG, gb := kSG, gc := kQ }
  | .isbb _ => { lane := true, grp := true, ld := kDL, la := kSL, lb := kSL, lc := kP, gd := kDG, ga := kSG, gb := kSG, gc := kQ }
  | .imul _ => { lane := true, grp := true, ld := kDL, la := kSL, lb := kSL, gd := kDG, ga := kSG, gb := kSG, rd := .ty1, ra := .ty1, rb := .ty1, ty := .int, md := .sat }
  | .imulh _ => { lane := true, grp := true, ld := kDL, la := kSL, lb := kSL, gd := kDG, ga := kSG, gb := kSG, rd := .ty1, ra := .ty1, rb := .ty1, ty := .int }
  | .imad _ => { lane := true, grp := true, ld := kDL, la := kSL, lb := kSL, lc := kSL, gd := kDG, ga := kSG, gb := kSG, gc := kSG, rd := .ty1, ra := .ty1, rb := .ty1, rc := .ty1, ty := .int, md := .sat }
  | .idiv _ => { lane := true, grp := true, ld := kDL, la := kSL, lb := kSL, gd := kDG, ga := kSG, gb := kSG, rd := .ty1, ra := .ty1, rb := .ty1, ty := .int }
  | .irem _ => { lane := true, grp := true, ld := kDL, la := kSL, lb := kSL, gd := kDG, ga := kSG, gb := kSG, rd := .ty1, ra := .ty1, rb := .ty1, ty := .int }
  | .imin _ => { lane := true, grp := true, ld := kDL, la := kSL, lb := kSL, gd := kDG, ga := kSG, gb := kSG, rd := .ty1, ra := .ty1, rb := .ty1, ty := .int }
  | .imax _ => { lane := true, grp := true, ld := kDL, la := kSL, lb := kSL, gd := kDG, ga := kSG, gb := kSG, rd := .ty1, ra := .ty1, rb := .ty1, ty := .int }
  | .iabs _ => { lane := true, grp := true, ld := kDL, la := kSL, gd := kDG, ga := kSG, rd := .ty1, ra := .ty1, ty := .int, md := .sat }
  | .ineg _ => { lane := true, grp := true, ld := kDL, la := kSL, gd := kDG, ga := kSG, rd := .ty1, ra := .ty1, ty := .int, md := .sat }
  | .and_ _ => { lane := true, grp := true, ld := kDL, la := kSL, lb := kSL, gd := kDG, ga := kSG, gb := kSG }
  | .or_ _ => { lane := true, grp := true, ld := kDL, la := kSL, lb := kSL, gd := kDG, ga := kSG, gb := kSG }
  | .xor_ _ => { lane := true, grp := true, ld := kDL, la := kSL, lb := kSL, gd := kDG, ga := kSG, gb := kSG }
  | .not_ _ => { lane := true, grp := true, ld := kDL, la := kSL, gd := kDG, ga := kSG }
  | .andn _ => { lane := true, grp := true, ld := kDL, la := kSL, lb := kSL, gd := kDG, ga := kSG, gb := kSG }
  | .shl _ => { lane := true, grp := true, ld := kDL, la := kSL, lb := kSL, gd := kDG, ga := kSG, gb := kSG }
  | .shr _ => { lane := true, grp := true, ld := kDL, la := kSL, lb := kSL, gd := kDG, ga := kSG, gb := kSG }
  | .sar _ => { lane := true, grp := true, ld := kDL, la := kSL, lb := kSL, gd := kDG, ga := kSG, gb := kSG }
  | .rotl _ => { lane := true, grp := true, ld := kDL, la := kSL, lb := kSL, gd := kDG, ga := kSG, gb := kSG }
  | .bfx _ => { lane := true, grp := true, ld := kDL, la := kSL, lb := kSL, gd := kDG, ga := kSG, gb := kSG, ty := .bfx }
  | .bfi _ => { lane := true, grp := true, ld := kDL, la := kSL, lb := kSL, lc := kSL, gd := kDG, ga := kSG, gb := kSG, gc := kSG }
  | .popc _ => { lane := true, grp := true, ld := kDL, la := kSL, gd := kDG, ga := kSG }
  | .clz _ => { lane := true, grp := true, ld := kDL, la := kSL, gd := kDG, ga := kSG }
  | .ctz _ => { lane := true, grp := true, ld := kDL, la := kSL, gd := kDG, ga := kSG }
  | .brev _ => { lane := true, grp := true, ld := kDL, la := kSL, gd := kDG, ga := kSG }
  | .sel _ => { lane := true, grp := true, ld := kDL, la := kSL, lb := kSL, lc := kP, gd := kDG, ga := kSG, gb := kSG, gc := kQ }
  | .mov _ => { lane := true, grp := true, ld := kDL, la := kSL, gd := kDG, ga := kSG }
  | .movi _ => { lane := true, grp := true, ld := kDL, la := kIZO, gd := kDG, ga := kIZO, rd := .pair }
  | .movh _ => { lane := true, grp := true, ld := kDL, la := kIZO, gd := kDG, ga := kIZO, rd := .pair }
  | .lea _ => { lane := true, grp := true, ld := kDL, la := kSL, lb := kSL, lc := kIZ, gd := kDG, ga := kSG, gb := kSG, gc := kIZ }
  | .shape _ => { lane := true, ld := kDL, la := kV }
  | .icmp _ _ => { lane := true, grp := true, ld := kPn, la := kSL, lb := kSL, gd := kQn, ga := kSG, gb := kSG, ra := .ty1, rb := .ty1, ty := .int }
  | .pand _ => { lane := true, grp := true, ld := kPn, la := kPQZO, lb := kPQZO, gd := kQn, ga := kQZO, gb := kQZO }
  | .por _ => { lane := true, grp := true, ld := kPn, la := kPQZO, lb := kPQZO, gd := kQn, ga := kQZO, gb := kQZO }
  | .pxor _ => { lane := true, grp := true, ld := kPn, la := kPQZO, lb := kPQZO, gd := kQn, ga := kQZO, gb := kQZO }
  | .pnot _ => { lane := true, grp := true, ld := kPn, la := kPQZO, gd := kQn, ga := kQZO }
  | .pmov _ => { lane := true, grp := true, ld := kPmD, la := kPmS, gd := kPmDG, ga := kPmSG }
  | .qswz _ => { lane := true, ld := kDL, la := kSL, lb := kIZO }
  | .qbc _ => { lane := true, ld := kDL, la := kSL, lb := kIZO }
  | .qred _ _ => { lane := true, ld := kDL, la := kSL, ty := .red, md := .red }
  | .shfl _ _ => { lane := true, ld := kDL, la := kSL, lb := kSL }
  | .ball _ => { lane := true, ld := kDL, la := kPQZO }
  | .match_ _ => { lane := true, ld := kDL, la := kV }
  | .vote _ _ => { lane := true, ld := kPn, la := kPQZO }
  | .redw _ _ => { lane := true, ld := kDL, la := kSL, ty := .red, md := .red }
  | .scanw _ _ => { lane := true, ld := kDL, la := kSL, ty := .red, md := .red }
  | .exmr _ => { grp := true, gd := kDG }
  | .exmw _ => { grp := true, ga := kSG }
  | .hlpr _ => { grp := true, gd := kDG }
  | .sreg _ => { lane := true, grp := true, ld := kDL, gd := kDG, rd := .sreg, md := .sreg }
  | .sregw _ => { grp := true, ga := kSG, md := .sregw }
  | .fadd _ => { lane := true, ld := kDF, la := kSF, lb := kSF, md := .round }
  | .fsub _ => { lane := true, ld := kDF, la := kSF, lb := kSF, md := .round }
  | .fmul _ => { lane := true, ld := kDF, la := kSF, lb := kSF, md := .round }
  | .ffma _ => { lane := true, ld := kDF, la := kSF, lb := kSF, lc := kSF, md := .round }
  | .fmin _ => { lane := true, ld := kDF, la := kSF, lb := kSF }
  | .fmax _ => { lane := true, ld := kDF, la := kSF, lb := kSF }
  | .fcls _ => { lane := true, ld := kDF, la := kSF }
  | .frnd _ => { lane := true, ld := kDF, la := kSF, md := .round }
  | .fscl _ => { lane := true, ld := kDF, la := kSF, lb := kSF, md := .round }
  | .fcmp _ _ => { lane := true, ld := kPn, la := kSF, lb := kSF }
  | .frcp _ => { lane := true, ld := kDF, la := kSF, md := .round }
  | .frsq _ => { lane := true, ld := kDF, la := kSF, md := .round }
  | .fex2 _ => { lane := true, ld := kDF, la := kSF, md := .round }
  | .flg2 _ => { lane := true, ld := kDF, la := kSF, md := .round }
  | .fsin _ => { lane := true, ld := kDF, la := kSF, md := .round }
  | .fcos _ => { lane := true, ld := kDF, la := kSF, md := .round }
  | .fsqrt _ => { lane := true, ld := kDF, la := kSF, md := .round }
  | .fdiv _ => { lane := true, ld := kDF, la := kSF, lb := kSF, md := .round }
  | .badd2 _ => { lane := true, ld := kDF, la := kSF, lb := kSF, md := .round }
  | .bmul2 _ => { lane := true, ld := kDF, la := kSF, lb := kSF, md := .round }
  | .bfma2 _ => { lane := true, ld := kDF, la := kSF, lb := kSF, lc := kSF, md := .round }
  | .hadd2 _ => { lane := true, ld := kDF, la := kSF, lb := kSF, md := .round }
  | .hmul2 _ => { lane := true, ld := kDF, la := kSF, lb := kSF, md := .round }
  | .hfma2 _ => { lane := true, ld := kDF, la := kSF, lb := kSF, lc := kSF, md := .round }
  | .cvt _ => { lane := true, ld := kDF, la := kSF, rd := .ty1, ra := .ty2, ty := .cvt, md := .round }
  | .tenc _ => { lane := true, ld := kDF, la := kVH, lb := kSF, ra := .run4, ty := .tenc }
  | .tdec _ => { lane := true, ld := kDF, la := kVH, lb := kIZ, ty := .tdec }
  | .gpack _ => { lane := true, ld := kDF, la := kVH, ra := .run4, ty := .gpack, md := .gpack }
  | .gunpk _ => { lane := true, ld := kDF, la := kVH, rd := .run4, ty := .gunpk }
  | .gscl _ => { lane := true, ld := kDF, la := kVH, lb := kSF, ty := .gscl }
  | .ld _ => { lane := true, ld := kDL, la := kOff, rd := .wid }
  | .st _ => { lane := true, la := kOff, lb := kDat, rb := .wid }
  | .atom _ => { lane := true, ld := kDL, la := kOff, lb := kDat, lc := kDatN, rd := .wid, rb := .wid, rc := .wid }
  | .pft _ => { lane := true, la := kOff }
  | .lds _ => { lane := true, ld := kDL, la := kOff, rd := .wid }
  | .sts _ => { lane := true, la := kOff, lb := kDat, rb := .wid }
  | .atoms _ => { lane := true, ld := kDL, la := kOff, lb := kDat, lc := kDatN, rd := .wid, rb := .wid, rc := .wid }
  | .ldc _ => { lane := true, ld := kDL, la := kOff, rd := .wid }
  | .stc _ => { lane := true, la := kOff, lb := kDat, rb := .wid }
  | .atomc _ => { lane := true, ld := kDL, la := kOff, lb := kDat, lc := kDatN, rd := .wid, rb := .wid, rc := .wid }
  | .bred _ => { lane := true, la := kOff, lb := kDat, rb := .wid }
  | .bupd _ => { lane := true, la := kOff, lb := kDat, lc := kDat, rb := .wid, rc := .wid }
  | .xlb _ => { grp := true, ga := kGp, ra := .pair }
  | .cctl _ => { grp := true, ga := kGpN }
  | .fence _ => { lane := true, grp := true }
  | .ifence _ => { lane := true, grp := true }
  | .iflush _ => { grp := true, ga := kGp, gb := kGp }
  | .watch _ => { lane := true, la := kOff }
  | .unwch _ => { lane := true, grp := true }
  | .waita _ => { lane := true, ld := kPn }
  | .bara _ => { lane := true, grp := true }
  | .barw _ => { lane := true, grp := true }
  | .baraw _ => { lane := true, grp := true }
  | .barq _ => { grp := true, gd := kDGh, rd := .pair }
  | .sigadd _ => { grp := true, ga := kGp, gb := kGp, ra := .pair, rb := .pair }
  | .sigwt _ => { grp := true, ga := kGp, ra := .pair }
  | .tbld _ => { lane := true, la := kV, lb := kFw }
  | .tblds _ => { lane := true, la := kSc, lb := kFw }
  | .tinv _ => { lane := true, grp := true }
  | .tspill _ => { lane := true, grp := true, la := kSc, ga := kScG }
  | .tfill _ => { lane := true, grp := true }
  | .tstat _ => { grp := true, gd := kDG }
  | .plnset _ => { lane := true, grp := true, la := kSc, ga := kScG }
  | .lka _ => { lane := true, la := kSc, lb := kFw }
  | .ard _ => { lane := true, ld := kDL, rd := .run16 }
  | .awr _ => { lane := true, la := kV, ra := .run16 }
  | .azro _ => { lane := true, grp := true }
  | .arel _ => { lane := true, grp := true }
  | .cpy _ => { grp := true, gd := kDG, ga := kG, ra := .run8 }
  | .cpyg _ => { lane := true, ld := kDL, la := kV, lb := kG, rb := .run8 }
  | .cpys _ => { lane := true, ld := kDL, la := kV, lb := kG, rb := .run8 }
  | .publ _ => { lane := true, grp := true, la := kSc, ga := kScG }
  | .cstat _ => { grp := true, gd := kDG, ga := kScG }
  | .coll _ => { grp := true, gd := kDG, ga := kG, gc := kScG, ra := .run8 }
  | .emit _ => { lane := true, la := kV, lb := kVG, ra := .run12, rb := .pair }
  | .enq _ => { grp := true, ga := kG, gb := kScG, ra := .run16e }
  | .rtake _ => { grp := true, gd := kGn, gb := kScG, rd := .run3 }
  | .rsplit _ => { grp := true, ga := kGp, gb := kGp, ra := .pair, rb := .pair }
  | .rpop _ => { grp := true, gd := kDG, gb := kScG }
  | .rpush _ => { grp := true, gd := kDG, gb := kScG }
  | .rdone _ => { lane := true, grp := true }
  | .tret _ => { lane := true, grp := true }
  | .mapp _ => { grp := true, gd := kDG, ga := kGp, ra := .pair }
  | .tlbi _ => { grp := true, ga := kGpO, ra := .pair }
  | .svc _ => { lane := true, grp := true, la := kSc, lb := kGpN, ga := kScG, gb := kGpN, rb := .pair }
  | .csrr _ => { grp := true, gd := kDG, rd := .csr }
  | .csrw _ => { grp := true, ga := kScG, ra := .csr }
  | .portLinkDown .. => ({} : Spec)
  | .linkRetrainComplete .. => ({} : Spec)
  | .ardComplete .. => ({} : Spec)
  | .accordOpRetire .. => ({} : Spec)
  | .collectiveComplete .. => ({} : Spec)
  | .waitTableReread .. => ({} : Spec)
  | .remoteSignalOperation .. => ({} : Spec)
  | .signalNotification .. => ({} : Spec)
  | .migrationRelay .. => ({} : Spec)
  | .scevarRestart .. => ({} : Spec)
  | .checkpoint .. => ({} : Spec)
  | .tenantSwitch .. => ({} : Spec)
  | .powerSample .. => ({} : Spec)
  | .thermalLimit .. => ({} : Spec)
  | .thermalShutdown .. => ({} : Spec)
  | .flitCrcFail .. => ({} : Spec)
  | .patrolScrub .. => ({} : Spec)
  | .memoryUe .. => ({} : Spec)
  | .moduleReset .. => ({} : Spec)
  | .remoteWaitRegistration .. => ({} : Spec)

/-- The lower half an instruction carries. An event has none. -/
def formOf : Instr → Form
  | .qcmdCreate .. => .event
  | .qcmdDestroy .. => .event
  | .qcmdResume .. => .event
  | .sigopAdd .. => .event
  | .sigopSet .. => .event
  | .rmaWrite .. => .event
  | .rmaRead .. => .event
  | .unsupportedOperation .. => .event
  | .tailPointerWrite .. => .event
  | .controlPagePartialWrite .. => .event
  | .packetRead .. => .event
  | .queueFetchFault .. => .event
  | .launch .. => .event
  | .waitsig .. => .event
  | .copyPacket .. => .event
  | .bind .. => .event
  | .run .. => .event
  | .patch .. => .event
  | .unbind .. => .event
  | .note .. => .event
  | .packetCompletion .. => .event
  | .commandLinkMessage .. => .event
  | .tenantCreate .. => .event
  | .tenantDestroy .. => .event
  | .ctxSet .. => .event
  | .keySet .. => .event
  | .peerSet .. => .event
  | .qgrant .. => .event
  | .migrateOut .. => .event
  | .migrateIn .. => .event
  | .attest .. => .event
  | .fwStage .. => .event
  | .pwrCtlWrite .. => .event
  | .diePark .. => .event
  | .diePowerDown .. => .event
  | .dieUnpark .. => .event
  | .unparkComplete .. => .event
  | .partCfgWrite .. => .event
  | .rruCfgWrite .. => .event
  | .portConfigWrite .. => .event
  | .registerWrite .. => .event
  | .eclrWrite .. => .event
  | .pageRequestAnswer .. => .event
  | .rqconsWrite .. => .event
  | .givenWrite .. => .event
  | .dlconsWrite .. => .event
  | .dlctlWrite .. => .event
  | .tlbgenWrite .. => .event
  | .dirtyLogFull .. => .event
  | .pstateTransitionDone .. => .event
  | .linkRetrain .. => .event
  | .linkFatal .. => .event
  | .portLinkUp .. => .event
  | .unitPlacement .. => .event
  | .gangPlacement .. => .event
  | .continuationRelease .. => .event
  | .bdirArrive .. => .event
  | .bdirExit .. => .event
  | .generationNotice .. => .event
  | .slotNeeded => .event
  | .saveComplete .. => .event
  | .restoreComplete .. => .event
  | .preemptionRequest .. => .event
  | .drainExpiry .. => .event
  | .armingEnd .. => .event
  | .armedLineWrite .. => .event
  | .quantExpiry .. => .event
  | .watchedTimeout .. => .event
  | .waitaTimeout .. => .event
  | .loadComplete .. => .event
  | .idivComplete .. => .event
  | .deferredTrap .. => .event
  | .pageWalkComplete .. => .event
  | .copyComplete .. => .event
  | .copyFail .. => .event
  | .publCommit .. => .event
  | .unLineExpiry .. => .event
  | .firingRelease .. => .event
  | .feederMove .. => .event
  | .instanceFail .. => .event
  | .lkaRetire .. => .event
  | .tableBuildComplete .. => .event
  | .debugResume .. => .event
  | .bra f => .b f
  | .brx f => .b f
  | .call f => .b f
  | .ret f => .b f
  | .exit_ f => .b f
  | .ifb f => .b f
  | .elsb f => .b f
  | .join f => .b f
  | .loop f => .b f
  | .brkl f => .b f
  | .contl f => .b f
  | .lend f => .b f
  | .nop f => .b f
  | .yld f => .b f
  | .bkpt f => .b f
  | .trap f => .b f
  | .iadd f => .v f
  | .isub f => .v f
  | .iadc f => .v f
  | .isbb f => .v f
  | .imul f => .v f
  | .imulh f => .v f
  | .imad f => .v f
  | .idiv f => .v f
  | .irem f => .v f
  | .imin f => .v f
  | .imax f => .v f
  | .iabs f => .v f
  | .ineg f => .v f
  | .and_ f => .v f
  | .or_ f => .v f
  | .xor_ f => .v f
  | .not_ f => .v f
  | .andn f => .v f
  | .shl f => .v f
  | .shr f => .v f
  | .sar f => .v f
  | .rotl f => .v f
  | .bfx f => .v f
  | .bfi f => .v f
  | .popc f => .v f
  | .clz f => .v f
  | .ctz f => .v f
  | .brev f => .v f
  | .sel f => .v f
  | .mov f => .v f
  | .movi f => .v f
  | .movh f => .v f
  | .lea f => .v f
  | .shape f => .v f
  | .icmp _ f => .v f
  | .pand f => .v f
  | .por f => .v f
  | .pxor f => .v f
  | .pnot f => .v f
  | .pmov f => .v f
  | .qswz f => .v f
  | .qbc f => .v f
  | .qred _ f => .v f
  | .shfl _ f => .v f
  | .ball f => .v f
  | .match_ f => .v f
  | .vote _ f => .v f
  | .redw _ f => .v f
  | .scanw _ f => .v f
  | .exmr f => .v f
  | .exmw f => .v f
  | .hlpr f => .v f
  | .sreg f => .v f
  | .sregw f => .v f
  | .fadd f => .v f
  | .fsub f => .v f
  | .fmul f => .v f
  | .ffma f => .v f
  | .fmin f => .v f
  | .fmax f => .v f
  | .fcls f => .v f
  | .frnd f => .v f
  | .fscl f => .v f
  | .fcmp _ f => .v f
  | .frcp f => .v f
  | .frsq f => .v f
  | .fex2 f => .v f
  | .flg2 f => .v f
  | .fsin f => .v f
  | .fcos f => .v f
  | .fsqrt f => .v f
  | .fdiv f => .v f
  | .badd2 f => .v f
  | .bmul2 f => .v f
  | .bfma2 f => .v f
  | .hadd2 f => .v f
  | .hmul2 f => .v f
  | .hfma2 f => .v f
  | .cvt f => .v f
  | .tenc f => .v f
  | .tdec f => .v f
  | .gpack f => .v f
  | .gunpk f => .v f
  | .gscl f => .v f
  | .ld f => .m f
  | .st f => .m f
  | .atom f => .m f
  | .pft f => .m f
  | .lds f => .m f
  | .sts f => .m f
  | .atoms f => .m f
  | .ldc f => .m f
  | .stc f => .m f
  | .atomc f => .m f
  | .bred f => .m f
  | .bupd f => .m f
  | .xlb f => .m f
  | .cctl f => .m f
  | .fence f => .m f
  | .ifence f => .m f
  | .iflush f => .m f
  | .watch f => .m f
  | .unwch f => .m f
  | .waita f => .m f
  | .bara f => .m f
  | .barw f => .m f
  | .baraw f => .m f
  | .barq f => .m f
  | .sigadd f => .m f
  | .sigwt f => .m f
  | .tbld f => .e f
  | .tblds f => .e f
  | .tinv f => .e f
  | .tspill f => .e f
  | .tfill f => .e f
  | .tstat f => .e f
  | .plnset f => .e f
  | .lka f => .e f
  | .ard f => .e f
  | .awr f => .e f
  | .azro f => .e f
  | .arel f => .e f
  | .cpy f => .e f
  | .cpyg f => .e f
  | .cpys f => .e f
  | .publ f => .e f
  | .cstat f => .e f
  | .coll f => .e f
  | .emit f => .e f
  | .enq f => .e f
  | .rtake f => .e f
  | .rsplit f => .e f
  | .rpop f => .e f
  | .rpush f => .e f
  | .rdone f => .e f
  | .tret f => .s f
  | .mapp f => .s f
  | .tlbi f => .s f
  | .svc f => .s f
  | .csrr f => .s f
  | .csrw f => .s f
  | .portLinkDown .. => .event
  | .linkRetrainComplete .. => .event
  | .ardComplete .. => .event
  | .accordOpRetire .. => .event
  | .collectiveComplete .. => .event
  | .waitTableReread .. => .event
  | .remoteSignalOperation .. => .event
  | .signalNotification .. => .event
  | .migrationRelay .. => .event
  | .scevarRestart .. => .event
  | .checkpoint .. => .event
  | .tenantSwitch .. => .event
  | .powerSample .. => .event
  | .thermalLimit .. => .event
  | .thermalShutdown .. => .event
  | .flitCrcFail .. => .event
  | .patrolScrub .. => .event
  | .memoryUe .. => .event
  | .moduleReset .. => .event
  | .remoteWaitRegistration .. => .event

/-- The even major and the minor of each instruction (R278, R279, R282). -/
def codeOf : Instr → Nat × Nat
  | .qcmdCreate .. => (0, 0)
  | .qcmdDestroy .. => (0, 0)
  | .qcmdResume .. => (0, 0)
  | .sigopAdd .. => (0, 0)
  | .sigopSet .. => (0, 0)
  | .rmaWrite .. => (0, 0)
  | .rmaRead .. => (0, 0)
  | .unsupportedOperation .. => (0, 0)
  | .tailPointerWrite .. => (0, 0)
  | .controlPagePartialWrite .. => (0, 0)
  | .packetRead .. => (0, 0)
  | .queueFetchFault .. => (0, 0)
  | .launch .. => (0, 0)
  | .waitsig .. => (0, 0)
  | .copyPacket .. => (0, 0)
  | .bind .. => (0, 0)
  | .run .. => (0, 0)
  | .patch .. => (0, 0)
  | .unbind .. => (0, 0)
  | .note .. => (0, 0)
  | .packetCompletion .. => (0, 0)
  | .commandLinkMessage .. => (0, 0)
  | .tenantCreate .. => (0, 0)
  | .tenantDestroy .. => (0, 0)
  | .ctxSet .. => (0, 0)
  | .keySet .. => (0, 0)
  | .peerSet .. => (0, 0)
  | .qgrant .. => (0, 0)
  | .migrateOut .. => (0, 0)
  | .migrateIn .. => (0, 0)
  | .attest .. => (0, 0)
  | .fwStage .. => (0, 0)
  | .pwrCtlWrite .. => (0, 0)
  | .diePark .. => (0, 0)
  | .diePowerDown .. => (0, 0)
  | .dieUnpark .. => (0, 0)
  | .unparkComplete .. => (0, 0)
  | .partCfgWrite .. => (0, 0)
  | .rruCfgWrite .. => (0, 0)
  | .portConfigWrite .. => (0, 0)
  | .registerWrite .. => (0, 0)
  | .eclrWrite .. => (0, 0)
  | .pageRequestAnswer .. => (0, 0)
  | .rqconsWrite .. => (0, 0)
  | .givenWrite .. => (0, 0)
  | .dlconsWrite .. => (0, 0)
  | .dlctlWrite .. => (0, 0)
  | .tlbgenWrite .. => (0, 0)
  | .dirtyLogFull .. => (0, 0)
  | .pstateTransitionDone .. => (0, 0)
  | .linkRetrain .. => (0, 0)
  | .linkFatal .. => (0, 0)
  | .portLinkUp .. => (0, 0)
  | .unitPlacement .. => (0, 0)
  | .gangPlacement .. => (0, 0)
  | .continuationRelease .. => (0, 0)
  | .bdirArrive .. => (0, 0)
  | .bdirExit .. => (0, 0)
  | .generationNotice .. => (0, 0)
  | .slotNeeded => (0, 0)
  | .saveComplete .. => (0, 0)
  | .restoreComplete .. => (0, 0)
  | .preemptionRequest .. => (0, 0)
  | .drainExpiry .. => (0, 0)
  | .armingEnd .. => (0, 0)
  | .armedLineWrite .. => (0, 0)
  | .quantExpiry .. => (0, 0)
  | .watchedTimeout .. => (0, 0)
  | .waitaTimeout .. => (0, 0)
  | .loadComplete .. => (0, 0)
  | .idivComplete .. => (0, 0)
  | .deferredTrap .. => (0, 0)
  | .pageWalkComplete .. => (0, 0)
  | .copyComplete .. => (0, 0)
  | .copyFail .. => (0, 0)
  | .publCommit .. => (0, 0)
  | .unLineExpiry .. => (0, 0)
  | .firingRelease .. => (0, 0)
  | .feederMove .. => (0, 0)
  | .instanceFail .. => (0, 0)
  | .lkaRetire .. => (0, 0)
  | .tableBuildComplete .. => (0, 0)
  | .debugResume .. => (0, 0)
  | .bra _ => (0x00, 0x00)
  | .brx _ => (0x00, 0x01)
  | .call _ => (0x00, 0x02)
  | .ret _ => (0x00, 0x03)
  | .exit_ _ => (0x00, 0x04)
  | .ifb _ => (0x02, 0x00)
  | .elsb _ => (0x02, 0x01)
  | .join _ => (0x02, 0x02)
  | .loop _ => (0x02, 0x03)
  | .brkl _ => (0x02, 0x04)
  | .contl _ => (0x02, 0x05)
  | .lend _ => (0x02, 0x06)
  | .nop _ => (0x04, 0x00)
  | .yld _ => (0x04, 0x01)
  | .bkpt _ => (0x04, 0x02)
  | .trap _ => (0x04, 0x03)
  | .iadd _ => (0x20, 0x00)
  | .isub _ => (0x20, 0x01)
  | .iadc _ => (0x20, 0x02)
  | .isbb _ => (0x20, 0x03)
  | .imul _ => (0x20, 0x04)
  | .imulh _ => (0x20, 0x05)
  | .imad _ => (0x20, 0x06)
  | .idiv _ => (0x20, 0x07)
  | .irem _ => (0x20, 0x08)
  | .imin _ => (0x20, 0x09)
  | .imax _ => (0x20, 0x0A)
  | .iabs _ => (0x20, 0x0B)
  | .ineg _ => (0x20, 0x0C)
  | .and_ _ => (0x22, 0x00)
  | .or_ _ => (0x22, 0x01)
  | .xor_ _ => (0x22, 0x02)
  | .not_ _ => (0x22, 0x03)
  | .andn _ => (0x22, 0x04)
  | .shl _ => (0x22, 0x05)
  | .shr _ => (0x22, 0x06)
  | .sar _ => (0x22, 0x07)
  | .rotl _ => (0x22, 0x08)
  | .bfx _ => (0x22, 0x09)
  | .bfi _ => (0x22, 0x0A)
  | .popc _ => (0x22, 0x0B)
  | .clz _ => (0x22, 0x0C)
  | .ctz _ => (0x22, 0x0D)
  | .brev _ => (0x22, 0x0E)
  | .sel _ => (0x24, 0x00)
  | .mov _ => (0x24, 0x01)
  | .movi _ => (0x24, 0x02)
  | .movh _ => (0x24, 0x03)
  | .lea _ => (0x24, 0x04)
  | .shape _ => (0x24, 0x05)
  | .icmp s _ => (0x24, 0x10 + s.pos)
  | .pand _ => (0x26, 0x00)
  | .por _ => (0x26, 0x01)
  | .pxor _ => (0x26, 0x02)
  | .pnot _ => (0x26, 0x03)
  | .pmov _ => (0x26, 0x04)
  | .qswz _ => (0x60, 0x00)
  | .qbc _ => (0x60, 0x01)
  | .qred s _ => (0x60, 0x08 + s.pos)
  | .shfl s _ => (0x62, 0x00 + s.pos)
  | .ball _ => (0x62, 0x04)
  | .match_ _ => (0x62, 0x05)
  | .vote s _ => (0x62, 0x06 + s.pos)
  | .redw s _ => (0x62, 0x10 + s.pos)
  | .scanw s _ => (0x62, 0x18 + s.pos)
  | .exmr _ => (0x64, 0x00)
  | .exmw _ => (0x64, 0x01)
  | .hlpr _ => (0x64, 0x02)
  | .sreg _ => (0x66, 0x00)
  | .sregw _ => (0x66, 0x01)
  | .fadd _ => (0x40, 0x00)
  | .fsub _ => (0x40, 0x01)
  | .fmul _ => (0x40, 0x02)
  | .ffma _ => (0x40, 0x03)
  | .fmin _ => (0x40, 0x04)
  | .fmax _ => (0x40, 0x05)
  | .fcls _ => (0x40, 0x06)
  | .frnd _ => (0x40, 0x07)
  | .fscl _ => (0x40, 0x08)
  | .fcmp s _ => (0x40, 0x10 + s.pos)
  | .frcp _ => (0x42, 0x00)
  | .frsq _ => (0x42, 0x01)
  | .fex2 _ => (0x42, 0x02)
  | .flg2 _ => (0x42, 0x03)
  | .fsin _ => (0x42, 0x04)
  | .fcos _ => (0x42, 0x05)
  | .fsqrt _ => (0x42, 0x06)
  | .fdiv _ => (0x42, 0x07)
  | .badd2 _ => (0x44, 0x00)
  | .bmul2 _ => (0x44, 0x01)
  | .bfma2 _ => (0x44, 0x02)
  | .hadd2 _ => (0x44, 0x03)
  | .hmul2 _ => (0x44, 0x04)
  | .hfma2 _ => (0x44, 0x05)
  | .cvt _ => (0x46, 0x00)
  | .tenc _ => (0x46, 0x01)
  | .tdec _ => (0x46, 0x02)
  | .gpack _ => (0x48, 0x00)
  | .gunpk _ => (0x48, 0x01)
  | .gscl _ => (0x48, 0x02)
  | .ld _ => (0x80, 0x00)
  | .st _ => (0x80, 0x01)
  | .atom _ => (0x80, 0x02)
  | .pft _ => (0x80, 0x03)
  | .lds _ => (0x82, 0x00)
  | .sts _ => (0x82, 0x01)
  | .atoms _ => (0x82, 0x02)
  | .ldc _ => (0x84, 0x00)
  | .stc _ => (0x84, 0x01)
  | .atomc _ => (0x84, 0x02)
  | .bred _ => (0x84, 0x03)
  | .bupd _ => (0x84, 0x04)
  | .xlb _ => (0x86, 0x00)
  | .cctl _ => (0x86, 0x01)
  | .fence _ => (0xA0, 0x00)
  | .ifence _ => (0xA0, 0x01)
  | .iflush _ => (0xA0, 0x02)
  | .watch _ => (0xA2, 0x00)
  | .unwch _ => (0xA2, 0x01)
  | .waita _ => (0xA2, 0x02)
  | .bara _ => (0xA4, 0x00)
  | .barw _ => (0xA4, 0x01)
  | .baraw _ => (0xA4, 0x02)
  | .barq _ => (0xA4, 0x03)
  | .sigadd _ => (0xA6, 0x00)
  | .sigwt _ => (0xA6, 0x01)
  | .tbld _ => (0xC0, 0x00)
  | .tblds _ => (0xC0, 0x01)
  | .tinv _ => (0xC0, 0x02)
  | .tspill _ => (0xC0, 0x03)
  | .tfill _ => (0xC0, 0x04)
  | .tstat _ => (0xC0, 0x05)
  | .plnset _ => (0xC0, 0x06)
  | .lka _ => (0xC2, 0x00)
  | .ard _ => (0xC2, 0x01)
  | .awr _ => (0xC2, 0x02)
  | .azro _ => (0xC2, 0x03)
  | .arel _ => (0xC2, 0x04)
  | .cpy _ => (0xC4, 0x00)
  | .cpyg _ => (0xC4, 0x01)
  | .cpys _ => (0xC4, 0x02)
  | .publ _ => (0xC4, 0x03)
  | .cstat _ => (0xC4, 0x04)
  | .coll _ => (0xC4, 0x05)
  | .emit _ => (0xC6, 0x00)
  | .enq _ => (0xC6, 0x01)
  | .rtake _ => (0xC6, 0x02)
  | .rsplit _ => (0xC6, 0x03)
  | .rpop _ => (0xC8, 0x00)
  | .rpush _ => (0xC8, 0x01)
  | .rdone _ => (0xC8, 0x02)
  | .tret _ => (0xE0, 0x00)
  | .mapp _ => (0xE0, 0x01)
  | .tlbi _ => (0xE0, 0x02)
  | .svc _ => (0xE0, 0x03)
  | .csrr _ => (0xE0, 0x04)
  | .csrw _ => (0xE0, 0x05)
  | .portLinkDown .. => (0, 0)
  | .linkRetrainComplete .. => (0, 0)
  | .ardComplete .. => (0, 0)
  | .accordOpRetire .. => (0, 0)
  | .collectiveComplete .. => (0, 0)
  | .waitTableReread .. => (0, 0)
  | .remoteSignalOperation .. => (0, 0)
  | .signalNotification .. => (0, 0)
  | .migrationRelay .. => (0, 0)
  | .scevarRestart .. => (0, 0)
  | .checkpoint .. => (0, 0)
  | .tenantSwitch .. => (0, 0)
  | .powerSample .. => (0, 0)
  | .thermalLimit .. => (0, 0)
  | .thermalShutdown .. => (0, 0)
  | .flitCrcFail .. => (0, 0)
  | .patrolScrub .. => (0, 0)
  | .memoryUe .. => (0, 0)
  | .moduleReset .. => (0, 0)
  | .remoteWaitRegistration .. => (0, 0)

/-- One row of the opcode map: an even major, a minor, and the instruction its format's fields make. -/
structure OpRow where
  maj : Nat
  minor : Nat
  make : Maker

/-- Major 0x00 and its group partner (R278, R279). -/
def rows00 : List OpRow :=
  [⟨0x00, 0x00, .b .bra⟩,
   ⟨0x00, 0x01, .b .brx⟩,
   ⟨0x00, 0x02, .b .call⟩,
   ⟨0x00, 0x03, .b .ret⟩,
   ⟨0x00, 0x04, .b .exit_⟩]

/-- Major 0x02 and its group partner (R278, R279). -/
def rows02 : List OpRow :=
  [⟨0x02, 0x00, .b .ifb⟩,
   ⟨0x02, 0x01, .b .elsb⟩,
   ⟨0x02, 0x02, .b .join⟩,
   ⟨0x02, 0x03, .b .loop⟩,
   ⟨0x02, 0x04, .b .brkl⟩,
   ⟨0x02, 0x05, .b .contl⟩,
   ⟨0x02, 0x06, .b .lend⟩]

/-- Major 0x04 and its group partner (R278, R279). -/
def rows04 : List OpRow :=
  [⟨0x04, 0x00, .b .nop⟩,
   ⟨0x04, 0x01, .b .yld⟩,
   ⟨0x04, 0x02, .b .bkpt⟩,
   ⟨0x04, 0x03, .b .trap⟩]

/-- Major 0x20 and its group partner (R278, R279). -/
def rows20 : List OpRow :=
  [⟨0x20, 0x00, .v .iadd⟩,
   ⟨0x20, 0x01, .v .isub⟩,
   ⟨0x20, 0x02, .v .iadc⟩,
   ⟨0x20, 0x03, .v .isbb⟩,
   ⟨0x20, 0x04, .v .imul⟩,
   ⟨0x20, 0x05, .v .imulh⟩,
   ⟨0x20, 0x06, .v .imad⟩,
   ⟨0x20, 0x07, .v .idiv⟩,
   ⟨0x20, 0x08, .v .irem⟩,
   ⟨0x20, 0x09, .v .imin⟩,
   ⟨0x20, 0x0A, .v .imax⟩,
   ⟨0x20, 0x0B, .v .iabs⟩,
   ⟨0x20, 0x0C, .v .ineg⟩]

/-- Major 0x22 and its group partner (R278, R279). -/
def rows22 : List OpRow :=
  [⟨0x22, 0x00, .v .and_⟩,
   ⟨0x22, 0x01, .v .or_⟩,
   ⟨0x22, 0x02, .v .xor_⟩,
   ⟨0x22, 0x03, .v .not_⟩,
   ⟨0x22, 0x04, .v .andn⟩,
   ⟨0x22, 0x05, .v .shl⟩,
   ⟨0x22, 0x06, .v .shr⟩,
   ⟨0x22, 0x07, .v .sar⟩,
   ⟨0x22, 0x08, .v .rotl⟩,
   ⟨0x22, 0x09, .v .bfx⟩,
   ⟨0x22, 0x0A, .v .bfi⟩,
   ⟨0x22, 0x0B, .v .popc⟩,
   ⟨0x22, 0x0C, .v .clz⟩,
   ⟨0x22, 0x0D, .v .ctz⟩,
   ⟨0x22, 0x0E, .v .brev⟩]

/-- Major 0x24 and its group partner (R278, R279). -/
def rows24 : List OpRow :=
  [⟨0x24, 0x00, .v .sel⟩,
   ⟨0x24, 0x01, .v .mov⟩,
   ⟨0x24, 0x02, .v .movi⟩,
   ⟨0x24, 0x03, .v .movh⟩,
   ⟨0x24, 0x04, .v .lea⟩,
   ⟨0x24, 0x05, .v .shape⟩,
   ⟨0x24, 0x10, .v (.icmp .eq)⟩,
   ⟨0x24, 0x11, .v (.icmp .ne)⟩,
   ⟨0x24, 0x12, .v (.icmp .lt)⟩,
   ⟨0x24, 0x13, .v (.icmp .le)⟩,
   ⟨0x24, 0x14, .v (.icmp .gt)⟩,
   ⟨0x24, 0x15, .v (.icmp .ge)⟩]

/-- Major 0x26 and its group partner (R278, R279). -/
def rows26 : List OpRow :=
  [⟨0x26, 0x00, .v .pand⟩,
   ⟨0x26, 0x01, .v .por⟩,
   ⟨0x26, 0x02, .v .pxor⟩,
   ⟨0x26, 0x03, .v .pnot⟩,
   ⟨0x26, 0x04, .v .pmov⟩]

/-- Major 0x40 and its group partner (R278, R279). -/
def rows40 : List OpRow :=
  [⟨0x40, 0x00, .v .fadd⟩,
   ⟨0x40, 0x01, .v .fsub⟩,
   ⟨0x40, 0x02, .v .fmul⟩,
   ⟨0x40, 0x03, .v .ffma⟩,
   ⟨0x40, 0x04, .v .fmin⟩,
   ⟨0x40, 0x05, .v .fmax⟩,
   ⟨0x40, 0x06, .v .fcls⟩,
   ⟨0x40, 0x07, .v .frnd⟩,
   ⟨0x40, 0x08, .v .fscl⟩,
   ⟨0x40, 0x10, .v (.fcmp .eq)⟩,
   ⟨0x40, 0x11, .v (.fcmp .ne)⟩,
   ⟨0x40, 0x12, .v (.fcmp .lt)⟩,
   ⟨0x40, 0x13, .v (.fcmp .le)⟩,
   ⟨0x40, 0x14, .v (.fcmp .gt)⟩,
   ⟨0x40, 0x15, .v (.fcmp .ge)⟩,
   ⟨0x40, 0x16, .v (.fcmp .un)⟩,
   ⟨0x40, 0x17, .v (.fcmp .or)⟩]

/-- Major 0x42 and its group partner (R278, R279). -/
def rows42 : List OpRow :=
  [⟨0x42, 0x00, .v .frcp⟩,
   ⟨0x42, 0x01, .v .frsq⟩,
   ⟨0x42, 0x02, .v .fex2⟩,
   ⟨0x42, 0x03, .v .flg2⟩,
   ⟨0x42, 0x04, .v .fsin⟩,
   ⟨0x42, 0x05, .v .fcos⟩,
   ⟨0x42, 0x06, .v .fsqrt⟩,
   ⟨0x42, 0x07, .v .fdiv⟩]

/-- Major 0x44 and its group partner (R278, R279). -/
def rows44 : List OpRow :=
  [⟨0x44, 0x00, .v .badd2⟩,
   ⟨0x44, 0x01, .v .bmul2⟩,
   ⟨0x44, 0x02, .v .bfma2⟩,
   ⟨0x44, 0x03, .v .hadd2⟩,
   ⟨0x44, 0x04, .v .hmul2⟩,
   ⟨0x44, 0x05, .v .hfma2⟩]

/-- Major 0x46 and its group partner (R278, R279). -/
def rows46 : List OpRow :=
  [⟨0x46, 0x00, .v .cvt⟩,
   ⟨0x46, 0x01, .v .tenc⟩,
   ⟨0x46, 0x02, .v .tdec⟩]

/-- Major 0x48 and its group partner (R278, R279). -/
def rows48 : List OpRow :=
  [⟨0x48, 0x00, .v .gpack⟩,
   ⟨0x48, 0x01, .v .gunpk⟩,
   ⟨0x48, 0x02, .v .gscl⟩]

/-- Major 0x60 and its group partner (R278, R279). -/
def rows60 : List OpRow :=
  [⟨0x60, 0x00, .v .qswz⟩,
   ⟨0x60, 0x01, .v .qbc⟩,
   ⟨0x60, 0x08, .v (.qred .add)⟩,
   ⟨0x60, 0x09, .v (.qred .min)⟩,
   ⟨0x60, 0x0A, .v (.qred .max)⟩,
   ⟨0x60, 0x0B, .v (.qred .and)⟩,
   ⟨0x60, 0x0C, .v (.qred .or)⟩,
   ⟨0x60, 0x0D, .v (.qred .xor)⟩]

/-- Major 0x62 and its group partner (R278, R279). -/
def rows62 : List OpRow :=
  [⟨0x62, 0x00, .v (.shfl .idx)⟩,
   ⟨0x62, 0x01, .v (.shfl .up)⟩,
   ⟨0x62, 0x02, .v (.shfl .down)⟩,
   ⟨0x62, 0x03, .v (.shfl .xor)⟩,
   ⟨0x62, 0x04, .v .ball⟩,
   ⟨0x62, 0x05, .v .match_⟩,
   ⟨0x62, 0x06, .v (.vote .all)⟩,
   ⟨0x62, 0x07, .v (.vote .any)⟩,
   ⟨0x62, 0x08, .v (.vote .uni)⟩,
   ⟨0x62, 0x10, .v (.redw .add)⟩,
   ⟨0x62, 0x11, .v (.redw .min)⟩,
   ⟨0x62, 0x12, .v (.redw .max)⟩,
   ⟨0x62, 0x13, .v (.redw .and)⟩,
   ⟨0x62, 0x14, .v (.redw .or)⟩,
   ⟨0x62, 0x15, .v (.redw .xor)⟩,
   ⟨0x62, 0x18, .v (.scanw .add)⟩,
   ⟨0x62, 0x19, .v (.scanw .min)⟩,
   ⟨0x62, 0x1A, .v (.scanw .max)⟩,
   ⟨0x62, 0x1B, .v (.scanw .and)⟩,
   ⟨0x62, 0x1C, .v (.scanw .or)⟩,
   ⟨0x62, 0x1D, .v (.scanw .xor)⟩]

/-- Major 0x64 and its group partner (R278, R279). -/
def rows64 : List OpRow :=
  [⟨0x64, 0x00, .v .exmr⟩,
   ⟨0x64, 0x01, .v .exmw⟩,
   ⟨0x64, 0x02, .v .hlpr⟩]

/-- Major 0x66 and its group partner (R278, R279). -/
def rows66 : List OpRow :=
  [⟨0x66, 0x00, .v .sreg⟩,
   ⟨0x66, 0x01, .v .sregw⟩]

/-- Major 0x80 and its group partner (R278, R279). -/
def rows80 : List OpRow :=
  [⟨0x80, 0x00, .m .ld⟩,
   ⟨0x80, 0x01, .m .st⟩,
   ⟨0x80, 0x02, .m .atom⟩,
   ⟨0x80, 0x03, .m .pft⟩]

/-- Major 0x82 and its group partner (R278, R279). -/
def rows82 : List OpRow :=
  [⟨0x82, 0x00, .m .lds⟩,
   ⟨0x82, 0x01, .m .sts⟩,
   ⟨0x82, 0x02, .m .atoms⟩]

/-- Major 0x84 and its group partner (R278, R279). -/
def rows84 : List OpRow :=
  [⟨0x84, 0x00, .m .ldc⟩,
   ⟨0x84, 0x01, .m .stc⟩,
   ⟨0x84, 0x02, .m .atomc⟩,
   ⟨0x84, 0x03, .m .bred⟩,
   ⟨0x84, 0x04, .m .bupd⟩]

/-- Major 0x86 and its group partner (R278, R279). -/
def rows86 : List OpRow :=
  [⟨0x86, 0x00, .m .xlb⟩,
   ⟨0x86, 0x01, .m .cctl⟩]

/-- Major 0xA0 and its group partner (R278, R279). -/
def rowsA0 : List OpRow :=
  [⟨0xA0, 0x00, .m .fence⟩,
   ⟨0xA0, 0x01, .m .ifence⟩,
   ⟨0xA0, 0x02, .m .iflush⟩]

/-- Major 0xA2 and its group partner (R278, R279). -/
def rowsA2 : List OpRow :=
  [⟨0xA2, 0x00, .m .watch⟩,
   ⟨0xA2, 0x01, .m .unwch⟩,
   ⟨0xA2, 0x02, .m .waita⟩]

/-- Major 0xA4 and its group partner (R278, R279). -/
def rowsA4 : List OpRow :=
  [⟨0xA4, 0x00, .m .bara⟩,
   ⟨0xA4, 0x01, .m .barw⟩,
   ⟨0xA4, 0x02, .m .baraw⟩,
   ⟨0xA4, 0x03, .m .barq⟩]

/-- Major 0xA6 and its group partner (R278, R279). -/
def rowsA6 : List OpRow :=
  [⟨0xA6, 0x00, .m .sigadd⟩,
   ⟨0xA6, 0x01, .m .sigwt⟩]

/-- Major 0xC0 and its group partner (R278, R279). -/
def rowsC0 : List OpRow :=
  [⟨0xC0, 0x00, .e .tbld⟩,
   ⟨0xC0, 0x01, .e .tblds⟩,
   ⟨0xC0, 0x02, .e .tinv⟩,
   ⟨0xC0, 0x03, .e .tspill⟩,
   ⟨0xC0, 0x04, .e .tfill⟩,
   ⟨0xC0, 0x05, .e .tstat⟩,
   ⟨0xC0, 0x06, .e .plnset⟩]

/-- Major 0xC2 and its group partner (R278, R279). -/
def rowsC2 : List OpRow :=
  [⟨0xC2, 0x00, .e .lka⟩,
   ⟨0xC2, 0x01, .e .ard⟩,
   ⟨0xC2, 0x02, .e .awr⟩,
   ⟨0xC2, 0x03, .e .azro⟩,
   ⟨0xC2, 0x04, .e .arel⟩]

/-- Major 0xC4 and its group partner (R278, R279). -/
def rowsC4 : List OpRow :=
  [⟨0xC4, 0x00, .e .cpy⟩,
   ⟨0xC4, 0x01, .e .cpyg⟩,
   ⟨0xC4, 0x02, .e .cpys⟩,
   ⟨0xC4, 0x03, .e .publ⟩,
   ⟨0xC4, 0x04, .e .cstat⟩,
   ⟨0xC4, 0x05, .e .coll⟩]

/-- Major 0xC6 and its group partner (R278, R279). -/
def rowsC6 : List OpRow :=
  [⟨0xC6, 0x00, .e .emit⟩,
   ⟨0xC6, 0x01, .e .enq⟩,
   ⟨0xC6, 0x02, .e .rtake⟩,
   ⟨0xC6, 0x03, .e .rsplit⟩]

/-- Major 0xC8 and its group partner (R278, R279). -/
def rowsC8 : List OpRow :=
  [⟨0xC8, 0x00, .e .rpop⟩,
   ⟨0xC8, 0x01, .e .rpush⟩,
   ⟨0xC8, 0x02, .e .rdone⟩]

/-- Major 0xE0 and its group partner (R278, R279). -/
def rowsE0 : List OpRow :=
  [⟨0xE0, 0x00, .s .tret⟩,
   ⟨0xE0, 0x01, .s .mapp⟩,
   ⟨0xE0, 0x02, .s .tlbi⟩,
   ⟨0xE0, 0x03, .s .svc⟩,
   ⟨0xE0, 0x04, .s .csrr⟩,
   ⟨0xE0, 0x05, .s .csrw⟩]

/-- The opcode map (R279). -/
def opcodeMap : List OpRow :=
  rows00 ++ rows02 ++ rows04 ++ rows20 ++ rows22 ++ rows24 ++ rows26 ++ rows40 ++ rows42 ++ rows44 ++ rows46 ++ rows48 ++ rows60 ++ rows62 ++ rows64 ++ rows66 ++ rows80 ++ rows82 ++ rows84 ++ rows86 ++ rowsA0 ++ rowsA2 ++ rowsA4 ++ rowsA6 ++ rowsC0 ++ rowsC2 ++ rowsC4 ++ rowsC6 ++ rowsC8 ++ rowsE0

/-! ## The word -/

/-- The field of `len` bits whose lowest bit is `lo`. -/
def fld (w : BitVec 128) (lo len : Nat) : BitVec len := w.extractLsb' lo len

/-- The upper half's fields (R260). -/
def unpackHead (w : BitVec 128) : Head where
  grp := w.getLsbD 120
  grd := (fld w 108 4).toFin
  neg := w.getLsbD 107
  d := operandOf (fld w 97 10)
  a := operandOf (fld w 87 10)
  b := operandOf (fld w 77 10)
  c := operandOf (fld w 67 10)
  em := fld w 64 3

/-- V format (R264). -/
def unpackV (w : BitVec 128) : VForm :=
  { hd := unpackHead w, mod := fld w 60 4, ty1 := tyOf (fld w 56 4), ty2 := tyOf (fld w 52 4), imm := fld w 0 32 }

/-- M format (R266). -/
def unpackM (w : BitVec 128) : MForm :=
  { hd := unpackHead w, xb := (fld w 61 3).toFin, wid := fld w 58 3, ord := fld w 55 3, scp := fld w 52 3,
    ch := fld w 50 2, atop := fld w 45 5, disp := fld w 0 32 }

/-- B format (R267). -/
def unpackB (w : BitVec 128) : BForm := { hd := unpackHead w, tok := fld w 56 8, off := fld w 0 32 }

/-- E format (R268). -/
def unpackE (w : BitVec 128) : EForm :=
  { hd := unpackHead w, ah := (fld w 57 7).toFin, th := (fld w 53 4).toFin, ctl := fld w 32 21, imm := fld w 0 32 }

/-- S format (R269). -/
def unpackS (w : BitVec 128) : SForm := { hd := unpackHead w, csr := fld w 48 16, imm := fld w 0 32 }

def Maker.run (w : BitVec 128) : Maker → Instr
  | .v k => k (unpackV w)
  | .m k => k (unpackM w)
  | .b k => k (unpackB w)
  | .e k => k (unpackE w)
  | .s k => k (unpackS w)

/-- The bits a format reserves (R264 to R269) are all zero. -/
def reservedBitsClear (w : BitVec 128) : Maker → Bool
  | .v _ => fld w 32 20 == 0
  | .m _ => fld w 32 13 == 0
  | .b _ => fld w 32 24 == 0
  | .e _ => true
  | .s _ => fld w 32 16 == 0

/-! ## The static fate of an instruction (R226 step 2, R262, R263, R280, R281, R283) -/

def Spec.slots (s : Spec) (grp : Bool) : List (List Kind) :=
  if grp then [s.gd, s.ga, s.gb, s.gc] else [s.ld, s.la, s.lb, s.lc]

def Head.operands (h : Head) : List Operand := [h.d, h.a, h.b, h.c]

def Spec.runs (s : Spec) : List Run := [s.rd, s.ra, s.rb, s.rc]

/-- A type of 64 bits, which a register pair holds (R187). -/
def Ty.wide : Ty → Bool
  | .i64 | .ui64 => true
  | _ => false

/-- The CSR numbers and which are 64 bits wide (R365). -/
def csrNumbers : List Nat := [0x0010, 0x0011, 0x0800, 0x0801, 0x0802, 0x0803, 0x0804]
def csrWide (n : Nat) : Bool := n == 0x0011 || n == 0x0801

/-- How many registers a field names. -/
def runLen (i : Instr) : Run → Nat
  | .one => 1
  | .pair => 2
  | .ty1 => match formOf i with | .v f => if f.ty1.wide then 2 else 1 | _ => 1
  | .ty2 => match formOf i with | .v f => if f.ty2.wide then 2 else 1 | _ => 1
  | .wid => match formOf i with | .m f => if f.wid = 3 then 2 else if f.wid = 4 then 4 else 1 | _ => 1
  | .sreg => match formOf i with
      | .v f => if f.mod = 0 ∨ f.mod = 2 ∨ f.mod = 3 ∨ f.mod = 6 then 2 else 1
      | _ => 1
  | .csr => match formOf i with | .s f => if csrWide f.csr.toNat then 2 else 1 | _ => 1
  | .run3 => 3
  | .run4 => 4
  | .run8 => 8
  | .run12 => 12
  | .run16 => 16
  | .run16e => 16

/-- What the first register of a run must be a multiple of (R132, R330, R347, R351; runs of R310 start anywhere). -/
def runAlign (i : Instr) : Run → Nat
  | .run4 => 1
  | .run16 => 16
  | .wid => match formOf i with | .m f => if f.wid = 4 then 4 else if f.wid = 3 then 2 else 1 | _ => 1
  | r => if runLen i r = 1 then 1 else 2

/-- The number of an operand within its register file. -/
def regNo : Operand → Nat
  | .v n => n.val
  | .g n => n.val
  | .h n => n.val
  | .hg n => n.val
  | .p n => n.val
  | .q n => n.val
  | _ => 0

/-- The operand `k` registers further on in its file. -/
def Operand.plus (o : Operand) (k : Nat) : Operand :=
  match o with
  | .v n => .v (Fin.ofNat 640 (n.val + k))
  | .g n => .g (Fin.ofNat 128 (n.val + k))
  | .h n => .h (Fin.ofNat 16 (n.val + k))
  | .hg n => .hg (Fin.ofNat 16 (n.val + k))
  | o => o

/-- A run starts where it may, and a run of hg registers stays below 16. One of h registers that passes h15 is found in
supervisor mode only (R310). -/
def runOk (i : Instr) (r : Run) (o : Operand) : Bool :=
  match kindOf o with
  | .v | .g | .h => regNo o % runAlign i r == 0
  | .hg => regNo o % runAlign i r == 0 && regNo o + runLen i r ≤ 16
  | _ => true

/-- The CVT pairs that R201 marks legal. -/
def cvtLegal (dst src : Ty) : Bool :=
  let int (t : Ty) : Bool := match t with
    | .i8 | .ui8 | .i16 | .ui16 | .i32 | .ui32 | .i64 | .ui64 => true
    | _ => false
  if dst = src then false
  else match src with
    | .f32 | .bf16 => int dst || dst == .f32 || dst == .bf16 || dst == .f16 || dst == .t8 || dst == .t6 || dst == .e8m0
    | .f16 => int dst || dst == .f32 || dst == .bf16 || dst == .t8 || dst == .t6
    | .t8 => dst == .f32 || dst == .bf16 || dst == .f16 || dst == .t6
    | .t6 => dst == .f32 || dst == .bf16 || dst == .f16 || dst == .t8
    | .e8m0 => dst == .f32 || dst == .bf16
    | t => int t && (int dst || dst == .f32 || dst == .bf16 || dst == .f16)

/-- Whether a reducing selector is one that FP32 takes (R283). -/
def redFloatSel : Instr → Bool
  | .qred s _ => s.pos ≤ 2
  | .redw s _ => s.pos ≤ 2
  | .scanw s _ => s.pos ≤ 2
  | _ => false

def redIsAdd : Instr → Bool
  | .qred s _ => s == .add
  | .redw s _ => s == .add
  | .scanw s _ => s == .add
  | _ => false

/-- TY1 and TY2 are values that R283 lists for the instruction. -/
def tyOk (i : Instr) (r : TyRule) (t1 t2 : Ty) : Bool :=
  match r with
  | .none => t1 == .named && t2 == .named
  | .int => (t1 == .named || t1 == .ui32 || t1 == .i64 || t1 == .ui64) && t2 == .named
  | .bfx => (t1 == .named || t1 == .ui32) && t2 == .named
  | .cvt => cvtLegal t1 t2
  | .tenc => (t1 == .t8 || t1 == .t6) && (t2 == .named || t2 == .bf16 || t2 == .f16)
  | .tdec => (t1 == .named || t1 == .bf16 || t1 == .f16) && (t2 == .t8 || t2 == .t6)
  | .gpack => (t1 == .t8 || t1 == .t6 || t1 == .i8g) && (t2 == .named || t2 == .bf16)
  | .gunpk => (t1 == .named || t1 == .bf16) && (t2 == .t8 || t2 == .t6 || t2 == .i8g)
  | .gscl => (t1 == .t8 || t1 == .t6 || t1 == .i8g) && t2 == .named
  | .red => (t1 == .named || t1 == .ui32 || (t1 == .f32 && redFloatSel i)) && t2 == .named

/-- MOD is a value that R283 or the description allows. RND is MOD[62:60], SAT is MOD[63]. -/
def modOk (i : Instr) (r : ModRule) (t1 : Ty) (md : BitVec 4) : Bool :=
  let rnd := md.toNat % 8
  let sat := md.getLsbD 3
  match r with
  | .zero => md == 0
  | .sat => rnd == 0
  | .round => rnd ≤ 4
  | .gpack => md == 0 || (t1 == .i8g && !sat && rnd ≤ 4)
  | .red => md == 0 || (t1 == .f32 && redIsAdd i && !sat && rnd ≤ 4)
  | .sreg => !sat && rnd != 7
  | .sregw => md == 7

/-- Bits of the CTL field of `COLL`: kind CTL[34:32], wire format CTL[38:35], operation CTL[40:39] (R357); CTL[32] is
the field's lowest bit. -/
def collKind (ctl : BitVec 21) : Nat := bitsOf ctl.toNat 0 3
def collWire (ctl : BitVec 21) : Nat := bitsOf ctl.toNat 3 4
def collOp (ctl : BitVec 21) : Nat := bitsOf ctl.toNat 7 2

/-- The values R329 gives the fields of an M-format instruction. A field left out must be 0. -/
structure MRule where
  xb : Bool := false
  wid : List Nat := [0]
  ord : List Nat := [0]
  scp : List Nat := [0]
  ch : List Nat := [0]
  atop : List Nat := [0]
  disp : Int → Bool := fun x => x == 0

def anyDisp : Int → Bool := fun _ => true
def ldOrd : List Nat := [0, 1, 4]
def stOrd : List Nat := [0, 2, 4]
def allScp : List Nat := [0, 1, 2, 3, 4, 5]
def allWid : List Nat := [0, 1, 2, 3, 4, 5, 6]
def atomAtop : List Nat := [1, 2, 3, 4, 5, 6, 7, 8, 9, 10, 11, 12, 13, 14, 15]
def bredAtop : List Nat := [1, 2, 3, 4, 5, 6, 7, 8, 11, 12, 13, 14, 15]
def barDisp : Int → Bool := fun x => 0 ≤ x && x ≤ 15

/-- The rows of R329. -/
def mRuleOf : Instr → MRule
  | .ld _ => { xb := true, wid := allWid, ord := ldOrd, scp := allScp, ch := [0, 1, 2, 3], disp := anyDisp }
  | .st _ => { xb := true, wid := allWid, ord := stOrd, scp := allScp, ch := [0, 1, 2, 3], disp := anyDisp }
  | .atom _ => { xb := true, wid := [2, 3], ord := [0, 1, 2, 3, 4], scp := allScp, ch := [0, 1, 2, 3], atop := atomAtop,
                 disp := anyDisp }
  | .pft _ => { xb := true, ch := [0, 1, 3], disp := anyDisp }
  | .lds _ | .ldc _ => { wid := allWid, ord := ldOrd, scp := allScp, disp := anyDisp }
  | .sts _ | .stc _ => { wid := allWid, ord := stOrd, scp := allScp, disp := anyDisp }
  | .atoms _ | .atomc _ => { wid := [2, 3], ord := [0, 1, 2, 3, 4], scp := allScp, atop := atomAtop, disp := anyDisp }
  | .bred _ => { wid := [2, 3, 4], ord := stOrd, scp := allScp, atop := bredAtop, disp := anyDisp }
  | .bupd _ => { wid := [2, 4], ord := stOrd, scp := allScp, atop := [16, 17, 18], disp := anyDisp }
  | .xlb _ => { xb := true }
  | .cctl _ => { xb := true, ch := [0, 1, 2], disp := anyDisp }
  | .fence _ => { wid := [0, 1], scp := allScp }
  | .iflush _ => { xb := true, disp := anyDisp }
  | .watch _ => { xb := true, wid := [0, 1, 2], disp := anyDisp }
  | .waita _ => { disp := fun x => 0 ≤ x && x ≤ 1000000 }
  | .bara _ | .barw _ | .baraw _ | .barq _ => { scp := [1, 2, 4], disp := barDisp }
  | _ => {}

/-- A scratch or commons access, in which a non-zero XB is an illegal operand (R144, R329). -/
def xbIsOperand : Instr → Bool
  | .lds _ | .sts _ | .atoms _ | .ldc _ | .stc _ | .atomc _ | .bred _ | .bupd _ => true
  | _ => false

/-- An atomic of R333 that may return a value. -/
def isAtomic : Instr → Bool
  | .atom _ | .atoms _ | .atomc _ => true
  | _ => false

def isBred : Instr → Bool
  | .bred _ => true
  | _ => false

def isWatch : Instr → Bool
  | .watch _ => true
  | _ => false

def isCctl : Instr → Bool
  | .cctl _ => true
  | _ => false

/-- The M-format fields lie in their lists (R172, R266, R329, R333, R337, R340). -/
def mFieldsOk (i : Instr) (f : MForm) : Bool :=
  let r := mRuleOf i
  let atop := f.atop.toNat
  (r.xb || f.xb == 0 || xbIsOperand i)
    && r.wid.contains f.wid.toNat && r.ord.contains f.ord.toNat && r.scp.contains f.scp.toNat
    && r.ch.contains f.ch.toNat && r.atop.contains atop && r.disp f.disp.toInt
    && !(f.ord == 4 && f.scp.toNat < 4)
    && !(isAtomic i && (f.ord == 1 || f.ord == 3) && f.hd.d == .none)
    && !((isAtomic i || isBred i) && 11 ≤ atop && f.wid == 3)
    && !(isAtomic i && atop != 10 && f.hd.c != .none)
    && !(isWatch i && f.wid != 0 && f.xb != 0)
    && !(isCctl i && f.ch != 0 && (f.hd.a != .none || f.xb != 0 || f.disp != 0))

/-- OFF32 and TOK of the B format (R267, R281, R291). -/
def bFieldsOk (i : Instr) (f : BForm) : Bool :=
  match i with
  | .bra _ | .call _ | .lend _ => f.tok == 0
  | .ifb _ => f.tok != 0
  | .loop _ => f.tok == 0 && 2 ≤ f.off.toInt && f.hd.grd == 0 && !f.hd.neg
  | .elsb _ | .join _ => f.tok == 0 && f.off == 0 && f.hd.grd == 0 && !f.hd.neg
  | _ => f.tok == 0 && f.off == 0

/-- AH, TH and CTL of the E format (R281, R347, R353, R357). -/
def eFieldsOk (i : Instr) (f : EForm) : Bool :=
  let ah := f.ah == 0
  let th := f.th == 0
  let ctl := f.ctl.toNat
  let copy := bitsOf ctl 0 2 != 3 && bitsOf ctl 2 2 != 3 && bitsOf ctl 5 16 == 0
    && !(bitsOf ctl 4 1 == 1 && bitsOf ctl 2 2 != 1)
  match i with
  | .tbld _ | .tblds _ | .tinv _ | .tspill _ | .tfill _ | .tstat _ => ah && ctl == 0
  | .plnset _ => ah && th && ctl < 4
  | .lka _ => ctl < 4
  | .ard _ | .awr _ | .azro _ | .arel _ => th && ctl == 0
  | .cpy _ | .cpyg _ | .cpys _ => ah && th && copy
  | .coll _ => ah && th && ctl < 512 && collOp f.ctl != 3 && (collKind f.ctl ≤ 2 || collOp f.ctl == 0)
  | _ => ah && th && ctl == 0

/-- CSR of the S format (R263, R365). -/
def sFieldsOk (i : Instr) (f : SForm) : Bool :=
  match i with
  | .csrr _ | .csrw _ => csrNumbers.contains f.csr.toNat
  | _ => f.csr == 0

/-- An immediate that an instruction limits with `RESERVED_FIELD` (R305). `TDEC` checks its own at issue (R310, R324). -/
def immFieldOk (i : Instr) (f : VForm) : Bool :=
  match i with
  | .qswz _ => f.hd.b != .imm || f.imm.toNat ≤ 0xFF
  | .qbc _ => f.hd.b != .imm || f.imm.toNat ≤ 3
  | _ => true

/-- IMM32 is 0 unless an operand field holds 1020 (R263). -/
def immUsed (h : Head) (imm : Word) : Bool := imm == 0 || h.operands.contains .imm

/-- The form exists and its types are allowed; else `ILLEGAL_OPCODE` (R280, R283, R357). -/
def opcodeFateOk (i : Instr) : Bool :=
  let s := specOf i
  match formOf i with
  | .v f => (if f.hd.grp then s.grp else s.lane) && tyOk i s.ty f.ty1 f.ty2
  | .m f => if f.hd.grp then s.grp else s.lane
  | .b f => if f.hd.grp then s.grp else s.lane
  | .e f =>
    (if f.hd.grp then s.grp else s.lane) &&
      (match i with
       | .coll _ => collWire f.ctl != 0 && (2 < collKind f.ctl || collWire f.ctl == 1 || collWire f.ctl == 2)
       | _ => true)
  | .s f => if f.hd.grp then s.grp else s.lane
  | .event => false

/-- Every unused operand field holds 1023 (R263). -/
def unusedOk (s : Spec) (h : Head) : Bool :=
  ((s.slots h.grp).zip h.operands).all fun (ks, o) => !ks.isEmpty || o == .none

/-- The fields are allowed; else `RESERVED_FIELD` (R263, R281, R283). -/
def fieldFateOk (i : Instr) : Bool :=
  let s := specOf i
  match formOf i with
  | .v f => unusedOk s f.hd && modOk i s.md f.ty1 f.mod && immUsed f.hd f.imm && immFieldOk i f
  | .m f => unusedOk s f.hd && mFieldsOk i f
  | .b f => unusedOk s f.hd && bFieldsOk i f
  | .e f => unusedOk s f.hd && eFieldsOk i f && immUsed f.hd f.imm
  | .s f => unusedOk s f.hd && sFieldsOk i f && immUsed f.hd f.imm
  | .event => false

/-- The operand-class rules that a class list alone does not say. -/
def operandExtraOk (i : Instr) : Bool :=
  match i with
  | .lea f => f.hd.c != .imm || f.imm.toNat ≤ 31
  | .pmov f =>
    kindOf f.hd.d == .p || kindOf f.hd.d == .q
      || [Kind.p, .q, .zero, .ones].contains (kindOf f.hd.a)
  | .lds f | .ldc f => f.xb == 0 && (f.wid.toNat < 5 || kindOf f.hd.d == .v || kindOf f.hd.d == .none)
  | .sts f | .stc f => f.xb == 0 && (f.wid.toNat < 5 || kindOf f.hd.b == .v || kindOf f.hd.b == .h)
  | .st f => f.wid.toNat < 5 || kindOf f.hd.b == .v || kindOf f.hd.b == .h
  | .atom f => !(f.atop == 10 && f.hd.c == .none)
  | .atoms f | .atomc f => f.xb == 0 && !(f.atop == 10 && f.hd.c == .none)
  | .bred f | .bupd f => f.xb == 0
  | .cctl f => !(f.ch == 0 && f.hd.a == .none)
  | .csrw f => !csrWide f.csr.toNat || kindOf f.hd.a == .g || kindOf f.hd.a == .hg
  | _ => true

/-- Every used operand field is of an allowed class and its run starts where it may; else `ILLEGAL_OPERAND` (R262). -/
def operandFateOk (i : Instr) : Bool :=
  let s := specOf i
  match (formOf i).head? with
  | none => false
  | some h =>
    (((s.slots h.grp).zip (h.operands.zip s.runs)).all fun (ks, o, r) =>
      ks.isEmpty || (ks.contains (kindOf o) && runOk i r o)) && operandExtraOk i

/-- An instruction that passes every check of step 2 of R226 that needs no machine state. -/
def staticOk (i : Instr) : Bool := opcodeFateOk i && fieldFateOk i && operandFateOk i

/-! ## Decoding and encoding -/

/-- The row of the opcode map for a major and a minor. -/
def lookupOp (maj minor : Nat) : Option OpRow :=
  opcodeMap.find? fun r => r.maj == maj / 2 * 2 && r.minor == minor

/-- Decode a 128-bit word: the instruction, or the first static cause in the order of R226. -/
def decode (w : BitVec 128) : Except Reject Instr :=
  match lookupOp (fld w 120 8).toNat (fld w 112 8).toNat with
  | none => .error .illegalOpcode
  | some row =>
    let i := row.make.run w
    if !opcodeFateOk i then .error .illegalOpcode
    else if !(reservedBitsClear w row.make && fieldFateOk i) then .error .reservedField
    else if !operandFateOk i then .error .illegalOperand
    else .ok i

/-- The instruction in 16 bytes, lowest address first (R259); none when they are not 16 or do not decode. -/
def decodeBytes (bs : List Byte) : Option Instr :=
  if bs.length = 16 then (decode (BitVec.ofNat 128 (natLE bs))).toOption else none

/-- The upper half of a word (R260). -/
def packHead (maj minor : Nat) (h : Head) : BitVec 64 :=
  BitVec.ofNat 8 (maj + (if h.grp then 1 else 0)) ++ BitVec.ofNat 8 minor ++ BitVec.ofNat 4 h.grd.val
    ++ BitVec.ofBool h.neg ++ BitVec.ofNat 10 (codeOfOperand h.d) ++ BitVec.ofNat 10 (codeOfOperand h.a)
    ++ BitVec.ofNat 10 (codeOfOperand h.b) ++ BitVec.ofNat 10 (codeOfOperand h.c) ++ h.em

/-- The lower half of a word (R264, R266 to R269). -/
def packLow : Form → BitVec 64
  | .v f => f.mod ++ BitVec.ofNat 4 (codeOfTy f.ty1) ++ BitVec.ofNat 4 (codeOfTy f.ty2) ++ 0#20 ++ f.imm
  | .m f => BitVec.ofNat 3 f.xb.val ++ f.wid ++ f.ord ++ f.scp ++ f.ch ++ f.atop ++ 0#13 ++ f.disp
  | .b f => f.tok ++ 0#24 ++ f.off
  | .e f => BitVec.ofNat 7 f.ah.val ++ BitVec.ofNat 4 f.th.val ++ f.ctl ++ f.imm
  | .s f => f.csr ++ 0#16 ++ f.imm
  | .event => 0#64

/-- The 128-bit word of a weave instruction (R259, R260, R279); an event has none and encodes as 0. -/
def encode (i : Instr) : BitVec 128 :=
  match (formOf i).head? with
  | some h => packHead (codeOf i).1 (codeOf i).2 h ++ packLow (formOf i)
  | none => 0#128

/-- The 16 bytes of an instruction, lowest address first (R259). -/
def encodeBytes (i : Instr) : List Byte := bytesLE 16 (encode i).toNat

/-- The instruction this decoder reads from the table's numbering of bits: an instruction is one 128-bit word whose
bit 0 is the lowest bit of its lowest byte (R259), so the numbering is the word itself. -/
def decodeTableWord (_nbits w : Nat) : Option Instr := decodeBytes (bytesLE 16 w)

end Sys2Proof
end

