-- ==== Sys2Proof/WellFormed.lean ====
section
/-! DEFINITION. WellFormed.lean: which terms of `Instr` stand for something the module can do. -/

namespace Sys2Proof

/-- The step of another agent names parts that exist: a die, a queue, a leaf, a link, a port, a core, a record. A weave
instruction is no such step. -/
def eventOk : Instr → Bool
  | .qcmdCreate m _ => decide (m.ctx < 256)
  | .qcmdDestroy m _ => decide (m.ctx < 256)
  | .qcmdResume m _ => decide (m.ctx < 256)
  | .sigopAdd m _ _ => decide (m.ctx < 256)
  | .sigopSet m _ _ => decide (m.ctx < 256)
  | .rmaWrite m key _ _ => decide (m.ctx < 256) && decide (key < 4096)
  | .rmaRead m key _ _ => decide (m.ctx < 256) && decide (key < 4096)
  | .unsupportedOperation m => decide (m.ctx < 256)
  | .tailPointerWrite m q _ => decide (m.ctx < 256) && decide (q < 1024)
  | .controlPagePartialWrite m _ _ => decide (m.ctx < 256)
  | .packetRead q => decide (q < 1024)
  | .queueFetchFault q => decide (q < 1024)
  | .launch q _ => decide (q < 1024)
  | .waitsig q _ => decide (q < 1024)
  | .copyPacket q _ => decide (q < 1024)
  | .bind q _ => decide (q < 1024)
  | .run q _ => decide (q < 1024)
  | .patch q _ => decide (q < 1024)
  | .unbind q _ => decide (q < 1024)
  | .note q _ => decide (q < 1024)
  | .packetCompletion q _ _ _ => decide (q < 1024)
  | .waitTableReread => true
  | .remoteSignalOperation => true
  | .signalNotification => true
  | .migrationRelay => true
  | .commandLinkMessage leaf _ => decide (leaf < 32)
  | .scevarRestart => true
  | .checkpoint => true
  | .tenantCreate m _ => decide (m.ctx < 256)
  | .tenantDestroy m _ => decide (m.ctx < 256)
  | .ctxSet m _ => decide (m.ctx < 256)
  | .keySet m _ => decide (m.ctx < 256)
  | .peerSet m _ => decide (m.ctx < 256)
  | .qgrant m _ => decide (m.ctx < 256)
  | .migrateOut m _ => decide (m.ctx < 256)
  | .migrateIn m _ => decide (m.ctx < 256)
  | .attest m _ => decide (m.ctx < 256)
  | .fwStage m _ => decide (m.ctx < 256)
  | .pwrCtlWrite m _ => decide (m.ctx < 256)
  | .diePark die => decide (die < 4)
  | .diePowerDown die => decide (die < 4)
  | .dieUnpark die => decide (die < 4)
  | .unparkComplete die => decide (die < 4)
  | .partCfgWrite m _ => decide (m.ctx < 256)
  | .rruCfgWrite m _ => decide (m.ctx < 256)
  | .portConfigWrite m port _ => decide (m.ctx < 256) && decide (port < 8)
  | .registerWrite m _ _ => decide (m.ctx < 256)
  | .eclrWrite owner => decide (owner ≤ 255)
  | .tenantSwitch => true
  | .pageRequestAnswer m owner slot => decide (m.ctx < 256) && decide (owner ≤ 255) && decide (slot < 65536)
  | .rqconsWrite m owner => decide (m.ctx < 256) && decide (owner ≤ 255)
  | .givenWrite m owner => decide (m.ctx < 256) && decide (owner ≤ 255)
  | .dlconsWrite m owner => decide (m.ctx < 256) && decide (owner ≤ 255)
  | .dlctlWrite m owner => decide (m.ctx < 256) && decide (owner ≤ 255)
  | .tlbgenWrite m owner => decide (m.ctx < 256) && decide (owner ≤ 255)
  | .dirtyLogFull owner => decide (owner ≤ 255)
  | .powerSample => true
  | .pstateTransitionDone die => decide (die < 4)
  | .thermalLimit => true
  | .thermalShutdown => true
  | .flitCrcFail => true
  | .linkRetrain link => decide (link < 4)
  | .linkFatal link => decide (link < 4)
  | .portLinkUp port => decide (port < 8)
  | .patrolScrub => true
  | .memoryUe => true
  | .unitPlacement die => decide (die < 4)
  | .gangPlacement die => decide (die < 4)
  | .continuationRelease _ die bin => decide (die < 4) && decide (bin < 64)
  | .bdirArrive rec _ _ => decide (rec < 65536)
  | .bdirExit rec x => decide (rec < 65536) && decide (x.die < 4)
  | .generationNotice rec _ die => decide (rec < 65536) && decide (die < 4)
  | .slotNeeded => true
  | .saveComplete die => decide (die < 4)
  | .restoreComplete die => decide (die < 4)
  | .preemptionRequest r => match r with | .forUnit d _ _ => decide (d < 4) | .forPark d => decide (d < 4) | _ => true
  | .drainExpiry _ => true
  | .armingEnd _ widx => decide (widx < 32)
  | .armedLineWrite _ widx _ => decide (widx < 32)
  | .quantExpiry _ widx _ => decide (widx < 32)
  | .watchedTimeout _ widx _ => decide (widx < 32)
  | .waitaTimeout _ widx _ => decide (widx < 32)
  | .loadComplete _ => true
  | .idivComplete _ => true
  | .deferredTrap _ widx => decide (widx < 32)
  | .pageWalkComplete die owner _ => decide (die < 4) && decide (owner ≤ 255)
  | .copyComplete _ => true
  | .copyFail _ => true
  | .publCommit _ => true
  | .unLineExpiry core _ => decide (core < 256)
  | .firingRelease _ _ => true
  | .feederMove _ _ ch => decide (ch < 256)
  | .instanceFail _ _ _ => true
  | .lkaRetire core => decide (core < 256)
  | .tableBuildComplete core => decide (core < 256)
  | .debugResume _ widx => decide (widx < 32)
  | .bra _ => false
  | .brx _ => false
  | .call _ => false
  | .ret _ => false
  | .exit_ _ => false
  | .ifb _ => false
  | .elsb _ => false
  | .join _ => false
  | .loop _ => false
  | .brkl _ => false
  | .contl _ => false
  | .lend _ => false
  | .nop _ => false
  | .yld _ => false
  | .bkpt _ => false
  | .trap _ => false
  | .iadd _ => false
  | .isub _ => false
  | .iadc _ => false
  | .isbb _ => false
  | .imul _ => false
  | .imulh _ => false
  | .imad _ => false
  | .idiv _ => false
  | .irem _ => false
  | .imin _ => false
  | .imax _ => false
  | .iabs _ => false
  | .ineg _ => false
  | .and_ _ => false
  | .or_ _ => false
  | .xor_ _ => false
  | .not_ _ => false
  | .andn _ => false
  | .shl _ => false
  | .shr _ => false
  | .sar _ => false
  | .rotl _ => false
  | .bfx _ => false
  | .bfi _ => false
  | .popc _ => false
  | .clz _ => false
  | .ctz _ => false
  | .brev _ => false
  | .sel _ => false
  | .mov _ => false
  | .movi _ => false
  | .movh _ => false
  | .lea _ => false
  | .shape _ => false
  | .icmp _ _ => false
  | .pand _ => false
  | .por _ => false
  | .pxor _ => false
  | .pnot _ => false
  | .pmov _ => false
  | .qswz _ => false
  | .qbc _ => false
  | .qred _ _ => false
  | .shfl _ _ => false
  | .ball _ => false
  | .match_ _ => false
  | .vote _ _ => false
  | .redw _ _ => false
  | .scanw _ _ => false
  | .exmr _ => false
  | .exmw _ => false
  | .hlpr _ => false
  | .sreg _ => false
  | .sregw _ => false
  | .fadd _ => false
  | .fsub _ => false
  | .fmul _ => false
  | .ffma _ => false
  | .fmin _ => false
  | .fmax _ => false
  | .fcls _ => false
  | .frnd _ => false
  | .fscl _ => false
  | .fcmp _ _ => false
  | .frcp _ => false
  | .frsq _ => false
  | .fex2 _ => false
  | .flg2 _ => false
  | .fsin _ => false
  | .fcos _ => false
  | .fsqrt _ => false
  | .fdiv _ => false
  | .badd2 _ => false
  | .bmul2 _ => false
  | .bfma2 _ => false
  | .hadd2 _ => false
  | .hmul2 _ => false
  | .hfma2 _ => false
  | .cvt _ => false
  | .tenc _ => false
  | .tdec _ => false
  | .gpack _ => false
  | .gunpk _ => false
  | .gscl _ => false
  | .ld _ => false
  | .st _ => false
  | .atom _ => false
  | .pft _ => false
  | .lds _ => false
  | .sts _ => false
  | .atoms _ => false
  | .ldc _ => false
  | .stc _ => false
  | .atomc _ => false
  | .bred _ => false
  | .bupd _ => false
  | .xlb _ => false
  | .cctl _ => false
  | .fence _ => false
  | .ifence _ => false
  | .iflush _ => false
  | .watch _ => false
  | .unwch _ => false
  | .waita _ => false
  | .bara _ => false
  | .barw _ => false
  | .baraw _ => false
  | .barq _ => false
  | .sigadd _ => false
  | .sigwt _ => false
  | .tbld _ => false
  | .tblds _ => false
  | .tinv _ => false
  | .tspill _ => false
  | .tfill _ => false
  | .tstat _ => false
  | .plnset _ => false
  | .lka _ => false
  | .ard _ => false
  | .awr _ => false
  | .azro _ => false
  | .arel _ => false
  | .cpy _ => false
  | .cpyg _ => false
  | .cpys _ => false
  | .publ _ => false
  | .cstat _ => false
  | .coll _ => false
  | .emit _ => false
  | .enq _ => false
  | .rtake _ => false
  | .rsplit _ => false
  | .rpop _ => false
  | .rpush _ => false
  | .rdone _ => false
  | .tret _ => false
  | .mapp _ => false
  | .tlbi _ => false
  | .svc _ => false
  | .csrr _ => false
  | .csrw _ => false
  | .moduleReset => true
  | .portLinkDown port => decide (port < 8)
  | .linkRetrainComplete link => decide (link < 4)
  | .remoteWaitRegistration => true
  | .ardComplete _ => true
  | .accordOpRetire core => decide (core < 256)
  | .collectiveComplete _ => true

/-- A weave instruction passes every static check of R226, R262, R263, R280, R281, R283; another agent's step names
parts that exist. -/
abbrev WellFormed (i : Instr) : Prop :=
  (match formOf i with
   | .event => eventOk i
   | _ => staticOk i) = true

/-- A well-formed weave instruction. -/
abbrev WeaveForm (i : Instr) : Prop := formOf i ≠ .event ∧ staticOk i = true

end Sys2Proof
end

