-- ==== Sys2Proof/Machine/State.lean ====
section
/-! DEFINITION. Machine/State.lean: everything the spec gives the module, as plain data; the reasons a step can stop; the
state after reset. INVENTORY.md lists each piece with its rule. -/

namespace Sys2Proof.Machine

/-- Bytes by address, addresses strictly rising, no entry equal to `unlistedByte` (log entry 1). -/
abbrev Memory := List Host.Cell

/-- What a byte that nothing has written reads as: DESIGN CHOICE 0, log entry 1. -/
def unlistedByte : Byte := 0

/-! ## Weave -/

/-- User or supervisor mode (R227, R233). -/
inductive Mode where
  | user | super
  deriving DecidableEq, Repr

/-- The KIND of a token record (R130). -/
inductive TokKind where
  | ifk | elsek | loopk | callk
  deriving DecidableEq, Repr

/-- A token record (R130). -/
structure Token where
  kind : TokKind
  rmask : Mask
  pmask : Mask
  pca : Pc
  pcj : Pc
  deriving DecidableEq, Repr

/-- A vector register by its shape tag (R135). `gen` holds 32 lanes. -/
inductive VReg where
  | uni (x : Lane)
  | aff (base stride : Word)
  | gen (xs : List Lane)
  deriving DecidableEq, Repr

/-- A translation register (R153). -/
structure TReg where
  vabase : BitVec 52
  pabase : BitVec 48
  tgen : BitVec 16
  limit : Word
  bv : Bool
  br : Bool
  bw : Bool
  kind : BitVec 2
  watch : Bool
  deriving DecidableEq, Repr

/-- A page-table leaf (R152): frame address and size (0 64 KiB, 1 2 MiB, 2 1 GiB). -/
structure Leaf where
  addr : Nat
  size : Nat
  r : Bool
  w : Bool
  x : Bool
  kind : Nat
  watch : Bool
  sh : Bool
  sgrp : Nat
  deriving DecidableEq, Repr

/-- A place of memory after translation: a byte of a crew's scratch window, of a commons slice, of HBM. -/
inductive Loc where
  | scratch (cid off : Nat)
  | commons (owner die off : Nat)
  | hbm (pa : Nat)
  deriving DecidableEq, Repr

/-- A pending trap: deferred (R225) or recorded in an image (R234). `vas` holds each lane's faulting VA, or nothing. -/
structure Pending where
  cause : Cause
  defer : Bool
  pc : Pc
  lanes : Mask
  vas : List DWord
  deriving DecidableEq, Repr

/-- What a weave waits on, beyond an interlock or a full queue, which it tries again at its next turn. -/
inductive Wait where
  | none
  | walk (vpns : List Nat)
  | barrier (scp num : Nat) (gen : Word)
  | waita
  | signal (ref : DWord)
  | emit (entries : List Pc)
  | enq (q : Nat)
  | spin
  | publ (id : Nat)
  | dirtyLog
  deriving DecidableEq, Repr

/-- Where the resident handler of a weave in supervisor mode stands (R158, R230, R245): `resolve` comes to the lanes of
`hfm` from a lane on, `pageWait` and `ringFull` wait at a lane. -/
inductive Handler where
  | entered
  | resolve (lane : Nat)
  | pageWait (lane : Nat)
  | ringFull (lane : Nat)
  | halted
  | ended
  deriving DecidableEq, Repr

/-- What a load read, for the arming and the second read of R109: `watchable` when an arming point holds its lines;
`loc` is nothing for a ticket's status (R355). -/
structure SpinLoad where
  loc : Option Loc
  watchable : Bool
  bytes : List Byte
  deriving DecidableEq, Repr

/-- An issued instruction as the Spin Recognizer sees it (R107): its PC, the addresses it loaded from and the values it
wrote, whether condition 4 excludes it, and its loads. -/
structure SpinEntry where
  pc : Pc
  words : List Word
  bad : Bool
  loads : List SpinLoad
  deriving DecidableEq, Repr

/-- An iteration that the next one is compared with: back-edge, target, exec mask, PCs and signature (R107). -/
structure SpinRef where
  edge : Pc
  target : Pc
  mask : Mask
  pcs : List Pc
  crc : Word
  deriving DecidableEq, Repr

/-- The Spin Recognizer of a weave slot (R107, R108, R296). `words`, `bad` and `loads` gather the instruction in hand;
`log` holds the instructions issued since the last back-edge, newest first; `last` the loads of the iteration that
parked the weave, `armed` that its arming has ended, `quant` the QUANT of its parking (R121). -/
structure Spin where
  count : Nat
  words : List Word
  bad : Bool
  loads : List SpinLoad
  log : List SpinEntry
  ref : Option SpinRef
  nospin : Bool
  last : List SpinLoad
  armed : Bool
  watched : Bool
  quant : Nat
  deriving DecidableEq, Repr

/-- A recognizer with its counter at 0 and nothing issued (R107, R114). -/
def Spin.fresh (nospin : Bool) : Spin := ⟨0, [], false, [], [], none, nospin, [], false, false, 0⟩

/-- A weave (R124, R228, R340) and the model's own record of its waits and its place in the issue order. `kept` is the
barrier wait that a trap interrupted and `TRET` takes up again (R246, R374); `asks` are the lanes and VAs that its walks are
for; `lastIssue` orders the issues of a slot, `tried` is its last turn, and `issuedAt` is the first clock
it may issue in (R123); `yld` are the weaves that a `YLD` waits for, each with its last issue before (R294). -/
structure Weave where
  pc : Pc
  exec : Mask
  helper : Mask
  absent : Mask
  exited : Mask
  toks : List Token
  v : List VReg
  g : List Word
  empty : List Nat
  p : List Mask
  q : BitVec 16
  b : List TReg
  outst : Nat
  spin : Spin
  mode : Mode
  h : List (List Lane)
  hg : List Word
  hcause : Word
  hpc : DWord
  hxm : Mask
  hfm : Mask
  hhm : Mask
  handler : Option Handler
  wait : Wait
  kept : Wait
  stamp : Nat
  parked : Nat
  wakeRes : Option Bool
  watch : List WLine
  unwatched : Bool
  woken : Bool
  pend : Option Pending
  extra : List Pending
  carr : List (Option Word)
  walked : List (Nat × Option Leaf)
  slot : Nat
  lastIssue : Nat
  tried : Nat
  issuedAt : Nat
  asks : List (Nat × Nat)
  yld : List (Nat × Nat × Nat)
  yldUntil : Nat
  fline : Option Nat
  fbytes : List Byte
  done : Bool
  deriving DecidableEq, Repr

/-! ## Crew -/

/-- The five states of a table handle (R212). -/
inductive TState where
  | unbound | valid | stale | discarded | spilled
  deriving DecidableEq, Repr

/-- The binding of a table set (R210). -/
inductive Binding where
  | regs (widx base : Nat)
  | scratch (off : Nat)
  deriving DecidableEq, Repr

/-- A table handle and its set: fixed values a' by row and granule scales by row (R206, R212). -/
structure Tbl where
  state : TState
  afmt : Nat
  tkind : Bool
  gsz : Bool
  kg : Nat
  src : Binding
  size : Nat
  spill : Nat
  rows : List (List Int)
  scales : List (List Nat)
  deriving DecidableEq, Repr

/-- A tile handle: whether it is bound, from the issue of the operation that binds it to the effect of its `AREL`, and the
tile's 512 elements (R219). -/
structure Tile where
  bound : Bool
  data : List Word
  deriving DecidableEq, Repr

/-- A plane descriptor (R215). -/
structure PlaneD where
  ctl : Word
  arr : List Byte
  deriving DecidableEq, Repr

/-- A crew-scope barrier in the core's barrier file (R100, R104). `left` counts members that exited after arriving. -/
structure CBar where
  gen : Word
  expect : Nat
  arrived : Nat
  left : Nat
  deriving DecidableEq, Repr

/-- One half of a core ring (R361): for an input, the records arrived for a firing; for an output, the records the
feeder still has to take of a firing handed over, while it is `busy`. -/
structure Half where
  firing : Nat
  recs : Nat
  busy : Bool
  deriving DecidableEq, Repr

/-- A core ring of a stage crew (R86, R361). -/
structure Ring where
  chan : Nat
  input : Bool
  rate : Nat
  rlog2 : Nat
  base : Nat
  cnt : Nat
  h0 : Half
  h1 : Half
  deriving DecidableEq, Repr

/-- Where a crew is (R111, R113, R114). -/
inductive Place where
  | resident (core : Nat)
  | saving (core : Nat)
  | stashed (die : Nat) (hbm : Bool)
  | restoring (core : Nat)
  deriving DecidableEq, Repr

/-- The wait kind a stashed weave is entered under (R111). -/
inductive Kept where
  | ready | barrier | address | room | watchedSpin | unwatchedSpin
  deriving DecidableEq, Repr

/-- What R90 gives a crew: its allotments and quotas. -/
structure Shape where
  threads : Nat
  weaves : Nat
  pweaves : Nat
  regs0 : Nat
  regs1 : Nat
  gregs : Nat
  accq : Nat
  tblq : Nat
  tblkb : Nat
  scrkb : Nat
  ringBytes : Nat
  prio : Nat
  split : Bool
  deriving DecidableEq, Repr

/-- A crew: the state of R124 with crew scope, R343, R353, R361, R244. `block` is the gang block of a saved gang, with its
first crew: GEN, ARRIVED, EXPECT and the members that left, by record (R240); `gangBase` is the number that record 0 of the gang had
when it was saved, which the images' wait objects name (R238). -/
structure Crew where
  cid : Nat
  owner : Nat
  lid : Nat
  unit : Nat
  member : Nat
  inGang : Bool
  cont : Bool
  shape : Shape
  homeDie : Nat
  vcore : Nat
  place : Place
  placed : Nat
  candSince : Option Nat
  stage : Option (Nat × Nat × Nat × Nat)
  weaves : List Weave
  scratch : Memory
  tables : List Tbl
  tiles : List Tile
  pds : List PlaneD
  lo : DWord
  hi : DWord
  cbars : List CBar
  lm : List (Option Word)
  gm : List (Option Word)
  lpend : List Mask
  gpend : List Mask
  lk : List Word
  gk : List Word
  ticket : Word
  tickets : List (Nat × Nat)
  inflight : Nat
  f : Nat
  rings : List Ring
  hscope : BitVec 2
  attach : Bool
  dbgsig : DWord
  imageBad : Bool
  block : List (Word × Nat × Nat × Nat)
  gangBase : Nat
  deriving DecidableEq, Repr

/-! ## Core and die -/

/-- A TLB entry, tagged with the owner and the page (R156); `page` is the VA of the page. -/
structure TlbEntry where
  owner : Nat
  page : Nat
  leaf : Leaf
  deriving DecidableEq, Repr

/-- A walk in progress for one 64 KiB page of an owner (R156): the weaves that wait for it, the L1 lines that prefetches want
(core, VA, CH; R335), the translation registers that it refreshes (crew, weave, register; R155). -/
structure Walk where
  owner : Nat
  vpn : Nat
  waiters : List (Nat × Nat)
  fills : List (Nat × Nat × Nat)
  regs : List (Nat × Nat × Nat)
  deriving DecidableEq, Repr

/-- A line of the L1 data cache (R150). -/
structure L1Line where
  line : Nat
  owner : Nat
  data : List Byte
  kind : Nat
  filled : Nat
  retain : Bool
  deriving DecidableEq, Repr

/-- A line of the instruction cache, by owner and VA line (R169). -/
structure ILine where
  owner : Nat
  line : Nat
  data : List Byte
  deriving DecidableEq, Repr

/-- An operation in a core's Accord queue (R220, R349). -/
inductive AccOp where
  | lka (cid widx : Nat) (pc : Pc) (lane tile th boff : Nat) (fw : Word) (pd : PlaneD)
  | ard (id cid tile : Nat)
  | awr (cid tile : Nat) (data : List Word)
  | azro (cid tile : Nat)
  | arel (cid tile : Nat)
  | build (cid th : Nat)
  | tspill (cid th : Nat)
  | tfill (cid th : Nat)
  | tinv (cid th : Nat)
  deriving DecidableEq, Repr

/-- A core (R122, R150, R156, R220, R242). `out` are the units mapped out and `repairs` those that wait for an empty core, by
kind (0 a register-file bank, 1 a scratchpad step, 2 a table-RAM step, 3 eight tiles) and number; `slots` are the first clocks that
the issue slots may issue in (R123). -/
structure Core where
  l1 : List L1Line
  icache : List ILine
  tlb : List TlbEntry
  accq : List AccOp
  out : List (Nat × Nat)
  repairs : List (Nat × Nat)
  slots : List Nat
  deriving DecidableEq, Repr

/-- What waits for a place on a die: a unit of a launch, saved crews, a bin of continuations. -/
inductive Waits where
  | unit (u : Nat)
  | back (cids : List Nat)
  | bin (b : Nat)
  deriving DecidableEq, Repr

/-- A save or a restore in progress: the unit's crews, the time it began (R114), whether the ladder asked for it, and the
launch and unit a rotation makes room for, with the units that it saves next (R112). -/
structure Job where
  cids : List Nat
  began : Nat
  forced : Bool
  incoming : Option (Nat × Waits)
  rest : List (List Nat)
  deriving DecidableEq, Repr

/-- An entry of a die's remap table (R241): the route to a gang member's scratch, and the core it leads to. A gang is a unit of
its launch. -/
structure Route where
  owner : Nat
  lid : Nat
  unit : Nat
  member : Nat
  core : Nat
  deriving DecidableEq, Repr

/-- DSd of a die (R25): a performance state, parked, or in transition. -/
inductive Power where
  | on (p : Nat)
  | parked
  | parking
  | unparking
  deriving DecidableEq, Repr

/-- A die. `clkM` is core clocks times 1000; `nextP` a p-state transition in progress, `queuedP` one requested;
`nextEngine` the copy engine whose turn it is (R165). -/
structure Die where
  power : Power
  clkM : Nat
  nextP : Option Nat
  queuedP : Option Nat
  gate : Nat
  hot : Bool
  tlb : List TlbEntry
  walks : List Walk
  save : Option Job
  restore : Option Job
  nextEngine : Nat
  stashBytes : Nat
  hbmStashBytes : Nat
  routes : List Route
  deriving DecidableEq, Repr

/-! ## Host side -/

/-- A key-table entry of a host context (R31, R59). -/
structure Key where
  key : Nat
  va : Nat
  len : Nat
  r : Bool
  w : Bool
  deriving DecidableEq, Repr

/-- A host context (R31 to R33). Messages with MSN below `wm` are performed, and those in `ahead`. Owner 255 is the
management context. -/
structure Ctx where
  id : Nat
  job : DWord
  addr : DWord
  owner : Nat
  tss : TssKey
  keys : List Key
  wm : Nat
  ahead : List Nat
  seq : BitVec 16
  qstate : BitVec 8
  status : BitVec 8
  deriving DecidableEq, Repr

/-- The state codes of a queue (R36). -/
inductive QState where
  | free | active | aborted | error | draining
  deriving DecidableEq, Repr

/-- A packet read in full: its index and its 64 bytes (R37, R39). -/
structure Packet where
  idx : Nat
  bits : BitVec 512
  deriving DecidableEq, Repr

/-- A started, incomplete packet (R38); `need` are the signals a WAITSIG has not yet seen at zero; `posted` marks a
completion on its way; `graphWait` a GRAPH packet that has not begun its operation (R48, R77); `seq` orders the starts of
all packets (R95); `record` is a LAUNCH packet's launch record once it has been read (R91). -/
structure Started where
  pkt : Packet
  need : List DWord
  posted : Bool
  graphWait : Bool
  seq : Nat
  record : Option Nat
  deriving DecidableEq, Repr

/-- A queue: grant, state, the device's copy of the descriptor (R35), RES (R98), packets read and started; `reading` counts the
reads that have not returned, `fault` is the index whose read has returned a fault that is on its way (R49). -/
structure Queue where
  q : Nat
  owner : Nat
  ctx : Nat
  state : QState
  descVa : Nat
  ring : Nat
  log2n : Nat
  dsig : DWord
  tail : Nat
  head : Nat
  res : Nat
  errIdx : Nat
  errCause : Cause
  ready : List Packet
  started : List Started
  reading : Nat
  fault : Option Nat
  halted : Bool
  deriving DecidableEq, Repr

/-- Who waits in a wait table: a WAITSIG packet, a `SIGWT` weave, a peer (R45, R50, R345). -/
inductive Waiter where
  | packet (q idx : Nat)
  | weave (cid widx : Nat)
  | peer
  deriving DecidableEq, Repr

/-- A registration in a wait table, by owner and reference; `sent` is the value that a peer was last told. -/
structure WaitReg where
  owner : Nat
  ref : DWord
  who : Waiter
  sent : DWord
  deriving DecidableEq, Repr

/-- An operation at a signal's home bank that waits for room in its owner's dirty-page log (R163), and the host message that
it performs. -/
structure SigWait where
  owner : Nat
  op : SigOp
  ref : DWord
  msg : Option Msg
  deriving DecidableEq, Repr

/-- A message from a peer device (R50, R51); a notification may be one that a migration's source forwards. -/
inductive PeerMsg where
  | sigop (owner : Nat) (op : SigOp) (ref : DWord)
  | notify (owner : Nat) (ref val : DWord) (forwarded : Bool)
  | register (owner : Nat) (ref : DWord)
  deriving DecidableEq, Repr

/-- What the module sends to hosts and peers. -/
inductive HostMsg where
  | ack (ctx msn : Nat)
  | nack (ctx msn : Nat) (why : String)
  | data (ctx msn : Nat) (bytes : List Byte)
  | note (ctx : Nat) (bytes : List Byte)
  | peerOp (owner : Nat) (op : SigOp) (ref : DWord)
  | peerRegister (owner : Nat) (ref : DWord)
  | peerNotify (owner : Nat) (ref val : DWord)
  | peerValue (owner : Nat) (ref val : DWord)
  | relay (owner : Nat) (m : PeerMsg)
  deriving DecidableEq, Repr

/-- A page request of an owner (R159, R160): the weaves that wait for it, and for each engine or packet that does, the
event to run on RETRY and the one on FAIL. `cids` are the crews that asked and live on, waiting or saved. -/
structure PageReq where
  slot : Nat
  va : Nat
  gen : Word
  weaves : List (Nat × Nat)
  cids : List Nat
  others : List (Instr × Instr)
  live : Bool
  deriving DecidableEq, Repr

/-- A tenant (R59, R63, R67, R147, R155, R162, R163, R167). Lists of four are by die; `ringWait` and `logWait` are the
events of engines and packets that wait for room in the request ring and in the dirty-page log; `phase` is the last step of a
switch that has been performed for it, 0 outside one (R64). -/
structure Tenant where
  tag : Nat
  part : Nat
  root : Nat
  ecb : Nat
  ring : Nat
  ringLog2 : Nat
  commonsMib : Nat
  slice : Nat
  keyId : Nat
  peers : List (Nat × DWord × DWord)
  commons : List Memory
  shadow : BitVec 256
  gens : List Nat
  logged : List (List (Nat × Nat))
  rqcons : DWord
  given : DWord
  dlcons : DWord
  dlctl : DWord
  tlbgen : DWord
  reqs : List PageReq
  rqgen : Word
  ringWait : List Instr
  logWait : List Instr
  running : Bool
  sliceEnd : Nat
  phase : Nat
  migrated : Bool
  deriving DecidableEq, Repr

/-! ## Work -/

/-- A launch record (R90). -/
structure LRec where
  gang : Bool
  split : Bool
  threads : Nat
  gcrews : Nat
  prio : Nat
  homearg : Nat
  reslim : Nat
  hstride : Nat
  entry0 : Nat
  entry1 : Nat
  regs0 : Nat
  regs1 : Nat
  pweaves : Nat
  gregs : Nat
  accq : Nat
  tblq : Nat
  tblkb : Nat
  scrkb : Nat
  deriving DecidableEq, Repr

/-- A continuation bin of a launch on a die (R97): records are (entry, six arguments). -/
structure Bin where
  die : Nat
  bin : Nat
  entry : Pc
  recs : List (List DWord)
  joined : Nat
  deriving DecidableEq, Repr

/-- What a launch serves: a LAUNCH packet, or a stage of a graph instance (R82). -/
inductive LKind where
  | packet (q idx : Nat)
  | stage (gid inst stg : Nat)
  deriving DecidableEq, Repr

/-- A launch (R91 to R97, R102, R232). `startSeq` is the place of its packet among the starts (R95),
`unplaced` are intervals of unit indices; `posted` marks a completion on its way; `homeMap` records rehomings of units not yet placed (R29). -/
structure Launch where
  lid : Nat
  owner : Nat
  kind : LKind
  lrec : LRec
  args : Nat
  count : Nat
  startSeq : Nat
  homeBase : Option DWord
  unplaced : List (Nat × Nat)
  homeMap : List Nat
  recDie : Option Nat
  recBase : Nat
  outstanding : Nat
  firstErr : Option Cause
  ended : Bool
  posted : Bool
  halted : Bool
  bins : List Bin
  ringBytes : List Nat
  deriving DecidableEq, Repr

/-- A Barrier Directory record (R103), by global number die * 16384 + r. `left` counts members that exited after
arriving in GEN (R104). -/
structure BdirRec where
  num : Nat
  own : Nat
  scope : Nat
  index : Nat
  gen : Word
  expect : Nat
  arrived : Nat
  launch : Nat
  unit : Nat
  wdies : BitVec 4
  absw : Nat
  left : Nat
  deriving DecidableEq, Repr

/-- Resources reserved for a waiting gang on a die (R96): the cores of the members that have a place, and the cores where a
further member has as much of one as is free. -/
structure GangRes where
  lid : Nat
  unit : Nat
  die : Nat
  cores : List Nat
  partly : List Nat
  deriving DecidableEq, Repr

/-- An address of a copy or collective range. `kept` are the bytes that a crew's scratch held when the crew left: the source
of a copy that it had issued (R289). -/
inductive CAddr where
  | glb (va : Nat)
  | scr (cid off : Nat)
  | cmn (a : Nat)
  | kept (bs : List Byte)
  deriving DecidableEq, Repr

/-- A run of bytes a copy moves. -/
structure Seg where
  src : CAddr
  dst : CAddr
  len : Nat
  deriving DecidableEq, Repr

/-- Who learns of a copy's end: a packet, or a crew's ticket with its completion word (R166, R355). -/
inductive CopyEnd where
  | packet (q idx : Nat)
  | ticket (cid : Nat) (t : Nat) (cw : Option (Nat × Word))
  deriving DecidableEq, Repr

/-- A copy (R165); `lid` is the launch whose completion waits for it, `weave` the weave that issued it. The first copy of an
engine is in flight, those after it are queued. `fault` is the VA whose fault it waits on (R41). -/
structure Copy where
  id : Nat
  owner : Nat
  lid : Option Nat
  weave : Option (Nat × Nat)
  die : Nat
  engine : Nat
  segs : List Seg
  fault : Nat
  fin : CopyEnd
  deriving DecidableEq, Repr

/-- A participant of a collective (R357). -/
structure Part where
  cid : Nat
  ticket : Nat
  die : Nat
  kind : Nat
  wire : Nat
  op : Nat
  src : Nat
  dst : Nat
  count : Nat
  rank : Nat
  n : Nat
  root : Nat
  deriving DecidableEq, Repr

/-- An open collective of a launch and a TAG; `fault` is the VA whose fault it waits on. -/
structure Coll where
  id : Nat
  lid : Nat
  tag : Word
  parts : List Part
  failed : Bool
  posted : Bool
  fault : Nat
  deriving DecidableEq, Repr

/-- A channel record (R74). -/
structure Chan where
  pstg : Nat
  cstg : Nat
  prate : Nat
  crate : Nat
  rlog2 : Nat
  delay : Nat
  hpoff : Nat
  deriving DecidableEq, Repr

/-- A channel's progress in an instance (R84 to R86): records moved in and out, and of the core rings. -/
structure ChProg where
  movIn : Nat
  movOut : Nat
  deriving DecidableEq, Repr

/-- A live replay instance (R82, R84). `released` counts firings released, `doneF` those completed in table order; `feeders` are
the die of each channel's feeder and its number there (R85); `failing` is the cause of a failure that is under way, `lost` are the
channels whose memory has failed for good, and the number after them when the object's image has (R87). -/
structure Inst where
  id : Nat
  q : Nat
  idx : Nat
  slot : Nat
  periods : Nat
  lids : List Nat
  arrays : List (Nat × Nat)
  feeders : List (Nat × Nat)
  released : Nat
  doneF : List Nat
  chans : List ChProg
  finished : Bool
  failing : Option Cause
  lost : List Nat
  deriving DecidableEq, Repr

/-- The states of a graph object (R76). -/
inductive GState where
  | unbound | bound | faulted
  deriving DecidableEq, Repr

/-- A graph object (R72 to R83). `shift` are the records that completed instances moved out of each channel, which fixes
each record's place in its buffer; `held` those that the channel held between them (R84);
`waiting` the operations that have not ended, in order (R77). -/
structure Graph where
  gid : Nat
  owner : Nat
  gobj : Nat
  state : GState
  next : Nat
  sref : BitVec 3
  wsva : Nat
  parlen : Nat
  periods : Nat
  done : DWord
  gcause : Cause
  stages : List (Nat × Nat)
  chans : List Chan
  qv : List Nat
  caps : List Nat
  table : List (Nat × Nat)
  psoff : Nat
  boff : Nat
  coff : Nat
  wsuse : Nat
  shift : List Nat
  held : List Nat
  insts : List Inst
  waiting : List (Nat × Nat)
  deriving DecidableEq, Repr

/-- A load, `BARQ`, `IDIV` or `ARD` in flight: the registers it fills and their values when it is complete (R138,
R140); `soft` are the HBM stacks whose counters the corrected errors it met advance (R18). For an `ARD`,
`lanes` are the writing lanes and the values come from the tile. -/
structure Flight where
  id : Nat
  cid : Nat
  widx : Nat
  pc : Pc
  regs : List (Nat × VReg)
  gregs : List (Nat × Word)
  counts : Bool
  lanes : Mask
  ue : Option Pending
  barq : Option Nat
  soft : List Nat
  deriving DecidableEq, Repr

/-- A pre-emption whose reason has not passed (R119): the targets still to leave, and the crews it has saved. -/
structure PreReq where
  id : Nat
  why : Preempt
  targets : List Nat
  gone : List Nat
  saving : Bool
  deriving DecidableEq, Repr

/-- A shadow flip under way (R168). -/
structure Publ where
  id : Nat
  cid : Nat
  widx : Nat
  grp : Nat
  deriving DecidableEq, Repr

/-- An armed line and the weave that armed it (R109, R340). -/
structure Armed where
  line : WLine
  cid : Nat
  widx : Nat
  deriving DecidableEq, Repr

/-! ## Scevar and management -/

/-- The TYPE of a log record (R56). -/
inductive LogType where
  | begin | update | commit | abort | checkpoint
  deriving DecidableEq, Repr

/-- A write-ahead log record (R56, R57). `cmd` is the command a BEGIN carries; `obj` numbers an UPDATE's object. -/
structure LogRec where
  lsn : Nat
  txid : Nat
  type : LogType
  obj : Nat
  before : BitVec 128
  after : BitVec 128
  cmd : Option Instr
  crc : Word
  deriving DecidableEq, Repr

/-- A message of a command link: its sequence number and what it reports (R53 to R55). -/
inductive LinkBody where
  | place (cid : Nat)
  | crewDone (lid unit : Nat)
  | endCause (lid : Nat) (c : Cause)
  | resync (last : Nat)
  deriving DecidableEq, Repr

/-- One direction of a command link (R54, R55). -/
structure LinkDir where
  permits : Nat
  nextSeq : Nat
  queue : List (Nat × LinkBody)
  wire : List (Nat × LinkBody)
  sent : List (Nat × LinkBody)
  accepted : Option Nat
  deriving DecidableEq, Repr

/-- A command link between Scevar and a leaf. -/
structure CmdLink where
  down : LinkDir
  up : LinkDir
  deriving DecidableEq, Repr

/-- A Welt link (R14): `dead` once its retraining has failed. -/
inductive WeltState where
  | up | retraining | dead
  deriving DecidableEq, Repr

/-- A Welt link and its failures in a row (R14). -/
structure Welt where
  state : WeltState
  fails : Nat
  deriving DecidableEq, Repr

/-- An external port (R19, R20). Its two halves, when it is split, come up and go down together (log entry 78). -/
structure Port where
  up : Bool
  split : Bool
  cfgSplit : Bool
  deriving DecidableEq, Repr

/-- An error-control block, as the device holds the management one (R67, R68). -/
structure Ecb where
  estat : DWord
  eclr : DWord
  emask : DWord
  esev : DWord
  prod : DWord
  cons : DWord
  drops : DWord
  deriving DecidableEq, Repr

/-- The management space and its registers (R25, R58, R59, R61, R120). `args` are the argument words of a command that takes
more than one turn, from its first. -/
structure Mgmt where
  pwrErr : Bool
  pmax : BitVec 4
  ceil : BitVec 9
  avg : BitVec 12
  samples : List Nat
  lastLift : Nat
  accGate : Nat
  hostGate : Nat
  preq : BitVec 4
  partErr : Bool
  pids : List Nat
  restarts : Nat
  ftl : Bool
  rruErr : Bool
  drain : Nat
  spen : Bool
  quant : Nat
  mres : DWord
  args : List Nat
  mailbox : Memory
  ecb : Ecb
  errRing : List (Nat × BitVec 512)
  recovery : Bool
  staged : Option (List Byte)
  running : Option (List Byte)
  leafIndex : Nat
  shutdown : Bool
  deriving DecidableEq, Repr

/-- Scevar (R56 to R58): its log, its state in HBM as the objects that records name, its restarts within 1 s. `hung`: it has
stopped and awaits the watchdog. `hang`, which the outside sets, is the number of UPDATEs after which it stops in its next
transaction. -/
structure Scevar where
  log : List LogRec
  lsn : Nat
  txid : Nat
  objs : List (Nat × BitVec 128)
  recent : List Nat
  hang : Option Nat
  hung : Bool
  deriving DecidableEq, Repr

/-- The environment's readings, which the sensor events take (R14, R18, R23, R24, R235): input power and the power
predicted after 0, 1, 2, … further measures, in W; dies from the hottest on, and those at 105 °C; the link whose flit failed
and whether one had passed since its last failure; the corrected errors that a round of scrub finds, by stack, and the
32-byte words of HBM that hold a soft error. -/
structure Env where
  watts : Nat
  predicted : List Nat
  hottest : List Nat
  hotDies : List Nat
  badLink : Nat
  passed : Bool
  corrected : List Nat
  soft : List Nat
  sites : List UeSite
  deriving DecidableEq, Repr

/-- Whose turn it is: the k-th posted event, a weave, or the passing of time (log entry 4). -/
inductive Turn where
  | event (k : Nat)
  | weave (cid widx : Nat)
  | elapse (ns : Nat)
  deriving DecidableEq, Repr

/-! ## The module -/

/-- The whole module. `parts` are the register writes of a message that wait for those before them (R33). The
fields from `now` to `fresh` are the model's own (log entries 3, 4). -/
structure State where
  now : Nat
  agenda : List Turn
  pending : List Instr
  parts : List (Nat × Nat × List Instr)
  timers : List (Nat × Instr)
  evTurn : Bool
  cur : Option (Nat × Nat)
  out : List HostMsg
  ids : Nat
  fresh : Nat
  env : Env
  hbm : Memory
  keyTags : List (Nat × Nat)
  ueHbm : List Nat
  ueCommons : List (Nat × Nat × Nat)
  dies : List Die
  cores : List Core
  welt : List Welt
  ports : List Port
  stackErrs : List Nat
  mgmt : Mgmt
  scv : Scevar
  links : List CmdLink
  tenants : List Tenant
  ctxs : List Ctx
  queues : List Queue
  waits : List WaitReg
  remoteWaits : List WaitReg
  sigWait : List SigWait
  peerIn : List PeerMsg
  launches : List Launch
  crews : List Crew
  bdir : List BdirRec
  gangRes : List GangRes
  flights : List Flight
  armed : List Armed
  copies : List Copy
  colls : List Coll
  graphs : List Graph
  pre : List PreReq
  publs : List Publ
  deriving DecidableEq, Repr

/-- Why the machine stops. -/
inductive Fault where
  /-- Raised by every weave instruction when `exec` is asked for it while no weave is issuing. No step does so. Safe:
  the machine has no such instruction to run. -/
  | noIssuingWeave
  deriving DecidableEq, Repr

/-- Why an instruction has no meaning here. -/
inductive Refusal where
  /-- Raised by an arm of `exec` that has no meaning yet. Safe. -/
  | notModelled (mnemonic : String)
  deriving DecidableEq, Repr

/-! ## Reset -/

def Core.reset : Core := ⟨[], [], [], [], [], [], [0, 0, 0, 0]⟩

def Die.reset : Die :=
  { power := .on 0, clkM := 0, nextP := none, queuedP := none, gate := 0, hot := false, tlb := [], walks := [],
    save := none, restore := none, nextEngine := 0, stashBytes := 0, hbmStashBytes := 0, routes := [] }

/-- Full permits and sequence number 0 (R54, R55). -/
def LinkDir.reset (permits : Nat) : LinkDir :=
  { permits := permits, nextSeq := 0, queue := [], wire := [], sent := [], accepted := none }

def CmdLink.reset : CmdLink := ⟨LinkDir.reset 8, LinkDir.reset 16⟩

/-- Every word of the management block is 0 at module reset (R68). -/
def Ecb.zero : Ecb := ⟨0, 0, 0, 0, 0, 0, 0⟩

/-- Reset values of R25, R58, R61, R120; the rest by log entries 7 and 8. -/
def Mgmt.reset : Mgmt :=
  { pwrErr := false, pmax := 0, ceil := 250, avg := 0, samples := [], lastLift := 0, accGate := 0, hostGate := 0,
    preq := 0, partErr := false, pids := [0, 0, 0, 0], restarts := 0, ftl := false, rruErr := false, drain := 20,
    spen := true, quant := 100, mres := 0, args := [], mailbox := [], ecb := Ecb.zero, errRing := [], recovery := false,
    staged := none, running := none, leafIndex := 0, shutdown := false }

/-- The management context, set up at boot (R59); its key 1 names the 64 KiB management space. -/
def Ctx.management : Ctx :=
  { id := 0, job := Config.managementJob, addr := Config.managementAddr, owner := 255, tss := .boot, keys := [], wm := 0,
    ahead := [], seq := 0, qstate := 0, status := 0 }

def Env.quiet : Env := ⟨0, [], [], [], 0, true, [], [], []⟩

/-- The module right after reset. The power sample, Scevar's checkpoint and the patrol scrub come at their times (R18, R23,
R57). -/
def State.reset : State :=
  { now := 0, agenda := [], pending := [], parts := [],
    timers := [(10000, .powerSample), (1000000, .checkpoint), (86400000000000, .patrolScrub)], evTurn := true, cur := none,
    out := [], ids := 0, fresh := 0,
    env := Env.quiet, hbm := [], keyTags := [], ueHbm := [], ueCommons := [],
    dies := List.replicate 4 Die.reset, cores := List.replicate 256 Core.reset,
    welt := List.replicate 4 ⟨.up, 0⟩, ports := List.replicate 8 ⟨false, false, false⟩,
    stackErrs := List.replicate 8 0, mgmt := Mgmt.reset, scv := ⟨[], 0, 0, [], [], none, false⟩,
    links := List.replicate 32 CmdLink.reset, tenants := [], ctxs := [Ctx.management], queues := [], waits := [],
    remoteWaits := [], sigWait := [], peerIn := [], launches := [], crews := [], bdir := [], gangRes := [], flights := [], armed := [],
    copies := [], colls := [], graphs := [], pre := [], publs := [] }

end Sys2Proof.Machine
end

