-- ==== Sys2Proof/Machine/Ops.lean ====
section
/-! DEFINITION. Machine/Ops.lean: the named operations over memory, registers and the parts of the state; posting events;
error events (R67, R68); taking a trap and returning from one (R225 to R234). -/

namespace Sys2Proof.Machine

/-! ## Memory -/

/-- The byte at an address. -/
def Memory.read : Memory → Nat → Byte
  | [], _ => unlistedByte
  | (a, b) :: m, x => if a = x then b else Memory.read m x

/-- Store a byte, keeping the canonical form. -/
def Memory.write : Memory → Nat → Byte → Memory
  | [], x, v => if v = unlistedByte then [] else [(x, v)]
  | (a, b) :: m, x, v =>
    if a < x then (a, b) :: Memory.write m x v
    else if a = x then (if v = unlistedByte then m else (x, v) :: m)
    else if v = unlistedByte then (a, b) :: m else (x, v) :: (a, b) :: m

/-- The canonical form: addresses strictly rising, no entry equal to what an unlisted address reads as. -/
abbrev Memory.wf (m : Memory) : Prop := m.Pairwise (fun x y => x.1 < y.1) ∧ ∀ c ∈ m, c.2 ≠ unlistedByte

/-- The n bytes from an address, lowest first. -/
def Memory.readN (m : Memory) (a n : Nat) : List Byte := (List.range n).map fun i => Memory.read m (a + i)

/-- Store bytes from an address, lowest first. -/
def Memory.writeN (m : Memory) (a : Nat) : List Byte → Memory
  | [] => m
  | b :: bs => Memory.writeN (Memory.write m a b) (a + 1) bs

/-! ## Finding and replacing parts of the state -/

/-- Apply `f` to every element that `p` picks. -/
def updWhere {α : Type} (xs : List α) (p : α → Bool) (f : α → α) : List α := xs.map fun x => if p x then f x else x

/-- Set a key of a list of pairs; a new key goes to the end. -/
def assocSet {β : Type} (xs : List (Nat × β)) (k : Nat) (v : β) : List (Nat × β) :=
  if xs.any (fun x => x.1 == k) then updWhere xs (fun x => x.1 == k) (fun x => (x.1, v)) else xs ++ [(k, v)]

def assocGet {β : Type} (xs : List (Nat × β)) (k : Nat) : Option β := (xs.find? fun x => x.1 == k).map (·.2)

def State.crew? (s : State) (cid : Nat) : Option Crew := s.crews.find? fun c => c.cid == cid
def State.modCrew (s : State) (cid : Nat) (f : Crew → Crew) : State :=
  { s with crews := updWhere s.crews (fun c => c.cid == cid) f }
def State.weave? (s : State) (cid wx : Nat) : Option Weave := (s.crew? cid).bind fun c => c.weaves[wx]?
def Crew.modWeave (c : Crew) (wx : Nat) (f : Weave → Weave) : Crew := { c with weaves := modNth c.weaves wx f }
def State.modWeave (s : State) (cid wx : Nat) (f : Weave → Weave) : State := s.modCrew cid fun c => c.modWeave wx f
/-- Replace a weave. -/
def State.putWeave (s : State) (cid wx : Nat) (w : Weave) : State := s.modWeave cid wx fun _ => w

def State.tenant? (s : State) (tag : Nat) : Option Tenant := s.tenants.find? fun t => t.tag == tag
def State.modTenant (s : State) (tag : Nat) (f : Tenant → Tenant) : State :=
  { s with tenants := updWhere s.tenants (fun t => t.tag == tag) f }
def State.queue? (s : State) (q : Nat) : Option Queue := s.queues.find? fun x => x.q == q
def State.modQueue (s : State) (q : Nat) (f : Queue → Queue) : State :=
  { s with queues := updWhere s.queues (fun x => x.q == q) f }
def State.ctx? (s : State) (id : Nat) : Option Ctx := s.ctxs.find? fun c => c.id == id
def State.modCtx (s : State) (id : Nat) (f : Ctx → Ctx) : State :=
  { s with ctxs := updWhere s.ctxs (fun c => c.id == id) f }
def State.launch? (s : State) (lid : Nat) : Option Launch := s.launches.find? fun l => l.lid == lid
def State.modLaunch (s : State) (lid : Nat) (f : Launch → Launch) : State :=
  { s with launches := updWhere s.launches (fun l => l.lid == lid) f }
def State.bdir? (s : State) (num : Nat) : Option BdirRec := s.bdir.find? fun r => r.num == num
def State.modBdir (s : State) (num : Nat) (f : BdirRec → BdirRec) : State :=
  { s with bdir := updWhere s.bdir (fun r => r.num == num) f }
def State.graph? (s : State) (gid : Nat) : Option Graph := s.graphs.find? fun g => g.gid == gid
def State.modGraph (s : State) (gid : Nat) (f : Graph → Graph) : State :=
  { s with graphs := updWhere s.graphs (fun g => g.gid == gid) f }
def State.die (s : State) (d : Nat) : Die := nthD s.dies d Die.reset
def State.modDie (s : State) (d : Nat) (f : Die → Die) : State := { s with dies := modNth s.dies d f }
def State.core (s : State) (k : Nat) : Core := nthD s.cores k Core.reset
def State.modCore (s : State) (k : Nat) (f : Core → Core) : State := { s with cores := modNth s.cores k f }

/-- The die of a core number: 64 cores each (R10, R241). -/
def dieOfCore (k : Nat) : Nat := k / 64

/-- The core that a resident crew runs on. -/
def Crew.core? (c : Crew) : Option Nat :=
  match c.place with
  | .resident k => some k
  | _ => none

/-- The core whose resources a crew holds (R92, R114). -/
def Crew.holds? (c : Crew) : Option Nat :=
  match c.place with
  | .resident k | .saving k | .restoring k => some k
  | .stashed _ _ => none

/-- The die that a crew is on, in a core or in its stash. -/
def Crew.die (c : Crew) : Nat :=
  match c.place with
  | .resident k | .saving k | .restoring k => dieOfCore k
  | .stashed d _ => d

/-- A core that holds no crew loses the units found with a permanent fault (R242). -/
def State.repair (s : State) (core : Nat) : State :=
  if s.crews.any fun c => c.holds? == some core then s
  else s.modCore core fun k => { k with out := k.out ++ k.repairs, repairs := [] }

/-- Every core that stands empty is repaired. -/
def State.repairAll (s : State) : State :=
  ((List.range s.cores.length).filter fun k => !(s.core k).repairs.isEmpty).foldl State.repair s

/-! ## Posting -/

/-- Post an event for a later turn. -/
def State.post (s : State) (i : Instr) : State := { s with pending := s.pending ++ [i] }

/-- Post an event unless the same one already waits. -/
def State.postOnce (s : State) (i : Instr) : State := if s.pending.contains i then s else s.post i

/-- Post an event when `ns` have passed. -/
def State.after (s : State) (ns : Nat) (i : Instr) : State := { s with timers := s.timers ++ [(s.now + ns, i)] }

/-- Post an event at a time, or now when it has passed. -/
def State.at_ (s : State) (t : Nat) (i : Instr) : State := { s with timers := s.timers ++ [(max s.now t, i)] }

def State.say (s : State) (m : HostMsg) : State := { s with out := s.out ++ [m] }

/-- A fresh identifier. -/
def State.newId (s : State) : State := { s with ids := s.ids + 1 }

/-- Advance the counter that free values are drawn with (log entry 3). -/
def State.draw (s : State) : State := { s with fresh := s.fresh + 1 }

/-- Ask for the placement of waiting units on every die, and for the next save of a pre-emption. -/
def State.kick (s : State) : State :=
  let s := [0, 1, 2, 3].foldl (fun s d => s.postOnce (.unitPlacement d)) s
  if s.pre.isEmpty then s else s.postOnce .slotNeeded

/-! ## Partitions (R61, R62) -/

def State.partOf (s : State) (d : Nat) : Nat := nthD s.mgmt.pids d 0

/-- The dies of a partition, in increasing number. -/
def State.partDies (s : State) (p : Nat) : List Nat := [0, 1, 2, 3].filter fun d => s.partOf d == p

/-- FW bit 1 is set exactly when the link's two dies carry different partition numbers (R61); links 0-1, 2-3, 0-2,
1-3 in bit order. -/
def State.firewall (s : State) : BitVec 4 :=
  let ne (a b : Nat) : Bool := s.partOf a != s.partOf b
  BitVec.ofBool (ne 1 3) ++ BitVec.ofBool (ne 0 2) ++ BitVec.ofBool (ne 2 3) ++ BitVec.ofBool (ne 0 1)

/-- The lowest-numbered die of a partition (R168). -/
def State.firstDie (s : State) (p : Nat) : Nat := ((s.partDies p).head?).getD 0

/-! ## Welt routes (R12, R14) -/

/-- The links that traffic between two dies crosses, in order (R12): the horizontal one first, then the vertical one. -/
def weltRoute (a b : Nat) : List Nat :=
  (if a % 2 = b % 2 then [] else [a / 2 % 2]) ++ (if a / 2 % 2 = b / 2 % 2 then [] else [2 + b % 2])

/-- Traffic between two dies, in one direction or the other, would cross a link that is not up. -/
def State.stalled (s : State) (a b : Nat) : Bool :=
  (weltRoute a b ++ weltRoute b a).any fun k => match s.welt[k]? with
    | some l => l.state != .up
    | none => false

/-! ## HBM with its owners' keys (R17, R65) -/

/-- A physical address of HBM whose offset in its die's window is populated (R17). -/
def paBacked (pa : Nat) : Bool := decide (pa < 2 ^ 40) && decide (pa % 2 ^ 38 < 0x2800000000)

/-- The stack that holds an HBM address: granules of 256 bytes alternate between a die's two (R17). -/
def paStack (pa : Nat) : Nat := 2 * (pa / 2 ^ 38 % 4) + pa / 256 % 2

/-- The die that owns an HBM address (R17). -/
def paDie (pa : Nat) : Nat := pa / 2 ^ 38 % 4

/-- The key of an owner: a tenant's own, or 0 for the management owner (R65). -/
def State.keyOf (s : State) (owner : Nat) : Nat :=
  match s.tenant? owner with
  | some t => t.keyId
  | none => 0

/-- What an owner reads at an HBM address. A granule that another key wrote reads as a free value (R65, log entry 2). -/
def State.hbmByte (s : State) (owner pa : Nat) : Byte :=
  let b := Memory.read s.hbm pa
  match assocGet s.keyTags (pa / 256) with
  | none => b
  | some k => if k = s.keyOf owner then b else Config.crossKeyByte k (s.keyOf owner) pa b

def State.hbmBytes (s : State) (owner pa n : Nat) : List Byte := (List.range n).map fun i => s.hbmByte owner (pa + i)

/-- A 32-byte ECC word is in error (R235). -/
def State.hbmUe (s : State) (pa n : Nat) : Bool := s.ueHbm.any fun u => pa < u + 32 && u < pa + n

/-- Make a granule the owner's: bytes written under another key become what the owner reads there (R65). -/
def State.claimGranule (s : State) (owner g : Nat) : State :=
  let key := s.keyOf owner
  match assocGet s.keyTags g with
  | some k =>
    if k = key then s
    else { s with hbm := Memory.writeN s.hbm (g * 256) (s.hbmBytes owner (g * 256) 256),
                  keyTags := assocSet s.keyTags g key }
  | none => { s with keyTags := assocSet s.keyTags g key }

/-- Write bytes of HBM for an owner. A write that covers a whole 32-byte word in error clears the error; a byte of a
word that stays in error is dropped (R235). -/
def State.hbmWrite (s : State) (owner pa : Nat) (bs : List Byte) : State :=
  if bs.isEmpty then s
  else
    let n := bs.length
    let s := (List.range ((pa + n - 1) / 256 - pa / 256 + 1)).foldl (fun s i => s.claimGranule owner (pa / 256 + i)) s
    let ue := s.ueHbm.filter fun u => !(pa ≤ u && u + 32 ≤ pa + n)
    let s := { s with ueHbm := ue }
    if ue.any (fun u => pa < u + 32 && u < pa + n) then
      let keep := (bs.zip (List.range n)).map fun (b, i) =>
        if ue.any (fun u => u ≤ pa + i && pa + i < u + 32) then Memory.read s.hbm (pa + i) else b
      { s with hbm := Memory.writeN s.hbm pa keep }
    else { s with hbm := Memory.writeN s.hbm pa bs }

/-! ## Page tables (R151, R152) -/

/-- What a walk finds. `firstTouch` is a first-touch entry: where it lies, its level and its bits. `missing` is any other
entry that is not valid; `malformed` one that R152 calls so; `unbacked` an entry at an unpopulated address (R17). -/
inductive WalkResult where
  | leaf (l : Leaf) (entryPa : Nat)
  | firstTouch (entryPa level : Nat) (entry : DWord)
  | missing
  | malformed
  | unbacked
  deriving DecidableEq, Repr

/-- The index of a VA at a level (R151). -/
def walkIndex (level va : Nat) : Nat :=
  match level with
  | 0 => va / 2 ^ 39 % 8192
  | 1 => va / 2 ^ 30 % 512
  | 2 => va / 2 ^ 21 % 512
  | _ => va / 2 ^ 16 % 32

/-- Bytes that a leaf of a level maps (R151). -/
def levelBytes (level : Nat) : Nat :=
  match level with
  | 1 => 2 ^ 30
  | 2 => 2 ^ 21
  | _ => 2 ^ 16

/-- Size in bytes of a table of a level (R151). -/
def tableBytes (level : Nat) : Nat :=
  match level with
  | 0 => 2 ^ 16
  | 1 | 2 => 2 ^ 12
  | _ => 256

/-- Bytes of a page by the leaf's size code. -/
def pageBytes (size : Nat) : Nat :=
  match size with
  | 0 => 2 ^ 16
  | 1 => 2 ^ 21
  | _ => 2 ^ 30

/-- An entry that R152 treats as malformed at a level, for a partition. -/
def entryMalformed (s : State) (part level : Nat) (e : DWord) : Bool :=
  let n := e.toNat
  let lf := e.getLsbD 1
  let addr := bitsOf n 8 40 * 256
  let valid := e.getLsbD 0
  let frameBytes := if e.getLsbD 56 then 2 * levelBytes level else levelBytes level
  bitsOf n 59 5 != 0 || bitsOf n 5 2 == 3
    || (valid && ((level == 0 && lf) || (level == 3 && !lf)))
    || (valid && (if lf then addr % frameBytes != 0 else addr % tableBytes (level + 1) != 0))
    || (valid && !(decide (addr < 2 ^ 40) && s.partOf (paDie addr) == part))

/-- The leaf that an entry holds. -/
def leafOf (level : Nat) (e : DWord) : Leaf :=
  { addr := bitsOf e.toNat 8 40 * 256, size := 3 - level, r := e.getLsbD 2, w := e.getLsbD 3, x := e.getLsbD 4,
    kind := bitsOf e.toNat 5 2, watch := e.getLsbD 7, sh := e.getLsbD 56, sgrp := bitsOf e.toNat 48 8 }

/-- One level of a walk and those below it; `fuel` counts the levels left. -/
def walkFrom (s : State) (owner part va : Nat) : Nat → Nat → Nat → WalkResult
  | 0, _, _ => .malformed
  | fuel + 1, level, table =>
    let at_ := table + 8 * walkIndex level va
    let e : DWord := BitVec.ofNat 64 (natLE (s.hbmBytes owner at_ 8))
    if !paBacked at_ then .unbacked
    else if !e.getLsbD 0 then
      if e.getLsbD 57 then (if entryMalformed s part level e then .malformed else .firstTouch at_ level e) else .missing
    else if entryMalformed s part level e then .malformed
    else if e.getLsbD 1 then .leaf (leafOf level e) at_
    else walkFrom s owner part va fuel (level + 1) (bitsOf e.toNat 8 40 * 256)

/-- The owner's tenant is switched in and on this device: its work goes on (R51, R64). -/
def State.tenantRuns (s : State) (owner : Nat) : Bool :=
  match s.tenant? owner with
  | some t => t.running && !t.migrated
  | none => false

/-- Walk the page tables of an owner for a VA. -/
def State.walk (s : State) (owner va : Nat) : WalkResult :=
  match s.tenant? owner with
  | none => .missing
  | some t => walkFrom s owner t.part va 4 0 t.root

/-- The frame address of a VA on a leaf. A SHADOW leaf has two frames: reads use the active one, engine writes the
inactive one (R167). -/
def leafPa (l : Leaf) (shadow : BitVec 256) (va : Nat) (inactive : Bool) : Nat :=
  let sel := l.sh && (shadow.getLsbD l.sgrp != inactive)
  l.addr + (if sel then pageBytes l.size else 0) + va % pageBytes l.size

/-- A device access on behalf of an owner, without taking a fault: the physical address of a VA, when the page is
present, permits it and is populated (R17). -/
def State.devicePa (s : State) (owner va : Nat) (write : Bool) : Except Cause Nat :=
  match s.tenant? owner, s.walk owner va with
  | some t, .leaf l _ =>
    let pa := leafPa l t.shadow va false
    if !(if write then l.w else l.r) then .error .pageProtection
    else if !paBacked pa then .error .paUnbacked
    else .ok pa
  | _, .unbacked => .error .paUnbacked
  | _, _ => .error .pageNotPresent

/-- The pages a range touches are all present and permit the access; the first cause otherwise. -/
def State.deviceRange (s : State) (owner va n : Nat) (write : Bool) : Option Cause :=
  if n = 0 then none
  else
    let first := va / 2 ^ 16
    (List.range ((va + n - 1) / 2 ^ 16 - first + 1)).findSome? fun i =>
      match s.devicePa owner ((first + i) * 2 ^ 16 % 2 ^ 52) write with
      | .ok _ => none
      | .error c => some c

/-- The parts of n bytes from a VA that lie in one 64 KiB page each: offset and length. -/
def deviceChunks (va n : Nat) : List (Nat × Nat) :=
  if n = 0 then []
  else
    let first := va / 2 ^ 16
    (List.range ((va + n - 1) / 2 ^ 16 - first + 1)).map fun i =>
      let lo := max va ((first + i) * 2 ^ 16)
      (lo - va, min (va + n) ((first + i + 1) * 2 ^ 16) - lo)

/-- The bytes at a VA for an owner, where its pages can be read. -/
def State.deviceBytes (s : State) (owner va n : Nat) : List Byte :=
  (List.range n).map fun i => match s.devicePa owner ((va + i) % 2 ^ 52) false with
    | .ok pa => s.hbmByte owner pa
    | .error _ => unlistedByte

/-- A range meets a word in error; for a write, one that it does not cover whole (R235). -/
def State.deviceUe (s : State) (owner va n : Nat) (write : Bool) : Bool :=
  !s.ueHbm.isEmpty && (deviceChunks va n).any fun (off, k) => match s.devicePa owner ((va + off) % 2 ^ 52) write with
    | .ok pa => s.ueHbm.any fun u => pa < u + 32 && u < pa + k && !(write && pa ≤ u && u + 32 ≤ pa + k)
    | .error _ => false

/-- Read bytes at a VA for an owner, without taking a fault; a word in error cannot be read (R235). -/
def State.deviceRead (s : State) (owner va n : Nat) : Except Cause (List Byte) :=
  match s.deviceRange owner va n false with
  | some c => .error c
  | none => if s.deviceUe owner va n false then .error .memoryUe else .ok (s.deviceBytes owner va n)

/-! ## Writes and what they wake (R109, R150, R213) -/

/-- The line of a place (R109). -/
def Loc.line : Loc → WLine
  | .scratch cid off => .scratch cid (off / 64)
  | .commons o d off => .commons o d (off / 64)
  | .hbm pa => .hbm (pa / 64)

/-- The place `k` bytes further on. -/
def Loc.plus : Loc → Nat → Loc
  | .scratch cid off, k => .scratch cid (off + k)
  | .commons o d off, k => .commons o d (off + k)
  | .hbm pa, k => .hbm (pa + k)

/-- The offset or address that a place holds. -/
def Loc.off : Loc → Nat
  | .scratch _ o => o
  | .commons _ _ o => o
  | .hbm p => p

/-- The lines that n bytes from a place touch. -/
def Loc.lines (l : Loc) (n : Nat) : List WLine :=
  if n = 0 then []
  else (List.range ((l.off + n - 1) / 64 - l.off / 64 + 1)).map fun i => (l.plus (i * 64)).line

/-- Every write to an armed line sets the woken flag of its watcher and sends it a wake (R109, R340). -/
def State.wakeLines (s : State) (ls : List WLine) : State :=
  (s.armed.filter fun a => ls.contains a.line).foldl
    (fun s a => (s.modWeave a.cid a.widx fun w => { w with woken := w.woken || w.watch.contains a.line }).post
      (.armedLineWrite a.cid a.widx a.line)) s

/-- A write to scratch bytes makes STALE every set of the crew bound to them or spilled to them (R213). -/
def Tbl.staled (t : Tbl) (lo n : Nat) : Tbl :=
  let srcLen := 16 * (t.kg + 1) * (if t.afmt = 2 then 25 else 33)
  let hitSrc := match t.src with
    | .scratch off => decide (lo < off + srcLen) && decide (off < lo + n)
    | .regs _ _ => false
  let hitSpill := t.state == .spilled && decide (lo < t.spill + t.size * 1024) && decide (t.spill < lo + n)
  if hitSpill || (hitSrc && (t.state == .valid || t.state == .discarded || t.state == .spilled)) then
    { t with state := .stale }
  else t

/-- A crew that shares its scratch window with another: the same unit of a gang launch (R146). -/
def sameGang (a b : Crew) : Bool := a.inGang && b.inGang && a.lid == b.lid && a.unit == b.unit

/-- The crews of a gang in member order, or the crew alone: the windows that its scratch addresses run through (R146). -/
def State.windows (s : State) (c : Crew) : List Crew :=
  if c.inGang then
    (List.range 16).filterMap fun k => s.crews.find? fun x => sameGang x c && x.member == k
  else [c]

/-- Bytes of a crew's own window (R146). -/
def Crew.window (c : Crew) : Nat := c.shape.scrkb * 1024 + c.shape.ringBytes

/-- The scratch address, as the crews of a gang use it, of an offset in one crew's window. -/
def windowAddr : List Crew → Nat → Nat → Nat
  | [], _, off => off
  | c :: cs, cid, off => if c.cid = cid then off else c.window + windowAddr cs cid off

/-- A write to scratch bytes makes STALE the sets that are bound to them or spilled to them, of every crew that
addresses them (R213). -/
def State.staleScratch (s : State) (cid off n : Nat) : State :=
  match s.crew? cid with
  | none => s
  | some c =>
    let a := windowAddr (s.windows c) cid off
    { s with crews := updWhere s.crews (fun x => x.cid == cid || sameGang x c) fun (x : Crew) =>
        { x with tables := x.tables.map fun (t : Tbl) => t.staled a n } }

/-- Write bytes of a commons slice. A write that covers a whole 8-byte word in error clears the error; a byte of a word
that stays in error is dropped (R235). -/
def State.commonsWrite (s : State) (o d off : Nat) (bs : List Byte) : State :=
  let n := bs.length
  let ue := s.ueCommons.filter fun u => !(u.1 == o && u.2.1 == d && off ≤ u.2.2 && u.2.2 + 8 ≤ off + n)
  let bad (x : Nat) : Bool := ue.any fun u => u.1 == o && u.2.1 == d && u.2.2 ≤ x && x < u.2.2 + 8
  let put (m : Memory) : Memory :=
    if ue.isEmpty then Memory.writeN m off bs
    else Memory.writeN m off ((bs.zip (List.range n)).map fun (b, i) => if bad (off + i) then Memory.read m (off + i) else b)
  { s with ueCommons := ue }.modTenant o fun t => { t with commons := modNth t.commons d put }

/-- Write bytes at a place, for an owner, with every effect a performed write has on watchers and table sets. -/
def State.locWrite (s : State) (owner : Nat) (l : Loc) (bs : List Byte) : State :=
  let s := match l with
    | .scratch cid off =>
      (s.modCrew cid fun c => { c with scratch := Memory.writeN c.scratch off bs }).staleScratch cid off bs.length
    | .commons o d off => s.commonsWrite o d off bs
    | .hbm pa => s.hbmWrite owner pa bs
  s.wakeLines (l.lines bs.length)

/-- The walker sets A in a leaf it uses (R152, R156). -/
def State.setUsed (s : State) (owner entry : Nat) : State :=
  let top := s.hbmByte owner (entry + 7)
  if top.getLsbD 2 then s else s.locWrite owner (.hbm (entry + 7)) [top ||| 4]

/-- The device translates the pages of a range for an owner: each leaf's A is set. -/
def State.markUsed (s : State) (owner va n : Nat) : State :=
  let first := va / 2 ^ 16
  (List.range (if n = 0 then 0 else (va + n - 1) / 2 ^ 16 - first + 1)).foldl (fun s i =>
    match s.walk owner ((first + i) * 2 ^ 16 % 2 ^ 52) with
    | .leaf _ entry => s.setUsed owner entry
    | _ => s) s

/-- The byte at a place, as its home holds it. -/
def State.locRead (s : State) (owner : Nat) : Loc → Byte
  | .scratch cid off => match s.crew? cid with | some c => Memory.read c.scratch off | none => unlistedByte
  | .commons o d off => match s.tenant? o with
      | some t => Memory.read (nthD t.commons d []) off
      | none => unlistedByte
  | .hbm pa => s.hbmByte owner pa

def State.locReadN (s : State) (owner : Nat) (l : Loc) (n : Nat) : List Byte :=
  (List.range n).map fun i => s.locRead owner (l.plus i)

/-- Write bytes at a VA for an owner, without taking a fault; the cause when a page forbids it. A byte of a word that stays
in error is dropped (R235). -/
def State.deviceStore (s : State) (owner va : Nat) (bs : List Byte) : Except Cause State :=
  match s.deviceRange owner va bs.length true with
  | some c => .error c
  | none => .ok ((deviceChunks va bs.length).foldl (fun s (off, n) =>
      match s.devicePa owner ((va + off) % 2 ^ 52) true with
      | .ok pa => s.locWrite owner (.hbm pa) ((bs.drop off).take n)
      | .error _ => s) (s.markUsed owner va bs.length))

/-- The same for the device's own records: one that would leave a word in error is not written. -/
def State.deviceWrite (s : State) (owner va : Nat) (bs : List Byte) : Except Cause State :=
  if s.deviceUe owner va bs.length true then .error .memoryUe else s.deviceStore owner va bs

/-- Write 64-bit words at a VA; nothing happens when a page forbids it. -/
def State.deviceWriteWords (s : State) (owner va : Nat) (ws : List DWord) : State :=
  match s.deviceWrite owner va (ws.flatMap fun w => bytesLE 8 w.toNat) with
  | .ok s => s
  | .error _ => s

def State.deviceWord (s : State) (owner va : Nat) : Except Cause DWord :=
  match s.deviceRead owner va 8 with
  | .ok bs => .ok (BitVec.ofNat 64 (natLE bs))
  | .error c => .error c

/-! ## Corrected errors (R18) -/

/-- The stacks of the soft errors that a read of some bytes meets. -/
def State.softAt (s : State) (ls : List Loc) : List Nat :=
  s.env.soft.filterMap fun u => if ls.any fun l => match l with
    | .hbm pa => u ≤ pa && pa < u + 32
    | _ => false then some (paStack u) else none

/-- Corrected errors are counted in their stacks. -/
def State.countSoft (s : State) (ks : List Nat) : State :=
  if ks.isEmpty then s else { s with stackErrs := ks.foldl (fun xs k => modNth xs k (· + 1)) s.stackErrs }

/-- The soft errors that a device read at a VA meets. -/
def State.softDevice (s : State) (owner va n : Nat) : List Nat :=
  if s.env.soft.isEmpty then []
  else s.softAt ((List.range n).filterMap fun i => match s.devicePa owner ((va + i) % 2 ^ 52) false with
    | .ok pa => some (.hbm pa)
    | .error _ => none)

/-! ## Error events (R67, R68) -/

/-- The event classes (R67). -/
inductive EvClass where
  | packet | signal | kernel | page | memoryUe | link | residency | graph | info | security
  deriving DecidableEq, Repr

def EvClass.num : EvClass → Nat
  | .packet => 0 | .signal => 1 | .kernel => 2 | .page => 3 | .memoryUe => 4 | .link => 5 | .residency => 6
  | .graph => 7 | .info => 8 | .security => 9

/-- What an error record says (R68). `src` 0-3 is a die, 4 the host interface, 5 Scevar. -/
structure Event where
  cls : EvClass
  cause : Cause
  src : Nat := 5
  tag : Nat := 0
  qnum : Nat := 0x3FF
  pidx : Nat := 0
  addr : Nat := 0

/-- The 64-byte error record (R68). -/
def Event.bits (e : Event) (own now : Nat) (fatal : Bool) : BitVec 512 :=
  BitVec.ofNat 512 (e.cls.num + e.cause.code * 2 ^ 4 + (if fatal then 2 ^ 11 else 0) + e.src * 2 ^ 12 + own * 2 ^ 16
    + e.tag * 2 ^ 32 + e.qnum % 1024 * 2 ^ 64 + e.pidx % 2 ^ 64 * 2 ^ 128 + e.addr % 2 ^ 64 * 2 ^ 192
    + now % 2 ^ 64 * 2 ^ 256)

/-- A ring is full whenever (PROD − CONS) mod 2^64 is at least its size (R68, R162). -/
def ringFull (prod cons : DWord) (log2 : Nat) : Bool := decide (2 ^ log2 ≤ (prod - cons).toNat)

/-- A record on the management ring, of 512 records: ESTAT is set; EMASK of its block and a full ring hold (R68). FATAL says
the severity the event has where it happened. -/
def State.mgmtRecord (s : State) (own : Nat) (e : Event) (fatal : Bool) : State :=
  let b := s.mgmt.ecb
  let bit : DWord := BitVec.twoPow 64 e.cls.num
  let b := { b with estat := b.estat ||| bit }
  let s := { s with mgmt := { s.mgmt with ecb := b } }
  if (b.emask &&& bit) != 0 then s
  else if ringFull b.prod b.cons 9 then
    { s with mgmt := { s.mgmt with ecb := { b with drops := b.drops + 1 } } }
  else
    { s with mgmt := { s.mgmt with ecb := { b with prod := b.prod + 1 },
                                   errRing := assocSet s.mgmt.errRing (b.prod.toNat % 512) (e.bits own s.now fatal) } }

/-- An event that touches no tenant: ESEV of the management block is ignored, and none is fatal there (R68). -/
def State.mgmtEvent (s : State) (own : Nat) (e : Event) : State := s.mgmtRecord own e false

/-- A launch still has writes to perform: a copy, or a collective that has all its ranks (R41, R47). -/
def State.engineBusy (s : State) (lid : Nat) : Bool :=
  s.copies.any (fun c => c.lid == some lid) || s.colls.any fun c => c.lid == lid && c.posted

/-- The completion in error of a launch that has ended: once its writes are performed (R47); the packet's record and CSIG
follow from it. A stage's launch completes with its instance. -/
def State.postLaunchEnd (s : State) (lid : Nat) : State :=
  match s.launch? lid with
  | none => s
  | some l => match l.firstErr, l.kind with
    | none, _ => s
    | some c, .packet q idx =>
      if l.posted || !l.ended || s.engineBusy lid then s
      else (s.modLaunch lid fun l => { l with posted := true }).post (.packetCompletion q idx (some c) 0)
    | some _, .stage .. => s

/-- Bytes of a vector register in an image (R239). -/
def VReg.imageBytes : VReg → Nat
  | .gen _ => 132
  | _ => 8

/-- The size S of a crew's image, with the gang block counted at member 0 (R236, R240). -/
def Crew.imageBytes (c : Crew) : Nat :=
  2048 + (c.weaves.map fun w => 3072 + roundUp ((w.v.map VReg.imageBytes).sum) 64).sum
    + c.shape.scrkb * 1024 + c.shape.ringBytes + 2048 * (c.tiles.filter (·.bound)).length
    + (if c.inGang && c.member == 0 then 256 else 0)

/-- Give back the stash room of a crew (R115). -/
def State.unstash (s : State) (c : Crew) : State :=
  match c.place with
  | .stashed d true => s.modDie d fun x => { x with hbmStashBytes := x.hbmStashBytes - c.imageBytes }
  | .stashed d false => s.modDie d fun x => { x with stashBytes := x.stashBytes - c.imageBytes }
  | _ => s

/-- The byte at a scratch address of the crews whose windows these are (R146). -/
def windowByte : List Crew → Nat → Byte
  | [], _ => unlistedByte
  | c :: cs, off => if off < c.window then Memory.read c.scratch off else windowByte cs (off - c.window)

/-- A copy out of the scratch of crews that leave goes on with what the scratch holds (R289). -/
def State.keepSource (s : State) (cids : List Nat) (g : Seg) : Seg :=
  match g.src with
  | .scr cid off => match s.crew? cid with
    | some c => if cids.contains cid then { g with src := .kept ((List.range g.len).map fun k => windowByte (s.windows c) (off + k)) } else g
    | none => g
  | _ => g

/-- Discard crews with all they hold elsewhere: armed lines, flights, waits, walks, saves, stash room (R232, R340). Their copies
go on, and a core that they leave empty is repaired (R242). -/
def State.dropCrews (s : State) (cids : List Nat) : State :=
  let gone := s.crews.filter fun c => cids.contains c.cid
  let s := gone.foldl State.unstash s
  State.repairAll { s with
    crews := s.crews.filter fun c => !cids.contains c.cid
    copies := s.copies.map fun (c : Copy) => { c with segs := c.segs.map (s.keepSource cids) }
    armed := s.armed.filter fun a => !cids.contains a.cid
    flights := s.flights.filter fun f => !cids.contains f.cid
    waits := s.waits.filter fun r => match r.who with | .weave c _ => !cids.contains c | _ => true
    remoteWaits := s.remoteWaits.filter fun r => match r.who with | .weave c _ => !cids.contains c | _ => true
    publs := s.publs.filter fun p => !cids.contains p.cid
    tenants := s.tenants.map fun (t : Tenant) => { t with reqs := t.reqs.map fun (r : PageReq) =>
      let left := r.cids.filter fun x => !cids.contains x
      { r with weaves := r.weaves.filter fun x => !cids.contains x.1, cids := left
               live := r.live && (left.length == r.cids.length || !left.isEmpty || !r.others.isEmpty) } }
    pre := s.pre.map fun p => { p with targets := p.targets.filter fun t => !cids.contains t }
    cores := s.cores.map fun k => { k with accq := k.accq.filter fun op => match op with
      | .lka c .. | .ard _ c _ | .awr c .. | .azro c _ | .arel c _ | .build c _ | .tspill c _ | .tfill c _ | .tinv c _ =>
        !cids.contains c }
    dies := s.dies.map fun d =>
      { d with
        save := d.save.bind fun j => if j.cids.any cids.contains then none else some j
        restore := d.restore.bind fun j => if j.cids.any cids.contains then none else some j
        walks := d.walks.map fun w => { w with waiters := w.waiters.filter fun x => !cids.contains x.1 }
        routes := d.routes.filter fun r => !gone.any fun c => c.lid == r.lid && c.unit == r.unit && c.member == r.member } }

/-- Mark a launch as halted or not; the queue of its LAUNCH packet is halted while one of its launches is (R246). -/
def State.markHalted (s : State) (lid : Nat) (b : Bool) : State :=
  let s := s.modLaunch lid fun l => { l with halted := b }
  match (s.launch? lid).map Launch.kind with
  | some (.packet q _) => s.modQueue q fun x => { x with halted := s.launches.any fun l => l.halted && !l.ended && (match l.kind with
      | .packet p _ => p == q
      | _ => false) }
  | _ => s

/-- A launch is over: its first error cause is recorded, its units and bins are discarded (R232 steps 2 and 3); a halt of it is
over. -/
def State.dropLaunch (s : State) (lid : Nat) (c : Cause) : State :=
  match s.launch? lid with
  | none => s
  | some l =>
    if l.ended then s
    else
      let cids := (s.crews.filter fun x => x.lid == lid).map (·.cid)
      -- every member leaves: gang records are freed, launch records stay inert until the launch completes (R102, R104)
      let s := { s with bdir := (s.bdir.filter fun (r : BdirRec) => !(r.launch == lid && r.scope == 1)).map fun (r : BdirRec) =>
        if r.launch = lid then { r with expect := 0 } else r }
      let s := s.dropCrews cids
      let s := s.modLaunch lid fun l => { l with firstErr := some (l.firstErr.getD c), ended := true, unplaced := [],
                                                 bins := [], outstanding := 0 }
      let s := if l.halted then s.markHalted lid false else s
      let s := { s with gangRes := s.gangRes.filter fun g => g.lid != lid }
      (s.postLaunchEnd lid).kick

/-- A crew that issues nothing more. -/
def Crew.stopAll (c : Crew) : Crew :=
  { c with weaves := c.weaves.map fun (w : Weave) => { w with handler := some .ended, pend := none } }

/-- End a launch (R232). A stage's crews stop at once, and their instance fails: the records of their completed firings are
written before they go (R87). -/
def State.endLaunch (s : State) (lid : Nat) (c : Cause) : State :=
  match (s.launch? lid).map Launch.kind with
  | some (.stage gid inst _) =>
    let s := { s with crews := updWhere s.crews (fun x => x.lid == lid) Crew.stopAll }
    (s.modLaunch lid fun l => { l with firstErr := some (l.firstErr.getD c) }).postOnce (.instanceFail gid inst ⟨none, c⟩)
  | _ => s.dropLaunch lid c

/-- Force-reset a tenant's crews: each of its launches ends (R59, R68). -/
def State.forceReset (s : State) (owner : Nat) (c : Cause) : State :=
  ((s.launches.filter fun l => l.owner == owner).map (·.lid)).foldl (fun s lid => s.endLaunch lid c) s

/-- Write a queue's device fields to its descriptor's image; a page that forbids it skips the write (R35). -/
def State.descImage (s : State) (q : Queue) : Except Cause State :=
  let w1 := q.log2n + (match q.state with | .free => 0 | .active => 1 | .aborted => 2 | .error => 3 | .draining => 4) * 2 ^ 8
    + q.owner * 2 ^ 16
  match s.deviceWrite q.owner (q.descVa + 9) ((bytesLE 8 w1).drop 1) with
  | .error c => .error c
  | .ok s =>
    match s.deviceWrite q.owner (q.descVa + 16) (bytesLE 8 q.tail ++ bytesLE 8 q.head) with
    | .error c => .error c
    | .ok s => s.deviceWrite q.owner (q.descVa + 40) (bytesLE 8 q.errIdx ++ bytesLE 8 q.errCause.code)

/-- A word of an owner's error-control block at an event. When some word of the block cannot be read, EMASK and ESEV have
the values that R68 gives. -/
def State.ecbRule (s : State) (t : Tenant) (k : Nat) (other : DWord) : DWord :=
  match s.deviceRead t.tag t.ecb 64 with
  | .ok bs => BitVec.ofNat 64 (natLE ((bs.drop (8 * k)).take 8))
  | .error _ => other

/-- ESEV as the device reads it at an event (R68). -/
def State.severity (s : State) (owner : Nat) : DWord :=
  match s.tenant? owner with
  | none => 0
  | some t => s.ecbRule t 3 0x30

/-- Whether the tenant's severity makes an event fatal; INFO never is (R67, R68). -/
def State.fatalFor (s : State) (owner : Nat) (e : Event) : Bool := e.cls != .info && (s.severity owner).getLsbD e.cls.num

/-- ESTAT of a tenant's block takes a bit, when the word can be read and written. -/
def State.setEstat (s : State) (t : Tenant) (bit : DWord) : Except Cause State :=
  match s.deviceWord t.tag t.ecb with
  | .error c => .error c
  | .ok x => s.deviceWrite t.tag t.ecb (bytesLE 8 (x ||| bit).toNat)

/-- DROPS of a tenant's block counts a record. -/
def State.countDrop (s : State) (t : Tenant) : State :=
  match s.deviceWord t.tag (t.ecb + 48) with
  | .ok x => s.deviceWriteWords t.tag (t.ecb + 48) [x + 1]
  | .error _ => s

/-- What an event writes: ESTAT and a record on the owner's ring, or on the management ring (R68). -/
def State.pageEventPlain (s : State) (owner : Nat) (e : Event) : State :=
  match s.tenant? owner with
  | none => s.mgmtEvent owner e
  | some t =>
    let fatal := s.fatalFor owner e
    let bit : DWord := BitVec.twoPow 64 e.cls.num
    let masked := (s.ecbRule t 2 0 &&& bit) != 0
    match s.setEstat t bit with
    | .error _ => s.mgmtRecord owner e fatal
    | .ok s =>
      if masked then s
      else match s.deviceWord owner (t.ecb + 32), s.deviceWord owner (t.ecb + 40) with
        | .ok prod, .ok cons =>
          if ringFull prod cons t.ringLog2 then s.countDrop t
          else
            let slot := prod.toNat % 2 ^ t.ringLog2
            match s.deviceWrite owner ((t.ring + 64 * slot) % 2 ^ 52) (bytesLE 64 (e.bits owner s.now fatal).toNat) with
            | .error _ => s.mgmtRecord owner e fatal
            | .ok s => s.deviceWriteWords owner (t.ecb + 32) [prod + 1]
        | _, _ => s.mgmtRecord owner e fatal

/-- The queues of an owner that a fatal event puts in ERROR (R68). -/
def State.failQueues (s : State) (owner : Nat) (c : Cause) (sync : State → Nat → State) : State :=
  (s.queues.filter fun q => q.owner == owner && (q.state == .active || q.state == .aborted)).foldl (fun s q =>
    sync (s.modQueue q.q fun q => { q with state := .error, errCause := c }) q.q) s

/-- An event, and what a fatal one does: the tenant's queues go to ERROR and its crews are force-reset (R68). -/
def State.eventWith (s : State) (owner : Nat) (e : Event) (sync : State → Nat → State) : State :=
  let fatal := (s.tenant? owner).isSome && s.fatalFor owner e
  let s := s.pageEventPlain owner e
  if fatal then (s.failQueues owner e.cause sync).forceReset owner .forcedReset else s

/-- The PAGE event of a descriptor image that cannot be written (R35). -/
def Queue.imageEvent (q : Queue) (c : Cause) : Event := { cls := .page, cause := c, qnum := q.q, addr := q.descVa }

/-- Write the image of a queue that a fatal event puts in ERROR, or record that it cannot be written; what a fatal event does
is under way already. -/
def State.syncQuiet (s : State) (qn : Nat) : State :=
  match s.queue? qn with
  | none => s
  | some q => match s.descImage q with
    | .ok s => s
    | .error c => s.pageEventPlain q.owner (q.imageEvent c)

/-- Write every device field of a queue's descriptor, or raise the PAGE event of R35. -/
def State.syncQueue (s : State) (qn : Nat) : State :=
  match s.queue? qn with
  | none => s
  | some q => match s.descImage q with
    | .ok s => s
    | .error c => s.eventWith q.owner (q.imageEvent c) State.syncQuiet

/-- An event (R68): ESTAT is set, a record is written, and a fatal class puts the tenant's queues in ERROR and
force-resets its crews. Owner 255 is the management owner. -/
def State.event (s : State) (owner : Nat) (e : Event) : State := s.eventWith owner e State.syncQuiet

/-! ## Traps (R225 to R234) -/

/-- Every lane that is not absent. -/
def Weave.present (w : Weave) : Mask := ~~~ w.absent

/-- The two words of each lane's faulting VA (R227). -/
def faultWords (vas : List DWord) (hi : Bool) : List Lane :=
  laneList.map fun i =>
    let v := nthD vas i 0
    Lane.ofWord (if hi then (v >>> 32).setWidth 32 else v.setWidth 32)

/-- The wait that a trap leaves to be taken up again: a barrier's, whose instruction is not executed twice (R374). -/
def Wait.keeps : Wait → Wait
  | .barrier scp n g => .barrier scp n g
  | _ => .none

/-- Trap entry, one step (R227). In supervisor mode only `hcause` changes, to DOUBLE_TRAP with SUP (R234). The wait the
weave stood in is abandoned (R225). -/
def Weave.enterTrap (w : Weave) (t : Pending) : Weave :=
  match w.mode with
  | .super =>
    { w with hcause := BitVec.ofNat 32 (Cause.doubleTrap.code + (if t.defer then 0x80 else 0) + 0x100)
             handler := some .entered, wait := .none, walked := [], wakeRes := none, pend := none }
  | .user =>
    { w with
      hcause := BitVec.ofNat 32 (t.cause.code + (if t.defer then 0x80 else 0))
      hpc := t.pc.setWidth 64
      hxm := w.exec
      hhm := w.helper
      hfm := t.lanes
      h := faultWords t.vas false :: faultWords t.vas true :: w.h.drop 2
      exec := w.present
      helper := 0
      mode := .super
      pc := Config.handlerEntry t.cause.code
      handler := some .entered
      wait := .none
      kept := w.wait.keeps
      walked := []
      wakeRes := none
      pend := none }

/-- Return from a trap (R233). A barrier wait that the trap interrupted goes on (R246, log entry 24). -/
def Weave.tret (w : Weave) : Weave :=
  { w with exec := w.hxm &&& w.present, helper := w.hhm &&& w.present, pc := w.hpc.setWidth 52, mode := .user,
           handler := none, wait := w.kept, kept := .none }

/-- The cause that `hcause` holds. -/
def causeOf (code : Nat) : Cause :=
  ([.illegalOpcode, .illegalOperand, .privilegedOperand, .privilegedOpcode, .reservedField, .regRange, .feEmpty,
    .tokenOverflow, .tokenUnderflow, .tokenMismatch, .pcMisaligned, .softwareTrap, .pageNotPresent, .pageProtection,
    .pageUnresolved, .paUnbacked, .kindStraddle, .addrNoncanon, .scratchRange, .commonsRange, .firewallBlocked,
    .atomicSplit, .memoryUe, .tableStale, .tableUnbound, .tableSpilled, .tableRamFull, .indexRange, .formatDivergence,
    .formatInvalid, .formatMismatch, .accQuota, .planeRange, .signalAborted, .enqRefused, .barrierScope,
    .barrierRearrive, .rateMismatch, .channelRange, .intDivZero, .breakpoint, .debugHalt, .service,
    .doubleTrap] : List Cause).find? (fun c => c.code == code) |>.getD .noCause

/-- A weave takes a trap. Its spin iteration no longer qualifies (R107). -/
def State.takeTrap (s : State) (cid wx : Nat) (t : Pending) : State :=
  s.modWeave cid wx fun w => { w.enterTrap t with spin := Spin.fresh w.spin.nospin }

/-- A precise trap at the weave's PC (R225), raised by some lanes. -/
def State.trap (s : State) (cid wx : Nat) (w : Weave) (c : Cause) (lanes : Mask) : State :=
  s.takeTrap cid wx ⟨c, false, w.pc, lanes, []⟩

/-- Record a deferred trap (R225). The first to arise is the one taken; others at the boundary become KERNEL events. It goes
before a debug halt, or a debug cause of an image, that waits for the boundary too: its launch ends (R226, R234). -/
def State.deferTrap (s : State) (cid wx : Nat) (t : Pending) : State :=
  (s.modWeave cid wx fun w => match w.pend with
    | none => { w with pend := some t }
    | some p => if p.defer then { w with extra := w.extra ++ [t] } else { w with pend := some t }).post (.deferredTrap cid wx)

/-- The ADDR of a KERNEL event (R232): the VA of the lowest lane for causes 0x10 to 0x1F, else the PC. -/
def Pending.addr (t : Pending) : Nat :=
  if t.cause.code / 16 = 1 then (nthD t.vas ((lowestLane t.lanes).getD 0) 0).toNat else t.pc.toNat

/-- A KERNEL event of a crew: it carries the TAG, queue and index of its LAUNCH packet, and the home die (R369). -/
def State.kernelEvent (s : State) (c : Crew) (cause : Cause) (addr : Nat) : State :=
  let e : Event := match (s.launch? c.lid).map Launch.kind with
    | some (.packet q idx) =>
      let tag := match (s.queue? q).bind fun x => x.started.find? fun p => p.pkt.idx == idx with
        | some p => bitsOf p.pkt.bits.toNat 32 32
        | none => 0
      { cls := .kernel, cause := cause, src := c.homeDie, tag := tag, qnum := q, pidx := idx, addr := addr }
    | _ => { cls := .kernel, cause := cause, src := c.homeDie, addr := addr }
  s.event c.owner e

/-- A pending trap may be taken: any, but for a debug halt of a weave in its handler, which waits for `TRET` (log entry
31). -/
def Weave.pendReady (w : Weave) : Bool :=
  match w.pend with
  | none => false
  | some t => !(t.cause == .debugHalt && w.mode == .super)

/-- A weave saved where it stood halted by its own cause, which waits for its signal (R234, R246). -/
def Weave.haltKept (w : Weave) : Bool :=
  (match w.wait with | .signal _ => true | _ => false) &&
    (match w.pend.map Pending.cause with
     | some .feEmpty | some .softwareTrap | some .breakpoint => true
     | _ => false)

/-- A weave takes its pending trap and abandons what it waits for; the other deferred causes become KERNEL events
(R225, R226). A debug halt is taken where the weave stands (R246). -/
def State.takePending (s : State) (cid wx : Nat) : State :=
  match s.crew? cid, s.weave? cid wx with
  | some c, some w => match w.pend with
    | none => s
    | some t =>
      if !w.pendReady then s
      else
        let t : Pending := if t.cause = .debugHalt then { t with pc := w.pc, lanes := w.exec } else t
        let mine (r : WaitReg) : Bool := r.who == .weave cid wx
        let leave (k : Walk) : Walk := { k with waiters := k.waiters.filter fun (x : Nat × Nat) => x != (cid, wx) }
        let spun (a : Armed) : Bool := a.cid == cid && a.widx == wx && !w.watch.contains a.line
        let s := { s with waits := s.waits.filter fun r => !mine r, remoteWaits := s.remoteWaits.filter fun r => !mine r,
                          armed := s.armed.filter fun a => !spun a,
                          dies := s.dies.map fun (d : Die) => { d with walks := d.walks.map leave } }
        let s := (s.takeTrap cid wx t).modWeave cid wx fun w => { w with extra := [] }
        w.extra.foldl (fun s x => s.kernelEvent c x.cause x.addr) s
  | _, _ => s

/-! ## Watch sets and waits -/

/-- Release the lines that a weave has armed. -/
def State.disarm (s : State) (cid wx : Nat) : State :=
  { s with armed := s.armed.filter fun a => !(a.cid == cid && a.widx == wx) }

/-- Clear a weave's watch set and woken flag (R341). -/
def State.clearWatch (s : State) (cid wx : Nat) : State :=
  (s.disarm cid wx).modWeave cid wx fun w => { w with watch := [], unwatched := false, woken := false }

/-- A weave that is an eviction candidate by itself (R106): a wait of R106, or exited. A debug halt counts (R246). -/
def Weave.candidate (w : Weave) : Bool :=
  w.done || (w.handler == some .halted) ||
    (match w.wait with
     | .barrier .. | .waita | .signal _ | .emit _ | .enq _ => true
     | .spin => w.spin.armed
     | _ => false)

/-- A crew is a candidate when all its weaves are and at least one has not exited (R106). -/
def Crew.candidate (c : Crew) : Bool := c.weaves.all Weave.candidate && c.weaves.any fun w => !w.done

/-- The crews of a unit: its gang, or itself (R111). -/
def State.unitOf (s : State) (c : Crew) : List Crew :=
  if c.inGang then s.crews.filter fun x => sameGang x c else [c]

/-- Note when a crew becomes or stops being a candidate, and let the RRU look again (R106, R112). -/
def State.noteCand (s : State) (cid : Nat) : State :=
  match s.crew? cid with
  | none => s
  | some c =>
    match c.candidate, c.candSince with
    | true, none => (s.modCrew cid fun c => { c with candSince := some s.now }).kick
    | false, some _ => s.modCrew cid fun c => { c with candSince := none }
    | _, _ => s

end Sys2Proof.Machine
end

