-- ==== Sys2Proof/Machine/Operands.lean ====
section
/-! DEFINITION. Machine/Operands.lean: reading and writing operands (R126, R132, R135 to R137, R262, R285), the checks
an instruction makes at issue (R226 steps 2 and 3, R139) and its completion. -/

namespace Sys2Proof.Machine

/-! ## Vector registers -/

/-- What a lane of a register holds (R135). -/
def VReg.lane (r : VReg) (i : Nat) : Lane :=
  match r with
  | .uni x => x
  | .aff b st => Lane.ofWord (b + BitVec.ofNat 32 i * st)
  | .gen xs => nthD xs i Lane.zero

/-- A register holding given values in GEN shape. -/
def VReg.ofFn (f : Nat → Lane) : VReg := .gen (laneList.map f)

def VReg.isUni : VReg → Bool
  | .uni _ => true
  | _ => false

/-- The shape code that `SHAPE` returns (R135). -/
def VReg.code : VReg → Nat
  | .uni _ => 0
  | .aff .. => 1
  | .gen _ => 2

/-- A result with SB = 1 in any lane is GEN (R137). -/
def VReg.settle : VReg → VReg
  | .uni x => if x.sb then .gen (laneList.map fun _ => x) else .uni x
  | r => r

/-- Write `new` in the lanes of `m`: full, partial or no write (R137). -/
def VReg.write (old new : VReg) (m absent : Mask) : VReg :=
  if m = 0 then old
  else if m ||| absent = BitVec.allOnes 32 then new
  else if old.isUni && old == new then old
  else .ofFn fun i => if m.getLsbD i then new.lane i else old.lane i

/-! ## Which lanes take part (R126) -/

/-- The guard bits of the lanes. -/
def Weave.guardMask (w : Weave) (h : Head) : Mask :=
  let p := nthD w.p h.grd.val 0
  if h.neg then ~~~ p else p

/-- q[GRD] XOR GNEG = 1. -/
def Weave.qPass (w : Weave) (h : Head) : Bool := w.q.getLsbD h.grd.val != h.neg

/-- The lanes that write: thread or helper lanes that have not exited and whose guard passes. -/
def Weave.writers (w : Weave) (h : Head) : Mask := (w.exec ||| w.helper) &&& ~~~ w.exited &&& w.guardMask h

/-- The lanes that perform and may trap: exec lanes whose guard passes. -/
def Weave.actors (w : Weave) (h : Head) : Mask := w.exec &&& ~~~ w.exited &&& w.guardMask h

/-- The guard `!p0` or `!q0`, which never passes: the instruction changes no state (R251). -/
def neverPasses (h : Head) : Bool := h.grd.val == 0 && h.neg

/-- The guard of a control instruction passes uniformly (R286). One that never passes does not, whatever the exec mask
(R251). -/
def Weave.uniform (w : Weave) (h : Head) : Bool :=
  !neverPasses h && (if h.grp then w.qPass h else (w.exec &&& ~~~ w.guardMask h) == 0)

/-! ## Reading -/

/-- An operand as a register (R136). -/
def Weave.read (w : Weave) (imm : Word) (o : Operand) : VReg :=
  match o with
  | .v n => nthD w.v n.val (.uni Lane.zero)
  | .g n => .uni (Lane.ofWord (nthD w.g n.val 0))
  | .h n => .gen (nthD w.h n.val [])
  | .hg n => .uni (Lane.ofWord (nthD w.hg n.val 0))
  | .p n =>
    if n.val = 0 then .uni (Lane.ofWord 1)
    else .ofFn fun i => Lane.ofWord (if (nthD w.p n.val 0).getLsbD i then 1 else 0)
  | .q n => .uni (Lane.ofWord (if w.q.getLsbD n.val then 1 else 0))
  | .laneid => .aff 0 1
  | .imm => .uni (Lane.ofWord imm)
  | .ones => .uni (Lane.ofWord allOnes32)
  | .zero | .none | .undef _ => .uni Lane.zero

/-- An operand of a group form. -/
def Weave.readG (w : Weave) (imm : Word) (o : Operand) : Word := ((w.read imm o).lane 0).val

/-- A 64-bit operand in one lane: an even pair, or an extended value (R132, R285). -/
def Weave.wideLane (w : Weave) (imm : Word) (signed : Bool) (o : Operand) (i : Nat) : DWord :=
  match o with
  | .v _ | .g _ | .h _ | .hg _ => ((w.read imm (o.plus 1)).lane i).val ++ ((w.read imm o).lane i).val
  | .imm => if signed then imm.signExtend 64 else imm.setWidth 64
  | .ones => BitVec.allOnes 64
  | o => ((w.read imm o).lane i).val.setWidth 64

/-- A 64-bit operand of a group form. -/
def Weave.wideG (w : Weave) (imm : Word) (signed : Bool) (o : Operand) : DWord := w.wideLane imm signed o 0

/-- Every register an operand of 64 bits names is UNI. -/
def Weave.wideUni (w : Weave) (imm : Word) (o : Operand) : Bool :=
  (w.read imm o).isUni && (w.read imm (o.plus 1)).isUni

/-- A predicate operand as bits: p, or a q, zero or ones that is the same in every lane (R303). -/
def Weave.predBits (w : Weave) (o : Operand) : Mask :=
  match o with
  | .p n => nthD w.p n.val 0
  | .q n => if w.q.getLsbD n.val then BitVec.allOnes 32 else 0
  | .ones => BitVec.allOnes 32
  | _ => 0

/-- A predicate operand of a group form. -/
def Weave.predBit (w : Weave) (o : Operand) : Bool := (w.predBits o).getLsbD 0

/-! ## Writing -/

/-- Write a register in the lanes of `m`. D = 1023 discards the result (R262). -/
def Weave.putV (w : Weave) (o : Operand) (m : Mask) (r : VReg) : Weave :=
  match o with
  | .v n => { w with v := modNth w.v n.val fun old => old.write r.settle m w.absent }
  | .h n => { w with h := modNth w.h n.val fun old => laneList.map fun i => if m.getLsbD i then r.lane i else nthD old i Lane.zero }
  | _ => w

/-- Write a group register. -/
def Weave.putG (w : Weave) (o : Operand) (x : Word) : Weave :=
  match o with
  | .g n => { w with g := modNth w.g n.val fun _ => x }
  | .hg n => { w with hg := modNth w.hg n.val fun _ => x }
  | _ => w

/-- Write a group pair, low word first (R132). -/
def Weave.putGPair (w : Weave) (o : Operand) (x : DWord) : Weave :=
  (w.putG o (x.setWidth 32)).putG (o.plus 1) ((x >>> 32).setWidth 32)

/-- Write bits of a p register in the lanes of `m`; p0 discards (R124, R286). -/
def Weave.putP (w : Weave) (o : Operand) (m bits : Mask) : Weave :=
  match o with
  | .p n => if n.val = 0 then w else { w with p := modNth w.p n.val fun old => (old &&& ~~~ m) ||| (bits &&& m) }
  | _ => w

/-- Write a q register; q0 discards (R124). -/
def Weave.putQ (w : Weave) (o : Operand) (b : Bool) : Weave :=
  match o with
  | .q n =>
    if n.val = 0 then w
    else { w with q := (w.q &&& ~~~ BitVec.twoPow 16 n.val) ||| (if b then BitVec.twoPow 16 n.val else 0) }
  | _ => w

/-- A pair of registers from 64-bit lanes: each UNI when every source is, else GEN (R137). -/
def pairOf (uni : Bool) (f : Nat → DWord) : VReg × VReg :=
  if uni then (.uni (Lane.ofWord ((f 0).setWidth 32)), .uni (Lane.ofWord ((f 0 >>> 32).setWidth 32)))
  else (.ofFn fun i => Lane.ofWord ((f i).setWidth 32), .ofFn fun i => Lane.ofWord ((f i >>> 32).setWidth 32))

/-- Write a pair of vector registers. -/
def Weave.putVPair (w : Weave) (o : Operand) (m : Mask) (r : VReg × VReg) : Weave :=
  (w.putV o m r.1).putV (o.plus 1) m r.2

/-- Write registers in a run from an operand. -/
def Weave.putVRun (w : Weave) (o : Operand) (m : Mask) (rs : List VReg) : Weave :=
  (rs.zip (List.range rs.length)).foldl (fun w (r, k) => w.putV (o.plus k) m r) w

/-- Write words to a run of group registers. -/
def Weave.putGRun (w : Weave) (o : Operand) (xs : List Word) : Weave :=
  (xs.zip (List.range xs.length)).foldl (fun w (x, k) => w.putG (o.plus k) x) w

/-- Write a 32-bit or 64-bit value to group registers. -/
def Weave.putGWide (w : Weave) (o : Operand) (wide : Bool) (x : DWord) : Weave :=
  if wide then w.putGPair o x else w.putG o (x.setWidth 32)

/-! ## Full and empty (R138, R139) -/

/-- The registers with a full/empty bit that a run names: n for vn, 640 + n for gn, as R238 numbers the bits. -/
def regKeys (o : Operand) (len : Nat) : List Nat :=
  match o with
  | .v n => (List.range len).map fun k => n.val + k
  | .g n => (List.range len).map fun k => 640 + n.val + k
  | _ => []

def Weave.markEmpty (w : Weave) (ks : List Nat) : Weave :=
  { w with empty := w.empty ++ ks.filter fun k => !w.empty.contains k }
def Weave.markFull (w : Weave) (ks : List Nat) : Weave := { w with empty := w.empty.filter fun k => !ks.contains k }

/-! ## Issue (R226, R139) -/

/-- What the checks of steps 2 and 3 of R226 that need the machine's state find. -/
inductive Stop where
  | go | hold
  | trap (c : Cause)
  deriving DecidableEq, Repr

/-- A mnemonic marked (sup), or a `CSRW` to a supervisor CSR (R279, R280). -/
def supervisorOnly : Instr → Bool
  | .tret _ | .mapp _ | .tlbi _ => true
  | .csrw f => 0x0800 ≤ f.csr.toNat
  | _ => false

/-- The fields of an instruction with the lengths of the runs they name: D, A, B, C. -/
def fieldRuns (i : Instr) : List (Operand × Nat) :=
  match (formOf i).head? with
  | none => []
  | some h => h.operands.zip ((specOf i).runs.map (runLen i))

/-- A field names a register beyond the allotment (R134). -/
def Weave.outOfRange (w : Weave) (o : Operand) (len : Nat) : Bool :=
  match o with
  | .v n => w.v.length < n.val + len
  | .g n => w.g.length < n.val + len
  | _ => false

def Weave.anyEmpty (w : Weave) (o : Operand) (len : Nat) : Bool := (regKeys o len).any w.empty.contains

/-- A source with empty mode 1 names an empty register (R139). -/
def Weave.feEmpty (w : Weave) (em : BitVec 3) (srcs : List (Operand × Nat)) : Bool :=
  (srcs.zip (List.range 3)).any fun (x, k) => em.getLsbD k && w.anyEmpty x.1 x.2

/-- A table handle at or beyond the crew's TBLQ (R211, R347). -/
def handleBeyond (tblq : Nat) : Instr → Bool
  | .tbld f | .tblds f | .tinv f | .tspill f | .tfill f | .tstat f | .lka f => tblq ≤ f.th.val
  | _ => false

/-- Steps 2 (PRIVILEGED_OPERAND, PRIVILEGED_OPCODE, and a run past h15, R310) and 3 of R226, then the wait of R139. -/
def Weave.stop (w : Weave) (tblq : Nat) (i : Instr) : Stop :=
  let rs := fieldRuns i
  let em := match (formOf i).head? with | some h => h.em | none => 0
  if w.mode = .user && rs.any (fun x => kindOf x.1 == .h || kindOf x.1 == .hg) then .trap .privilegedOperand
  else if rs.any (fun x => kindOf x.1 == .h && 16 < regNo x.1 + x.2) then .trap .illegalOperand
  else if w.mode = .user && supervisorOnly i then .trap .privilegedOpcode
  else if rs.any (fun x => w.outOfRange x.1 x.2) || handleBeyond tblq i then .trap .regRange
  else if w.feEmpty em (rs.drop 1) then .trap .feEmpty
  else if rs.any (fun x => w.anyEmpty x.1 x.2) then .hold
  else .go

/-! ## Completion -/

/-- Condition 4 of R107: an iteration that issues one of these does not qualify. -/
def spinExcluded : Instr → Bool
  | .st _ | .sts _ | .stc _ | .atom _ | .atoms _ | .atomc _ | .bred _ | .bupd _ | .emit _ | .enq _ | .cpy _ | .cpyg _
  | .cpys _ | .publ _ | .coll _ | .tbld _ | .tblds _ | .tinv _ | .tspill _ | .tfill _ | .tstat _ | .plnset _ | .lka _
  | .ard _ | .awr _ | .azro _ | .arel _ | .bara _ | .barw _ | .baraw _ | .barq _ | .sigadd _ | .sigwt _ | .watch _
  | .unwch _ | .sregw _ | .csrw _ | .svc _ | .trap _ | .bkpt _ | .call _ | .ret _ => true
  | _ => false

/-- Record values for the iteration's signature (R107). -/
def Weave.note (w : Weave) (ws : List Word) : Weave := { w with spin := { w.spin with words := w.spin.words ++ ws } }

/-- The recognizer's record of the instruction in hand is complete. -/
def Spin.issued (sp : Spin) (pc : Pc) : Spin :=
  { sp with words := [], bad := false, loads := [], log := ⟨pc, sp.words, sp.bad, sp.loads⟩ :: sp.log }

/-- The instruction has issued; the weave stands at another PC and whatever it waited on is over. -/
def Weave.goto (w : Weave) (pc : Pc) : Weave :=
  { w with pc := pc, wait := .none, walked := [], wakeRes := none, spin := w.spin.issued w.pc }

/-- The same at the next instruction. -/
def Weave.next (w : Weave) : Weave := w.goto (w.pc + 16)

/-- TBLQ of a crew. -/
def State.tblqOf (s : State) (cid : Nat) : Nat := ((s.crew? cid).map fun c => c.shape.tblq).getD 0

/-- Run the issuing weave's instruction: trap, wait at issue, or its effect. -/
def State.issue (s : State) (i : Instr) (run : Nat → Nat → Weave → State) : Host.Outcome State Fault Refusal :=
  match s.cur with
  | none => .fault .noIssuingWeave
  | some (cid, wx) =>
    match s.weave? cid wx with
    | none => .fault .noIssuingWeave
    | some w =>
      match w.stop (s.tblqOf cid) i with
      | .trap c => .next (s.trap cid wx w c w.exec)
      | .hold => .next s
      | .go => .next (run cid wx (if spinExcluded i then { w with spin := { w.spin with bad := true } } else w))

/-- A set bound to registers of its weave becomes STALE when one of them is written (R213). -/
def Tbl.staledByRegs (t : Tbl) (wx : Nat) (ks : List Nat) : Tbl :=
  match t.src with
  | .regs x base =>
    if x = wx && ks.any (fun k => base ≤ k && k < base + 4 * (t.kg + 1))
        && (t.state == .valid || t.state == .discarded || t.state == .spilled) then { t with state := .stale }
    else t
  | .scratch _ => t

/-- Vector registers of a weave were written. -/
def State.wroteRegs (s : State) (cid wx : Nat) (ks : List Nat) : State :=
  if ks.isEmpty then s else s.modCrew cid fun c => { c with tables := c.tables.map fun (t : Tbl) => t.staledByRegs wx ks }

/-- The destination run of an instruction: `MOVH` leaves its first register unchanged (R301). -/
def destRun (i : Instr) : List Operand :=
  match fieldRuns i with
  | (o, len) :: _ =>
    let ops := (List.range len).map o.plus
    match i with
    | .movh _ => ops.drop 1
    | _ => ops
  | [] => []

/-- The vector registers that an instruction writes under the masks of `w`. -/
def Weave.writtenRegs (w : Weave) (i : Instr) : List Nat :=
  match (formOf i).head? with
  | some h => if h.grp || w.writers h == 0 then [] else (destRun i).filterMap fun o => match o with
      | .v n => some n.val
      | _ => none
  | none => []

/-- The predicate that `IADC` and `ISBB` write besides D (R298). -/
def carryOut : Instr → List Operand
  | .iadc f | .isbb f => [f.hd.c]
  | _ => []

/-- An instruction that writes whole granules: a load of granules; and one that writes the scales of whole granules (R321,
R332). -/
def loadsGranules : Instr → Bool
  | .ld f | .lds f | .ldc f => 5 ≤ f.wid.toNat
  | _ => false
def writesScales : Instr → Bool
  | .tenc _ | .gpack _ | .gscl _ => true
  | i => loadsGranules i

/-- The lanes of the granules that hold a lane of a mask. -/
def granuleLanes (m : Mask) : Mask := maskOf fun i => (m >>> (8 * (i / 8))) &&& 0xFF != 0

/-- The values that an instruction wrote, for the signature of R107: a register's values by lane and its side bits, a group
register, the bits of a predicate. `w` is the weave before, `w'` after. -/
def Weave.writtenWords (w w' : Weave) (i : Instr) : List Word :=
  match (formOf i).head? with
  | none => []
  | some h =>
    let m := w.writers h
    let vals := if loadsGranules i then granuleLanes m else m
    let sides := if writesScales i then granuleLanes m else m
    (destRun i ++ carryOut i).flatMap fun o => match o with
      | .v _ | .h _ => if h.grp then []
        else ((maskLanes vals).map fun i => ((w'.read 0 o).lane i).val)
          ++ (if m == 0 then [] else [maskOf fun i => sides.getLsbD i && ((w'.read 0 o).lane i).sb])
      | .g _ | .hg _ => if h.grp && w.qPass h then [w'.readG 0 o] else []
      | .p n => [nthD w'.p n.val 0]
      | .q n => [if w'.q.getLsbD n.val then 1 else 0]
      | _ => []

/-- An instruction whose whole effect is on its own weave's registers; the weave moves on. -/
def State.issueAlu (s : State) (i : Instr) (f : Weave → Weave) : Host.Outcome State Fault Refusal :=
  s.issue i fun cid wx w =>
    let w' := f w
    (s.putWeave cid wx (w'.note (w.writtenWords w' i)).next).wroteRegs cid wx (w.writtenRegs i)

end Sys2Proof.Machine
end

