-- ==== Sys2Proof/Machine/Flags.lean ====
section
/-! DEFINITION. Machine/Flags.lean: integer results with wrap and saturation (R194, R297), carry and borrow (R298),
comparisons (R302) and predicate results (R303, R304), and the shapes of R137. -/

namespace Sys2Proof.Machine

/-! ## Integers -/

/-- The value of an operand in an integer type: INT32 (not named), UINT32, INT64, UINT64 (R283). -/
def intVal (t : Ty) (x : Nat) : Int :=
  match t with
  | .ui32 => (x % 2 ^ 32 : Nat)
  | .i64 => signedOf 64 x
  | .ui64 => (x % 2 ^ 64 : Nat)
  | _ => signedOf 32 x

/-- The least and greatest values of the type. -/
def intMin (t : Ty) : Int :=
  match t with
  | .ui32 | .ui64 => 0
  | .i64 => -2 ^ 63
  | _ => -2 ^ 31
def intMax (t : Ty) : Int :=
  match t with
  | .ui32 => 2 ^ 32 - 1
  | .ui64 => 2 ^ 64 - 1
  | .i64 => 2 ^ 63 - 1
  | _ => 2 ^ 31 - 1

/-- Clamp to a range. -/
def clampInt (lo hi x : Int) : Int := if x < lo then lo else if hi < x then hi else x

/-- A result wrapped to the type, or saturated (R194). -/
def intRes (t : Ty) (sat : Bool) (x : Int) : DWord :=
  BitVec.ofInt 64 (if sat then clampInt (intMin t) (intMax t) x else x)

/-- Quotient truncated toward zero (R297). -/
def truncDiv (a b : Int) : Int := Int.tdiv a b

/-! ## Shapes (R137) -/

/-- Base and stride of a UNI or AFF register. -/
def VReg.affine? : VReg → Option (Word × Word)
  | .uni x => some (x.val, 0)
  | .aff b st => some (b, st)
  | .gen _ => none

/-- How a result of AFF sources is shaped; `none` is GEN. -/
abbrev AffRule := VReg → VReg → VReg → Option VReg

def affNone : AffRule := fun _ _ _ => none

/-- `IADD` and `ISUB`: AFF with UNI or AFF. -/
def affAdd (op : Word → Word → Word) : AffRule := fun a b _ =>
  match a.affine?, b.affine? with
  | some (x, sx), some (y, sy) => some (.aff (op x y) (op sx sy))
  | _, _ => none

/-- `IMUL`: AFF with UNI. -/
def affMul : AffRule := fun a b _ =>
  match a, b with
  | .aff x sx, .uni y => some (.aff (x * y.val) (sx * y.val))
  | .uni x, .aff y sy => some (.aff (x.val * y) (x.val * sy))
  | _, _ => none

/-- `SHL`: AFF by a UNI amount. -/
def affShl (op : Word → Word → Word) : AffRule := fun a b _ =>
  match a, b with
  | .aff x sx, .uni y => some (.aff (op x y.val) (op sx y.val))
  | _, _ => none

/-- `LEA`: AFF base with UNI index, or UNI base with AFF index. -/
def affLea (sh : Nat) : AffRule := fun a b _ =>
  match a, b with
  | .aff x sx, .uni y => some (.aff (x + (y.val <<< sh)) sx)
  | .uni x, .aff y sy => some (.aff (x.val + (y <<< sh)) (sy <<< sh))
  | _, _ => none

/-- `MOV`: AFF. -/
def affMov : AffRule := fun a _ _ =>
  match a with
  | .aff x sx => some (.aff x sx)
  | _ => none

/-- A lane-wise 32-bit result of three sources; an unused source is UNI. All UNI gives UNI. -/
def lift3 (aff : AffRule) (op : Word → Word → Word → Word) (a b c : VReg) : VReg :=
  if a.isUni && b.isUni && c.isUni then .uni (Lane.ofWord (op (a.lane 0).val (b.lane 0).val (c.lane 0).val))
  else match aff a b c with
    | some r => r
    | none => .ofFn fun i => Lane.ofWord (op (a.lane i).val (b.lane i).val (c.lane i).val)

/-- A 32-bit result in the form the instruction has: written lanes, or one group register when q passes (R286). -/
def Weave.alu32 (w : Weave) (h : Head) (imm : Word) (aff : AffRule) (op : Word → Word → Word → Word) : Weave :=
  if h.grp then
    if w.qPass h then w.putG h.d (op (w.readG imm h.a) (w.readG imm h.b) (w.readG imm h.c)) else w
  else w.putV h.d (w.writers h) (lift3 aff op (w.read imm h.a) (w.read imm h.b) (w.read imm h.c))

/-- A 64-bit result, in a pair. -/
def Weave.alu64 (w : Weave) (h : Head) (imm : Word) (signed : Bool) (op : DWord → DWord → DWord → DWord) : Weave :=
  let f (i : Nat) : DWord := op (w.wideLane imm signed h.a i) (w.wideLane imm signed h.b i) (w.wideLane imm signed h.c i)
  if h.grp then if w.qPass h then w.putGPair h.d (f 0) else w
  else w.putVPair h.d (w.writers h) (pairOf (w.wideUni imm h.a && w.wideUni imm h.b && w.wideUni imm h.c) f)

/-- An integer result on mathematical integers, in the type of TY1 (R297). -/
def Weave.intAlu (w : Weave) (f : VForm) (aff : AffRule) (op : Int → Int → Int → Int) : Weave :=
  let sat := f.mod.getLsbD 3
  let val (x y z : Nat) : DWord := intRes f.ty1 sat (op (intVal f.ty1 x) (intVal f.ty1 y) (intVal f.ty1 z))
  if f.ty1.wide then w.alu64 f.hd f.imm (f.ty1 == .i64) fun x y z => val x.toNat y.toNat z.toNat
  else w.alu32 f.hd f.imm (if sat then affNone else aff) fun x y z => (val x.toNat y.toNat z.toNat).setWidth 32

/-! ## Carry and borrow (R298) -/

/-- Sum and carry out. -/
def addCarry (a b : Word) (cin : Bool) : Word × Bool :=
  let s := a.toNat + b.toNat + cin.toNat
  (BitVec.ofNat 32 s, decide (2 ^ 32 ≤ s))

/-- Difference and borrow out. -/
def subBorrow (a b : Word) (cin : Bool) : Word × Bool :=
  (a - b - BitVec.ofNat 32 cin.toNat, decide (a.toNat < b.toNat + cin.toNat))

/-- `IADC` and `ISBB`: the predicate in C is the carry in and the carry out. -/
def Weave.carryAlu (w : Weave) (f : VForm) (op : Word → Word → Bool → Word × Bool) : Weave :=
  let h := f.hd
  if h.grp then
    if w.qPass h then
      let r := op (w.readG f.imm h.a) (w.readG f.imm h.b) (w.predBit h.c)
      (w.putG h.d r.1).putQ h.c r.2
    else w
  else
    let a := w.read f.imm h.a
    let b := w.read f.imm h.b
    let c := w.predBits h.c
    let r (i : Nat) := op (a.lane i).val (b.lane i).val (c.getLsbD i)
    let d := if a.isUni && b.isUni && h.c == .p 0 then .uni (Lane.ofWord (r 0).1) else .ofFn fun i => Lane.ofWord (r i).1
    (w.putV h.d (w.writers h) d).putP h.c (w.writers h) (maskOf fun i => (r i).2)

/-! ## Predicate results -/

/-- The outcome of a comparison (R302). -/
def CmpSel.holds (c : CmpSel) (x y : Int) : Bool :=
  match c with
  | .eq => x == y
  | .ne => x != y
  | .lt => decide (x < y)
  | .le => decide (x ≤ y)
  | .gt => decide (y < x)
  | .ge => decide (y ≤ x)

/-- Write a predicate: the bits of writing lanes, or a q when the guard passes (R286). -/
def Weave.putPred (w : Weave) (h : Head) (bits : Mask) : Weave :=
  if h.grp then if w.qPass h then w.putQ h.d (bits.getLsbD 0) else w
  else w.putP h.d (w.writers h) bits

/-- A bitwise combination of predicates (R303). -/
def Weave.predAlu (w : Weave) (h : Head) (op : Mask → Mask → Mask) : Weave :=
  w.putPred h (op (w.predBits h.a) (w.predBits h.b))

end Sys2Proof.Machine
end

