-- ==== Sys2Proof/Machine/Translate.lean ====
section
/-! DEFINITION. Machine/Translate.lean: the three address spaces (R144 to R147), translation (R153 to R157), instruction
fetch (R169), the L1 copy (R150), the dirty-page log (R163) and the bytes of loads and stores. -/

namespace Sys2Proof.Machine

/-! ## The page-service block (R162) -/

/-- Word k of an owner's page-service block, 0 when it cannot be read. -/
def State.psb (s : State) (owner k : Nat) : DWord :=
  match s.tenant? owner with
  | none => 0
  | some t => match s.deviceWord owner ((t.ecb + 0x40 + 8 * k) % 2 ^ 52) with
    | .ok x => x
    | .error _ => 0

/-- Write word k of an owner's page-service block. -/
def State.putPsb (s : State) (owner k : Nat) (x : DWord) : State :=
  match s.tenant? owner with
  | none => s
  | some t => s.deviceWriteWords owner ((t.ecb + 0x40 + 8 * k) % 2 ^ 52) [x]

/-- RQLOG2, PLOG2, DLLOG2 and DLEN of the CFG word. -/
def State.rqLog2 (s : State) (owner : Nat) : Nat := bitsOf (s.psb owner 1).toNat 0 4
def State.poolLog2 (s : State) (owner : Nat) : Nat := bitsOf (s.psb owner 1).toNat 4 4
def State.dlLog2 (s : State) (owner : Nat) : Nat := bitsOf (s.psb owner 1).toNat 8 5
def State.dlen (s : State) (owner : Nat) : Bool := (s.psb owner 1).getLsbD 13

/-- DLCONS as the device has acted on it (R162). -/
def State.dlcons (s : State) (owner : Nat) : DWord := match s.tenant? owner with | some t => t.dlcons | none => 0

/-- The current translation generation of an owner on a die (R155). -/
def State.gen (s : State) (owner d : Nat) : Nat :=
  match s.tenant? owner with
  | some t => nthD t.gens d 0
  | none => 0

/-- Clear BV in every translation register of an owner's weaves resident on a die (R155). -/
def State.clearBv (s : State) (owner d : Nat) : State :=
  let pick (c : Crew) : Bool := c.owner == owner && (c.core?.map dieOfCore) == some d
  let clear (w : Weave) : Weave := { w with b := w.b.map fun t => { t with bv := false } }
  { s with crews := updWhere s.crews pick fun c => { c with weaves := c.weaves.map clear } }

/-- The generation of an owner on a die advances (R155). -/
def State.advanceGen (s : State) (owner d : Nat) : State :=
  let g := s.gen owner d + 1
  let s := s.modTenant owner fun t => { t with gens := modNth t.gens d fun _ => g }
  if g % 2 ^ 15 = 0 then s.clearBv owner d else s

/-! ## TLBs (R156) -/

/-- The entry of a TLB for an owner's VA. -/
def tlbFind (tlb : List TlbEntry) (owner va : Nat) : Option Leaf :=
  (tlb.find? fun e => e.owner == owner && e.page == va / pageBytes e.leaf.size * pageBytes e.leaf.size).map (·.leaf)

/-- Put a leaf into a TLB of `cap` entries; a full TLB loses an entry that nothing constrains (R156). -/
def tlbInsert (tlb : List TlbEntry) (cap owner va : Nat) (l : Leaf) (pick : Nat) : List TlbEntry :=
  let e : TlbEntry := ⟨owner, va / pageBytes l.size * pageBytes l.size, l⟩
  let tlb := tlb.filter fun x => !(x.owner == owner && x.page == e.page && x.leaf.size == l.size)
  let tlb := if cap ≤ tlb.length then tlb.eraseIdx (pick % tlb.length) else tlb
  tlb ++ [e]

/-- Drop the TLB entries of an owner on a die that `p` picks, in the last-level TLB and in every core's. -/
def State.tlbDrop (s : State) (d : Nat) (p : TlbEntry → Bool) : State :=
  let s := s.modDie d fun x => { x with tlb := x.tlb.filter fun e => !p e }
  (List.range 64).foldl (fun s i => s.modCore (64 * d + i) fun k => { k with tlb := k.tlb.filter fun e => !p e }) s

/-- What a translation finds before a walk. -/
inductive Xl where
  | hit (l : Leaf)
  | miss
  | walk
  deriving DecidableEq, Repr

/-- What the walks that have ended for a weave's instruction found for a VA: each by its first 64 KiB page and its leaf. -/
def walkedFind (xs : List (Nat × Option Leaf)) (va : Nat) : Option (Option Leaf) :=
  (xs.find? fun x => match x.2 with
    | some l => x.1 * 2 ^ 16 / pageBytes l.size == va / pageBytes l.size
    | none => x.1 == va / 2 ^ 16).map (·.2)

/-- Translate an owner's VA for a weave on a core: a walk that ended for this instruction, the core TLB, the last-level
TLB. -/
def State.xlate (s : State) (w : Weave) (core owner va : Nat) : Xl :=
  match walkedFind w.walked va with
  | some (some l) => .hit l
  | some none => .miss
  | none =>
    match tlbFind (s.core core).tlb owner va with
    | some l => .hit l
    | none => match tlbFind (s.die (dieOfCore core)).tlb owner va with
      | some l => .hit l
      | none => .walk

/-- The first 64 KiB page of the page that a VA lies in: misses to one page share a walk (R156). -/
def State.walkKey (s : State) (owner va : Nat) : Nat :=
  match s.walk owner va with
  | .leaf l _ => va / pageBytes l.size * pageBytes l.size / 2 ^ 16
  | _ => va / 2 ^ 16

/-- The pages among some VAs' that no walk of the die is for yet. -/
def State.freshWalks (s : State) (d owner : Nat) (vas : List Nat) : List Nat :=
  (vas.map (s.walkKey owner)).eraseDups.filter fun v => !(s.die d).walks.any fun k => k.owner == owner && k.vpn == v

/-- A die has walkers for the pages of some VAs, beside the walks in progress (R156). -/
def State.walkersFree (s : State) (d owner : Nat) (vas : List Nat) : Bool :=
  (s.die d).walks.length + (s.freshWalks d owner vas).length ≤ Config.maxWalks

/-- Start walks for the pages of some lanes' VAs and let a weave wait for them; a die that already runs 128 other walks
leaves the weave at its instruction (R156). -/
def State.startWalks (s : State) (cid wx core owner : Nat) (asks : List (Nat × Nat)) : State :=
  let d := dieOfCore core
  let vpns := (asks.map fun x => s.walkKey owner x.2).eraseDups
  let fresh := s.freshWalks d owner (asks.map (·.2))
  if !s.walkersFree d owner (asks.map (·.2)) && !(s.die d).walks.isEmpty then s
  else
    let join (k : Walk) : Walk := { k with waiters := k.waiters ++ [(cid, wx)] }
    let mine (k : Walk) : Bool := k.owner == owner && vpns.contains k.vpn
    let s := s.modDie d fun x =>
      { x with walks := updWhere x.walks mine join ++ fresh.map fun v => ⟨owner, v, [(cid, wx)], [], []⟩ }
    let s := fresh.foldl (fun s v => s.post (.pageWalkComplete d owner v)) s
    s.modWeave cid wx fun w => { w with wait := .walk vpns, asks := asks, tried := 0 }

/-- A walk that no weave waits for, of a prefetch or a register's refresh; a walker is free for it. -/
def State.sideWalk (s : State) (d owner va : Nat) (fills regs : List (Nat × Nat × Nat)) : State :=
  let vpn := s.walkKey owner va
  let mine (k : Walk) : Bool := k.owner == owner && k.vpn == vpn
  let join (k : Walk) : Walk := { k with fills := k.fills ++ fills, regs := k.regs ++ regs.filter fun x => !k.regs.contains x }
  if (s.die d).walks.any mine then s.modDie d fun x => { x with walks := updWhere x.walks mine join }
  else
    (s.modDie d fun x => { x with walks := x.walks ++ [Walk.mk owner vpn [] fills regs] }).post (.pageWalkComplete d owner vpn)

/-- A group instruction's lanes ask for one VA. -/
def groupAsks (w : Weave) (vas : List Nat) : List (Nat × Nat) := vas.flatMap fun va => (maskLanes w.exec).map fun i => (i, va)

/-! ## Translation registers (R153 to R155) -/

/-- The content of a translation register for a VA, from what a translation found (R154). -/
def tregOf (s : State) (owner d va : Nat) (x : Option Leaf) : TReg :=
  let base : TReg := { vabase := BitVec.ofNat 52 va, pabase := 0, tgen := BitVec.ofNat 16 (s.gen owner d), limit := 0,
                       bv := false, br := false, bw := false, kind := 0, watch := false }
  match x with
  | none => base
  | some l =>
    if l.r && !l.sh then
      let n := pageBytes l.size
      let logged := match s.tenant? owner with
        | some t => (nthD t.logged d []).contains (va / n * n, l.size)
        | none => false
      { base with
        pabase := BitVec.ofNat 48 (leafPa l 0 va false)
        limit := BitVec.ofNat 32 (min (n - va % n) (2 ^ 32 - 1))
        bv := true, br := true
        bw := l.w && (!s.dlen owner || logged)
        kind := BitVec.ofNat 2 l.kind, watch := l.watch }
    else base

/-! ## Address spaces (R144 to R147) -/

/-- The space of an access. -/
inductive Space where
  | global (xb : Nat)
  | scratch
  | commons
  deriving DecidableEq, Repr

/-- What an access does at its address. -/
structure Access where
  size : Nat
  read : Bool
  write : Bool
  atomic : Bool
  deriving DecidableEq, Repr

/-- A run of bytes of one lane's access after translation. `log` is the page to log before a write (R163). -/
structure Piece where
  loc : Loc
  len : Nat
  kind : Nat
  watch : Bool
  shadow : Bool
  log : Option (Nat × Nat)
  deriving DecidableEq, Repr

/-- What the checks of one lane's address find. `late` is a fault found after issue (R225). -/
inductive Probe where
  | ok (ps : List Piece)
  | walk (vpns : List Nat)
  | bad (c : Cause) (va : Nat)
  | late (c : Cause)
  deriving DecidableEq, Repr

/-- Split n bytes at an offset over consecutive windows. -/
def splitWindows : List Crew → Nat → Nat → List Piece
  | [], _, _ => []
  | c :: cs, off, n =>
    if n = 0 then []
    else if c.window ≤ off then splitWindows cs (off - c.window) n
    else
      let k := min n (c.window - off)
      ⟨.scratch c.cid off, k, 0, true, false, none⟩ :: splitWindows cs 0 (n - k)

/-- A scratch address (R146). -/
def State.probeScratch (s : State) (c : Crew) (a : Access) (e : Int) : Probe :=
  let ws := s.windows c
  if e < 0 || (ws.map Crew.window).sum < e.toNat + a.size then .bad .scratchRange 0
  else if a.atomic && e.toNat / 64 != (e.toNat + a.size - 1) / 64 then .bad .atomicSplit 0
  else .ok (splitWindows ws e.toNat a.size)

/-- A commons address (R147). -/
def State.probeCommons (s : State) (owner : Nat) (a : Access) (e : Int) : Probe :=
  match s.tenant? owner with
  | none => .bad .commonsRange 0
  | some t =>
    let off := e.toNat % 2 ^ 26
    let d := e.toNat / 2 ^ 26
    if e < 0 || 4 ≤ d || t.commonsMib * 2 ^ 20 < off + a.size then .bad .commonsRange 0
    else if a.atomic && off / 64 != (off + a.size - 1) / 64 then .bad .atomicSplit 0
    else if s.partOf d != t.part then .late .firewallBlocked
    else .ok [⟨.commons owner d off, a.size, 0, true, false, none⟩]

/-- The pieces of a global access by 64 KiB page: VA and length. -/
def pageChunks (va n : Nat) : List (Nat × Nat) :=
  let k := min n (2 ^ 16 - va % 2 ^ 16)
  if k = n then [(va, n)] else [(va, k), ((va + k) % 2 ^ 52, n - k)]

/-- A VA range of a global access, on the TLB path (R145, R155, R158). -/
def State.probeVa (s : State) (w : Weave) (core owner : Nat) (a : Access) (va : Nat) : Probe :=
  let cs := pageChunks va a.size
  let xs := cs.map fun x => s.xlate w core owner x.1
  let miss := (cs.zip xs).filterMap fun (x, r) => if r == .walk then some (x.1 / 2 ^ 16) else none
  if !miss.isEmpty then .walk miss
  else
    let leaves := xs.filterMap fun r => match r with | .hit l => some l | _ => none
    let straddle := match leaves with
      | [l, m] => l.kind != m.kind || l.sh != m.sh || (l.sh && l.sgrp != m.sgrp)
      | _ => false
    let prot := (cs.zip xs).findSome? fun (x, r) => match r with
      | .hit l => if (a.read && !l.r) || (a.write && !l.w) then some x.1 else none
      | _ => none
    let absent := (cs.zip xs).findSome? fun (x, r) => if r == .miss then some x.1 else none
    if a.atomic && va / 64 != (va + a.size - 1) / 64 then .bad .atomicSplit va
    else if straddle then .bad .kindStraddle va
    else match prot, absent with
      | some v, _ => .bad .pageProtection v
      | none, some v => .bad .pageNotPresent v
      | none, none =>
        match s.tenant? owner with
        | none => .bad .pageNotPresent va
        | some t =>
          let ps := (cs.zip leaves).map fun (x, l) =>
            let n := pageBytes l.size
            Piece.mk (.hbm (leafPa l t.shadow x.1 false)) x.2 l.kind l.watch l.sh (some (x.1 / n * n, l.size))
          if ps.any fun p => !(paBacked p.loc.off && paBacked (p.loc.off + p.len - 1)) then .late .paUnbacked
          else if ps.any fun p => s.partOf (paDie p.loc.off) != t.part then .late .firewallBlocked
          else .ok ps

/-- A global access through bN: the fast path, or the TLB path (R155). -/
def State.probeGlobal (s : State) (w : Weave) (core owner xb : Nat) (a : Access) (e : Int) : Probe :=
  match w.b[xb]? with
  | none => .bad .addrNoncanon 0
  | some b =>
    let va := ((b.vabase.toNat : Int) + e).emod (2 ^ 52) |>.toNat
    if b.bv && b.tgen.toNat == s.gen owner (dieOfCore core) % 2 ^ 16 && 0 ≤ e && e + a.size ≤ b.limit.toNat
        && (!a.read || b.br) && (!a.write || b.bw) then
      let pa := b.pabase.toNat + e.toNat
      if a.atomic && va / 64 != (va + a.size - 1) / 64 then .bad .atomicSplit va
      else if !(paBacked pa && paBacked (pa + a.size - 1)) then .late .paUnbacked
      else if (s.tenant? owner).all fun (t : Tenant) => s.partOf (paDie pa) != t.part then .late .firewallBlocked
      else .ok [⟨.hbm pa, a.size, b.kind.toNat, b.watch, false, none⟩]
    else s.probeVa w core owner a va

/-- The checks of one lane's address in the space of the instruction. -/
def State.probe (s : State) (c : Crew) (w : Weave) (core : Nat) (sp : Space) (a : Access) (e : Int) : Probe :=
  match sp with
  | .global xb => s.probeGlobal w core c.owner xb a e
  | .scratch => s.probeScratch c a e
  | .commons => s.probeCommons c.owner a e

/-- The order of steps 5 and 6 of R226. -/
def causeRank : Cause → Nat
  | .scratchRange => 0
  | .commonsRange => 1
  | .atomicSplit => 2
  | .kindStraddle => 3
  | .addrNoncanon => 4
  | .pageProtection => 5
  | _ => 6

/-- What the checks of a whole instruction find: walks to wait for, the cause to take with its lanes and addresses, or
the pieces of each lane; `late` are the lanes whose access faults after issue. -/
inductive Plan where
  | walk (vpns : List Nat)
  | bad (c : Cause) (lanes : Mask) (vas : List DWord)
  | go (lanes : List (Nat × List Piece)) (late : List (Nat × Cause))
  deriving DecidableEq, Repr

/-- Combine the lanes' findings (R225, R226): every lane is checked before any accesses memory. -/
def planOf (rs : List (Nat × Probe)) : Plan :=
  let walks := rs.flatMap fun r => match r.2 with | .walk v => v | _ => []
  if !walks.isEmpty then .walk walks.eraseDups
  else
    let bads := rs.filterMap fun r => match r.2 with | .bad c va => some (r.1, c, va) | _ => none
    match bads with
    | [] => .go (rs.filterMap fun r => match r.2 with | .ok ps => some (r.1, ps) | _ => none)
                (rs.filterMap fun r => match r.2 with | .late c => some (r.1, c) | _ => none)
    | b :: bs =>
      let c := (bs.foldl (fun best x => if causeRank x.2.1 < causeRank best.2.1 then x else best) b).2.1
      let hit := bads.filter fun x => x.2.1 == c
      .bad c (maskOf fun i => hit.any fun x => x.1 == i)
        (laneList.map fun i => match hit.find? fun x => x.1 == i with
          | some x => BitVec.ofNat 64 x.2.2
          | none => 0)

/-- A precise trap of a memory access, with the lanes' faulting addresses (R225, R227). -/
def State.memTrap (s : State) (cid wx : Nat) (w : Weave) (c : Cause) (lanes : Mask) (vas : List DWord) : State :=
  s.takeTrap cid wx ⟨c, false, w.pc, lanes, vas⟩

/-! ## The L1 copy (R150) -/

def L1Line.covers (l : L1Line) (owner pa : Nat) : Bool := l.owner == owner && l.line == pa / 64

/-- The byte a weave of a core reads at an HBM address: from the core's copy when it holds one. -/
def State.l1Byte (s : State) (core owner pa : Nat) : Byte :=
  match (s.core core).l1.find? fun l => l.covers owner pa with
  | some l => nthD l.data (pa % 64) 0
  | none => s.hbmByte owner pa

/-- The page kind SO (R152). -/
def kindSo : Nat := 1
def kindUn : Nat := 2

/-- Mark a line that a core holds: it is replaced last (R150, CH 3). -/
def State.l1Mark (s : State) (core owner pa : Nat) : State :=
  s.modCore core fun k => { k with l1 := updWhere k.l1 (fun l => l.covers owner pa) fun l => { l with retain := true } }

/-- Allocate a line after a read (R150); a full cache loses a line that nothing constrains, an unmarked one first. -/
def State.l1Fill (s : State) (core owner pa kind : Nat) (retain : Bool) : State :=
  let line := pa / 64
  if kind = kindSo then s
  else if (s.core core).l1.any fun l => l.covers owner pa then (if retain then s.l1Mark core owner pa else s)
  else
    let ls := (s.core core).l1
    let open_ := ((List.range ls.length).zip ls).filter fun x => !x.2.retain
    let ls := if ls.length < Config.l1Lines then ls
      else match open_[Config.freePick s.fresh % open_.length]? with
        | some x => ls.eraseIdx x.1
        | none => ls.eraseIdx (Config.freePick s.fresh % ls.length)
    let new : L1Line := ⟨line, owner, s.hbmBytes owner (line * 64) 64, kind, s.now, retain⟩
    let s := (s.draw).modCore core fun k => { k with l1 := ls ++ [new] }
    if kind = kindUn then s.after 4000 (.unLineExpiry core line) else s

/-- Drop lines of a core's L1. -/
def State.l1Drop (s : State) (core : Nat) (p : L1Line → Bool) : State :=
  s.modCore core fun k => { k with l1 := k.l1.filter fun l => !p l }

/-- A store updates a line that the core's L1 holds (R150). -/
def State.l1Update (s : State) (core owner pa : Nat) (bs : List Byte) : State :=
  s.modCore core fun k => { k with l1 := k.l1.map fun l =>
    if l.owner == owner && l.line * 64 < pa + bs.length && pa < l.line * 64 + 64 then
      { l with data := (List.range 64).map fun j =>
          let x := l.line * 64 + j
          if pa ≤ x && x < pa + bs.length then nthD bs (x - pa) 0 else nthD l.data j 0 }
    else l }

/-- An acquire at gang scope or wider invalidates the core's lines of RC pages (R150, R177). -/
def State.acquire (s : State) (core scp : Nat) : State :=
  if 2 ≤ scp then s.l1Drop core fun l => l.kind == 0 else s

/-! ## Bytes of an access -/

/-- The bytes of a piece as a load reads them: scratch and commons at their home, HBM through the L1 unless the access
bypasses it (CH 2, SO pages, ORD 4; R150, R176). -/
def State.readPiece (s : State) (core owner : Nat) (bypass : Bool) (p : Piece) : List Byte :=
  match p.loc with
  | .hbm pa =>
    if bypass || p.kind == kindSo then s.hbmBytes owner pa p.len
    else (List.range p.len).map fun i => s.l1Byte core owner (pa + i)
  | l => s.locReadN owner l p.len

def State.readPieces (s : State) (core owner : Nat) (bypass : Bool) (ps : List Piece) : List Byte :=
  ps.flatMap fun p => s.readPiece core owner bypass p

/-- A piece lies in a word in error (R235). -/
def State.pieceUe (s : State) (p : Piece) : Bool :=
  match p.loc with
  | .hbm pa => s.hbmUe pa p.len
  | .commons o d off => s.ueCommons.any fun u => u.1 == o && u.2.1 == d && u.2.2 < off + p.len && off < u.2.2 + 8
  | .scratch .. => false

/-- The addresses of the lines of a piece in HBM. -/
def Piece.hbmLines (p : Piece) : List Nat :=
  match p.loc with
  | .hbm pa => (List.range ((pa + p.len - 1) / 64 - pa / 64 + 1)).map fun i => (pa / 64 + i) * 64
  | _ => []

/-- Invalidate a core's copies of the lines of a piece. -/
def State.dropPiece (s : State) (core owner : Nat) (p : Piece) : State :=
  p.hbmLines.foldl (fun s a => s.l1Drop core fun l => l.covers owner a) s

/-- What a store does to the core's L1 beyond the update of a held line, under its CH policy (R150). -/
def State.storeTouch (s : State) (core owner ch : Nat) (p : Piece) : State :=
  match ch with
  | 2 => s.dropPiece core owner p
  | 3 => p.hbmLines.foldl (fun s a => s.l1Mark core owner a) s
  | _ => s

/-- What a read does to the core's L1 under its CH policy (R150). A read of an SO page is made beyond L1, and a copy of the
line that another mapping brought in goes (R173). -/
def State.touchPiece (s : State) (core owner ch : Nat) (p : Piece) : State :=
  match p.loc with
  | .hbm _ =>
    let lines := p.hbmLines
    if p.kind == kindSo then s.dropPiece core owner p
    else match ch with
    | 1 => s
    | 2 => s.dropPiece core owner p
    | _ => lines.foldl (fun s a => s.l1Fill core owner a p.kind (ch == 3)) s
  | _ => s

/-- Store bytes in the pieces of one lane, for a weave of a core (R150). -/
def State.storePieces (s : State) (core owner : Nat) : List Piece → List Byte → State
  | [], _ => s
  | p :: ps, bs =>
    let mine := bs.take p.len
    let s := s.locWrite owner p.loc mine
    let s := match p.loc with
      | .hbm pa => s.l1Update core owner pa mine
      | _ => s
    s.storePieces core owner ps (bs.drop p.len)

/-! ## The dirty-page log (R163, R164) -/

/-- A die has yet to log a page in this epoch. -/
def State.mustLog (s : State) (owner d : Nat) (pg : Nat × Nat) : Bool :=
  match s.tenant? owner with
  | some t => s.dlen owner && !(nthD t.logged d []).contains pg
  | none => false

/-- Log pages before they are written; `none` when the log fills, the pages logged so far being logged. -/
def State.logPages (s : State) (owner d : Nat) : List (Nat × Nat) → State × Bool
  | [] => (s, true)
  | pg :: pgs =>
    if !s.mustLog owner d pg then s.logPages owner d pgs
    else
      let prod := s.psb owner 8
      let log2 := s.dlLog2 owner
      if ringFull prod (s.dlcons owner) log2 then (s, false)
      else
        let entry : DWord := BitVec.ofNat 64 (pg.1 / 2 ^ 16 * 2 ^ 16 + pg.2)
        let s := s.deviceWriteWords owner (((s.psb owner 7).toNat + 8 * (prod.toNat % 2 ^ log2)) % 2 ^ 52) [entry]
        let s := s.putPsb owner 8 (prod + 1)
        let s := s.modTenant owner fun t => { t with logged := modNth t.logged d fun l => l ++ [pg] }
        s.logPages owner d pgs

/-- The pages to log for the pieces of a store. -/
def logsOf (lanes : List (Nat × List Piece)) : List (Nat × Nat) :=
  (lanes.flatMap fun x => x.2.filterMap (·.log)).eraseDups

/-! ## Instruction fetch (R169) -/

/-- What the fetch of the instruction at a PC finds; `hold` while a Welt link on its way is not up (R14). -/
inductive Fetch where
  | word (w : BitVec 128)
  | walk (vpn : Nat)
  | hold
  | bad (c : Cause)
  deriving DecidableEq, Repr

/-- The 16 bytes at an offset of a line. -/
def lineWord (bs : List Byte) (off : Nat) : BitVec 128 := BitVec.ofNat 128 (natLE ((bs.drop off).take 16))

/-- Fetch the instruction at a weave's PC: fetch buffer, instruction cache, memory with X required. The state after has
the line in the buffer and the cache. -/
def State.fetch (s : State) (cid wx core owner : Nat) (w : Weave) : State × Fetch :=
  let line := w.pc.toNat / 64
  let off := w.pc.toNat % 64
  if w.fline = some line then (s, .word (lineWord w.fbytes off))
  else
    let put (s : State) (bs : List Byte) : State :=
      s.modWeave cid wx fun w => { w with fline := some line, fbytes := bs, walked := [] }
    match (s.core core).icache.find? fun l => l.owner == owner && l.line == line with
    | some l => (put s l.data, .word (lineWord l.data off))
    | none =>
      match s.xlate w core owner (line * 64) with
      | .walk => (s, .walk (line * 64 / 2 ^ 16))
      | .miss => (s, .bad .pageNotPresent)
      | .hit l =>
        if !l.x then (s, .bad .pageProtection)
        else
          let pa := leafPa l (match s.tenant? owner with | some t => t.shadow | none => 0) (line * 64) false
          if !paBacked pa then (s, .bad .paUnbacked)
          else if s.stalled (dieOfCore core) (paDie pa) then (s, .hold)
          else
            let s := s.countSoft (s.softAt [.hbm pa, .hbm (pa + 32)])
            let bs := s.hbmBytes owner pa 64
            let ic := (s.core core).icache
            let ic := if ic.length < 1024 then ic else ic.eraseIdx (Config.freePick s.fresh % ic.length)
            let s := if (s.core core).icache.length < 1024 then s else s.draw
            let s := s.modCore core fun k => { k with icache := ic ++ [⟨owner, line, bs⟩] }
            (put s bs, .word (lineWord bs off))

end Sys2Proof.Machine
end

