-- ==== Sys2Proof/Machine/Spin.lean ====
section
/-! DEFINITION. Machine/Spin.lean: waiting and waking, arming of lines (R109, R340), the Spin Recognizer (R107, R108) and
the events that wake a waiter by a write or by time (R109, R110, R341, R377). -/

namespace Sys2Proof.Machine

/-! ## Waiting and waking -/

/-- A weave begins to wait. -/
def State.waitOn (s : State) (cid wx : Nat) (k : Wait) : State :=
  let s := s.newId
  (s.modWeave cid wx fun w => { w with wait := k, stamp := s.ids, parked := s.now }).noteCand cid

/-- A weave's wait is over; `r` is what a re-executed instruction finds. -/
def State.wake (s : State) (cid wx : Nat) (r : Option Bool) : State :=
  (s.modWeave cid wx fun w => { w with wait := .none, wakeRes := r }).noteCand cid

/-! ## Arming points (R109) -/

/-- Some armed lines, each once, whatever weaves armed it. -/
def State.armedLines (s : State) (here : WLine → Bool) : Nat := ((s.armed.map (·.line)).filter here).eraseDups.length

/-- The arming point of a line holds as many other lines as it can (R109). -/
def State.pointFull (s : State) (l : WLine) : Bool :=
  !(s.armed.any fun a => a.line == l) && (match l with
    | .scratch cid _ =>
      let k := (s.crew? cid).bind Crew.holds?
      let here (x : WLine) : Bool := match x with
        | .scratch c _ => (s.crew? c).bind Crew.holds? == k
        | _ => false
      192 ≤ s.armedLines here
    | .commons _ d n =>
      let here (x : WLine) : Bool := match x with
        | .commons _ e m => e == d && m % 256 == n % 256
        | _ => false
      64 ≤ s.armedLines here
    | .hbm n =>
      let here (x : WLine) : Bool := match x with
        | .hbm m => paDie (m * 64) == paDie (n * 64)
        | _ => false
      4096 ≤ s.armedLines here)

/-- Arm a line for a weave, once. -/
def State.arm (s : State) (cid wx : Nat) (l : WLine) : State :=
  if s.armed.contains ⟨l, cid, wx⟩ then s else { s with armed := s.armed ++ [⟨l, cid, wx⟩] }

/-- Release the lines that a weave armed for its spin alone. -/
def State.releaseSpin (s : State) (cid wx : Nat) : State :=
  let keep := match s.weave? cid wx with | some w => w.watch | none => []
  { s with armed := s.armed.filter fun a => !(a.cid == cid && a.widx == wx && !keep.contains a.line) }

/-- Arm lines in order; the lines past four, an unwatchable line or a full point leave the set unwatched. -/
def State.armAll (s : State) (cid wx : Nat) : List (Option WLine) → Nat → State × Bool
  | [], _ => (s, true)
  | l :: ls, n =>
    match l with
    | none => (s, false)
    | some x =>
      if 4 ≤ n || s.pointFull x then (s, false)
      else (s.arm cid wx x).armAll cid wx ls (n + 1)

/-! ## The recognizer (R107, R108) -/

/-- One bit of a CRC-32 with polynomial 0x04C1_1DB7, most significant bit first (log entry 17). -/
def crcBit (c : Word) (b : Bool) : Word :=
  let top := c.getLsbD 31 != b
  (c <<< 1) ^^^ (if top then 0x04C11DB7 else 0)

def crcWord (c : Word) (x : Word) : Word := (List.range 32).foldl (fun c i => crcBit c (x.getLsbD (31 - i))) c

/-- The signature of an iteration: every address and value in issue order. -/
def signature (ws : List Word) : Word := ws.foldl crcWord (BitVec.allOnes 32)

/-- The iteration that a back-edge closes: the entries, oldest first, from the most recent issue at the target. -/
def iterationOf (log : List SpinEntry) (target : Pc) : Option (List SpinEntry) :=
  let newer := log.takeWhile fun e => e.pc != target
  match log.drop newer.length with
  | e :: _ => some (e :: newer.reverse)
  | [] => none

/-- The lines that a load read, in order: `none` where one is not watchable. -/
def SpinLoad.lines (l : SpinLoad) : List (Option WLine) :=
  match l.loc with
  | some p => if l.watchable then (p.lines l.bytes.length).map some else [none]
  | none => [none]

/-- Park a weave at a back-edge target: arm up to four lines loaded in the last iteration and wait (R108, R109). -/
def State.park (s : State) (cid wx : Nat) (loads : List SpinLoad) : State :=
  let lines := (loads.flatMap SpinLoad.lines).eraseDups
  let r := s.armAll cid wx lines 0
  let s := if r.2 then r.1 else r.1.releaseSpin cid wx
  let s := s.waitOn cid wx .spin
  (s.modWeave cid wx fun w =>
    { w with spin := { Spin.fresh w.spin.nospin with last := loads, watched := r.2, quant := s.mgmt.quant } }).post (.armingEnd cid wx)

/-- A taken back-edge of a weave that stands at its target (R107). -/
def State.backEdge (s : State) (cid wx : Nat) (branch target : Pc) : State :=
  match s.weave? cid wx with
  | none => s
  | some w =>
    match iterationOf w.spin.log target with
    | none => s.modWeave cid wx fun w => { w with spin := Spin.fresh w.spin.nospin }
    | some it =>
      let ref : SpinRef := ⟨branch, target, w.exec, it.map (·.pc), signature (it.flatMap (·.words))⟩
      let ok := w.spin.ref == some ref && !it.any (·.bad) && !w.spin.nospin && s.mgmt.spen
      let n := if ok then w.spin.count + 1 else 0
      if 4 ≤ n then s.park cid wx (it.flatMap (·.loads))
      else s.modWeave cid wx fun w => { w with spin := { w.spin with count := n, log := [], ref := some ref } }

/-- The target lies at most 64 instructions before the branch. -/
def isBackEdge (branch target : Pc) : Bool :=
  let d := (branch - target).toNat
  16 ≤ d && d ≤ 64 * 16

/-- A parked spinner is woken: it resumes at the target with its counter at 0 (R108). The next iteration is a reference anew
(log entry 105). -/
def State.unpark (s : State) (cid wx : Nat) : State :=
  ((s.releaseSpin cid wx).modWeave cid wx fun w => { w with spin := Spin.fresh w.spin.nospin }).wake cid wx none

/-- The words that a spinner's last iteration loaded still hold what it loaded (R109). -/
def State.sameLoads (s : State) (owner : Nat) (ls : List SpinLoad) : Bool :=
  ls.all fun l => match l.loc with
    | some p => s.locReadN owner p l.bytes.length == l.bytes
    | none => true

/-- Invalidate the lines of a place in the L1 of a crew's core. -/
def State.dropLine (s : State) (cid : Nat) (l : WLine) : State :=
  match l, (s.crew? cid).bind Crew.core? with
  | .hbm n, some k => s.l1Drop k fun x => x.line == n
  | _, _ => s

/-- `ARMING_END`: each loaded word is read again; a change wakes the weave at once, else it is SPINNING and its time
is counted from its parking, with the QUANT of then (R109, R110, R121, R379). -/
def execArmingEnd (cid wx : Nat) (s : State) : Host.Outcome State Fault Refusal :=
  .next <| match s.crew? cid, s.weave? cid wx with
  | some c, some w =>
    if w.wait != .spin || w.spin.armed then s
    else if w.spin.watched && !s.sameLoads c.owner w.spin.last then
      (w.spin.last.foldl (fun s l => l.lines.foldl (fun s x => match x with
        | some y => s.dropLine cid y
        | none => s) s) s).unpark cid wx
    else
      let s := (s.modWeave cid wx fun w => { w with spin := { w.spin with armed := true } }).noteCand cid
      let q := w.spin.quant * 1000
      if w.spin.watched then s.at_ (w.parked + 64 * q) (.watchedTimeout cid wx w.stamp)
      else s.at_ (w.parked + q) (.quantExpiry cid wx w.stamp)
  | _, _ => s

/-- A stashed unit whose wait may have ended: the RRU looks again (R111). -/
def State.retryPlace (s : State) (cid : Nat) : State :=
  match s.crew? cid with
  | some c => match c.place with
    | .stashed .. => s.kick
    | _ => s
  | none => s

/-- `ARMED_LINE_WRITE`: the watcher wakes and the line leaves its L1 (R109). -/
def execArmedLineWrite (cid wx : Nat) (line : WLine) (s : State) : Host.Outcome State Fault Refusal :=
  .next <| match s.weave? cid wx with
  | some w =>
    let s := s.dropLine cid line
    match w.wait with
    | .spin => (s.unpark cid wx).retryPlace cid
    | .waita => if w.woken then (s.wake cid wx (some true)).retryPlace cid else s
    | _ => s
  | none => s

/-- `QUANT_EXPIRY`: an unwatched waiter is woken (R110, R341). -/
def execQuantExpiry (cid wx stamp : Nat) (s : State) : Host.Outcome State Fault Refusal :=
  .next <| match s.weave? cid wx with
  | some w =>
    if w.stamp != stamp then s
    else match w.wait with
      | .spin => (s.unpark cid wx).retryPlace cid
      | .waita => (s.wake cid wx (some false)).retryPlace cid
      | _ => s
  | none => s

/-- `WATCHED_TIMEOUT`: 64 × QUANT have passed with no write (R110, R341). A crew that was saved while a weave waited in `SIGWT`
becomes runnable, and the weave comes to its instruction again (R111, R345). -/
def execWatchedTimeout (cid wx stamp : Nat) (s : State) : Host.Outcome State Fault Refusal :=
  .next <| match s.weave? cid wx with
  | some w =>
    if w.stamp != stamp then s
    else match w.wait with
      | .spin => (s.unpark cid wx).retryPlace cid
      | .waita => (s.wake cid wx (some false)).retryPlace cid
      | .signal _ =>
        let away := match (s.crew? cid).map Crew.place with | some (.stashed ..) => true | _ => false
        let mine (r : WaitReg) : Bool := r.who == .weave cid wx
        if !away || w.haltKept then s
        else ({ s with waits := s.waits.filter fun r => !mine r, remoteWaits := s.remoteWaits.filter fun r => !mine r }.wake cid wx
          none).retryPlace cid
      | _ => s
  | none => s

/-- `WAITA_TIMEOUT`: the timeout that `WAITA` names has passed (R341). -/
def execWaitaTimeout (cid wx stamp : Nat) (s : State) : Host.Outcome State Fault Refusal :=
  .next <| match s.weave? cid wx with
  | some w =>
    if w.stamp == stamp && w.wait == .waita then (s.wake cid wx (some false)).retryPlace cid else s
  | none => s

end Sys2Proof.Machine
end

