-- ==== Sys2Proof/Machine/Exit.lean ====
section
/-! DEFINITION. Machine/Exit.lean: what follows when a weave, a crew, a unit or a launch ends: barrier records (R100 to
R104, R343), command-link messages (R53 to R55), launch completion (R41, R97). -/

namespace Sys2Proof.Machine

/-! ## Command links (R54, R55) -/

/-- Put messages on the wire while permits last. -/
def LinkDir.flush (d : LinkDir) : LinkDir :=
  let n := min d.permits d.queue.length
  { d with permits := d.permits - n, wire := d.wire ++ d.queue.take n, queue := d.queue.drop n }

/-- Number a message and send it, or hold it for a permit. -/
def LinkDir.send (d : LinkDir) (b : LinkBody) : LinkDir :=
  let m := (d.nextSeq, b)
  { d with nextSeq := (d.nextSeq + 1) % 2 ^ 32, queue := d.queue ++ [m], sent := d.sent ++ [m] }.flush

/-- The leaf of a core: cluster `k / 8` of all dies. -/
def leafOfCore (core : Nat) : Nat := core / 8

/-- A leaf sends a message to Scevar. -/
def State.toScevar (s : State) (leaf : Nat) (b : LinkBody) : State :=
  { s with links := modNth s.links leaf fun l => { l with up := l.up.send b } }.post (.commandLinkMessage leaf false)

/-- Scevar sends a message to a leaf. -/
def State.toLeaf (s : State) (leaf : Nat) (b : LinkBody) : State :=
  { s with links := modNth s.links leaf fun l => { l with down := l.down.send b } }.post (.commandLinkMessage leaf true)

/-! ## Launch completion -/

/-- A graph instance whose firings are done and whose stage crews have exited completes its RUN (R82). -/
def State.instCheck (s : State) (gid inst : Nat) : State :=
  match (s.graph? gid).bind fun g => g.insts.find? fun i => i.id == inst with
  | none => s
  | some i =>
    let mine := s.launches.filter fun l => i.lids.contains l.lid
    if i.finished && mine.all (fun l => l.outstanding == 0 && l.unplaced.isEmpty && l.bins.isEmpty && !s.engineBusy l.lid) then
      s.postOnce (.packetCompletion i.q i.idx none 0)
    else s

/-- A launch completes when every unit has been placed and has exited and its continuation buffers are empty (R97), and its
writes are performed; one that ended in error waits for these alone (R47). -/
def State.launchCheck (s : State) (lid : Nat) : State :=
  match s.launch? lid with
  | none => s
  | some l =>
    if l.ended then s.postLaunchEnd lid
    else if !l.unplaced.isEmpty || !l.bins.isEmpty || l.outstanding != 0 || s.engineBusy lid then s
    else match l.kind with
      | .packet q idx => (s.modLaunch lid fun l => { l with ended := true, posted := true }).post (.packetCompletion q idx none 0)
      | .stage gid inst _ => s.instCheck gid inst

/-! ## The Barrier Directory (R103, R104) -/

/-- COMPLETE: the next generation, and a notice to every die of the partition. -/
def State.bdirComplete (s : State) (num : Nat) : State :=
  match s.bdir? num with
  | none => s
  | some r =>
    let g := r.gen + 1
    let s := s.modBdir num fun r => { r with gen := g, arrived := 0, expect := r.expect - r.left, left := 0 }
    (s.partDies (r.own / 16)).foldl (fun s d => s.post (.generationNotice num g d)) s

/-- An ARRIVE that is no second arrival in the generation. -/
def State.bdirArriveOp (s : State) (num : Nat) : State :=
  match s.bdir? num with
  | none => s
  | some r =>
    let s := s.modBdir num fun r => { r with arrived := r.arrived + 1 }
    if r.arrived + 1 = r.expect then s.bdirComplete num else s

/-- EXIT: a member that arrived in this generation leaves EXPECT unchanged until COMPLETE. -/
def State.bdirExitOp (s : State) (num : Nat) (mine : Option Word) : State :=
  match s.bdir? num with
  | none => s
  | some r =>
    if mine = some r.gen then s.modBdir num fun r => { r with left := r.left + 1 }
    else
      let s := s.modBdir num fun r => { r with expect := r.expect - 1 }
      if 0 < r.arrived && r.arrived = r.expect - 1 then s.bdirComplete num else s

/-- The record of a crew's barrier: SCP 2 gang, 4 launch (R102, R342). -/
def State.bdirNum? (s : State) (c : Crew) (scp n : Nat) : Option Nat :=
  if scp = 2 then
    (s.bdir.find? fun r => r.scope == 1 && r.launch == c.lid && r.unit == c.unit && r.index == n).map (·.num)
  else (s.launch? c.lid).bind fun l => l.recDie.map fun d => d * 16384 + l.recBase + n

/-- The weaves of a crew that have not exited. -/
def Crew.live (c : Crew) : Mask := maskOf fun i => match c.weaves[i]? with
  | some w => !w.done
  | none => false

/-- Every weave has exited. -/
def Crew.ended (c : Crew) : Bool := c.weaves.all (·.done)

/-- Fields of one scope: arrival generation m, pending mask, K. -/
def Crew.mOf (c : Crew) (scp n : Nat) : Option Word := nthD (if scp = 2 then c.gm else c.lm) n none
def Crew.pendOf (c : Crew) (scp n : Nat) : Mask := nthD (if scp = 2 then c.gpend else c.lpend) n 0
def Crew.kOf (c : Crew) (scp n : Nat) : Word := nthD (if scp = 2 then c.gk else c.lk) n 0
def Crew.setM (c : Crew) (scp n : Nat) (x : Option Word) : Crew :=
  if scp = 2 then { c with gm := modNth c.gm n fun _ => x } else { c with lm := modNth c.lm n fun _ => x }
def Crew.setPend (c : Crew) (scp n : Nat) (x : Mask) : Crew :=
  if scp = 2 then { c with gpend := modNth c.gpend n fun _ => x } else { c with lpend := modNth c.lpend n fun _ => x }
def Crew.setK (c : Crew) (scp n : Nat) (x : Word) : Crew :=
  if scp = 2 then { c with gk := modNth c.gk n fun _ => x } else { c with lk := modNth c.lk n fun _ => x }

/-- The crews of a crew's gang, or the crew. -/
def State.mates (s : State) (c : Crew) : List Crew := s.crews.filter fun x => x.cid == c.cid || sameGang x c

/-- The newest generation that some crews have learned of: mates learn of one at different moments (R105). -/
def newestK (scp n : Nat) (ms : List Crew) : Word :=
  match ms with
  | [] => 0
  | m :: ms => ms.foldl (fun k x => if (x.kOf scp n - k).toNat < 2 ^ 31 then x.kOf scp n else k) (m.kOf scp n)

/-- Send the ARRIVE of a unit whose every non-exited crew has arrived in the generation of the moment, one at least (R100).
`old` is the arrival generation held before. -/
def State.unitArrive (s : State) (cid scp n : Nat) (old : Option Word) : State :=
  match s.crew? cid with
  | none => s
  | some c =>
    let ms := if scp = 4 then s.mates c else [c]
    let arrived (x : Crew) : Bool := x.mOf scp n == some (newestK scp n ms)
    if (ms.all fun x => x.ended || arrived x) && ms.any arrived then
      match s.bdirNum? c scp n with
      | some r => s.post (.bdirArrive r cid old)
      | none => s
    else s

/-- Every non-exited weave of the crew has arrived: the crew arrives (R343). -/
def State.crewArrive (s : State) (cid scp n : Nat) : State :=
  match s.crew? cid with
  | none => s
  | some c =>
    let p := c.pendOf scp n
    if p == 0 || (c.live &&& ~~~ p) != 0 then s
    else
      let s := s.modCrew cid fun c => (c.setM scp n (some (c.kOf scp n))).setPend scp n 0
      s.unitArrive cid scp n (c.mOf scp n)

/-- COMPLETE at the core's barrier file: the waiting weaves of the crew go on (R100, R104). -/
def State.cbarComplete (s : State) (cid n : Nat) : State :=
  let s := s.modCrew cid fun c =>
    { c with cbars := modNth c.cbars n fun b => { b with gen := b.gen + 1, arrived := 0, expect := b.expect - b.left, left := 0 } }
  match s.crew? cid with
  | none => s
  | some c => (List.range c.weaves.length).foldl (fun s i => match s.weave? cid i with
      | some w => match w.wait with
        | .barrier 1 m _ => if m = n then s.wake cid i none else s
        | _ => s
      | none => s) s

/-- The ARRIVE of a weave at a crew barrier. -/
def State.cbarArrive (s : State) (cid n : Nat) : State :=
  let s := s.modCrew cid fun c => { c with cbars := modNth c.cbars n fun b => { b with arrived := b.arrived + 1 } }
  match (s.crew? cid).bind fun c => c.cbars[n]? with
  | some b => if b.arrived = b.expect then s.cbarComplete cid n else s
  | none => s

/-- The EXIT of a weave from a crew barrier. -/
def State.cbarExit (s : State) (cid wx n : Nat) : State :=
  match (s.crew? cid).bind fun c => c.cbars[n]?, s.weave? cid wx with
  | some b, some w =>
    if nthD w.carr n none == some b.gen then
      s.modCrew cid fun c => { c with cbars := modNth c.cbars n fun b => { b with left := b.left + 1 } }
    else
      let s := s.modCrew cid fun c => { c with cbars := modNth c.cbars n fun b => { b with expect := b.expect - 1 } }
      if 0 < b.arrived && b.arrived = b.expect - 1 then s.cbarComplete cid n else s
  | _, _ => s

/-! ## Exits -/

/-- Free the gang records of a unit (R102). -/
def State.freeGangRecords (s : State) (lid unit : Nat) : State :=
  { s with bdir := s.bdir.filter fun r => !(r.scope == 1 && r.launch == lid && r.unit == unit) }

/-- A whole unit has exited: its launch record sees EXIT, its crews and records go, its leaf tells Scevar (R53, R104). -/
def State.unitExit (s : State) (c : Crew) : State :=
  let ms := s.mates c
  let s := if c.cont then s else (List.range 16).foldl (fun s n => match s.bdirNum? c 4 n with
    | some r =>
      let arrived (x : Crew) : Bool := x.mOf 4 n == some (newestK 4 n ms)
      let mine := match ms.find? arrived with
        | some x => x.mOf 4 n
        | none => none
      s.post (.bdirExit r ⟨c.die, mine⟩)
    | none => s) s
  let s := s.freeGangRecords c.lid c.unit
  let leaf := match c.holds? with | some k => leafOfCore k | none => c.homeDie * 8
  ((s.dropCrews (ms.map (·.cid))).toScevar leaf (.crewDone c.lid c.unit)).kick

/-- An output half waits for its feeder: a stage crew that is over stays until its records have been taken (R86). -/
def Crew.undrained (c : Crew) : Bool := c.rings.any fun r => !r.input && (r.h0.busy || r.h1.busy)

/-- The feeders of a stage crew that is over look at what it leaves. -/
def State.pokeFeeder (s : State) (c : Crew) : State :=
  match c.stage, c.rings with
  | some (gid, inst, _), r :: _ => s.postOnce (.feederMove gid inst r.chan)
  | _, _ => s

/-- The last weave of a crew has exited (R100, R128, R343). -/
def State.crewExit (s : State) (cid : Nat) : State :=
  match s.crew? cid with
  | none => s
  | some c =>
    let ms := s.mates c
    -- a gang whose other crews go on: this one leaves the gang barriers, and may complete the gang's arrivals
    let s := if c.inGang then (List.range 16).foldl (fun s n =>
        let s := match s.bdirNum? c 2 n with
          | some r => s.post (.bdirExit r ⟨c.die, c.mOf 2 n⟩)
          | none => s
        if c.mOf 4 n == some (newestK 4 n ms) then s else s.unitArrive cid 4 n none) s
      else s
    if (ms.all Crew.ended) && !c.undrained then s.unitExit c
    else (s.noteCand cid).pokeFeeder c

/-- A weave exits (R128, R341, R343). -/
def State.weaveExit (s : State) (cid wx : Nat) : State :=
  let s := s.clearWatch cid wx
  let s := (List.range 16).foldl (fun s n => ((s.cbarExit cid wx n).crewArrive cid 2 n).crewArrive cid 4 n) s
  match s.crew? cid with
  | some c => if c.ended then s.crewExit cid else s.noteCand cid
  | none => s

end Sys2Proof.Machine
end

