-- ==== Sys2Proof/Machine/Control.lean ====
section
/-! DEFINITION. Machine/Control.lean: the CF, TK and MS blocks: flow, divergence tokens, NOP, YLD, BKPT, TRAP
(R286 to R294). The head of `toks` is the top of the stack. -/

namespace Sys2Proof.Machine

/-! ## Shared -/

/-- PC + 16 × OFF32, modulo 2^52. -/
def branchTo (pc : Pc) (off : Word) : Pc := pc + 16 * off.signExtend 52

/-- RESUME (R290): the next path that holds lanes, or the weave exits. -/
def Weave.resumeOn (w : Weave) : List Token → Weave
  | [] => { w with toks := [], exec := 0, helper := 0, done := true }
  | t :: ts =>
    match t.kind with
    | .ifk =>
      if t.pmask != 0 then { w with exec := t.pmask, toks := { t with pmask := 0, kind := .elsek, pca := 0 } :: ts, pc := t.pca + 16 }
      else if t.rmask != 0 then { w with exec := t.rmask, toks := ts, pc := t.pcj + 16 }
      else w.resumeOn ts
    | .elsek => if t.rmask != 0 then { w with exec := t.rmask, toks := ts, pc := t.pcj + 16 } else w.resumeOn ts
    | .loopk =>
      if t.pmask != 0 then { w with exec := t.pmask, toks := { t with pmask := 0 } :: ts, pc := t.pcj - 16 }
      else if t.rmask != 0 then { w with exec := t.rmask, toks := ts, pc := t.pcj }
      else w.resumeOn ts
    | .callk => if t.rmask != 0 then { w with exec := t.rmask, toks := ts, pc := t.pca } else w.resumeOn ts

/-- RESUME when an instruction left the exec mask 0. -/
def Weave.resume (w : Weave) : Weave := if w.exec == 0 then w.resumeOn w.toks else w

/-- The weave after an instruction, which may have made it exit (R128). -/
def State.settle (s : State) (cid wx : Nat) (w : Weave) : State :=
  let s := s.putWeave cid wx w
  if w.done then s.weaveExit cid wx else s

/-- The lanes that act in `CALL`, `EXIT`, `BKPT` and `TRAP`. -/
def Weave.acting (w : Weave) (h : Head) : Mask := if h.grp then (if w.qPass h then w.exec else 0) else w.actors h

/-- Most token records a weave holds (R129). -/
def tokenLimit : Nat := 48

/-- A NOP. -/
def State.skip (s : State) (cid wx : Nat) (w : Weave) : State := s.putWeave cid wx w.next

/-! ## Flow (R287 to R289) -/

def execBra (f : BForm) (s : State) : Host.Outcome State Fault Refusal :=
  s.issue (.bra f) fun cid wx w =>
    if w.uniform f.hd then
      let t := branchTo w.pc f.off
      let s := s.putWeave cid wx (w.goto t)
      if isBackEdge w.pc t then s.backEdge cid wx w.pc t else s
    else s.skip cid wx w

def execBrx (f : BForm) (s : State) : Host.Outcome State Fault Refusal :=
  s.issue (.brx f) fun cid wx w =>
    if w.uniform f.hd then
      let lane := (lowestLane w.exec).getD 0
      let t : Pc := (w.wideLane 0 false f.hd.a lane).setWidth 52
      if t &&& 15 != 0 then s.trap cid wx w .pcMisaligned w.exec
      else s.putWeave cid wx (w.goto t)
    else s.skip cid wx w

def execCall (f : BForm) (s : State) : Host.Outcome State Fault Refusal :=
  s.issue (.call f) fun cid wx w =>
    let m := w.acting f.hd
    if m == 0 then s.skip cid wx w
    else if tokenLimit ≤ w.toks.length then s.trap cid wx w .tokenOverflow w.exec
    else
      let t : Token := ⟨.callk, w.exec, 0, w.pc + 16, 0⟩
      s.putWeave cid wx ({ w with toks := t :: w.toks, exec := m }.goto (branchTo w.pc f.off))

def execRet (f : BForm) (s : State) : Host.Outcome State Fault Refusal :=
  s.issue (.ret f) fun cid wx w =>
    if w.uniform f.hd then
      match w.toks with
      | [] => s.trap cid wx w .tokenUnderflow w.exec
      | t :: ts =>
        if t.kind = .callk then s.settle cid wx ({ w with toks := ts, exec := t.rmask }.goto t.pca).resume
        else s.trap cid wx w .tokenMismatch w.exec
    else s.skip cid wx w

/-- Lanes leave the exec mask and every mask of the token stack (R128). -/
def Weave.dropLanes (w : Weave) (m : Mask) : Weave :=
  { w with exec := w.exec &&& ~~~ m, exited := w.exited ||| m,
           toks := w.toks.map fun t => { t with rmask := t.rmask &&& ~~~ m, pmask := t.pmask &&& ~~~ m } }

def execExit (f : BForm) (s : State) : Host.Outcome State Fault Refusal :=
  s.issue (.exit_ f) fun cid wx w =>
    if neverPasses f.hd then s.skip cid wx w else s.settle cid wx (w.dropLanes (w.acting f.hd)).next.resume

/-! ## Tokens (R291 to R293) -/

def execIfb (f : BForm) (s : State) : Host.Outcome State Fault Refusal :=
  s.issue (.ifb f) fun cid wx w =>
    if neverPasses f.hd then s.skip cid wx w
    else if tokenLimit ≤ w.toks.length then s.trap cid wx w .tokenOverflow w.exec
    else
      let t := w.actors f.hd &&& w.predBits f.hd.a
      let pca := branchTo w.pc f.off
      let tok : Token := ⟨.ifk, w.exec, w.exec &&& ~~~ t, pca, pca + 16 * f.tok.setWidth 52⟩
      s.settle cid wx ({ w with toks := tok :: w.toks, exec := t }.next).resume

def execElsb (f : BForm) (s : State) : Host.Outcome State Fault Refusal :=
  s.issue (.elsb f) fun cid wx w =>
    match w.toks with
    | [] => s.trap cid wx w .tokenUnderflow w.exec
    | t :: ts =>
      if t.kind = .ifk then
        s.settle cid wx ({ w with exec := t.pmask, toks := { t with pmask := 0, kind := .elsek, pca := 0 } :: ts }.next).resume
      else s.trap cid wx w .tokenMismatch w.exec

def execJoin (f : BForm) (s : State) : Host.Outcome State Fault Refusal :=
  s.issue (.join f) fun cid wx w =>
    match w.toks with
    | [] => s.trap cid wx w .tokenUnderflow w.exec
    | t :: ts =>
      if t.kind = .elsek then s.settle cid wx ({ w with exec := t.rmask, toks := ts }.next).resume
      else s.trap cid wx w .tokenMismatch w.exec

def execLoop (f : BForm) (s : State) : Host.Outcome State Fault Refusal :=
  s.issue (.loop f) fun cid wx w =>
    if tokenLimit ≤ w.toks.length then s.trap cid wx w .tokenOverflow w.exec
    else
      let tok : Token := ⟨.loopk, w.exec, 0, w.pc + 16, branchTo w.pc f.off⟩
      s.settle cid wx ({ w with toks := tok :: w.toks }.next).resume

/-- The depth of the innermost LOOP, or the cause: a CALL record first, or none, is a mismatch. -/
def innermostLoop : List Token → Nat → Except Cause Nat
  | [], 0 => .error .tokenUnderflow
  | [], _ => .error .tokenMismatch
  | t :: ts, k => match t.kind with
    | .loopk => .ok k
    | .callk => .error .tokenMismatch
    | _ => innermostLoop ts (k + 1)

/-- `BRKL` and `CONTL`: lanes leave the records above the loop, and under `CONTL` wait in it. -/
def State.leaveLoop (s : State) (cid wx : Nat) (w : Weave) (f : BForm) (park : Bool) : State :=
  match innermostLoop w.toks 0 with
  | .error c => s.trap cid wx w c w.exec
  | .ok k =>
    let x := w.actors f.hd &&& w.predBits f.hd.a
    let above := (w.toks.take k).map fun t => { t with rmask := t.rmask &&& ~~~ x, pmask := t.pmask &&& ~~~ x }
    let rest := if park then modNth (w.toks.drop k) 0 fun t => { t with pmask := t.pmask ||| x } else w.toks.drop k
    s.settle cid wx ({ w with exec := w.exec &&& ~~~ x, toks := above ++ rest }.next).resume

def execBrkl (f : BForm) (s : State) : Host.Outcome State Fault Refusal :=
  s.issue (.brkl f) fun cid wx w => if neverPasses f.hd then s.skip cid wx w else s.leaveLoop cid wx w f false

def execContl (f : BForm) (s : State) : Host.Outcome State Fault Refusal :=
  s.issue (.contl f) fun cid wx w => if neverPasses f.hd then s.skip cid wx w else s.leaveLoop cid wx w f true

def execLend (f : BForm) (s : State) : Host.Outcome State Fault Refusal :=
  s.issue (.lend f) fun cid wx w =>
    if neverPasses f.hd then s.skip cid wx w
    else match w.toks with
    | [] => s.trap cid wx w .tokenUnderflow w.exec
    | t :: ts =>
      if t.kind = .loopk && t.pcj == w.pc + 16 then
        let all := w.exec ||| t.pmask
        let c := all &&& ~~~ w.exited &&& w.guardMask f.hd &&& w.predBits f.hd.a
        if c != 0 then
          let target := branchTo w.pc f.off
          let s := s.putWeave cid wx ({ w with exec := c, toks := { t with pmask := 0 } :: ts }.goto target)
          if c == all && isBackEdge w.pc target then s.backEdge cid wx w.pc target else s
        else s.settle cid wx ({ w with exec := t.rmask, toks := ts }.next).resume
      else s.trap cid wx w .tokenMismatch w.exec

/-! ## NOP, YLD, BKPT, TRAP (R294) -/

def execNop (f : BForm) (s : State) : Host.Outcome State Fault Refusal :=
  s.issue (.nop f) fun cid wx w => s.skip cid wx w

/-- The instruction at a weave's PC as its fetch buffer holds it. -/
def Weave.nextInstr (w : Weave) : Option (Except Reject Instr) :=
  if w.fline = some (w.pc.toNat / 64) then some (decode (lineWord w.fbytes (w.pc.toNat % 64))) else none

/-- The guard passes in at least one exec lane, or q passes. -/
def Weave.acts (w : Weave) (h : Head) : Bool := if h.grp then w.qPass h else w.actors h != 0

/-- A weave waits at an instruction: in a fence for its loads, at a load while it can count no more (R140, R338). -/
def Weave.waitsAt (w : Weave) : Instr → Bool
  | .fence f => w.acts f.hd && w.outst != 0
  | .ld f | .lds f | .ldc f => 255 ≤ w.outst && w.actors f.hd != 0
  | _ => false

/-- A weave is ready (R123): its next instruction has been fetched, no operand is held by an interlock, and it neither waits
nor is done; in supervisor mode the resident handler has something to do. -/
def Weave.isReady (w : Weave) (tblq : Nat) : Bool :=
  !w.done && w.wait == .none && (match w.handler with
    | some .entered | some (.resolve _) => true
    | some _ => false
    | none => match w.nextInstr with
      | some (.ok i) => w.stop tblq i != .hold && !w.waitsAt i
      | some (.error _) => true
      | none => false)

/-- The other ready weaves of a weave's issue slot, with their last issues (R294). -/
def State.slotMates (s : State) (cid wx : Nat) : List (Nat × Nat × Nat) :=
  match s.crew? cid, s.weave? cid wx with
  | some c, some w =>
    match c.core? with
    | none => []
    | some k => (s.crews.filter fun x => x.core? == some k).flatMap fun x =>
        ((x.weaves.zip (List.range x.weaves.length)).filter fun (y, j) =>
          y.slot == w.slot && y.isReady x.shape.tblq && !(x.cid == cid && j == wx)).map fun (y, j) => (x.cid, j, y.lastIssue)
  | _, _ => []

/-- Core clocks of a die (R296). -/
def State.clocks (s : State) (d : Nat) : Nat := (s.die d).clkM / 1000

def execYld (f : BForm) (s : State) : Host.Outcome State Fault Refusal :=
  s.issue (.yld f) fun cid wx w =>
    if w.uniform f.hd then
      let d := match (s.crew? cid).bind Crew.core? with | some k => dieOfCore k | none => 0
      s.putWeave cid wx { w.next with yld := s.slotMates cid wx, yldUntil := s.clocks d + 16 }
    else s.skip cid wx w

/-- A trap after the instruction's own execution: `hpc` is its PC + 16 (R227). -/
def State.trapAfter (s : State) (cid wx : Nat) (w : Weave) (c : Cause) (lanes : Mask) : State :=
  s.takeTrap cid wx ⟨c, false, w.pc + 16, lanes, []⟩

def execBkpt (f : BForm) (s : State) : Host.Outcome State Fault Refusal :=
  s.issue (.bkpt f) fun cid wx w =>
    if w.acts f.hd then s.trapAfter cid wx w .breakpoint (w.acting f.hd) else s.skip cid wx w

def execTrap (f : BForm) (s : State) : Host.Outcome State Fault Refusal :=
  s.issue (.trap f) fun cid wx w =>
    if w.acts f.hd then s.trapAfter cid wx w .softwareTrap (w.acting f.hd) else s.skip cid wx w

end Sys2Proof.Machine
end

