-- ==== Sys2Proof/Machine/Run.lean ====
section
/-! DEFINITION. Machine/Run.lean: whose turn it is (R9, R123, log entry 4), the passing of time (R21), a weave's turn
(R225, R226) and a machine set up to run one instruction. -/

namespace Sys2Proof.Machine

/-! ## Time -/

/-- Core clock in MHz of a performance state (R21). A die in transition counts as P5 (log entry 4). -/
def Power.mhz : Power → Nat
  | .on 0 => 1050
  | .on 1 => 950
  | .on 2 => 850
  | .on 3 => 700
  | .on 4 => 550
  | .on _ => 400
  | .parked => 0
  | .parking | .unparking => 400

/-- Nanoseconds that hold a clock of a performance state. -/
def Power.period (p : Power) : Nat := if p.mhz = 0 then 1 else (999 + p.mhz) / p.mhz

/-- The earliest time of a list of timers. -/
def earliest : List (Nat × Instr) → Option Nat
  | [] => none
  | t :: ts => match earliest ts with
    | none => some t.1
    | some u => some (min t.1 u)

/-- Put a due timer behind those due no later. -/
def insertDue (x : Nat × Instr) : List (Nat × Instr) → List (Nat × Instr)
  | [] => [x]
  | y :: ys => if y.1 ≤ x.1 then y :: insertDue x ys else x :: y :: ys

/-- Time passes: the dies' clocks run and due timers become events, the earliest first. -/
def State.elapse (s : State) (ns : Nat) : State :=
  let now := s.now + ns
  let due := (s.timers.filter fun t => t.1 ≤ now).foldl (fun acc t => insertDue t acc) []
  { s with
    now := now
    dies := s.dies.map fun d => { d with clkM := d.clkM + ns * d.power.mhz }
    timers := s.timers.filter fun t => !(t.1 ≤ now)
    pending := s.pending ++ due.map (·.2) }

/-! ## Turns -/

/-- What a turn comes to: a state, or an instruction to run in one. -/
inductive Turned where
  | idle (s : State)
  | run (i : Instr) (s : State)
  deriving DecidableEq, Repr

def isEvent (i : Instr) : Bool :=
  match formOf i with
  | .event => true
  | _ => false

/-- A weave that may have a turn by a clock of its die: it waits for nothing, a `YLD` of its own apart (R294), and neither it nor
its slot has issued in that clock (R123, R308). -/
def State.readyBy (s : State) (clk cid wx : Nat) (w : Weave) : Bool :=
  let handlerTurn := match w.handler with
    | none | some .entered | some (.resolve _) => true
    | _ => false
  let home (cid : Nat) : Option Nat := (s.crew? cid).bind Crew.core?
  let yielding := clk < w.yldUntil && w.yld.any fun (x, j, last) => match s.weave? x j with
    | some y => y.lastIssue == last && !y.done && home x == home cid
    | none => false
  let open_ := match home cid with
    | some k => decide (nthD (s.core k).slots w.slot 0 ≤ clk)
    | none => false
  !w.done && (w.pendReady ||
    (w.wait == .none && handlerTurn && !yielding && decide (w.issuedAt ≤ clk) && open_))

/-- A weave that may have a turn now. -/
def State.ready (s : State) (core cid wx : Nat) (w : Weave) : Bool := s.readyBy (s.clocks (dieOfCore core)) cid wx w

/-- The weave has issued: it is the last of its slot to have done so, and does not issue again in this clock (R123). -/
def State.noteIssue (s : State) (cid wx : Nat) : State :=
  match (s.crew? cid).bind Crew.core? with
  | none => s
  | some k => (s.newId).modWeave cid wx fun w => { w with lastIssue := s.ids + 1, issuedAt := s.clocks (dieOfCore k) + 1 }

/-- A weave whose instruction changed nothing of it, or left it waiting for a walk or for room in the dirty-page log, has
not issued. -/
def Weave.heldAt (w w' : Weave) : Bool :=
  w == w' || (match w'.wait with
    | .walk _ | .dirtyLog => true
    | _ => false)

/-- An issue slot of a core has issued in this clock (R123). -/
def State.useSlot (s : State) (core slot : Nat) : State :=
  let clk := s.clocks (dieOfCore core)
  s.modCore core fun k => { k with slots := modNth k.slots slot fun _ => clk + 1 }

/-- What an instruction's own turn adds to its effect: the place of its weave in the order of issue. -/
def State.afterIssue (before after : State) : State :=
  match before.cur with
  | none => after
  | some (cid, wx) => match before.weave? cid wx, (before.crew? cid).bind Crew.core? with
    | some w, some k =>
      let held := match after.weave? cid wx with
        | some w' => w.heldAt w'
        | none => false
      if held then after else (after.noteIssue cid wx).useSlot k w.slot
    | _, _ => after

/-- A weave that may have a turn, with what the order of issue goes by (R123). -/
structure Ready where
  last : Nat
  tried : Nat
  core : Nat
  slot : Nat
  cid : Nat
  wx : Nat
  deriving DecidableEq, Repr

/-- The weaves that may have a turn some clocks ahead. A weave with an empty operand is passed over. -/
def State.readyWeaves (s : State) (ahead : Nat) : List Ready :=
  s.crews.flatMap fun c => match c.core? with
    | none => []
    | some k => (c.weaves.zip (List.range c.weaves.length)).filterMap fun (w, j) =>
        let held := w.handler.isNone && !w.pendReady && w.nextInstr.isSome && !w.isReady c.shape.tblq
        if s.readyBy (s.clocks (dieOfCore k) + ahead) c.cid j w && !held then some ⟨w.lastIssue, w.tried, k, w.slot, c.cid, j⟩
        else none

/-- A weave that was turned away after the last issue of some weaves: what it waits for holds it still (log entry 4). -/
def Ready.turnedAway (x : Ready) (xs : List Ready) : Bool := x.last < x.tried && xs.all fun y => y.last < x.tried

/-- The least of some weaves by a number. -/
def leastBy (f : Ready → Nat) : List Ready → Option Ready
  | [] => none
  | x :: xs => match leastBy f xs with
    | none => some x
    | some y => if f x ≤ f y then some x else some y

/-- The least recently issued of some weaves that has not just been turned away; when all have, the one turned away first. -/
def leastRecent (xs : List Ready) : Option Ready :=
  match leastBy Ready.last (xs.filter fun x => !x.turnedAway xs) with
  | some x => some x
  | none => leastBy Ready.tried xs

/-- No other ready weave of a weave's slot issued less recently (R123). -/
def State.slotTurn (s : State) (core cid wx : Nat) (w : Weave) : Bool :=
  let mates := (s.readyWeaves 0).filter fun x => x.core == core && x.slot == w.slot && !(x.cid == cid && x.wx == wx)
  mates.all fun y => w.lastIssue ≤ y.last || y.turnedAway mates

/-- The instruction at a weave's PC, or what becomes of the weave instead (R226 steps 1 and 2, R156, R169). -/
def State.fetchTurn (s : State) (cid wx core : Nat) (c : Crew) (w : Weave) : Turned :=
  match s.fetch cid wx core c.owner w with
  | (s, .walk _) => .idle (s.startWalks cid wx core c.owner (groupAsks w [w.pc.toNat]))
  | (s, .hold) => .idle s
  | (s, .bad cause) =>
    let va : DWord := BitVec.ofNat 64 w.pc.toNat
    .idle (s.takeTrap cid wx ⟨cause, cause == .paUnbacked, w.pc, w.exec, laneList.map fun i => if w.exec.getLsbD i then va else 0⟩)
  | (s, .word x) =>
    match decode x with
    | .error r => .idle (s.trap cid wx w r.cause w.exec)
    | .ok i => .run i { s with cur := some (cid, wx) }

/-- A weave's turn: a pending trap first (R225), then, when its slot comes to it (R123), the resident handler or the instruction
at its PC. -/
def State.weaveTurn (s : State) (cid wx : Nat) (handler : State → State) : Turned :=
  match s.crew? cid, s.weave? cid wx with
  | some c, some w =>
    match c.core? with
    | none => .idle s
    | some k =>
      if !s.ready k cid wx w then .idle s
      else if w.pendReady then .idle (s.takePending cid wx)
      else if !s.slotTurn k cid wx w then .idle s
      else
        let s := (s.newId).modWeave cid wx fun w => { w with tried := s.ids + 1 }
        let w := { w with tried := s.ids }
        if w.handler.isSome then .idle (((handler s).noteIssue cid wx).useSlot k w.slot)
        else s.fetchTurn cid wx k c w
  | _, _ => .idle s

/-- Events whose agent is Scevar (R53). -/
def scevarEvent : Instr → Bool
  | .qcmdCreate .. | .qcmdDestroy .. | .qcmdResume .. | .tailPointerWrite .. | .packetRead _ | .queueFetchFault _ | .launch ..
  | .waitsig .. | .copyPacket .. | .bind .. | .run .. | .patch .. | .unbind .. | .note .. | .packetCompletion ..
  | .commandLinkMessage _ false | .tenantCreate .. | .tenantDestroy .. | .ctxSet .. | .keySet .. | .peerSet .. | .qgrant ..
  | .migrateOut .. | .migrateIn .. | .attest .. | .fwStage .. | .partCfgWrite .. | .gangPlacement _ | .continuationRelease ..
  | .diePark _ | .dieUnpark _ | .scevarRestart | .checkpoint
  | .tenantSwitch | .waitTableReread => true
  | _ => false

/-- The agent of an event works: nothing does after a thermal shutdown until a module reset (R24), and Scevar does not
once three restarts have come within 1 s (R58). -/
def State.works (s : State) (i : Instr) : Bool :=
  i == .moduleReset || !(s.mgmt.shutdown || (s.mgmt.ftl && scevarEvent i))

/-- One turn. A turn that nothing can take passes; what comes for Scevar while it is stopped waits (R58). -/
def State.take (s : State) (handler : Nat → Nat → State → State) : Turn → Turned
  | .event k => match s.pending[k]? with
    | some i =>
      let works := s.works i
      let waits := s.scv.hung && scevarEvent i && i != .scevarRestart
      let s := { s with pending := s.pending.eraseIdx k, cur := none }
      if !(isEvent i && works) then .idle s
      else if waits then .idle ((s.post i).elapse 1)
      else .run i s
    | none => .idle s
  | .weave cid wx =>
    if s.mgmt.shutdown then .idle s else { s with cur := none }.weaveTurn cid wx (handler cid wx)
  | .elapse ns => .idle (s.elapse ns)

/-- One clock of the die that a crew is on. -/
def State.clockOf (s : State) (cid : Nat) : Nat :=
  match (s.crew? cid).bind Crew.core? with
  | some k => (s.die (dieOfCore k)).power.period
  | none => 1

/-- The next turn: the agenda's, or by a fixed order when it is empty: events and ready weaves by turns, weaves least
recently issued first, each passing one clock; a clock passes for a weave that yields (R294); else time passes to the next
timer (log entry 4). -/
def State.turn (s : State) (handler : Nat → Nat → State → State) : Turned :=
  match s.agenda with
  | t :: ts => { s with agenda := ts }.take handler t
  | [] =>
    let w := leastRecent (s.readyWeaves 1)
    if !s.pending.isEmpty && (s.evTurn || w.isNone || s.mgmt.shutdown) then { s with evTurn := false }.take handler (.event 0)
    else match w with
      | some x => ({ s with evTurn := true }.elapse (s.clockOf x.cid)).take handler (.weave x.cid x.wx)
      | none => match leastRecent (s.readyWeaves 16), earliest s.timers with
        | some x, _ => .idle (s.elapse (s.clockOf x.cid))
        | none, some t => .idle (s.elapse (t - s.now))
        | none, none => .idle s

end Sys2Proof.Machine
end

