-- ==== Sys2Proof/Machine/Start.lean ====
section
/-! DEFINITION. Machine/Start.lean: a weave and a crew at release (R124, R125, R93, R123, R228), and a machine set up
to fetch a given instruction next. -/

namespace Sys2Proof.Machine

/-- A translation register at release: frame 0, limit 0 (R124). -/
def TReg.zero : TReg :=
  { vabase := 0, pabase := 0, tgen := 0, limit := 0, bv := false, br := false, bw := false, kind := 0, watch := false }

/-- Lanes 0 to n − 1. -/
def lanesBelow (n : Nat) : Mask := maskOf fun i => i < n

/-- A weave at release: n thread lanes, helper lanes filling their last quad unless a continuation made the crew (R125),
`vregs` and `gregs` registers (R124). h and hg hold 0 (log entry 6). -/
def Weave.start (n vregs gregs : Nat) (cont : Bool) (entry : Pc) (slot : Nat) : Weave :=
  let exec := lanesBelow n
  let helper := if cont then 0 else lanesBelow (roundUp n 4) &&& ~~~ exec
  { pc := entry, exec := exec, helper := helper, absent := ~~~ (exec ||| helper), exited := 0, toks := [],
    v := List.replicate vregs (.uni Lane.zero), g := List.replicate gregs 0, empty := [],
    p := BitVec.allOnes 32 :: List.replicate 15 0, q := 1, b := List.replicate 8 TReg.zero, outst := 0,
    spin := Spin.fresh false, mode := .user, h := List.replicate 16 (laneList.map fun _ => Lane.zero),
    hg := List.replicate 16 0, hcause := 0, hpc := 0, hxm := 0, hfm := 0, hhm := 0, handler := none, wait := .none, kept := .none,
    stamp := 0, parked := 0, wakeRes := none, watch := [], unwatched := false, woken := false, pend := none, extra := [],
    carr := List.replicate 16 none, walked := [], slot := slot, lastIssue := 0, tried := 0, issuedAt := 0, asks := [], yld := [], yldUntil := 0, fline := none,
    fbytes := [], done := false }

/-- A weave keeps its slot until it is saved or exits (R123): crews that run on a core or are being saved from it. -/
def Crew.slotsOn (c : Crew) (core : Nat) : Bool :=
  match c.place with
  | .resident k | .saving k => k == core
  | _ => false

/-- Weaves of each issue slot of a core. -/
def State.slotLoad (s : State) (core : Nat) : List Nat :=
  (List.range 4).map fun k => ((s.crews.filter fun c => c.slotsOn core).map fun c =>
    (c.weaves.filter fun w => w.slot == k && !w.done).length).sum

/-- The slot that holds the fewest weaves, ties to the lowest. -/
def leastSlot (loads : List Nat) : Nat :=
  (List.range 4).foldl (fun best k => if nthD loads k 0 < nthD loads best 0 then k else best) 0

/-- Slots for n weaves in weave order (R123). -/
def assignSlots : Nat → List Nat → List Nat
  | 0, _ => []
  | n + 1, loads =>
    let k := leastSlot loads
    k :: assignSlots n (modNth loads k (· + 1))

/-- A crew barrier of W weaves at release (R100). -/
def CBar.start (w : Nat) : CBar := ⟨0, w, 0, 0⟩

/-- An unbound table handle (R212). -/
def Tbl.unbound : Tbl :=
  { state := .unbound, afmt := 0, tkind := false, gsz := false, kg := 0, src := .scratch 0, size := 0, spill := 0,
    rows := [], scales := [] }

/-- Weaves of a crew (R90). -/
def Shape.w (sh : Shape) : Nat := (sh.threads + 31) / 32

/-- The weaves of a crew at release. A continuation's weaves all start at its ENTRY (R97). -/
def startWeaves (sh : Shape) (cont : Bool) (e0 e1 : Pc) (slots : List Nat) : List Weave :=
  (List.range sh.w).map fun i =>
    let n := min 32 (sh.threads - 32 * i)
    let producer := sh.split && i < sh.pweaves
    Weave.start n (if producer then sh.regs1 else sh.regs0) sh.gregs cont (if producer then e1 else e0) (nthD slots i 0)

/-- What a crew is, apart from its registers. -/
structure Seat where
  cid : Nat
  owner : Nat
  lid : Nat
  unit : Nat
  member : Nat
  inGang : Bool
  cont : Bool
  homeDie : Nat
  core : Nat
  stage : Option (Nat × Nat × Nat × Nat)
  rings : List Ring
  deriving DecidableEq, Repr

/-- A crew at release (R124, R343, R353, R361, R244). Plane descriptors hold 0 (log entry 5). -/
def Crew.start (t : Seat) (sh : Shape) (weaves : List Weave) (now : Nat) : Crew :=
  { cid := t.cid, owner := t.owner, lid := t.lid, unit := t.unit, member := t.member, inGang := t.inGang, cont := t.cont,
    shape := sh, homeDie := t.homeDie, vcore := t.core, place := .resident t.core, placed := now, candSince := none,
    stage := t.stage, weaves := weaves, scratch := [], tables := List.replicate 16 Tbl.unbound,
    tiles := List.replicate 128 ⟨false, []⟩, pds := List.replicate 4 ⟨0, List.replicate 256 0⟩, lo := 0, hi := 0,
    cbars := List.replicate 16 (CBar.start sh.w), lm := List.replicate 16 none, gm := List.replicate 16 none,
    lpend := List.replicate 16 0, gpend := List.replicate 16 0, lk := List.replicate 16 0, gk := List.replicate 16 0,
    ticket := 1, tickets := [], inflight := 0, f := 0, rings := t.rings, hscope := 0, attach := false, dbgsig := 0,
    imageBad := false, block := [], gangBase := 0 }

/-! ## A machine that fetches a given instruction next -/

/-- The seat of the harness's crew: the only crew of launch 0 of tenant 0, on core 0. -/
def harnessSeat : Seat := ⟨0, 0, 0, 0, 0, false, false, 0, 0, none, []⟩

/-- One weave with every register a weave can name, 64 KiB of scratch, 16 tiles, 16 handles. -/
def harnessShape : Shape := ⟨32, 1, 0, 640, 0, 128, 16, 16, 32, 64, 0, 0, false⟩

def harnessTenant : Tenant :=
  { tag := 0, part := 0, root := 0x100000, ecb := 0, ring := 0, ringLog2 := 4, commonsMib := 1, slice := 0, keyId := 1, peers := [],
    commons := [[], [], [], []], shadow := 0, gens := [0, 0, 0, 0], logged := [[], [], [], []], rqcons := 0, given := 0,
    dlcons := 0, dlctl := 0, tlbgen := 0, reqs := [], rqgen := 0, ringWait := [], logWait := [], running := true, sliceEnd := 0, phase := 0, migrated := false }

def harnessLaunch : Launch :=
  { lid := 0, owner := 0, kind := .packet 0 0,
    lrec := ⟨false, false, 32, 0, 0, 0xFF, 0, 0, 0, 0, 640, 0, 0, 128, 16, 16, 32, 64⟩, args := 0, count := 1,
    startSeq := 0, homeBase := none, unplaced := [], homeMap := [], recDie := none, recBase := 0, outstanding := 1,
    firstErr := none, ended := false, posted := false, halted := false, bins := [], ringBytes := [] }

/-- Where the harness keeps the page tables: VA 0 maps to the 64 KiB frame at 0x200000, readable, writable,
executable. -/
def harnessTables : Memory :=
  let entry (a : Nat) (m : Memory) (e : Nat) : Memory := Memory.writeN m a (bytesLE 8 e)
  entry 0x132000 (entry 0x131000 (entry 0x130000 (entry 0x100000 [] (0x130000 + 1)) (0x131000 + 1)) (0x132000 + 1)) (0x200000 + 0x1F)

/-- The machine with tenant 0, a resident crew of one weave at PC 0 and the next turn that weave's. The bytes lie at
VA 0, physical address 0x200000, whose leaf is in core 0's TLB (log entry 18). -/
def State.harness (s : State) (bs : List Byte) : State :=
  let leaf : Leaf := ⟨0x200000, 0, true, true, true, 0, false, false, 0⟩
  let w := Weave.start 32 640 128 false 0 0
  let core (k : Core) : Core := { k with tlb := [⟨0, 0, leaf⟩], icache := [], l1 := [] }
  { s with
    agenda := [.weave 0 0]
    hbm := Memory.writeN harnessTables 0x200000 bs
    keyTags := []
    tenants := [harnessTenant]
    launches := [harnessLaunch]
    cores := modNth s.cores 0 core
    crews := [Crew.start harnessSeat harnessShape [w] s.now] }

end Sys2Proof.Machine
end

