-- ==== Sys2Proof/Machine/IntArith.lean ====
section
/-! DEFINITION. Machine/IntArith.lean: the IA block (R297, R298) and the LB block (R299, R300). -/

namespace Sys2Proof.Machine

/-! ## Integer arithmetic (R297) -/

def execIadd (f : VForm) (s : State) : Host.Outcome State Fault Refusal :=
  s.issueAlu (.iadd f) fun w => w.intAlu f (affAdd (· + ·)) fun x y _ => x + y

def execIsub (f : VForm) (s : State) : Host.Outcome State Fault Refusal :=
  s.issueAlu (.isub f) fun w => w.intAlu f (affAdd (· - ·)) fun x y _ => x - y

def execIadc (f : VForm) (s : State) : Host.Outcome State Fault Refusal :=
  s.issueAlu (.iadc f) fun w => w.carryAlu f addCarry

def execIsbb (f : VForm) (s : State) : Host.Outcome State Fault Refusal :=
  s.issueAlu (.isbb f) fun w => w.carryAlu f subBorrow

def execImul (f : VForm) (s : State) : Host.Outcome State Fault Refusal :=
  s.issueAlu (.imul f) fun w => w.intAlu f affMul fun x y _ => x * y

/-- Bits of an integer type. -/
def Ty.bits (t : Ty) : Nat := if t.wide then 64 else 32

def execImulh (f : VForm) (s : State) : Host.Outcome State Fault Refusal :=
  s.issueAlu (.imulh f) fun w => w.intAlu f affNone fun x y _ => Int.fdiv (x * y) (2 ^ Ty.bits f.ty1)

def execImad (f : VForm) (s : State) : Host.Outcome State Fault Refusal :=
  s.issueAlu (.imad f) fun w => w.intAlu f affNone fun x y z => x * y + z

def execImin (f : VForm) (s : State) : Host.Outcome State Fault Refusal :=
  s.issueAlu (.imin f) fun w => w.intAlu f affNone fun x y _ => if y < x then y else x

def execImax (f : VForm) (s : State) : Host.Outcome State Fault Refusal :=
  s.issueAlu (.imax f) fun w => w.intAlu f affNone fun x y _ => if x < y then y else x

def execIabs (f : VForm) (s : State) : Host.Outcome State Fault Refusal :=
  s.issueAlu (.iabs f) fun w => w.intAlu f affNone fun x _ _ => if x < 0 then -x else x

def execIneg (f : VForm) (s : State) : Host.Outcome State Fault Refusal :=
  s.issueAlu (.ineg f) fun w => w.intAlu f affNone fun x _ _ => -x

/-! ## Results that come later (R138) -/

/-- The registers of a result run that `w'` holds, by kind and number. -/
def flightRegs (w' : Weave) (os : List Operand) : List (Nat × VReg) :=
  os.filterMap fun o => match o with
    | .v n => some (n.val, nthD w'.v n.val (.uni Lane.zero))
    | _ => none
def flightGregs (w' : Weave) (os : List Operand) : List (Nat × Word) :=
  os.filterMap fun o => match o with
    | .g n => some (n.val, nthD w'.g n.val 0)
    | _ => none

/-- Issue an instruction whose result comes later: the registers of `os` turn empty and hold what `w'` holds in them when
the event comes (R138). A handler register has no full/empty bit and takes its result at issue (log entry 41). `counts`
tells whether the weave's outstanding-load counter counts it (R140). -/
def State.fly (s : State) (cid wx : Nat) (w w' : Weave) (os : List Operand) (counts : Bool) (ue : Option Pending)
    (mk : Nat → Instr) : State :=
  let s := s.newId
  let fl : Flight := { id := s.ids, cid := cid, widx := wx, pc := w.pc, regs := flightRegs w' os,
                       gregs := flightGregs w' os, counts := counts, lanes := 0, ue := ue, barq := none, soft := [] }
  let w := { w with h := w'.h, hg := w'.hg }.markEmpty (os.flatMap fun o => regKeys o 1)
  let w := if counts then { w with outst := w.outst + 1 } else w
  ({ s with flights := s.flights ++ [fl] }.putWeave cid wx w.next).post (mk s.ids)

/-- A flight lands: its registers take their values and turn full, and sets bound to them become STALE (R138, R213). -/
def State.land (s : State) (fl : Flight) : State :=
  let put (w : Weave) : Weave :=
    let v := fl.regs.foldl (fun v (n, r) => modNth v n fun _ => r) w.v
    let g := fl.gregs.foldl (fun g (n, x) => modNth g n fun _ => x) w.g
    let keys := fl.regs.map (·.1) ++ fl.gregs.map fun x => 640 + x.1
    let outst := if fl.counts then w.outst - 1 else w.outst
    { w with v := v, g := g, outst := outst }.markFull keys
  let s := { s with flights := s.flights.filter fun x => x.id != fl.id }
  (s.modWeave fl.cid fl.widx put).wroteRegs fl.cid fl.widx (fl.regs.map (·.1))

/-! ## Division (R297) -/

/-- Quotient or remainder in the type; a zero divisor gives all ones, or the dividend (R297, R126). -/
def divRes (t : Ty) (rem : Bool) (a b : Int) : DWord :=
  if b = 0 then (if rem then intRes t false a else BitVec.allOnes 64)
  else intRes t false (if rem then Int.tmod a b else truncDiv a b)

/-- The weave with the quotients or remainders written, each register in GEN shape. -/
def Weave.divAlu (w : Weave) (f : VForm) (rem : Bool) : Weave :=
  let h := f.hd
  let signed := f.ty1 == .i64
  let val (x y : Nat) : DWord := divRes f.ty1 rem (intVal f.ty1 x) (intVal f.ty1 y)
  if h.grp then
    if f.ty1.wide then w.putGPair h.d (val (w.wideG f.imm signed h.a).toNat (w.wideG f.imm signed h.b).toNat)
    else w.putG h.d ((val (w.readG f.imm h.a).toNat (w.readG f.imm h.b).toNat).setWidth 32)
  else
    let m := w.writers h
    if f.ty1.wide then
      w.putVPair h.d m (pairOf false fun i => val (w.wideLane f.imm signed h.a i).toNat (w.wideLane f.imm signed h.b i).toNat)
    else
      let a := w.read f.imm h.a
      let b := w.read f.imm h.b
      w.putV h.d m (.ofFn fun i => Lane.ofWord ((val (a.lane i).val.toNat (b.lane i).val.toNat).setWidth 32))

/-- The lanes whose divisor is 0. -/
def Weave.zeroDivisor (w : Weave) (f : VForm) : Mask :=
  let signed := f.ty1 == .i64
  let zero (i : Nat) : Bool :=
    if f.ty1.wide then w.wideLane f.imm signed f.hd.b i == 0 else ((w.read f.imm f.hd.b).lane i).val == 0
  maskOf zero

/-- `IDIV` and `IREM`. -/
def State.divide (s : State) (i : Instr) (f : VForm) (rem : Bool) : Host.Outcome State Fault Refusal :=
  s.issue i fun cid wx w =>
    let h := f.hd
    let z := w.zeroDivisor f
    let bad := if h.grp then (if w.qPass h && z.getLsbD 0 then w.exec else 0) else w.actors h &&& z
    if (if h.grp then w.qPass h && z.getLsbD 0 else bad != 0) then s.trap cid wx w .intDivZero bad
    else if (if h.grp then w.qPass h else w.writers h != 0) then
      let w' := w.divAlu f rem
      s.fly cid wx (w.note (w.writtenWords w' i)) w' (destRun i) false none .idivComplete
    else s.skip cid wx w

def execIdiv (f : VForm) (s : State) : Host.Outcome State Fault Refusal := s.divide (.idiv f) f false
def execIrem (f : VForm) (s : State) : Host.Outcome State Fault Refusal := s.divide (.irem f) f true

/-- `IDIV_COMPLETE`: the division's result is complete in its destination (R138). -/
def execIdivComplete (id : Nat) (s : State) : Host.Outcome State Fault Refusal :=
  .next <| match s.flights.find? fun fl => fl.id == id with
  | some fl => s.land fl
  | none => s

/-! ## Logic and bits (R299, R300) -/

def execAnd (f : VForm) (s : State) : Host.Outcome State Fault Refusal :=
  s.issueAlu (.and_ f) fun w => w.alu32 f.hd f.imm affNone fun x y _ => x &&& y

def execOr (f : VForm) (s : State) : Host.Outcome State Fault Refusal :=
  s.issueAlu (.or_ f) fun w => w.alu32 f.hd f.imm affNone fun x y _ => x ||| y

def execXor (f : VForm) (s : State) : Host.Outcome State Fault Refusal :=
  s.issueAlu (.xor_ f) fun w => w.alu32 f.hd f.imm affNone fun x y _ => x ^^^ y

def execNot (f : VForm) (s : State) : Host.Outcome State Fault Refusal :=
  s.issueAlu (.not_ f) fun w => w.alu32 f.hd f.imm affNone fun x _ _ => ~~~ x

def execAndn (f : VForm) (s : State) : Host.Outcome State Fault Refusal :=
  s.issueAlu (.andn f) fun w => w.alu32 f.hd f.imm affNone fun x y _ => x &&& ~~~ y

/-- Shift left; 0 when the amount is 32 or more. -/
def shlWord (x y : Word) : Word := if 32 ≤ y.toNat then 0 else x <<< y.toNat

/-- Shift right with zero fill; 0 when the amount is 32 or more. -/
def shrWord (x y : Word) : Word := if 32 ≤ y.toNat then 0 else x >>> y.toNat

/-- Shift right with sign fill; 32 copies of the sign when the amount is 32 or more. -/
def sarWord (x y : Word) : Word := x.sshiftRight (if 32 ≤ y.toNat then 31 else y.toNat)

/-- Rotate left by the amount modulo 32. -/
def rotlWord (x y : Word) : Word := x.rotateLeft (y.toNat % 32)

def execShl (f : VForm) (s : State) : Host.Outcome State Fault Refusal :=
  s.issueAlu (.shl f) fun w => w.alu32 f.hd f.imm (affShl shlWord) fun x y _ => shlWord x y

def execShr (f : VForm) (s : State) : Host.Outcome State Fault Refusal :=
  s.issueAlu (.shr f) fun w => w.alu32 f.hd f.imm affNone fun x y _ => shrWord x y

def execSar (f : VForm) (s : State) : Host.Outcome State Fault Refusal :=
  s.issueAlu (.sar f) fun w => w.alu32 f.hd f.imm affNone fun x y _ => sarWord x y

def execRotl (f : VForm) (s : State) : Host.Outcome State Fault Refusal :=
  s.issueAlu (.rotl f) fun w => w.alu32 f.hd f.imm affNone fun x y _ => rotlWord x y

/-- Position and length of a control word (R300). -/
def fieldPos (c : Word) : Nat := bitsOf c.toNat 0 8
def fieldLen (c : Word) : Nat := min (bitsOf c.toNat 8 8) 32

/-- `BFX`: a field of x, sign-extended when `signed`. -/
def bfxWord (signed : Bool) (x c : Word) : Word :=
  let len := fieldLen c
  let v := bitsOf x.toNat (fieldPos c) len
  if signed && 0 < len then BitVec.ofInt 32 (signedOf len v) else BitVec.ofNat 32 v

/-- `BFI`: y inserted into x. -/
def bfiWord (x y c : Word) : Word :=
  let m : Word := BitVec.ofNat 32 ((2 ^ fieldLen c - 1) * 2 ^ fieldPos c)
  (x &&& ~~~ m) ||| (BitVec.ofNat 32 (y.toNat * 2 ^ fieldPos c) &&& m)

def popcWord (x : Word) : Word := BitVec.ofNat 32 (maskLanes x).length

/-- Leading zeros; 32 for 0. -/
def clzWord (x : Word) : Word :=
  BitVec.ofNat 32 ((laneList.find? fun k => x.getLsbD (31 - k)).getD 32)

/-- Trailing zeros; 32 for 0. -/
def ctzWord (x : Word) : Word := BitVec.ofNat 32 ((lowestLane x).getD 32)

def brevWord (x : Word) : Word := maskOf fun i => x.getLsbD (31 - i)

def execBfx (f : VForm) (s : State) : Host.Outcome State Fault Refusal :=
  s.issueAlu (.bfx f) fun w => w.alu32 f.hd f.imm affNone fun x y _ => bfxWord (f.ty1 == .named) x y

def execBfi (f : VForm) (s : State) : Host.Outcome State Fault Refusal :=
  s.issueAlu (.bfi f) fun w => w.alu32 f.hd f.imm affNone bfiWord

def execPopc (f : VForm) (s : State) : Host.Outcome State Fault Refusal :=
  s.issueAlu (.popc f) fun w => w.alu32 f.hd f.imm affNone fun x _ _ => popcWord x

def execClz (f : VForm) (s : State) : Host.Outcome State Fault Refusal :=
  s.issueAlu (.clz f) fun w => w.alu32 f.hd f.imm affNone fun x _ _ => clzWord x

def execCtz (f : VForm) (s : State) : Host.Outcome State Fault Refusal :=
  s.issueAlu (.ctz f) fun w => w.alu32 f.hd f.imm affNone fun x _ _ => ctzWord x

def execBrev (f : VForm) (s : State) : Host.Outcome State Fault Refusal :=
  s.issueAlu (.brev f) fun w => w.alu32 f.hd f.imm affNone fun x _ _ => brevWord x

end Sys2Proof.Machine
end

