-- ==== Sys2Proof/Machine/Move.lean ====
section
/-! DEFINITION. Machine/Move.lean: the CM and PR blocks (R301 to R304). -/

namespace Sys2Proof.Machine

/-! ## Compare, select and move (R301, R302) -/

/-- The choice between two registers by predicate bits. Only p0 is a UNI predicate (R136); under it two registers of one
tag keep the tag, which is A's, and any other pair is GEN (R137, log entry 19). -/
def selReg (p0 : Bool) (c : Mask) (a b : VReg) : VReg :=
  let f (i : Nat) : Lane := if c.getLsbD i then a.lane i else b.lane i
  match p0, a, b with
  | true, .uni x, .uni _ => .uni x
  | true, .aff x st, .aff _ _ => .aff x st
  | _, _, _ => .ofFn f

def execSel (f : VForm) (s : State) : Host.Outcome State Fault Refusal :=
  s.issueAlu (.sel f) fun w =>
    let h := f.hd
    if h.grp then
      if w.qPass h then w.putG h.d (if w.predBit h.c then w.readG f.imm h.a else w.readG f.imm h.b) else w
    else w.putV h.d (w.writers h) (selReg (h.c == .p 0) (w.predBits h.c) (w.read f.imm h.a) (w.read f.imm h.b))

def execMov (f : VForm) (s : State) : Host.Outcome State Fault Refusal :=
  s.issueAlu (.mov f) fun w =>
    let h := f.hd
    if h.grp then if w.qPass h then w.putG h.d (w.readG f.imm h.a) else w
    else w.putV h.d (w.writers h) (w.read f.imm h.a)

/-- Write registers D and D + 1, UNI in the lane form. -/
def Weave.putUniPair (w : Weave) (h : Head) (x : DWord) : Weave :=
  if h.grp then if w.qPass h then w.putGPair h.d x else w
  else w.putVPair h.d (w.writers h) (pairOf true fun _ => x)

/-- Write one register with the same word in every lane. -/
def Weave.putUni (w : Weave) (h : Head) (o : Operand) (x : Word) : Weave :=
  if h.grp then if w.qPass h then w.putG o x else w
  else w.putV o (w.writers h) (.uni (Lane.ofWord x))

def execMovi (f : VForm) (s : State) : Host.Outcome State Fault Refusal :=
  s.issueAlu (.movi f) fun w => w.putUniPair f.hd ((w.readG f.imm f.hd.a).signExtend 64)

def execMovh (f : VForm) (s : State) : Host.Outcome State Fault Refusal :=
  s.issueAlu (.movh f) fun w => w.putUni f.hd (f.hd.d.plus 1) (w.readG f.imm f.hd.a)

def execLea (f : VForm) (s : State) : Host.Outcome State Fault Refusal :=
  s.issueAlu (.lea f) fun w =>
    let sh := (w.readG f.imm f.hd.c).toNat
    w.alu32 f.hd f.imm (affLea sh) fun x y _ => x + (y <<< sh)

def execShape (f : VForm) (s : State) : Host.Outcome State Fault Refusal :=
  s.issueAlu (.shape f) fun w => w.putUni f.hd f.hd.d (BitVec.ofNat 32 (w.read f.imm f.hd.a).code)

/-- The outcome of a comparison in each lane. -/
def Weave.cmpBits (w : Weave) (f : VForm) (sel : CmpSel) : Mask :=
  let signed := f.ty1 == .i64
  maskOf fun i =>
    let x := w.wideLane f.imm signed f.hd.a i
    let y := w.wideLane f.imm signed f.hd.b i
    let a := ((w.read f.imm f.hd.a).lane i).val
    let b := ((w.read f.imm f.hd.b).lane i).val
    if f.ty1.wide then CmpSel.holds sel (intVal f.ty1 x.toNat) (intVal f.ty1 y.toNat)
    else CmpSel.holds sel (intVal f.ty1 a.toNat) (intVal f.ty1 b.toNat)

def execIcmp (sel : CmpSel) (f : VForm) (s : State) : Host.Outcome State Fault Refusal :=
  s.issueAlu (.icmp sel f) fun w => w.putPred f.hd (w.cmpBits f sel)

/-! ## Predicates (R303, R304) -/

def execPand (f : VForm) (s : State) : Host.Outcome State Fault Refusal :=
  s.issueAlu (.pand f) fun w => w.predAlu f.hd (· &&& ·)

def execPor (f : VForm) (s : State) : Host.Outcome State Fault Refusal :=
  s.issueAlu (.por f) fun w => w.predAlu f.hd (· ||| ·)

def execPxor (f : VForm) (s : State) : Host.Outcome State Fault Refusal :=
  s.issueAlu (.pxor f) fun w => w.predAlu f.hd (· ^^^ ·)

def execPnot (f : VForm) (s : State) : Host.Outcome State Fault Refusal :=
  s.issueAlu (.pnot f) fun w => w.predAlu f.hd fun x _ => ~~~ x

/-- The operand is a predicate register, or zero or ones where D is a predicate and no value is meant. -/
def isPredOperand (o : Operand) : Bool :=
  match o with
  | .p _ | .q _ | .zero | .ones => true
  | _ => false

/-- The bits that `PMOV` moves: a predicate's, or VALUE ≠ 0. -/
def Weave.pmovBits (w : Weave) (f : VForm) : Mask :=
  if isPredOperand f.hd.a then w.predBits f.hd.a
  else maskOf fun i => ((w.read f.imm f.hd.a).lane i).val != 0

def execPmov (f : VForm) (s : State) : Host.Outcome State Fault Refusal :=
  s.issueAlu (.pmov f) fun w =>
    let h := f.hd
    let bits := w.pmovBits f
    let bit (i : Nat) : Lane := Lane.ofWord (if bits.getLsbD i then 1 else 0)
    match h.d with
    | .p _ | .q _ => w.putPred h bits
    | _ =>
      if h.grp then if w.qPass h then w.putG h.d (bit 0).val else w
      else w.putV h.d (w.writers h) (if (w.read f.imm h.a).isUni then .uni (bit 0) else .ofFn bit)

end Sys2Proof.Machine
end

