-- ==== Sys2Proof/Machine/Real.lean ====
section
/-! DEFINITION. Machine/Real.lean: exact values of the number formats and their one rounding (R187 to R199), and the
correctly rounded functions of R316. -/

namespace Sys2Proof.Machine

/-- An exact value: NaN, an infinity, or (−1)^neg × m × 2^e; m = 0 is a signed zero. -/
inductive Fp where
  | nan
  | inf (neg : Bool)
  | fin (neg : Bool) (m : Nat) (e : Int)
  deriving DecidableEq, Repr

/-- An IEEE format: bits of exponent and fraction (R188). -/
structure Fmt where
  ebits : Nat
  fbits : Nat
  deriving DecidableEq, Repr

def fp32 : Fmt := ⟨8, 23⟩
def bf16 : Fmt := ⟨8, 7⟩
def fp16 : Fmt := ⟨5, 10⟩

/-- The code of +∞. -/
def Fmt.infCode (f : Fmt) : Nat := (2 ^ f.ebits - 1) * 2 ^ f.fbits
/-- The canonical NaN (R189). -/
def Fmt.nanCode (f : Fmt) : Nat := f.infCode + 2 ^ (f.fbits - 1)
/-- The largest finite value's code. -/
def Fmt.maxCode (f : Fmt) : Nat := f.infCode - 1
/-- The sign bit's weight. -/
def Fmt.signBit (f : Fmt) : Nat := 2 ^ (f.ebits + f.fbits)
/-- The exponent of a subnormal's least significant bit. -/
def Fmt.emin (f : Fmt) : Int := 2 - 2 ^ (f.ebits - 1) - f.fbits

/-- The value of a code (R188). -/
def Fmt.decode (f : Fmt) (x : Nat) : Fp :=
  let neg := decide (f.signBit ≤ x % (2 * f.signBit))
  let mag := x % f.signBit
  let ex := mag / 2 ^ f.fbits
  let fr := mag % 2 ^ f.fbits
  if f.infCode < mag then .nan
  else if mag = f.infCode then .inf neg
  else if ex = 0 then .fin neg fr f.emin
  else .fin neg (2 ^ f.fbits + fr) (f.emin + ex - 1)

/-- m / 2^d rounded to an integer; `sticky` says that the exact value lies a little above m (R190). Modes: 0 RNE, 1 RTZ,
2 RDN, 3 RUP, 4 RNA. -/
def roundNat (mode : Nat) (neg : Bool) (m d : Nat) (sticky : Bool) : Nat :=
  let d := min d (Nat.log2 m + 3)
  let n := m / 2 ^ d
  let r := m % 2 ^ d
  let inexact := r != 0 || sticky
  let above := decide (2 ^ d < 2 * r) || (2 * r == 2 ^ d && sticky)
  let tie := 2 * r == 2 ^ d && !sticky
  let up := match mode with
    | 1 => false
    | 2 => neg && inexact
    | 3 => !neg && inexact
    | 4 => above || tie
    | _ => above || (tie && n % 2 == 1)
  if up then n + 1 else n

/-- An infinity as a result, under the saturation option (R191). -/
def Fmt.infResult (f : Fmt) (sat neg : Bool) : Nat := (if neg then f.signBit else 0) + (if sat then f.maxCode else f.infCode)

/-- The result of an overflow (R191). -/
def Fmt.overflow (f : Fmt) (mode : Nat) (sat neg : Bool) : Nat :=
  let toMax := match mode with
    | 1 => true
    | 2 => !neg
    | 3 => neg
    | _ => false
  f.infResult (sat || toMax) neg

/-- Round (−1)^neg × m × 2^e, or a little more in magnitude, once to the format (R190, R191). -/
def Fmt.roundFin (f : Fmt) (mode : Nat) (sat neg : Bool) (m : Nat) (e : Int) (sticky : Bool) : Nat :=
  let sign := if neg then f.signBit else 0
  if m = 0 then sign
  else
    let q := max f.emin ((Nat.log2 m : Int) + e - f.fbits)
    let n := if q ≤ e then m * 2 ^ (e - q).toNat else roundNat mode neg m (q - e).toNat sticky
    let mag := (q - f.emin).toNat * 2 ^ f.fbits + n
    if f.infCode ≤ mag then f.overflow mode sat neg else sign + mag

/-- Round an exact value once. -/
def Fmt.round (f : Fmt) (mode : Nat) (sat : Bool) : Fp → Nat
  | .nan => f.nanCode
  | .inf neg => f.infResult sat neg
  | .fin neg m e => f.roundFin mode sat neg m e false

/-! ## Exact arithmetic (R190, R312) -/

def Fp.neg : Fp → Fp
  | .nan => .nan
  | .inf s => .inf (!s)
  | .fin s m e => .fin (!s) m e

/-- The signed integer that a finite value is at exponent `e0`, no greater than its own. -/
def alignAt (neg : Bool) (m : Nat) (e e0 : Int) : Int :=
  let x : Int := (m * 2 ^ (e - e0).toNat : Nat)
  if neg then -x else x

/-- The sum. An exact zero has the sign of R190. -/
def Fp.add (mode : Nat) : Fp → Fp → Fp
  | .nan, _ | _, .nan => .nan
  | .inf s, .inf t => if s == t then .inf s else .nan
  | .inf s, _ => .inf s
  | _, .inf t => .inf t
  | .fin s m e, .fin t n g =>
    let e0 := min e g
    let x := alignAt s m e e0 + alignAt t n g e0
    if x = 0 then .fin (if m = 0 && n = 0 && s == t then s else mode == 2) 0 0
    else .fin (decide (x < 0)) x.natAbs e0

/-- The product. -/
def Fp.mul : Fp → Fp → Fp
  | .nan, _ | _, .nan => .nan
  | .inf s, .inf t => .inf (s != t)
  | .inf s, .fin t n _ => if n = 0 then .nan else .inf (s != t)
  | .fin s m _, .inf t => if m = 0 then .nan else .inf (s != t)
  | .fin s m e, .fin t n g => .fin (s != t) (m * n) (e + g)

/-- Rounded to an integral value, its sign kept (R312). -/
def Fp.integral (mode : Nat) : Fp → Fp
  | .fin s m e => if 0 ≤ e then .fin s m e else .fin s (roundNat mode s m (-e).toNat false) 0
  | x => x

/-- Times a power of two. -/
def Fp.scale (k : Int) : Fp → Fp
  | .fin s m e => .fin s m (e + k)
  | x => x

/-- The sign of a code that is not NaN, and an order of the codes: `zeros` puts −0 below +0. -/
def Fmt.key (f : Fmt) (zeros : Bool) (x : Nat) : Int :=
  let mag : Int := (x % f.signBit : Nat)
  if f.signBit ≤ x % (2 * f.signBit) then (if zeros then -mag - 1 else -mag) else mag

def Fmt.isNan (f : Fmt) (x : Nat) : Bool := decide (f.infCode < x % f.signBit)

/-- `FMIN` and `FMAX` (R313). -/
def Fmt.minmax (f : Fmt) (big : Bool) (x y : Nat) : Nat :=
  if f.isNan x then (if f.isNan y then f.nanCode else y)
  else if f.isNan y then x
  else if (f.key true y < f.key true x) != big then y else x

/-! ## Division and roots (R316) -/

/-- The integer square root of x, by `n` bits from the top: `r` is the root so far. -/
def isqrtGo (x : Nat) : Nat → Nat → Nat
  | 0, r => r
  | n + 1, r =>
    let t := r + 2 ^ n
    if t * t ≤ x then isqrtGo x n t else isqrtGo x n r

/-- The integer square root of a number below 2^160. -/
def isqrt (x : Nat) : Nat := isqrtGo x 80 0

/-- A / B rounded to FP32. -/
def fdivBits (mode : Nat) (sat : Bool) (a b : Fp) : Nat :=
  match a, b with
  | .nan, _ | _, .nan | .inf _, .inf _ => fp32.nanCode
  | .inf s, .fin t _ _ => fp32.infResult sat (s != t)
  | .fin s _ _, .inf t => fp32.roundFin mode sat (s != t) 0 0 false
  | .fin s m e, .fin t n g =>
    if n = 0 then (if m = 0 then fp32.nanCode else fp32.infResult sat (s != t))
    else
      let x := m * 2 ^ 64
      fp32.roundFin mode sat (s != t) (x / n) (e - g - 64) (x % n != 0)

/-- √A rounded to FP32. -/
def fsqrtBits (mode : Nat) (sat : Bool) (a : Fp) : Nat :=
  match a with
  | .nan | .inf true => fp32.nanCode
  | .inf false => fp32.infResult sat false
  | .fin s m e =>
    if m = 0 then fp32.roundFin mode sat s 0 0 false
    else if s then fp32.nanCode
    else
      let m := if e % 2 = 0 then m else 2 * m
      let e := if e % 2 = 0 then e else e - 1
      let x := m * 2 ^ 80
      let r := isqrt x
      fp32.roundFin mode sat false r (e / 2 - 40) (r * r != x)

/-- 1 / √A rounded to FP32. -/
def frsqBits (mode : Nat) (sat : Bool) (a : Fp) : Nat :=
  match a with
  | .nan | .inf true => fp32.nanCode
  | .inf false => fp32.roundFin mode sat false 0 0 false
  | .fin s m e =>
    if m = 0 then fp32.infResult sat s
    else if s then fp32.nanCode
    else
      let m := if e % 2 = 0 then m else 2 * m
      let e := if e % 2 = 0 then e else e - 1
      let r := isqrt (2 ^ 128 / m)
      fp32.roundFin mode sat false r (-(e / 2) - 64) (r * r * m != 2 ^ 128)

/-! ## Transcendental functions (R316)

Each is taken in fixed point with `P` fraction bits and an error below 2^10 units, and rounded from all but the lowest 32
bits. Exact results apart, no FP32 operand gives a value so near a rounding boundary that the rest could matter
(DEDUCED, log entry 20). -/

/-- Fraction bits. -/
def fixP : Nat := 352
/-- ⌊π × 2^352⌋. -/
def fixPi : Nat := 0x3243f6a8885a308d313198a2e03707344a4093822299f31d0082efa98ec4e6c89452821e638d01377be5466cf
/-- ⌊ln 2 × 2^352⌋. -/
def fixLn2 : Nat := 0xb17217f7d1cf79abc9e3b39803f2f6af40f343267298b62d8a0d175b8baafa2be7b876206debac98559552fb

def fixMul (x y : Nat) : Nat := (x * y) >>> fixP

/-- Σ of the terms t, t × y / k, … of exp from the k-th on. -/
def expTerms (y : Nat) : Nat → Nat → Nat → Nat
  | 0, _, _ => 0
  | n + 1, k, t => t + expTerms y n (k + 1) (fixMul t y / k)

/-- e^y for y below 1, in fixed point. -/
def fixExp (y : Nat) : Nat := expTerms y 80 1 (2 ^ fixP)

/-- Alternating terms t − t × y2 / (k (k + 1)) + … of sin and cos. -/
def trigTerms (y2 : Nat) : Nat → Nat → Nat → Int
  | 0, _, _ => 0
  | n + 1, k, t => (t : Int) - trigTerms y2 n (k + 2) (fixMul t y2 / (k * (k + 1)))

/-- sin(π r) and cos(π r) for r below 1/2, in fixed point. -/
def fixSin (r : Nat) : Nat := let y := fixMul fixPi r; (trigTerms (fixMul y y) 45 2 y).toNat
def fixCos (r : Nat) : Nat := let y := fixMul fixPi r; (trigTerms (fixMul y y) 45 1 (2 ^ fixP)).toNat

/-- Terms u / k + u × u2 / (k + 2) + … of atanh. -/
def atanhTerms (u2 : Nat) : Nat → Nat → Nat → Nat
  | 0, _, _ => 0
  | n + 1, k, u => u / k + atanhTerms u2 n (k + 2) (fixMul u u2)

/-- ln z for z = m / 2^l in [1, 2), in fixed point. -/
def fixLn (m l : Nat) : Nat :=
  let u := (m - 2 ^ l) * 2 ^ fixP / (m + 2 ^ l)
  2 * atanhTerms (fixMul u u) 120 1 u

/-- Round a fixed-point value that is no exact result. -/
def fixRound (mode : Nat) (sat neg : Bool) (x : Nat) (k : Int) : Nat :=
  fp32.roundFin mode sat neg (x >>> 32) (32 - fixP + k) true

/-- 2^A rounded to FP32. -/
def fex2Bits (mode : Nat) (sat : Bool) (a : Fp) : Nat :=
  match a with
  | .nan => fp32.nanCode
  | .inf true => 0
  | .inf false => fp32.infResult sat false
  | .fin s m e =>
    let x := alignAt s m e (-fixP)
    let i := Int.fdiv x (2 ^ fixP)
    let f := (x - i * 2 ^ fixP).toNat
    if f = 0 then fp32.roundFin mode sat false 1 i false
    else fixRound mode sat false (fixExp (fixMul f fixLn2)) i

/-- log2 A rounded to FP32. -/
def flg2Bits (mode : Nat) (sat : Bool) (a : Fp) : Nat :=
  match a with
  | .nan | .inf true => fp32.nanCode
  | .inf false => fp32.infResult sat false
  | .fin s m e =>
    if m = 0 then fp32.infResult sat true
    else if s then fp32.nanCode
    else
      let l := Nat.log2 m
      let k : Int := l + e
      if m = 2 ^ l then fp32.roundFin mode sat (decide (k < 0)) k.natAbs 0 false
      else
        let x : Int := k * 2 ^ fixP + (fixLn m l * 2 ^ fixP / fixLn2 : Nat)
        fixRound mode sat (decide (x < 0)) x.natAbs 0

/-- sin or cos of π × A, `quad` half turns ahead, rounded to FP32; `zneg` is the sign of a zero result. -/
def trigBits (mode : Nat) (sat : Bool) (neg zneg : Bool) (m : Nat) (e : Int) (quad : Nat) : Nat :=
  let a := (m * 2 ^ (e + fixP).toNat) % 2 ^ (fixP + 1)
  let j := (a >>> (fixP - 1)) + quad
  let r := a % 2 ^ (fixP - 1)
  let flip := decide (2 ≤ j % 4) != neg
  if r = 0 then
    if j % 2 = 0 then fp32.roundFin mode sat zneg 0 0 false else fp32.roundFin mode sat flip 1 0 false
  else
    -- sin (π (j / 2 + r)) is sin or cos of π r by the parity of j
    let x := if j % 2 = 0 then
        (if r ≤ 2 ^ (fixP - 2) then fixSin r else fixCos (2 ^ (fixP - 1) - r))
      else (if r ≤ 2 ^ (fixP - 2) then fixCos r else fixSin (2 ^ (fixP - 1) - r))
    fixRound mode sat flip x 0

/-- sin(π × A). -/
def fsinBits (mode : Nat) (sat : Bool) (a : Fp) : Nat :=
  match a with
  | .nan | .inf _ => fp32.nanCode
  | .fin s m e => if m = 0 then fp32.roundFin mode sat s 0 0 false else trigBits mode sat s s m e 0

/-- cos(π × A). -/
def fcosBits (mode : Nat) (sat : Bool) (a : Fp) : Nat :=
  match a with
  | .nan | .inf _ => fp32.nanCode
  | .fin _ m e => trigBits mode sat false false m e 1

/-! ## T8, T6 and E8M0 (R195 to R198) -/

/-- VAL of a 7-bit T8 magnitude, in units of 2^−12 (R196). -/
def t8Val (c : Nat) : Nat :=
  if c % 128 = 0 then 0
  else
    let b := c.testBit 6
    let k := ((List.range 7).takeWhile fun i => c.testBit (6 - i) == b).length
    let l := 6 - k
    let e : Nat := if l = 0 then 0 else (c.testBit (l - 1)).toNat
    let nf := l - 1
    let f := c % 2 ^ nf
    -- 2^(2r + e) × (1 + f / 2^F) × 2^12, with r = k − 1 or −k
    (2 ^ nf + f) * 2 ^ ((if b then 2 * k + 10 else 12 - 2 * k) + e) / 2 ^ nf

/-- The magnitude bits of T8 (7) or T6 (5), and a T6 magnitude as a T8 one. -/
def tVal (mbits c : Nat) : Nat := t8Val (if mbits = 7 then c % 128 else c % 32 * 4)

/-- The value of a T8 or T6 code: NaR is NaN (R196, R202). -/
def tDecode (mbits c : Nat) : Fp :=
  let mag := c % 2 ^ mbits
  let neg := c.testBit mbits
  if mag = 0 && neg then .nan else .fin neg (tVal mbits mag) (-12)

/-- m × 2^e compared with an integer. -/
def cmpDyadic (m : Nat) (e : Int) (k : Nat) : Ordering :=
  if 0 ≤ e then compare (m * 2 ^ e.toNat) k else compare m (k * 2 ^ (-e).toNat)

/-- TAPER (R198): the magnitude is the number of midpoints below |x|, a tie going to the even side. -/
def taper (mbits : Nat) (x : Fp) : Nat :=
  match x with
  | .nan => 2 ^ mbits
  | .inf s => (if s then 2 ^ mbits else 0) + 2 ^ mbits - 1
  | .fin s m e =>
    let past (k : Nat) : Bool :=
      match cmpDyadic m (e + 13) (tVal mbits k + tVal mbits (k + 1)) with
      | .lt => false
      | .eq => k % 2 == 1
      | .gt => true
    let c := ((List.range (2 ^ mbits - 1)).filter past).length
    if c = 0 then 0 else (if s then 2 ^ mbits else 0) + c

/-- The value of an E8M0 code (R195). -/
def e8m0Decode (x : Nat) : Fp := if x % 256 = 255 then .nan else .fin false 1 ((x % 256 : Nat) - 127)

/-- The Exponent entry of R202. -/
def e8m0Encode (x : Fp) : Nat :=
  match x with
  | .nan | .inf _ => 255
  | .fin _ m e =>
    if m = 0 then 0
    else
      let k : Int := (Nat.log2 m : Int) + e + 127
      if k < 0 then 0 else if 254 < k then 254 else k.toNat

end Sys2Proof.Machine
end

