-- ==== Sys2Proof/Machine/Float.lean ====
section
/-! DEFINITION. Machine/Float.lean: the FA, FT and FP blocks (R309 to R318). -/

namespace Sys2Proof.Machine

/-- The rounding mode and the saturation option of MOD. -/
def VForm.rnd (f : VForm) : Nat := bitsOf f.mod.toNat 0 3
def VForm.sat (f : VForm) : Bool := f.mod.getLsbD 3

/-- A lane-wise float result on 32-bit codes. -/
def Weave.floatAlu (w : Weave) (f : VForm) (op : Nat → Nat → Nat → Nat) : Weave :=
  w.alu32 f.hd f.imm affNone fun x y z => BitVec.ofNat 32 (op x.toNat y.toNat z.toNat)

/-- One rounding to FP32 of an exact value of the operands. -/
def Weave.fp32Alu (w : Weave) (f : VForm) (op : Fp → Fp → Fp → Fp) : Weave :=
  w.floatAlu f fun x y z => fp32.round (VForm.rnd f) (VForm.sat f) (op (fp32.decode x) (fp32.decode y) (fp32.decode z))

/-! ## FP32 arithmetic (R312 to R315) -/

def execFadd (f : VForm) (s : State) : Host.Outcome State Fault Refusal :=
  s.issueAlu (.fadd f) fun w => w.fp32Alu f fun a b _ => a.add (VForm.rnd f) b

def execFsub (f : VForm) (s : State) : Host.Outcome State Fault Refusal :=
  s.issueAlu (.fsub f) fun w => w.fp32Alu f fun a b _ => a.add (VForm.rnd f) b.neg

def execFmul (f : VForm) (s : State) : Host.Outcome State Fault Refusal :=
  s.issueAlu (.fmul f) fun w => w.fp32Alu f fun a b _ => a.mul b

def execFfma (f : VForm) (s : State) : Host.Outcome State Fault Refusal :=
  s.issueAlu (.ffma f) fun w => w.fp32Alu f fun a b c => (a.mul b).add (VForm.rnd f) c

def execFrnd (f : VForm) (s : State) : Host.Outcome State Fault Refusal :=
  s.issueAlu (.frnd f) fun w => w.fp32Alu f fun a _ _ => a.integral (VForm.rnd f)

/-- `FSCL`: B is a signed INT32. -/
def execFscl (f : VForm) (s : State) : Host.Outcome State Fault Refusal :=
  s.issueAlu (.fscl f) fun w =>
    w.floatAlu f fun x y _ => fp32.round (VForm.rnd f) (VForm.sat f) ((fp32.decode x).scale (signedOf 32 y))

def execFmin (f : VForm) (s : State) : Host.Outcome State Fault Refusal :=
  s.issueAlu (.fmin f) fun w => w.floatAlu f fun x y _ => fp32.minmax false x y

def execFmax (f : VForm) (s : State) : Host.Outcome State Fault Refusal :=
  s.issueAlu (.fmax f) fun w => w.floatAlu f fun x y _ => fp32.minmax true x y

/-- The outcome of a float comparison (R314). -/
def fcmpHolds (sel : FcmpSel) (x y : Nat) : Bool :=
  let un := fp32.isNan x || fp32.isNan y
  let a := fp32.key false x
  let b := fp32.key false y
  match sel with
  | .eq => !un && a == b
  | .ne => un || a != b
  | .lt => !un && decide (a < b)
  | .le => !un && decide (a ≤ b)
  | .gt => !un && decide (b < a)
  | .ge => !un && decide (b ≤ a)
  | .un => un
  | .or => !un

def execFcmp (sel : FcmpSel) (f : VForm) (s : State) : Host.Outcome State Fault Refusal :=
  s.issueAlu (.fcmp sel f) fun w =>
    w.putPred f.hd (maskOf fun i =>
      fcmpHolds sel ((w.read f.imm f.hd.a).lane i).val.toNat ((w.read f.imm f.hd.b).lane i).val.toNat)

/-- The class bit of an FP32 code (R315). -/
def fclsBit (x : Nat) : Nat :=
  let mag := x % 2 ^ 31
  let neg := x.testBit 31
  if fp32.infCode < mag then (if x.testBit 22 then 1 else 0)
  else if mag = fp32.infCode then (if neg then 2 else 9)
  else if mag = 0 then (if neg then 5 else 6)
  else if mag < 2 ^ 23 then (if neg then 4 else 7)
  else if neg then 3 else 8

def execFcls (f : VForm) (s : State) : Host.Outcome State Fault Refusal :=
  s.issueAlu (.fcls f) fun w => w.floatAlu f fun x _ _ => 2 ^ fclsBit x

/-! ## Transcendental and iterative functions (R316) -/

def execFrcp (f : VForm) (s : State) : Host.Outcome State Fault Refusal :=
  s.issueAlu (.frcp f) fun w =>
    w.floatAlu f fun x _ _ => fdivBits (VForm.rnd f) (VForm.sat f) (.fin false 1 0) (fp32.decode x)

def execFrsq (f : VForm) (s : State) : Host.Outcome State Fault Refusal :=
  s.issueAlu (.frsq f) fun w => w.floatAlu f fun x _ _ => frsqBits (VForm.rnd f) (VForm.sat f) (fp32.decode x)

def execFex2 (f : VForm) (s : State) : Host.Outcome State Fault Refusal :=
  s.issueAlu (.fex2 f) fun w => w.floatAlu f fun x _ _ => fex2Bits (VForm.rnd f) (VForm.sat f) (fp32.decode x)

def execFlg2 (f : VForm) (s : State) : Host.Outcome State Fault Refusal :=
  s.issueAlu (.flg2 f) fun w => w.floatAlu f fun x _ _ => flg2Bits (VForm.rnd f) (VForm.sat f) (fp32.decode x)

def execFsin (f : VForm) (s : State) : Host.Outcome State Fault Refusal :=
  s.issueAlu (.fsin f) fun w => w.floatAlu f fun x _ _ => fsinBits (VForm.rnd f) (VForm.sat f) (fp32.decode x)

def execFcos (f : VForm) (s : State) : Host.Outcome State Fault Refusal :=
  s.issueAlu (.fcos f) fun w => w.floatAlu f fun x _ _ => fcosBits (VForm.rnd f) (VForm.sat f) (fp32.decode x)

def execFsqrt (f : VForm) (s : State) : Host.Outcome State Fault Refusal :=
  s.issueAlu (.fsqrt f) fun w => w.floatAlu f fun x _ _ => fsqrtBits (VForm.rnd f) (VForm.sat f) (fp32.decode x)

def execFdiv (f : VForm) (s : State) : Host.Outcome State Fault Refusal :=
  s.issueAlu (.fdiv f) fun w =>
    w.floatAlu f fun x y _ => fdivBits (VForm.rnd f) (VForm.sat f) (fp32.decode x) (fp32.decode y)

/-! ## Pairs (R193, R318) -/

/-- Both elements of a pair, each rounded once. -/
def Weave.pairAlu (w : Weave) (f : VForm) (m : Fmt) (op : Fp → Fp → Fp → Fp) : Weave :=
  let el (x y z : Nat) : Nat :=
    m.round (VForm.rnd f) (VForm.sat f) (op (m.decode (x % 2 ^ 16)) (m.decode (y % 2 ^ 16)) (m.decode (z % 2 ^ 16)))
  w.floatAlu f fun x y z => el x y z + 2 ^ 16 * el (x / 2 ^ 16) (y / 2 ^ 16) (z / 2 ^ 16)

def execBadd2 (f : VForm) (s : State) : Host.Outcome State Fault Refusal :=
  s.issueAlu (.badd2 f) fun w => w.pairAlu f bf16 fun a b _ => a.add (VForm.rnd f) b

def execBmul2 (f : VForm) (s : State) : Host.Outcome State Fault Refusal :=
  s.issueAlu (.bmul2 f) fun w => w.pairAlu f bf16 fun a b _ => a.mul b

def execBfma2 (f : VForm) (s : State) : Host.Outcome State Fault Refusal :=
  s.issueAlu (.bfma2 f) fun w => w.pairAlu f bf16 fun a b c => (a.mul b).add (VForm.rnd f) c

def execHadd2 (f : VForm) (s : State) : Host.Outcome State Fault Refusal :=
  s.issueAlu (.hadd2 f) fun w => w.pairAlu f fp16 fun a b _ => a.add (VForm.rnd f) b

def execHmul2 (f : VForm) (s : State) : Host.Outcome State Fault Refusal :=
  s.issueAlu (.hmul2 f) fun w => w.pairAlu f fp16 fun a b _ => a.mul b

def execHfma2 (f : VForm) (s : State) : Host.Outcome State Fault Refusal :=
  s.issueAlu (.hfma2 f) fun w => w.pairAlu f fp16 fun a b c => (a.mul b).add (VForm.rnd f) c

end Sys2Proof.Machine
end

