-- ==== Sys2Proof/Machine/Convert.lean ====
section
/-! DEFINITION. Machine/Convert.lean: the CV and GR blocks: scalar conversion (R201, R202, R319) and granules (R199,
R320 to R327). -/

namespace Sys2Proof.Machine

/-! ## Scalar conversion (R202, R319) -/

/-- The IEEE format of a type; the default type is FP32 (R283). -/
def Ty.fmt? (t : Ty) : Option Fmt :=
  match t with
  | .named | .f32 => some fp32
  | .bf16 => some bf16
  | .f16 => some fp16
  | _ => none

def Ty.fmt (t : Ty) : Fmt := (Ty.fmt? t).getD fp32

/-- Width and signedness of an integer type. -/
def Ty.int? (t : Ty) : Option (Nat × Bool) :=
  match t with
  | .i8 => some (8, true)
  | .ui8 => some (8, false)
  | .i16 => some (16, true)
  | .ui16 => some (16, false)
  | .i32 => some (32, true)
  | .ui32 => some (32, false)
  | .i64 => some (64, true)
  | .ui64 => some (64, false)
  | _ => none

/-- The exact value of a source in its place (R187). -/
def cvtSource (t : Ty) (x : Nat) : Fp :=
  match t with
  | .t8 => tDecode 7 (x % 256)
  | .t6 => tDecode 5 (x % 64)
  | .e8m0 => e8m0Decode x
  | t => match Ty.int? t with
    | some (n, sg) => let v : Int := if sg then signedOf n x else (x % 2 ^ n : Nat); .fin (decide (v < 0)) v.natAbs 0
    | none => (Ty.fmt t).decode (x % (2 * (Ty.fmt t).signBit))

/-- An exact value rounded to an integer and clamped; NaN gives 0. -/
def fpToInt (mode : Nat) (lo hi : Int) (x : Fp) : Int :=
  match x.integral mode with
  | .nan => 0
  | .inf s => if s then lo else hi
  | .fin s m e =>
    let v : Int := (m * 2 ^ e.toNat : Nat)
    clampInt lo hi (if s then -v else v)

/-- The bounds of an integer type. -/
def intBounds (n : Nat) (sg : Bool) : Int × Int := if sg then (-2 ^ (n - 1), 2 ^ (n - 1) - 1) else (0, 2 ^ n - 1)

/-- An integer in its place: the bits beyond the type are copies of the sign, or zero (R187). -/
def intPlace (n : Nat) (sg : Bool) (v : Int) : DWord :=
  let x := wrapNat n v
  BitVec.ofInt 64 (if sg then signedOf n x else (x : Int))

/-- `CVT` of one value (R202). The Exact entries ignore the mode and the saturation option. -/
def cvtValue (dst src : Ty) (mode : Nat) (sat : Bool) (x : DWord) : DWord :=
  let v := cvtSource src x.toNat
  match Ty.int? dst with
  | some (n, sg) =>
    let b := intBounds n sg
    match Ty.int? src with
    | some (k, ks) =>
      let i : Int := if ks then signedOf k x.toNat else (x.toNat % 2 ^ k : Nat)
      intPlace n sg (if sat then clampInt b.1 b.2 i else i)
    | none => intPlace n sg (fpToInt mode b.1 b.2 v)
  | none =>
    match dst with
    | .t8 => BitVec.ofNat 64 (taper 7 v)
    | .t6 => BitVec.ofNat 64 (taper 5 v)
    | .e8m0 => BitVec.ofNat 64 (e8m0Encode v)
    | dst =>
      let rounds := (Ty.int? src).isSome || ((Ty.fmt? src).isSome && dst != .f32)
      BitVec.ofNat 64 ((Ty.fmt dst).round (if rounds then mode else 0) (sat && rounds) v)

def execCvt (f : VForm) (s : State) : Host.Outcome State Fault Refusal :=
  s.issueAlu (.cvt f) fun w =>
    let h := f.hd
    let src (i : Nat) : DWord :=
      if f.ty2.wide then w.wideLane f.imm (f.ty2 == .i64) h.a i else (((w.read f.imm h.a).lane i).val).setWidth 64
    let uni := if f.ty2.wide then w.wideUni f.imm h.a else (w.read f.imm h.a).isUni
    let r (i : Nat) : DWord := cvtValue f.ty1 f.ty2 (VForm.rnd f) (VForm.sat f) (src i)
    if f.ty1.wide then w.putVPair h.d (w.writers h) (pairOf uni r)
    else
      let one (i : Nat) : Lane := Lane.ofWord ((r i).setWidth 32)
      w.putV h.d (w.writers h) (if uni then .uni (one 0) else .ofFn one)

/-! ## Granules (R199, R320 to R322) -/

/-- Element i of a lane. -/
def elemOf (x : Word) (i : Nat) : Nat := bitsOf x.toNat (8 * i) 8

/-- The scale of granule k. -/
def VReg.scale (r : VReg) (k : Nat) : Nat :=
  ((List.range 8).map fun i => if (r.lane (8 * k + i)).sb then 2 ^ i else 0).sum

/-- The scale of granule k in a scale source (R322). -/
def Weave.scaleSrc (w : Weave) (imm : Word) (o : Operand) (k : Nat) : Nat := ((w.read imm o).lane (8 * k)).val.toNat % 256

/-- An element's value without its scale. -/
def elemValue (kind : Ty) (c : Nat) : Fp :=
  match kind with
  | .i8g => let v := signedOf 8 c; .fin (decide (v < 0)) v.natAbs 0
  | .t6 => tDecode 5 (c % 64)
  | _ => tDecode 7 c

/-- The element that stands for nothing: NaR, or 0 for I8G (R322). -/
def elemNaR (kind : Ty) : Nat :=
  match kind with
  | .i8g => 0
  | .t6 => 32
  | _ => 128

/-- An exact value as an element. -/
def elemEncode (kind : Ty) (mode : Nat) (x : Fp) : Nat :=
  match kind with
  | .i8g => wrapNat 8 (fpToInt mode (-128) 127 x)
  | .t6 => taper 5 x
  | _ => taper 7 x

/-- The 4 elements of a lane as a word. -/
def packElems (e : Nat → Nat) : Word := BitVec.ofNat 32 (e 0 + 2 ^ 8 * e 1 + 2 ^ 16 * e 2 + 2 ^ 24 * e 3)

/-- The lanes that a write computes: the writing ones, and absent ones under a full write (R137). -/
def Weave.taking (w : Weave) (m : Mask) : Mask := if m ||| w.absent = BitVec.allOnes 32 then m ||| w.absent else m

/-- A granule holds a lane of a mask. -/
def granuleHit (m : Mask) (k : Nat) : Bool := (m >>> (8 * k)) &&& 0xFF != 0

/-- Write a granule register: the values of taking lanes, and the side bits of every lane of a granule that has one
(R321). `uni` says that every source is UNI. -/
def Weave.putGranules (w : Weave) (o : Operand) (m : Mask) (uni : Bool) (val : Nat → Word) (scale : Nat → Nat) : Weave :=
  if m = 0 then w
  else
    let take := w.taking m
    let old := w.read 0 o
    let lane (i : Nat) : Lane :=
      { val := if take.getLsbD i then val i else (old.lane i).val
        sb := if granuleHit take (i / 8) then (scale (i / 8)).testBit (i % 8) else (old.lane i).sb }
    let flat := uni && (List.range 4).all fun k => !granuleHit take k || scale k == 0
    let new : VReg := if flat then .uni (Lane.ofWord (val ((lowestLane take).getD 0))) else .ofFn lane
    let res : VReg := if m ||| w.absent = BitVec.allOnes 32 then new else if old.isUni && old == new then old else .ofFn lane
    match o with
    | .v n => { w with v := modNth w.v n.val fun _ => res }
    | .h n => { w with h := modNth w.h n.val fun _ => laneList.map lane }
    | _ => w

/-- Four registers from an operand. -/
def Weave.run4 (w : Weave) (o : Operand) : List VReg := (List.range 4).map fun k => w.read 0 (o.plus k)

/-- Value i of a run in a lane, in a format. -/
def runValue (rs : List VReg) (m : Fmt) (i lane : Nat) : Fp :=
  m.decode (((nthD rs i (.uni Lane.zero)).lane lane).val.toNat % (2 * m.signBit))

def execTenc (f : VForm) (s : State) : Host.Outcome State Fault Refusal :=
  s.issueAlu (.tenc f) fun w =>
    let h := f.hd
    let rs := w.run4 h.a
    let sc (k : Nat) : Nat := w.scaleSrc f.imm h.b k
    let el (lane i : Nat) : Nat :=
      let k := sc (lane / 8)
      if k = 255 then elemNaR f.ty1 else elemEncode f.ty1 0 ((runValue rs (Ty.fmt f.ty2) i lane).scale (127 - k))
    w.putGranules h.d (w.writers h) (rs.all VReg.isUni && (w.read f.imm h.b).isUni) (fun i => packElems (el i)) sc

/-- An element decoded to a format, rounded once under RNE. -/
def elemDecode (kind : Ty) (m : Fmt) (scale c : Nat) : Nat :=
  if scale = 255 then m.nanCode else m.round 0 false ((elemValue kind c).scale ((scale : Int) - 127))

/-- `TDEC`: its own check, that B is at most 3, is step 4 of R226 (R310). -/
def execTdec (f : VForm) (s : State) : Host.Outcome State Fault Refusal :=
  if f.hd.b = .imm ∧ 3 < f.imm.toNat then s.issue (.tdec f) fun cid wx w => s.trap cid wx w .reservedField w.exec
  else s.issueAlu (.tdec f) fun w =>
    let h := f.hd
    let a := w.read f.imm h.a
    let sel := (w.readG f.imm h.b).toNat % 4
    let one (i : Nat) : Lane :=
      Lane.ofWord (BitVec.ofNat 32 (elemDecode f.ty2 (Ty.fmt f.ty1) (a.scale (i / 8)) (elemOf (a.lane i).val sel)))
    w.putV h.d (w.writers h) (if a.isUni then .uni (one 0) else .ofFn one)

/-- ⌊log2⌋ of the largest magnitude of some values, ±∞ counting as the format's largest finite; none when all are 0. -/
def largestLog (m : Fmt) (xs : List Fp) : Option Int :=
  xs.foldl (fun best x =>
    let k : Option Int := match x with
      | .fin _ n e => if n = 0 then none else some ((Nat.log2 n : Int) + e)
      | .inf _ => some (2 ^ (m.ebits - 1) - 1)
      | .nan => none
    match best, k with
    | some a, some b => some (max a b)
    | none, k => k
    | a, none => a) none

/-- The scale that `GPACK` chooses for some elements (R325). -/
def packScale (kind : Ty) (m : Fmt) (xs : List Fp) : Nat :=
  if xs.contains .nan then 255
  else match largestLog m xs with
    | none => 127
    | some e => (clampInt 0 254 (e + 127 - (if kind == .i8g then 6 else 0))).toNat

def execGpack (f : VForm) (s : State) : Host.Outcome State Fault Refusal :=
  s.issueAlu (.gpack f) fun w =>
    let h := f.hd
    let m := Ty.fmt f.ty2
    let rs := w.run4 h.a
    let take := w.taking (w.writers h)
    let scales := (List.range 4).map fun k =>
      packScale f.ty1 m (((List.range 8).filter fun j => take.getLsbD (8 * k + j)).flatMap fun j =>
        (List.range 4).map fun i => runValue rs m i (8 * k + j))
    let sc (k : Nat) : Nat := nthD scales k 0
    let el (lane i : Nat) : Nat :=
      let k := sc (lane / 8)
      if k = 255 then elemNaR f.ty1 else elemEncode f.ty1 (VForm.rnd f) ((runValue rs m i lane).scale (127 - k))
    w.putGranules h.d (w.writers h) (rs.all VReg.isUni) (fun i => packElems (el i)) sc

def execGunpk (f : VForm) (s : State) : Host.Outcome State Fault Refusal :=
  s.issueAlu (.gunpk f) fun w =>
    let h := f.hd
    let a := w.read f.imm h.a
    let one (k i : Nat) : Lane :=
      Lane.ofWord (BitVec.ofNat 32 (elemDecode f.ty2 (Ty.fmt f.ty1) (a.scale (i / 8)) (elemOf (a.lane i).val k)))
    w.putVRun h.d (w.writers h) ((List.range 4).map fun k => if a.isUni then .uni (one k 0) else .ofFn (one k))

def execGscl (f : VForm) (s : State) : Host.Outcome State Fault Refusal :=
  s.issueAlu (.gscl f) fun w =>
    let h := f.hd
    let a := w.read f.imm h.a
    let sc (k : Nat) : Nat := w.scaleSrc f.imm h.b k
    let el (lane i : Nat) : Nat :=
      let old := a.scale (lane / 8)
      let new := sc (lane / 8)
      let x := elemValue f.ty1 (elemOf (a.lane lane).val i)
      if old = 255 || new = 255 || x == .nan then elemNaR f.ty1
      else elemEncode f.ty1 0 (x.scale ((old : Int) - new))
    w.putGranules h.d (w.writers h) (a.isUni && (w.read f.imm h.b).isUni) (fun i => packElems (el i)) sc

end Sys2Proof.Machine
end

