-- ==== Sys2Proof/Machine/Exchange.lean ====
section
/-! DEFINITION. Machine/Exchange.lean: the QX and WX blocks (R203, R305 to R307), the MK and SR blocks (R295, R296). -/

namespace Sys2Proof.Machine

/-! ## Exchanges -/

/-- Write a GEN register: every exchange, ballot, match, reduction and scan (R305). -/
def Weave.putGen (w : Weave) (h : Head) (lane : Nat → Lane) : Weave := w.putV h.d (w.writers h) (.ofFn lane)

def execQswz (f : VForm) (s : State) : Host.Outcome State Fault Refusal :=
  s.issueAlu (.qswz f) fun w =>
    let a := w.read f.imm f.hd.a
    let c := (w.readG f.imm f.hd.b).toNat
    w.putGen f.hd fun l => a.lane (l / 4 * 4 + bitsOf c (2 * (l % 4)) 2)

def execQbc (f : VForm) (s : State) : Host.Outcome State Fault Refusal :=
  s.issueAlu (.qbc f) fun w =>
    let a := w.read f.imm f.hd.a
    let c := (w.readG f.imm f.hd.b).toNat
    w.putGen f.hd fun l => a.lane (l / 4 * 4 + bitsOf c 0 2)

/-- The source lane of `SHFL` (R306). -/
def shflLane (sel : ShflSel) (l b : Nat) : Nat :=
  match sel with
  | .idx => b % 32
  | .up => if l < b then l else l - b
  | .down => if 31 < l + b then l else l + b
  | .xor => l ^^^ (b % 32)

def execShfl (sel : ShflSel) (f : VForm) (s : State) : Host.Outcome State Fault Refusal :=
  s.issueAlu (.shfl sel f) fun w =>
    let a := w.read f.imm f.hd.a
    let b := w.read f.imm f.hd.b
    w.putGen f.hd fun l => a.lane (shflLane sel l (b.lane l).val.toNat)

/-! ## Votes -/

def execBall (f : VForm) (s : State) : Host.Outcome State Fault Refusal :=
  s.issueAlu (.ball f) fun w =>
    let x : Word := w.actors f.hd &&& w.predBits f.hd.a
    w.putGen f.hd fun _ => Lane.ofWord x

def execMatch (f : VForm) (s : State) : Host.Outcome State Fault Refusal :=
  s.issueAlu (.match_ f) fun w =>
    let a := w.read f.imm f.hd.a
    let c := w.actors f.hd
    w.putGen f.hd fun l => Lane.ofWord (maskOf fun i => c.getLsbD i && (a.lane i).val == (a.lane l).val)

/-- The outcome of a vote over contributors and their bits (R307). -/
def voteHolds (sel : VoteSel) (contributors bits : Mask) : Bool :=
  let on := contributors &&& bits
  match sel with
  | .all => on == contributors
  | .any => on != 0
  | .uni => on == 0 || on == contributors

def execVote (sel : VoteSel) (f : VForm) (s : State) : Host.Outcome State Fault Refusal :=
  s.issueAlu (.vote sel f) fun w =>
    let r := voteHolds sel (w.actors f.hd) (w.predBits f.hd.a)
    w.putPred f.hd (if r then BitVec.allOnes 32 else 0)

/-! ## Reductions (R203) -/

/-- One level of the tree: neighbours combined, an absent one passing its partner through. -/
def pairUp (op : Word → Word → Word) : List (Option Word) → List (Option Word)
  | a :: b :: xs =>
    (match a, b with
     | some x, some y => some (op x y)
     | some x, none => some x
     | none, y => y) :: pairUp op xs
  | xs => xs

/-- The tree over 2^n contributions. -/
def redTree (op : Word → Word → Word) : Nat → List (Option Word) → Option Word
  | 0, xs => (xs.head?).join
  | n + 1, xs => redTree op n (pairUp op xs)

/-- The operation of a reduction in its type. -/
def redOp (sel : RedSel) (t : Ty) (mode : Nat) (x y : Word) : Word :=
  let flt := t == .f32
  let less := if t == .ui32 then decide (x.toNat < y.toNat) else decide (x.toInt < y.toInt)
  match sel with
  | .add => if flt then BitVec.ofNat 32 (fp32.round mode false ((fp32.decode x.toNat).add mode (fp32.decode y.toNat))) else x + y
  | .min => if flt then BitVec.ofNat 32 (fp32.minmax false x.toNat y.toNat) else if less then x else y
  | .max => if flt then BitVec.ofNat 32 (fp32.minmax true x.toNat y.toNat) else if less then y else x
  | .and => x &&& y
  | .or => x ||| y
  | .xor => x ^^^ y

/-- The result of a tree without operands (R307). -/
def redIdentity (sel : RedSel) (t : Ty) : Word :=
  match sel, t with
  | .add, _ => 0
  | .min, .f32 => 0x7F800000
  | .min, .ui32 => 0xFFFFFFFF
  | .min, _ => 0x7FFFFFFF
  | .max, .f32 => 0xFF800000
  | .max, .ui32 => 0
  | .max, _ => 0x80000000
  | .and, _ => 0xFFFFFFFF
  | .or, _ | .xor, _ => 0

def execQred (sel : RedSel) (f : VForm) (s : State) : Host.Outcome State Fault Refusal :=
  s.issueAlu (.qred sel f) fun w =>
    let a := w.read f.imm f.hd.a
    let quad (k : Nat) : Word :=
      (redTree (redOp sel f.ty1 (VForm.rnd f)) 2 ((List.range 4).map fun i => some (a.lane (4 * k + i)).val)).getD 0
    w.putGen f.hd fun l => Lane.ofWord (quad (l / 4))

/-- The tree over the contributing lanes that `p` picks. -/
def Weave.redLanes (w : Weave) (sel : RedSel) (f : VForm) (p : Nat → Bool) : Word :=
  let a := w.read f.imm f.hd.a
  let c := w.actors f.hd
  let xs := laneList.map fun i => if c.getLsbD i && p i then some (a.lane i).val else none
  (redTree (redOp sel f.ty1 (VForm.rnd f)) 5 xs).getD (redIdentity sel f.ty1)

def execRedw (sel : RedSel) (f : VForm) (s : State) : Host.Outcome State Fault Refusal :=
  s.issueAlu (.redw sel f) fun w =>
    let x := w.redLanes sel f fun _ => true
    w.putGen f.hd fun _ => Lane.ofWord x

def execScanw (sel : RedSel) (f : VForm) (s : State) : Host.Outcome State Fault Refusal :=
  s.issueAlu (.scanw sel f) fun w => w.putGen f.hd fun l => Lane.ofWord (w.redLanes sel f fun i => i ≤ l)

/-! ## Masks (R295) -/

def execExmr (f : VForm) (s : State) : Host.Outcome State Fault Refusal :=
  s.issueAlu (.exmr f) fun w => if w.qPass f.hd then w.putG f.hd.d w.exec else w

def execHlpr (f : VForm) (s : State) : Host.Outcome State Fault Refusal :=
  s.issueAlu (.hlpr f) fun w => if w.qPass f.hd then w.putG f.hd.d w.helper else w

/-- The exit test of R128. -/
def Weave.mustExit (w : Weave) : Bool := w.exec == 0 && w.toks.all fun t => t.rmask == 0 && t.pmask == 0

/-- `EXMW`: the weave exits at once when the test of R128 holds; it never resumes a path. -/
def execExmw (f : VForm) (s : State) : Host.Outcome State Fault Refusal :=
  s.issue (.exmw f) fun cid wx w =>
    if w.qPass f.hd then
      let m := w.readG f.imm f.hd.a &&& ~~~ w.absent &&& ~~~ w.helper &&& ~~~ w.exited
      let w := { w with exec := m }
      s.settle cid wx (if w.mustExit then { w with toks := [], done := true }.next else w.next)
    else s.skip cid wx w

/-! ## Special values (R296) -/

/-- Crews of a gang of a launch. -/
def State.gangSize (s : State) (lid : Nat) : Nat :=
  match s.launch? lid with
  | some l => l.lrec.gcrews + 1
  | none => 1

/-- The special value that a selector names. -/
def State.special (s : State) (cid wx sel : Nat) : DWord :=
  match s.crew? cid with
  | none => 0
  | some c =>
    match sel with
    | 0 =>
      if c.cont then BitVec.allOnes 64
      else BitVec.ofNat 64 (if c.inGang then c.unit * s.gangSize c.lid + c.member else c.unit)
    | 1 => BitVec.ofNat 64 wx
    | 2 => if c.inGang then BitVec.ofNat 64 c.unit else BitVec.allOnes 64
    | 3 => BitVec.ofNat 64 c.lid
    | 4 => BitVec.ofNat 64 c.vcore
    | 5 => BitVec.ofNat 64 c.homeDie
    | _ => BitVec.ofNat 64 (s.clocks ((c.core?.map dieOfCore).getD c.homeDie))

/-- Selectors of 64 bits. -/
def specialWide (sel : Nat) : Bool := sel == 0 || sel == 2 || sel == 3 || sel == 6

def execSreg (f : VForm) (s : State) : Host.Outcome State Fault Refusal :=
  s.issue (.sreg f) fun cid wx w =>
    let sel := VForm.rnd f
    let x := s.special cid wx sel
    let w' := if specialWide sel then w.putUniPair f.hd x else w.putUni f.hd f.hd.d (x.setWidth 32)
    (s.putWeave cid wx (w'.note (w.writtenWords w' (.sreg f))).next).wroteRegs cid wx (w.writtenRegs (.sreg f))

/-- `SREGW nospin`. -/
def execSregw (f : VForm) (s : State) : Host.Outcome State Fault Refusal :=
  s.issueAlu (.sregw f) fun w =>
    if w.qPass f.hd then { w with spin := { w.spin with nospin := (w.readG f.imm f.hd.a).getLsbD 0 } } else w

end Sys2Proof.Machine
end

