-- ==== Sys2Proof/Machine/AccordCore.lean ====
section
/-! DEFINITION. Machine/AccordCore.lean: table sets (R206 to R212), spilled sets (R214), plane descriptors (R215), B blocks
(R216) and the sum of `LKA` (R217). -/

namespace Sys2Proof.Machine

/-! ## The format word (R208) -/

def fwAfmt (fw : Word) : Nat := bitsOf fw.toNat 0 2
def fwSigned (fw : Word) : Bool := fw.getLsbD 2
def fwG2 (fw : Word) : Bool := fw.getLsbD 3
def fwKg (fw : Word) : Nat := bitsOf fw.toNat 4 5
def fwValid (fw : Word) : Bool := fwAfmt fw != 3 && fw.toNat < 2 ^ 9

/-- Elements of a group. -/
def groupLen (g2 : Bool) : Nat := if g2 then 2 else 4

/-- Entries stored per group (R206). -/
def storedEntries (signed g2 : Bool) : Nat :=
  let g := groupLen g2
  if signed then 2 ^ (g - 1) else 2 ^ g - 1

/-- Size of a set in KiB (R207). -/
def setKib (signed g2 : Bool) (kg : Nat) : Nat :=
  let k := 32 * (kg + 1)
  roundUp (16 * (k / groupLen g2) * storedEntries signed g2 * 4 + 16 * (k / 32)) 1024 / 1024

/-- Bytes of a granule in memory: T8 and I8G 33, T6 25 (R200). -/
def granuleBytes (afmt : Nat) : Nat := if afmt = 2 then 25 else 33

/-! ## Building (R206, R210) -/

/-- The 32 element codes and the scale of a granule in memory (R200). -/
def granuleOf (t6 : Bool) (bs : List Byte) : List Nat × Nat :=
  if t6 then
    let x := natLE (bs.take 24)
    ((List.range 32).map fun j => bitsOf x (6 * j) 6, (nthD bs 24 0).toNat)
  else ((List.range 32).map fun j => (nthD bs j 0).toNat, (nthD bs 32 0).toNat)

/-- A granule's bytes in memory. -/
def granuleMem (t6 : Bool) (es : List Nat) (scale : Nat) : List Byte :=
  if t6 then bytesLE 24 (((es.zip (List.range 32)).map fun (e, j) => e % 64 * 2 ^ (6 * j)).sum) ++ [BitVec.ofNat 8 scale]
  else es.map (BitVec.ofNat 8) ++ [BitVec.ofNat 8 scale]

/-- The elements and scale of granule k of a register (R133). -/
def VReg.granule (r : VReg) (k : Nat) : List Nat × Nat :=
  ((List.range 8).flatMap fun i => (List.range 4).map fun j => elemOf (r.lane (8 * k + i)).val j, r.scale k)

/-- The fixed value of an element; nothing for NaR. -/
def fixedValue (afmt c : Nat) : Option Int :=
  if afmt = 1 then some (signedOf 8 c * 2 ^ 12)
  else match (if afmt = 2 then tDecode 5 (c % 64) else tDecode 7 c) with
    | .fin s m _ => some (if s then -(m : Int) else m)
    | _ => none

/-- A granule's fixed values and its recorded scale: 0xFF when it is marked NaN. -/
def fixedGranule (afmt : Nat) (g : List Nat × Nat) : List Int × Nat :=
  let vs := g.1.map (fixedValue afmt)
  (vs.map (·.getD 0), if g.2 = 255 || vs.contains none then 255 else g.2)

/-- The 16 rows of fixed values, and of scales, from granule number 16 kb + m. -/
def buildRows (afmt kg : Nat) (granule : Nat → List Nat × Nat) : List (List Int) × List (List Nat) :=
  let row (m : Nat) := (List.range (kg + 1)).map fun kb => fixedGranule afmt (granule (16 * kb + m))
  ((List.range 16).map fun m => (row m).flatMap (·.1), (List.range 16).map fun m => (row m).map (·.2))

/-- The granules of a register run of a weave from `base`. -/
def Weave.granuleAt (w : Weave) (base n : Nat) : List Nat × Nat :=
  (nthD w.v (base + n / 4) (.uni Lane.zero)).granule (n % 4)

/-- The granules in scratch bytes. -/
def granuleInBytes (afmt : Nat) (bs : List Byte) (n : Nat) : List Nat × Nat :=
  granuleOf (afmt = 2) ((bs.drop (n * granuleBytes afmt)).take (granuleBytes afmt))

/-- The word that `TSTAT` returns (R212). -/
def Tbl.stat (t : Tbl) : Word :=
  let st := match t.state with | .unbound => 0 | .valid => 1 | .stale => 2 | .discarded => 3 | .spilled => 4
  let src := match t.src with | .regs .. => 0 | .scratch _ => 1
  if t.state == .unbound then 0
  else BitVec.ofNat 32 (st + t.afmt * 2 ^ 3 + t.tkind.toNat * 2 ^ 5 + t.gsz.toNat * 2 ^ 6 + t.kg * 2 ^ 7 + src * 2 ^ 12
    + t.size * 2 ^ 14)

/-- The set counts against TBLKB: built or awaiting rebuild, not spilled (R207). -/
def Tbl.counted (t : Tbl) : Nat :=
  match t.state with
  | .valid | .stale | .discarded => t.size
  | _ => 0

/-! ## Entries (R206) and the spilled form (R214) -/

/-- Entry i of the group of a row that begins at element k. -/
def tableEntry (signed g2 : Bool) (row : List Int) (k i : Nat) : Int :=
  ((List.range (groupLen g2)).map fun t =>
    let a := nthD row (k + t) 0
    if i.testBit t then a else if signed then -a else 0).sum

/-- The bytes of a set that `TSPILL` writes. -/
def Tbl.spillBytes (t : Tbl) : List Byte :=
  let g := groupLen t.gsz
  let codes := if t.tkind then List.range (2 ^ (g - 1)) else (List.range (2 ^ g - 1)).map (· + 1)
  let body := t.rows.flatMap fun row => (List.range (32 * (t.kg + 1) / g)).flatMap fun j =>
    codes.flatMap fun i => bytesLE 4 (wrapNat 32 (tableEntry t.tkind t.gsz row (g * j) i))
  let sc := t.scales.flatMap fun r => r.map (BitVec.ofNat 8)
  let all := body ++ sc
  all ++ List.replicate (t.size * 1024 - all.length) 0

/-! ## Plane descriptors (R215) and the B block (R216) -/

def PlaneD.bcq (p : PlaneD) : Bool := p.ctl.getLsbD 0
def PlaneD.uns (p : PlaneD) : Bool := p.ctl.getLsbD 1
/-- Planes minus 1. -/
def PlaneD.npl (p : PlaneD) : Nat := bitsOf p.ctl.toNat 2 3
/-- α(p, n). -/
def PlaneD.alpha (d : PlaneD) (p n : Nat) : Nat := (nthD d.arr (32 * p + n) 0).toNat

/-- MULT(p, n). -/
def PlaneD.mult (d : PlaneD) (p n : Nat) : Int :=
  if d.bcq then 2 ^ (d.alpha p n - 0x70) else if p = d.npl && !d.uns then -2 ^ p else 2 ^ p

/-- Every multiplier of BCQ mode lies in its range. -/
def PlaneD.inRange (d : PlaneD) : Bool :=
  !d.bcq || (List.range (d.npl + 1)).all fun p => (List.range 32).all fun n => 0x70 ≤ d.alpha p n && d.alpha p n ≤ 0x8F

/-- Bytes of a code word, of a granule record and of the B block. -/
def codeBytes (g2 : Bool) : Nat := if g2 then 8 else 4
def recordBytes (g2 : Bool) (npl : Nat) : Nat := 32 + (npl + 1) * 32 * codeBytes g2
def blockBytes (fw : Word) (d : PlaneD) : Nat := (fwKg fw + 1) * recordBytes (fwG2 fw) d.npl

/-- CODE(kb, p, n, j). -/
def codeAt (g2 : Bool) (npl : Nat) (bs : List Byte) (kb p n j : Nat) : Nat :=
  let b := nthD bs (kb * recordBytes g2 npl + p * 32 * codeBytes g2 + n * codeBytes g2 + j / 2) 0
  if j % 2 = 0 then b.toNat % 16 else b.toNat / 16

/-- sB(n, kb). -/
def scaleB (g2 : Bool) (npl : Nat) (bs : List Byte) (kb n : Nat) : Nat :=
  (nthD bs (kb * recordBytes g2 npl + (npl + 1) * 32 * codeBytes g2 + n) 0).toNat

/-- Some code is illegal: 4 to 15 with g = 2. -/
def illegalCode (fw : Word) (d : PlaneD) (bs : List Byte) : Bool :=
  fwG2 fw && (List.range (fwKg fw + 1)).any fun kb => (List.range (d.npl + 1)).any fun p => (List.range 32).any fun n =>
    (List.range 16).any fun j => 4 ≤ codeAt true d.npl bs kb p n j

/-! ## The sum (R217) -/

/-- RNE to FP32 of an integer times a power of two. -/
def rneInt (x : Int) (e : Int) : Nat := fp32.roundFin 0 false (decide (x < 0)) x.natAbs e false

/-- The exact sum W of a row and column over a granule. -/
def granuleSum (t : Tbl) (d : PlaneD) (bs : List Byte) (m n kb : Nat) : Int :=
  let g := groupLen t.gsz
  let row := nthD t.rows m []
  ((List.range (d.npl + 1)).map fun p =>
    ((List.range (32 / g)).map fun j =>
      d.mult p n * tableEntry t.tkind t.gsz row (32 * kb + g * j) (codeAt t.gsz d.npl bs kb p n j)).sum).sum

/-- The new value of a tile element: granules in increasing K, each rounded once and added with one rounding. -/
def lkaElement (t : Tbl) (d : PlaneD) (bs : List Byte) (m n : Nat) (acc : Word) : Word :=
  (List.range (t.kg + 1)).foldl (fun acc kb =>
    let sa := nthD (nthD t.scales m []) kb 0
    let sb := scaleB t.gsz d.npl bs kb n
    let e : Int := (sa : Int) + sb - 254 - 12 - (if d.bcq then 15 else 0)
    let x := if sa = 255 || sb = 255 then fp32.nanCode else rneInt (granuleSum t d bs m n kb) e
    BitVec.ofNat 32 (fp32.round 0 false ((fp32.decode acc.toNat).add 0 (fp32.decode x)))) acc

/-- A tile of +0.0 (R219). -/
def tileZero : List Word := List.replicate 512 0

/-- The tile after an `LKA`. -/
def lkaTile (t : Tbl) (d : PlaneD) (bs : List Byte) (data : List Word) : List Word :=
  (data.zip (List.range 512)).map fun (acc, i) => lkaElement t d bs (i / 32) (i % 32) acc

/-! ## Operations in the queue -/

/-- The crew that an operation serves. -/
def AccOp.cid : AccOp → Nat
  | .lka c .. | .ard _ c _ | .awr c .. | .azro c _ | .arel c _ | .build c _ | .tspill c _ | .tfill c _ | .tinv c _ => c

/-- Pieces of a range of a crew's scratch addresses. -/
def State.scratchPieces (s : State) (cid off n : Nat) : List Piece :=
  match s.crew? cid with
  | some c => splitWindows (s.windows c) off n
  | none => []

/-- Two runs of scratch bytes meet. -/
def Piece.meets (p q : Piece) : Bool :=
  match p.loc, q.loc with
  | .scratch a x, .scratch b y => a == b && x < y + q.len && y < x + p.len
  | _, _ => false

/-- The scratch bytes that queued `LKA`s have yet to read (R221). -/
def State.unreadB (s : State) (core : Nat) : List Piece :=
  (s.core core).accq.flatMap fun op => match op with
    | .lka cid _ _ _ _ _ boff fw pd => s.scratchPieces cid boff (blockBytes fw pd)
    | _ => []

/-- A store to some pieces waits for a queued `LKA` of a core of the gang, or of the crew, to read them (R221). -/
def State.heldByLka (s : State) (c : Crew) (ps : List Piece) : Bool :=
  let cores := (s.windows c).filterMap Crew.holds?
  cores.any fun k => (s.unreadB k).any fun q => ps.any fun p => p.meets q

end Sys2Proof.Machine
end

