-- ==== Sys2Proof/Machine/MemOps.lean ====
section
/-! DEFINITION. Machine/MemOps.lean: loads, stores, atomics and bank operations (R329 to R334). -/

namespace Sys2Proof

/-- WID as a number. -/
def MForm.widN (f : MForm) : Nat := f.wid.toNat
/-- The access moves granules. -/
def MForm.granular (f : MForm) : Bool := 5 ≤ f.wid.toNat
/-- The annotation acquires, or the access is strongly ordered (R172, R176). -/
def MForm.acquires (f : MForm) : Bool := f.ord == 1 || f.ord == 3
def MForm.strong (f : MForm) : Bool := f.ord == 4

end Sys2Proof

namespace Sys2Proof.Machine

/-! ## Fields -/

/-- Bytes of one access by WID (R330, R332). -/
def widBytes (wid : Nat) : Nat :=
  match wid with
  | 0 => 1
  | 1 => 2
  | 2 => 4
  | 3 => 8
  | 4 => 16
  | 5 => 33
  | _ => 25

/-- A lane's effective offset: exact, the register's part unsigned (R144). -/
def Weave.laneOffset (w : Weave) (f : MForm) (i : Nat) : Int :=
  (((w.read 0 f.hd.a).lane i).val.toNat : Int) + f.disp.toInt

/-- The lanes whose addresses form the accesses: every acting lane, or the lowest of each granule (R332). -/
def accessLanes (granular : Bool) (m : Mask) : List Nat :=
  if granular then (List.range 4).filterMap fun k => (List.range 8).findSome? fun j =>
    if m.getLsbD (8 * k + j) then some (8 * k + j) else none
  else maskLanes m

/-- A lane's VA of a global access, 0 in another space. -/
def Weave.laneVa (w : Weave) (sp : Space) (e : Int) : Nat :=
  match sp with
  | .global xb => match w.b[xb]? with
    | some b => ((b.vabase.toNat : Int) + e).emod (2 ^ 52) |>.toNat
    | none => 0
  | _ => 0

/-! ## Faults after issue (R225, R226, R235) -/

/-- Deferred traps of one instruction by lanes, causes and addresses: lowest cause code first (R226). -/
def State.deferLanes (s : State) (cid wx : Nat) (pc : Pc) (xs : List (Nat × Cause × Nat)) : State :=
  [Cause.paUnbacked, .firewallBlocked, .memoryUe].foldl (fun s c =>
    let mine := xs.filter fun x => x.2.1 == c
    if mine.isEmpty then s
    else s.deferTrap cid wx
      ⟨c, true, pc, maskOf fun i => mine.any fun x => x.1 == i,
       laneList.map fun i => match mine.find? fun x => x.1 == i with
         | some x => BitVec.ofNat 64 x.2.2
         | none => 0⟩) s

/-! ## The accesses of an instruction -/

/-- The lanes that ask for walks, with the VA of their first byte in the page that each walk is for (R158). -/
def asksOf (va : Nat → Nat) (rs : List (Nat × Probe)) : List (Nat × Nat) :=
  rs.flatMap fun r => match r.2 with
    | .walk vs => vs.map fun v => (r.1, if va r.1 / 2 ^ 16 = v then va r.1 else v * 2 ^ 16)
    | _ => []

/-- A translation register's generation is behind (R155). -/
def State.behind (s : State) (owner core : Nat) (t : TReg) : Bool := t.tgen.toNat != s.gen owner (dieOfCore core) % 2 ^ 16

/-- The VA of the access's register, when it is behind and no TLB holds its own page: a walk for that page refreshes it
(R155). -/
def State.behindVa (s : State) (w : Weave) (owner core : Nat) (sp : Space) : Option Nat :=
  match sp with
  | .global xb => (w.b[xb]?).bind fun t =>
    if s.behind owner core t && s.xlate w core owner t.vabase.toNat == .walk then some t.vabase.toNat else none
  | _ => none

/-- A walker is free for the walk that an access's register needs (R156). -/
def State.refreshFree (s : State) (w : Weave) (owner core : Nat) (sp : Space) : Bool :=
  match s.behindVa w owner core sp with
  | some va => s.walkersFree (dieOfCore core) owner [va]
  | none => true

/-- Start that walk. -/
def State.refreshWalk (s : State) (cid wx : Nat) (w : Weave) (owner core : Nat) (sp : Space) : State :=
  match sp, s.behindVa w owner core sp with
  | .global xb, some va => s.sideWalk (dieOfCore core) owner va [] [(cid, wx, xb)]
  | _, _ => s

/-- Check every lane's access, then perform: wait for walks, take the precise trap, or go on with the lanes' pieces and
the faults found after issue. -/
def State.access (s : State) (cid wx : Nat) (w : Weave) (f : MForm) (sp : Space) (a : Access) (lanes : List Nat)
    (run : Crew → Nat → List (Nat × List Piece) → List (Nat × Cause × Nat) → State) : State :=
  match s.crew? cid with
  | none => s
  | some c => match c.core? with
    | none => s
    | some k =>
      let probes := lanes.map fun i => (i, s.probe c w k sp a (w.laneOffset f i))
      match planOf probes with
      | .walk _ => s.startWalks cid wx k c.owner (asksOf (fun i => w.laneVa sp (w.laneOffset f i)) probes)
      | .bad cause m vas => s.memTrap cid wx w cause m vas
      | .go ps late =>
        if !s.refreshFree w c.owner k sp then s
        else (run c k ps (late.map fun x => (x.1, x.2, w.laneVa sp (w.laneOffset f x.1)))).refreshWalk cid wx w c.owner k sp

/-- A translation register whose generation is behind is refreshed by an access on the TLB path (R155). -/
def State.refreshTreg (s : State) (w : Weave) (owner core : Nat) (sp : Space) : Weave :=
  match sp with
  | .global xb =>
    let d := dieOfCore core
    { w with b := modNth w.b xb fun t =>
        if s.behind owner core t then
          match s.xlate w core owner t.vabase.toNat with
          | .hit l => tregOf s owner d t.vabase.toNat (some l)
          | .miss => tregOf s owner d t.vabase.toNat none
          | .walk => t
        else t }
  | _ => w

/-- A lane's address as the crew names it: the VA of a global access, the effective offset of another. -/
def Weave.laneAddr (w : Weave) (sp : Space) (f : MForm) (i : Nat) : Nat :=
  match sp with
  | .global _ => w.laneVa sp (w.laneOffset f i)
  | _ => (w.laneOffset f i).toNat

/-- The addresses of the lanes' accesses, low word first, for the signature of R107. -/
def Weave.addrWords (w : Weave) (sp : Space) (f : MForm) (ps : List (Nat × List Piece)) : List Word :=
  ps.flatMap fun x =>
    let a := w.laneAddr sp f x.1
    [BitVec.ofNat 32 a, BitVec.ofNat 32 (a / 2 ^ 32)]

/-- What the recognizer keeps of a lane's load, by piece (R109). -/
def spinLoads : List Piece → List Byte → List SpinLoad
  | [], _ => []
  | p :: ps, bs => ⟨some p.loc, p.watch && !p.shadow, bs.take p.len⟩ :: spinLoads ps (bs.drop p.len)

/-! ## Loads (R331, R332) -/

/-- The value of register k of a run in a lane: loaded bytes; 0 in a helper lane; a free value in an absent lane, which
a full write computes (R137, log entry 13). -/
def State.loadedLane (s : State) (w : Weave) (data : List (Nat × List Byte)) (k i : Nat) : Lane :=
  match assocGet data i with
  | some bs => Lane.ofWord (BitVec.ofNat 32 (natLE ((bs.drop (4 * k)).take 4)))
  | none => if w.absent.getLsbD i then Lane.ofWord (Config.freeWord s.fresh (32 * k + i)) else Lane.zero

/-- Registers that an access of a width names. -/
def widRegs (wid : Nat) : Nat :=
  match wid with
  | 3 => 2
  | 4 => 4
  | _ => 1

/-- The weave with a load's values in its destination. A granule is moved whole: its eight lanes and their side bits
(R332, log entry 21). -/
def State.withLoaded (s : State) (w : Weave) (f : MForm) (data : List (Nat × List Byte)) : Weave :=
  let h := f.hd
  let m := w.writers h
  if f.granular then
    let t6 := f.wid == 6
    let g (k : Nat) : Option (List Nat × Nat) := (data.find? fun x => x.1 / 8 == k).map fun x => granuleOf t6 x.2
    let touched (k : Nat) : Bool := (g k).isSome || granuleHit (m &&& w.helper) k
    let fm : Mask := maskOf fun i => touched (i / 8)
    let val (i : Nat) : Word := match g (i / 8) with
      | some (es, _) => packElems fun j => nthD es (4 * (i % 8) + j) 0
      | none => if touched (i / 8) then 0 else Config.freeWord s.fresh i
    let scale (k : Nat) : Nat := match g k with
      | some (_, sc) => sc
      | none => if touched k then 0 else (Config.freeByte s.fresh k).toNat
    w.putGranules h.d fm false val scale
  else w.putVRun h.d m ((List.range (widRegs f.widN)).map fun k => .ofFn (s.loadedLane w data k))

/-- Read the lanes' bytes for a load: an acquire or a strongly ordered read first invalidates the core's RC lines
(R150, R176, R177); the read then leaves its lines in L1 as CH says. -/
def State.readLanes (s : State) (core owner : Nat) (f : MForm) (ch : Nat) (ps : List (Nat × List Piece)) :
    State × List (Nat × List Byte) :=
  let so := f.strong || ps.any fun x => x.2.any fun p => p.kind == kindSo
  let s := if so then s.acquire core 4 else if f.acquires then s.acquire core f.scp.toNat else s
  let bypass := f.strong || ch == 2
  let data := ps.map fun x => (x.1, s.readPieces core owner bypass x.2)
  (ps.foldl (fun s x => x.2.foldl (fun s p => s.touchPiece core owner (if f.strong then 2 else ch) p) s) s, data)

/-- The stacks of the soft errors that an access meets beyond the core's L1; a read that allocates reads whole lines (R18,
R150). -/
def State.softMet (s : State) (core owner : Nat) (bypass fills : Bool) (ps : List Piece) : List Nat :=
  s.env.soft.filterMap fun u =>
    let held := (s.core core).l1.any fun l => l.covers owner u
    let read := ps.any fun p => match p.loc with
      | .hbm pa =>
        if fills && p.kind != kindSo then p.hbmLines.contains (u / 64 * 64) && !held
        else pa < u + 32 && u < pa + p.len && (bypass || p.kind == kindSo || !held)
      | _ => false
    if read then some (paStack u) else none

/-- The flight that has just begun carries them to its completion. -/
def State.flySoft (s : State) (ks : List Nat) : State :=
  if ks.isEmpty then s else { s with flights := updWhere s.flights (fun x => x.id == s.ids) fun x => { x with soft := ks } }

/-- A lane form of which only helper lanes write: no access, D receives 0 in them (R331). -/
def State.helperOnly (s : State) (i : Instr) (f : MForm) (cid wx : Nat) (w : Weave) : State :=
  let w' := s.withLoaded w f []
  let s := if w.absent == 0 then s else s.draw
  (s.putWeave cid wx (w'.note (w.writtenWords w' i)).next).wroteRegs cid wx (w.writtenRegs i)

/-- A load (R331). It counts until its destination is full (R140). -/
def State.load (s : State) (i : Instr) (f : MForm) (sp : Space) (ch : Nat) : Host.Outcome State Fault Refusal :=
  s.issue i fun cid wx w =>
    let m := w.writers f.hd
    let lanes := accessLanes f.granular (w.actors f.hd)
    if m == 0 then s.skip cid wx w
    else if lanes.isEmpty then s.helperOnly i f cid wx w
    else if 255 ≤ w.outst then s
    else s.access cid wx w f sp ⟨widBytes f.widN, true, false, false⟩ lanes fun c k ps late =>
      let ue := ps.filter fun x => x.2.any s.pieceUe
      let faults := late ++ ue.map fun x => (x.1, Cause.memoryUe, w.laneVa sp (w.laneOffset f x.1))
      let bypass := f.strong || ch == 2
      let soft := s.softMet k c.owner bypass (!bypass && ch != 1) (ps.flatMap (·.2))
      let r := s.readLanes k c.owner f ch ps
      let s := r.1
      let w' := s.withLoaded w f r.2
      let sp' := { w.spin with loads := w.spin.loads ++ (ps.zip r.2).flatMap fun (x, d) => spinLoads x.2 d.2 }
      let w1 := ({ s.refreshTreg w c.owner k sp with spin := sp' }.note (w.addrWords sp f ps)).note (w.writtenWords w' i)
      let s := if w.absent == 0 then s else s.draw
      let bad : Option Pending := if faults.isEmpty then none else some ⟨.memoryUe, true, w.pc, 0, []⟩
      ((s.fly cid wx w1 w' (destRun i) true bad .loadComplete).flySoft soft).deferLanes cid wx w.pc faults

/-- `LOAD_COMPLETE`: the data is in the destination. A load that met a fault leaves it empty (R235, R238). -/
def execLoadComplete (id : Nat) (s : State) : Host.Outcome State Fault Refusal :=
  .next <| match s.flights.find? fun fl => fl.id == id with
  | some fl =>
    let s := s.countSoft fl.soft
    if fl.ue.isSome then
      { s with flights := s.flights.filter fun x => x.id != id }.modWeave fl.cid fl.widx fun w => { w with outst := w.outst - 1 }
    else s.land fl
  | none => s

def execLd (f : MForm) (s : State) : Host.Outcome State Fault Refusal := s.load (.ld f) f (.global f.xb.val) f.ch.toNat
def execLds (f : MForm) (s : State) : Host.Outcome State Fault Refusal := s.load (.lds f) f .scratch 0
def execLdc (f : MForm) (s : State) : Host.Outcome State Fault Refusal := s.load (.ldc f) f .commons 0

/-! ## Stores (R331, R332) -/

/-- The bytes that a lane stores, or the granule that it leads. -/
def Weave.storeBytes (w : Weave) (f : MForm) (i : Nat) : List Byte :=
  if f.granular then
    let g := (w.read 0 f.hd.b).granule (i / 8)
    granuleMem (f.wid == 6) g.1 g.2
  else
    ((List.range (widRegs f.widN)).flatMap fun k =>
      bytesLE 4 ((w.read 0 (if kindOf f.hd.b == .zero || kindOf f.hd.b == .ones then f.hd.b else f.hd.b.plus k)).lane i).val.toNat).take
        (widBytes f.widN)

/-- The pieces of a store cover the n bytes from a place. -/
def covered (ps : List Piece) (l : Loc) (n : Nat) : Bool :=
  (List.range n).all fun i => ps.any fun p => match p.loc, l with
    | .hbm a, .hbm u => a ≤ u + i && u + i < a + p.len
    | .commons o d a, .commons o' d' u => o == o' && d == d' && a ≤ u + i && u + i < a + p.len
    | _, _ => false

/-- A piece of a store, of these pieces in all, lies in a word in error that the store does not cover whole, and is
dropped (R235). -/
def State.partialUe (s : State) (all : List Piece) (p : Piece) : Bool :=
  match p.loc with
  | .hbm pa => s.ueHbm.any fun u => pa < u + 32 && u < pa + p.len && !covered all (.hbm u) 32
  | .commons o d off => s.ueCommons.any fun u =>
      u.1 == o && u.2.1 == d && off < u.2.2 + 8 && u.2.2 < off + p.len && !covered all (.commons o d u.2.2) 8
  | .scratch .. => false

/-- A store that covers whole words in error rewrites them: they are in error no more (R235). -/
def State.healed (s : State) (all : List Piece) : State :=
  { s with ueHbm := s.ueHbm.filter fun u => !covered all (.hbm u) 32
           ueCommons := s.ueCommons.filter fun u => !covered all (.commons u.1 u.2.1 u.2.2) 8 }

/-- Log the pages of a write, or let the weave wait for room in the log (R163, R164). -/
def State.withLog (s : State) (cid wx owner core : Nat) (ps : List (Nat × List Piece)) (run : State → State) : State :=
  match s.logPages owner (dieOfCore core) (logsOf ps) with
  | (s, true) => run s
  | (s, false) => (s.modWeave cid wx fun w => { w with wait := .dirtyLog, tried := 0 }).postOnce (.dirtyLogFull owner)

/-- The issuing weave as it stands, with the woken flag that a write of the log ring may have set (R340). -/
def State.woke (s : State) (cid wx : Nat) (w : Weave) : Weave :=
  match s.weave? cid wx with
  | some x => { w with woken := x.woken }
  | none => w

/-- A store (R331): lanes in increasing order (R174). A store to bytes that a queued `LKA` has yet to read waits (R221). -/
def State.store (s : State) (i : Instr) (f : MForm) (sp : Space) : Host.Outcome State Fault Refusal :=
  s.issue i fun cid wx w =>
    let lanes := accessLanes f.granular (w.actors f.hd)
    if lanes.isEmpty then s.skip cid wx w
    else s.access cid wx w f sp ⟨widBytes f.widN, false, true, false⟩ lanes fun c k ps late =>
      if s.heldByLka c (ps.flatMap (·.2)) then s
      else s.withLog cid wx c.owner k ps fun s =>
        let bad := s.partialUe (ps.flatMap (·.2))
        let dropped := ps.filter fun x => x.2.any bad
        let faults := late ++ dropped.map fun x => (x.1, Cause.memoryUe, w.laneVa sp (w.laneOffset f x.1))
        let s := (s.putWeave cid wx ((s.refreshTreg (s.woke cid wx w) c.owner k sp).note (w.addrWords sp f ps)).next).healed
          ((ps.filter fun x => !x.2.any bad).flatMap (·.2))
        let s := ps.foldl (fun s x =>
          if x.2.any bad then s
          else x.2.foldl (fun s p => s.storeTouch k c.owner f.ch.toNat p) (s.storePieces k c.owner x.2 (w.storeBytes f x.1))) s
        s.deferLanes cid wx w.pc faults

def execSt (f : MForm) (s : State) : Host.Outcome State Fault Refusal := s.store (.st f) f (.global f.xb.val)
def execSts (f : MForm) (s : State) : Host.Outcome State Fault Refusal := s.store (.sts f) f .scratch
def execStc (f : MForm) (s : State) : Host.Outcome State Fault Refusal := s.store (.stc f) f .commons

/-! ## Atomics and bank operations (R333, R334) -/

/-- RNE of a 32-bit float sum, product or fused sum. -/
def rne32 (x : Fp) : Nat := fp32.round 0 false x

/-- Both elements of a pair added under RNE. -/
def pairAdd (m : Fmt) (x y : Nat) : Nat :=
  let el (a b : Nat) : Nat := m.round 0 false ((m.decode (a % 2 ^ 16)).add 0 (m.decode (b % 2 ^ 16)))
  el x y + 2 ^ 16 * el (x / 2 ^ 16) (y / 2 ^ 16)

/-- The new value of a location of n bits (R333). -/
def atomNew (atop n old b c : Nat) : Nat :=
  let fd := fp32.decode
  (match atop with
   | 0x01 => old + b
   | 0x02 => old &&& b
   | 0x03 => old ||| b
   | 0x04 => old ^^^ b
   | 0x05 => if signedOf n b < signedOf n old then b else old
   | 0x06 => if signedOf n old < signedOf n b then b else old
   | 0x07 => if b < old then b else old
   | 0x08 => if old < b then b else old
   | 0x09 => b
   | 0x0A => if old = b then c else old
   | 0x0B => rne32 ((fd old).add 0 (fd b))
   | 0x0C => fp32.minmax false old b
   | 0x0D => fp32.minmax true old b
   | 0x0E => pairAdd bf16 old b
   | 0x0F => pairAdd fp16 old b
   | 0x10 => rne32 (((fd b).mul (fd c)).add 0 (fd old))
   | 0x11 => rne32 (((fd old).mul (fd b)).add 0 (fd c))
   | _ => fp32.minmax false (fp32.minmax true old b) c) % 2 ^ n

/-- An operand's bytes in a lane. -/
def Weave.operandBytes (w : Weave) (o : Operand) (regs i : Nat) : List Byte :=
  let fixed := kindOf o == .zero || kindOf o == .ones || kindOf o == .none
  (List.range regs).flatMap fun k => bytesLE 4 ((w.read 0 (if fixed then o else o.plus k)).lane i).val.toNat

/-- The new bytes of a location: one operation, or four on 32-bit elements (R333). -/
def atomBytes (atop wid : Nat) (old b c : List Byte) : List Byte :=
  let one (n : Nat) (o x y : List Byte) : List Byte := bytesLE n (atomNew atop (8 * n) (natLE o) (natLE x) (natLE y))
  if wid = 4 then (List.range 4).flatMap fun k =>
    one 4 ((old.drop (4 * k)).take 4) ((b.drop (4 * k)).take 4) ((c.drop (4 * k)).take 4)
  else one (widBytes wid) old b c

/-- Perform the lanes' operations in increasing lane order: the old bytes by lane. The home is read and written past L1,
and the core's own copy of the line goes (R173, R334, log entry 22). -/
def State.atomLanes (s : State) (core owner : Nat) (w : Weave) (f : MForm) :
    List (Nat × List Piece) → State × List (Nat × List Byte)
  | [] => (s, [])
  | (i, ps) :: xs =>
    let n := widRegs f.widN
    let old := s.readPieces core owner true ps
    let new := atomBytes f.atop.toNat f.widN old (w.operandBytes f.hd.b n i) (w.operandBytes f.hd.c n i)
    let s := s.storePieces core owner ps new
    let s := ps.foldl (fun s p => match p.loc with
      | .hbm pa => s.l1Drop core fun l => l.covers owner pa
      | _ => s) s
    let r := s.atomLanes core owner w f xs
    (r.1, (i, old) :: r.2)

/-- An atomic or a bank operation (R334). -/
def State.atomic (s : State) (i : Instr) (f : MForm) (sp : Space) : Host.Outcome State Fault Refusal :=
  s.issue i fun cid wx w =>
    let ret := f.hd.d != .none
    let m := w.writers f.hd
    let lanes := maskLanes (w.actors f.hd)
    if m == 0 || (lanes.isEmpty && !ret) then s.skip cid wx w
    else if lanes.isEmpty then s.helperOnly i f cid wx w
    else if ret && 255 ≤ w.outst then s
    else s.access cid wx w f sp ⟨widBytes f.widN, true, true, true⟩ lanes fun c k ps late =>
      if s.heldByLka c (ps.flatMap (·.2)) then s
      else s.withLog cid wx c.owner k ps fun s =>
        let ue := ps.filter fun x => x.2.any s.pieceUe
        let faults := late ++ ue.map fun x => (x.1, Cause.memoryUe, w.laneVa sp (w.laneOffset f x.1))
        let so := f.strong || ps.any fun x => x.2.any fun p => p.kind == kindSo
        let s := if so then s.acquire k 4 else if f.acquires then s.acquire k f.scp.toNat else s
        let w1 := (s.refreshTreg w c.owner k sp).note (w.addrWords sp f ps)
        let s := s.countSoft (s.softMet k c.owner true false (ps.flatMap (·.2)))
        let r := s.atomLanes k c.owner w f (ps.filter fun x => !(x.2.any s.pieceUe))
        let w' := r.1.withLoaded w f r.2
        let w1 := r.1.woke cid wx w1
        let s := if w.absent == 0 || !ret then r.1 else r.1.draw
        let bad : Option Pending := if faults.isEmpty then none else some ⟨.memoryUe, true, w.pc, 0, []⟩
        let s := if ret then s.fly cid wx w1 w' (destRun i) true bad .loadComplete else s.putWeave cid wx w1.next
        s.deferLanes cid wx w.pc faults

def execAtom (f : MForm) (s : State) : Host.Outcome State Fault Refusal := s.atomic (.atom f) f (.global f.xb.val)
def execAtoms (f : MForm) (s : State) : Host.Outcome State Fault Refusal := s.atomic (.atoms f) f .scratch
def execAtomc (f : MForm) (s : State) : Host.Outcome State Fault Refusal := s.atomic (.atomc f) f .commons
def execBred (f : MForm) (s : State) : Host.Outcome State Fault Refusal := s.atomic (.bred f) f .commons
def execBupd (f : MForm) (s : State) : Host.Outcome State Fault Refusal := s.atomic (.bupd f) f .commons

end Sys2Proof.Machine
end

