-- ==== Sys2Proof/Machine/Signals.lean ====
section
/-! DEFINITION. Machine/Signals.lean: signals (R42 to R46), their wait tables, peers (R50), `SIGADD` and `SIGWT` (R345). -/

namespace Sys2Proof.Machine

/-! ## References and values -/

/-- The form of a reference: a remote one, or a 64-byte aligned VA (R43). -/
def refOk (ref : DWord) : Bool := ref.getLsbD 63 || (ref.toNat / 2 ^ 52 == 0 && ref.toNat % 64 == 0)

/-- The peer-table entry of a remote reference is set (R43). -/
def State.peerKnown (s : State) (owner : Nat) (ref : DWord) : Bool :=
  match s.tenant? owner with
  | some t => t.peers.any fun p => p.1 == bitsOf ref.toNat 52 11
  | none => false

/-- VALUE of a local signal as a wait table reads it; nothing when it observes the signal as aborted for want of a
readable page (R43). -/
def State.sigValue (s : State) (owner : Nat) (ref : DWord) : Option Int :=
  match s.devicePa owner ref.toNat false with
  | .ok pa => some (signedOf 64 (natLE (s.hbmBytes owner pa 8)))
  | .error _ => none

/-! ## Waiters (R45) -/

/-- The registrations of a packet or a weave are over. -/
def State.unregister (s : State) (who : Waiter) : State :=
  { s with waits := s.waits.filter fun r => r.who != who, remoteWaits := s.remoteWaits.filter fun r => r.who != who }

/-- A started packet's completion is on its way, once. -/
def State.finishPacket (s : State) (q idx : Nat) (err : Option Cause) (addr : DWord) : State :=
  match (s.queue? q).bind fun x => x.started.find? fun p => p.pkt.idx == idx with
  | none => s
  | some p =>
    if p.posted then s
    else
      let mark (p : Started) : Started := { p with posted := true }
      (s.modQueue q fun x => { x with started := updWhere x.started (fun p => p.pkt.idx == idx) mark }).post
        (.packetCompletion q idx err addr)

/-- A started packet sees one of its signals at zero. -/
def State.packetSaw (s : State) (q idx : Nat) (ref : DWord) : State :=
  let saw (p : Started) : Started := { p with need := p.need.filter (· != ref) }
  let s := s.modQueue q fun x => { x with started := updWhere x.started (fun p => p.pkt.idx == idx) saw }
  match (s.queue? q).bind fun x => x.started.find? fun p => p.pkt.idx == idx with
  | some p => if p.need.isEmpty then (s.unregister (.packet q idx)).finishPacket q idx none 0 else s
  | none => s

/-- A registered waiter learns a value of its signal; nothing stands for an aborted observation. -/
def State.inform (s : State) (r : WaitReg) (v : Option Int) : State :=
  let gone := match v with | some x => decide (x ≤ 0) | none => true
  if !gone then s
  else match r.who with
    | .packet q idx =>
      if v = some 0 then s.packetSaw q idx r.ref
      else (s.unregister r.who).finishPacket q idx (some .signalAborted) r.ref
    | .weave cid wx => match s.weave? cid wx with
      | some w =>
        if w.handler = some .halted || w.haltKept then s.postOnce (.debugResume cid wx)
        else if w.wait = .signal r.ref then
          ((s.unregister r.who).wake cid wx (some (v == some 0))).retryPlace cid
        else s
      | none => s
    | .peer => s

/-- A registered peer learns a value: after each operation, and when a re-read finds one that it was not told (R44, R50). -/
def State.tellPeer (s : State) (owner : Nat) (ref val : DWord) (op : Bool) : State :=
  let mine (r : WaitReg) : Bool := r.owner == owner && r.ref == ref && r.who == .peer
  if op || s.waits.any fun r => mine r && r.sent != val then
    { s with waits := updWhere s.waits mine fun r => { r with sent := val } }.say (.peerNotify owner ref val)
  else s

/-- Two local references of an owner name one signal: they are one VA, or two VAs of one place (R44). -/
def State.sameSignal (s : State) (owner : Nat) (a b : DWord) : Bool :=
  a == b || (!a.getLsbD 63 && !b.getLsbD 63 && match s.devicePa owner a.toNat false, s.devicePa owner b.toNat false with
    | .ok x, .ok y => x == y
    | _, _ => false)

/-- Re-examine the waiters of a local signal (R45, R50). -/
def State.examine (s : State) (owner : Nat) (ref : DWord) (op : Bool) : State :=
  (s.waits.filter fun r => r.owner == owner && s.sameSignal owner ref r.ref).foldl (fun s r =>
    let v := s.sigValue owner r.ref
    if r.who == .peer then s.tellPeer owner r.ref (BitVec.ofInt 64 (v.getD (-1))) op
    else s.inform r v) s

/-- The wait tables re-read within 10 µs while a signal is registered (R44). -/
def State.scheduleReread (s : State) : State :=
  if s.timers.any fun t => t.2 == .waitTableReread then s else s.after 10000 .waitTableReread

/-- Register a waiter on a local signal. -/
def State.register (s : State) (owner : Nat) (ref : DWord) (who : Waiter) : State :=
  { s with waits := s.waits ++ [WaitReg.mk owner ref who 0] }.scheduleReread

/-- Register a waiter on a remote signal: the peer answers with the value (R50). -/
def State.registerRemote (s : State) (owner : Nat) (ref : DWord) (who : Waiter) : State :=
  { s with remoteWaits := s.remoteWaits ++ [WaitReg.mk owner ref who 0] }.say (.peerRegister owner ref)

/-- `WAIT_TABLE_REREAD` (R44). -/
def execWaitTableReread (s : State) : Host.Outcome State Fault Refusal :=
  .next <|
    let s := (s.waits.map fun r => (r.owner, r.ref)).eraseDups.foldl (fun s x => s.examine x.1 x.2 false) s
    if s.waits.isEmpty then s else s.scheduleReread

/-! ## Operations (R44) -/

/-- VALUE and UFL after an operation, and whether it underflowed. -/
def SigOp.apply (op : SigOp) (value : Int) (ufl : Bool) : Int × Bool × Bool :=
  match op with
  | .add d =>
    if value < 0 then (value, ufl, false)
    else
      let n := value + d.toInt
      if n < 0 then (0, true, true) else if 2 ^ 63 - 1 < n then (2 ^ 63 - 1, ufl, false) else (n, ufl, false)
  | .set x => (x.toInt, ufl && x != 0, false)
  | .abort => if 0 ≤ value then (-1, ufl, false) else (value, ufl, false)

/-- Perform an operation at a signal's home bank, then re-examine its waiters. -/
def State.sigPerform (s : State) (owner : Nat) (op : SigOp) (ref : DWord) (pa : Nat) : State :=
  let value := signedOf 64 (natLE (s.hbmBytes owner pa 8))
  let flags := s.hbmByte owner (pa + 8)
  let r := SigOp.apply op value (flags.getLsbD 0)
  let s := if r.1 != value then s.locWrite owner (.hbm pa) (bytesLE 8 (wrapNat 64 r.1)) else s
  let s := if r.2.1 != flags.getLsbD 0 then s.locWrite owner (.hbm (pa + 8)) [flags ^^^ 1] else s
  let s := if r.2.2 then s.event owner { cls := .signal, cause := .signalUnderflow, src := paDie pa, addr := ref.toNat } else s
  s.examine owner ref true

/-- A signal operation of the device, a peer or a host's message: local, logged at its home die (R163), or sent to a peer. False
when it waits for room in the dirty-page log, behind those on the same signal that reached the home bank before it (R44, R164). -/
def State.sigOpFor (s : State) (owner : Nat) (op : SigOp) (ref : DWord) (m : Option Msg) : State × Bool :=
  if ref.getLsbD 63 then
    (if s.peerKnown owner ref then s.say (.peerOp owner op ref)
     else s.event owner { cls := .signal, cause := .peerUnset, addr := ref.toNat }, true)
  else if s.sigWait.any fun x => x.owner == owner && s.sameSignal owner ref x.ref then
    ({ s with sigWait := s.sigWait ++ [SigWait.mk owner op ref m] }, false)
  else match s.devicePa owner ref.toNat true with
    | .error c => (s.event owner { cls := .signal, cause := c, addr := ref.toNat }, true)
    | .ok pa =>
      let page := match s.walk owner ref.toNat with
        | .leaf l _ => [(ref.toNat / pageBytes l.size * pageBytes l.size, l.size)]
        | _ => []
      match s.logPages owner (paDie pa) page with
      | (s, true) => (s.sigPerform owner op ref pa, true)
      | (s, false) => ({ s with sigWait := s.sigWait ++ [SigWait.mk owner op ref m] }.postOnce (.dirtyLogFull owner), false)

/-- A signal operation that performs no host's message. -/
def State.sigOp (s : State) (owner : Nat) (op : SigOp) (ref : DWord) : State := (s.sigOpFor owner op ref none).1

/-! ## `SIGADD` and `SIGWT` (R345) -/

/-- A precise trap of a group instruction on one address, in every exec lane. -/
def State.groupTrap (s : State) (cid wx : Nat) (w : Weave) (c : Cause) (va : Nat) : State :=
  s.memTrap cid wx w c w.exec (laneList.map fun i => if w.exec.getLsbD i then BitVec.ofNat 64 va else 0)

/-- Translate a VA of a group instruction; walks and faults as for a global access. A fault found after issue is
deferred. -/
def State.groupAccess (s : State) (cid wx : Nat) (w : Weave) (a : Access) (va : Nat)
    (run : Crew → Nat → List Piece → State) : State :=
  match s.crew? cid with
  | none => s
  | some c => match c.core? with
    | none => s
    | some k => match s.probeVa w k c.owner a va with
      | .walk vpns => s.startWalks cid wx k c.owner (groupAsks w (vpns.map fun v => if va / 2 ^ 16 = v then va else v * 2 ^ 16))
      | .bad cause at_ => s.groupTrap cid wx w cause at_
      | .late cause => (s.putWeave cid wx w.next).deferTrap cid wx
          ⟨cause, true, w.pc, w.exec, laneList.map fun i => if w.exec.getLsbD i then BitVec.ofNat 64 va else 0⟩
      | .ok ps => run c k ps

/-- The owner of a crew. -/
def State.ownerOf (s : State) (cid : Nat) : Nat := ((s.crew? cid).map (·.owner)).getD 0

def execSigadd (f : MForm) (s : State) : Host.Outcome State Fault Refusal :=
  s.issue (.sigadd f) fun cid wx w =>
    let ref := w.wideG 0 false f.hd.a
    let delta := w.wideG 0 true f.hd.b
    if !w.qPass f.hd then s.skip cid wx w
    else if !refOk ref then s.groupTrap cid wx w .addrNoncanon ref.toNat
    else if ref.getLsbD 63 then (s.putWeave cid wx w.next).sigOp (s.ownerOf cid) (.add delta) ref
    else s.groupAccess cid wx w ⟨8, false, true, false⟩ ref.toNat fun c k ps =>
      let home := match ps with | p :: _ => paDie p.loc.off | [] => dieOfCore k
      s.withLog cid wx c.owner (64 * home) [(0, ps)] fun s =>
        match ps with
        | p :: _ => ((s.putWeave cid wx (s.woke cid wx w).next).sigPerform c.owner (.add delta) ref p.loc.off).dropPiece k c.owner p
        | [] => s.putWeave cid wx (s.woke cid wx w).next

/-- A `SIGWT` that is satisfied: an acquire at system scope (R182). Its read bypasses L1, and the core's copy of the
signal's line goes (R150, R173). -/
def State.sigwtDone (s : State) (cid wx : Nat) (w : Weave) (ref : DWord) : State :=
  let s := s.putWeave cid wx w.next
  match s.crew? cid with
  | none => s
  | some c => match c.core? with
    | none => s
    | some k =>
      let s := s.acquire k 5
      if ref.getLsbD 63 then s
      else match s.devicePa c.owner ref.toNat false with
        | .ok pa => s.l1Drop k fun l => l.covers c.owner pa
        | .error _ => s

def execSigwt (f : MForm) (s : State) : Host.Outcome State Fault Refusal :=
  s.issue (.sigwt f) fun cid wx w =>
    let ref := w.wideG 0 false f.hd.a
    if !w.qPass f.hd then s.skip cid wx w
    else match w.wakeRes with
      | some true => s.sigwtDone cid wx w ref
      | some false => s.trap cid wx w .signalAborted w.exec
      | none =>
        if !refOk ref then s.groupTrap cid wx w .addrNoncanon ref.toNat
        else if ref.getLsbD 63 then
          if s.peerKnown (s.ownerOf cid) ref then
            (s.registerRemote (s.ownerOf cid) ref (.weave cid wx)).waitOn cid wx (.signal ref)
          else s.trap cid wx w .signalAborted w.exec
        else s.groupAccess cid wx w ⟨8, true, false, false⟩ ref.toNat fun c k ps =>
          let v := signedOf 64 (natLE (s.readPieces k c.owner true ps))
          if v = 0 then s.sigwtDone cid wx w ref
          else if v < 0 then s.trap cid wx w .signalAborted w.exec
          else (s.register c.owner ref (.weave cid wx)).waitOn cid wx (.signal ref)

/-! ## Peers (R50, R51) -/

/-- The next peer message of one kind leaves the port. -/
def takeFirst {α : Type} (p : α → Bool) : List α → Option (α × List α)
  | [] => none
  | x :: xs => if p x then some (x, xs) else (takeFirst p xs).map fun r => (r.1, x :: r.2)

/-- An owner's tenant has moved to another device: what peers send for it is relayed (R51). -/
def State.migratedAway (s : State) (owner : Nat) : Bool :=
  match s.tenant? owner with
  | some t => t.migrated
  | none => false

def PeerMsg.owner : PeerMsg → Nat
  | .sigop o _ _ | .notify o _ _ _ | .register o _ => o

/-- `REMOTE_SIGNAL_OPERATION`: the next peer's operation on a local signal. -/
def execRemoteSignalOperation (s : State) : Host.Outcome State Fault Refusal :=
  .next <| match takeFirst (fun m => match m with | .sigop .. => true | _ => false) s.peerIn with
  | some (.sigop owner op ref, rest) =>
    let s := { s with peerIn := rest }
    if s.migratedAway owner then s.say (.relay owner (.sigop owner op ref))
    else if ref.getLsbD 63 || !refOk ref then s
    else s.sigOp owner op ref
  | _ => s

/-- `SIGNAL_NOTIFICATION`: a remote signal's waiters learn its value. One that a migration's source forwards waits until the
tenant goes on here, and then only causes a re-read (R51). -/
def execSignalNotification (s : State) : Host.Outcome State Fault Refusal :=
  .next <| match takeFirst (fun m => match m with | .notify .. => true | _ => false) s.peerIn with
  | some (.notify owner ref val forwarded, rest) =>
    let mine := s.remoteWaits.any fun r => r.owner == owner && r.ref == ref
    if forwarded && !s.migratedAway owner && !s.tenantRuns owner then
      { s with peerIn := rest ++ [PeerMsg.notify owner ref val true] }.post .signalNotification
    else
    let s := { s with peerIn := rest }
    if s.migratedAway owner then s.say (.relay owner (.notify owner ref val true))
    else if forwarded then (if mine then s.say (.peerRegister owner ref) else s)
    else (s.remoteWaits.filter fun r => r.owner == owner && r.ref == ref).foldl (fun s r => s.inform r (some val.toInt)) s
  | _ => s

/-- `REMOTE_WAIT_REGISTRATION`: a peer registers on a local signal and reads its value. -/
def execRemoteWaitRegistration (s : State) : Host.Outcome State Fault Refusal :=
  .next <| match takeFirst (fun m => match m with | .register .. => true | _ => false) s.peerIn with
  | some (.register owner ref, rest) =>
    let v : DWord := BitVec.ofInt 64 ((s.sigValue owner ref).getD (-1))
    { s with peerIn := rest, waits := s.waits ++ [WaitReg.mk owner ref .peer v] }.scheduleReread.say (.peerValue owner ref v)
  | _ => s

/-- `MIGRATION_RELAY`: the next peer message of a migrated tenant goes on to the destination, in arrival order. -/
def execMigrationRelay (s : State) : Host.Outcome State Fault Refusal :=
  .next <| match takeFirst (fun m => s.migratedAway (PeerMsg.owner m)) s.peerIn with
  | some (m, rest) =>
    let m := match m with | .notify o ref v _ => PeerMsg.notify o ref v true | m => m
    { s with peerIn := rest }.say (.relay (PeerMsg.owner m) m)
  | none => s

end Sys2Proof.Machine
end

