-- ==== Sys2Proof/Machine/Sync.lean ====
section
/-! DEFINITION. Machine/Sync.lean: prefetch, `XLB`, cache control, fences, code visibility, watching and waiting
(R335 to R341), and the events of walks, UN lines and deferred traps (R150, R156, R225). -/

namespace Sys2Proof.Machine

/-! ## Address translation (R336) -/

/-- What `XLB` writes, every field, for the signature of R107. -/
def TReg.words (t : TReg) : List Word :=
  let flags : BitVec 6 := BitVec.ofBool t.watch ++ t.kind ++ BitVec.ofBool t.bw ++ BitVec.ofBool t.br ++ BitVec.ofBool t.bv
  [t.vabase.setWidth 32, (t.vabase >>> 32).setWidth 32, t.pabase.setWidth 32, (t.pabase >>> 32).setWidth 32,
   t.tgen.setWidth 32, t.limit, flags.setWidth 32]

def execXlb (f : MForm) (s : State) : Host.Outcome State Fault Refusal :=
  s.issue (.xlb f) fun cid wx w =>
    let x := w.wideG 0 false f.hd.a
    if !w.qPass f.hd then s.skip cid wx w
    else if x.toNat / 2 ^ 52 != 0 then s.groupTrap cid wx w .addrNoncanon x.toNat
    else match s.crew? cid with
      | none => s
      | some c => match c.core? with
        | none => s
        | some k =>
          let put (l : Option Leaf) : State :=
            let t := tregOf s c.owner (dieOfCore k) x.toNat l
            s.putWeave cid wx ({ w with b := modNth w.b f.xb.val fun _ => t }.note (TReg.words t)).next
          match s.xlate w k c.owner x.toNat with
          | .hit l => put (some l)
          | .miss => put none
          | .walk => s.startWalks cid wx k c.owner (groupAsks w [x.toNat])

/-- The physical addresses of the entries that a walk of an owner reads. -/
def walkReads (s : State) (owner part va : Nat) : Nat → Nat → Nat → List Nat
  | 0, _, _ => []
  | fuel + 1, level, table =>
    let at_ := table + 8 * walkIndex level va
    let e : DWord := BitVec.ofNat 64 (natLE (s.hbmBytes owner at_ 8))
    if !e.getLsbD 0 || entryMalformed s part level e || e.getLsbD 1 then [at_]
    else at_ :: walkReads s owner part va fuel (level + 1) (bitsOf e.toNat 8 40 * 256)

/-- The first entry of a walk that lies in a word in error (R235). -/
def State.walkUe (s : State) (owner va : Nat) : Option Nat :=
  match s.tenant? owner with
  | some t => (walkReads s owner t.part va 4 0 t.root).find? fun a => s.hbmUe a 8
  | none => none

/-- Put a leaf into the TLBs: a die's last level and the core TLBs of some cores. -/
def State.tlbFill (s : State) (d owner va : Nat) (l : Leaf) (cores : List Nat) : State :=
  let s := (s.draw).modDie d fun x => { x with tlb := tlbInsert x.tlb Config.dieTlb owner va l (Config.freePick s.fresh) }
  cores.foldl (fun s k =>
    (s.draw).modCore k fun x => { x with tlb := tlbInsert x.tlb Config.coreTlb owner va l (Config.freePick s.fresh) }) s

/-- What makes a walk fail: an entry in error (R235), or at an unpopulated address (R17). -/
def State.walkFault (s : State) (owner va : Nat) : Option Cause :=
  if (s.walkUe owner va).isSome then some .memoryUe
  else match s.walk owner va with
    | .unbacked => some .paUnbacked
    | _ => none

/-- The deferred trap of a weave whose walk fails: the lanes that asked for the page, with their VAs (R227). -/
def State.walkTrap (s : State) (owner : Nat) (w : Weave) (cause : Cause) (vpn : Nat) : Pending :=
  let mine := w.asks.filter fun x => s.walkKey owner x.2 == vpn
  ⟨cause, true, w.pc, maskOf fun i => mine.any fun x => x.1 == i,
   laneList.map fun i => match mine.find? fun x => x.1 == i with
     | some x => BitVec.ofNat 64 x.2
     | none => 0⟩

/-- A walk for a translation register's own page has ended: the register is refreshed if it is still behind, for that page, on
that die (R155). -/
def State.freshReg (s : State) (d owner vpn cid wx xb : Nat) (l : Option Leaf) : State :=
  let stale (t : TReg) : Bool := t.tgen.toNat != s.gen owner d % 2 ^ 16 && s.walkKey owner t.vabase.toNat == vpn
  let fresh (t : TReg) : TReg := if stale t then tregOf s owner d t.vabase.toNat l else t
  if ((s.crew? cid).bind Crew.core?).map dieOfCore = some d then s.modWeave cid wx fun w => { w with b := modNth w.b xb fresh } else s

/-- Fill L1 with the line of an address, as a read miss under `ch` would; an SO page is passed over (R335). A line that is
read from HBM meets its soft errors (R18). -/
def State.fillLine (s : State) (core owner pa kind ch : Nat) : State :=
  if ch = 1 || kind = kindSo then s
  else
    let held := (s.core core).l1.any fun l => l.covers owner pa
    let a := pa / 64 * 64
    let s := if held then s else s.countSoft (s.softAt [.hbm a, .hbm (a + 32)])
    s.l1Fill core owner pa kind (ch == 3)

/-- The same for a VA on a leaf; a page that cannot be read, an unpopulated frame and one of another partition are passed
over. -/
def State.prefetchLine (s : State) (core owner va ch : Nat) (l : Leaf) : State :=
  match s.tenant? owner with
  | some t =>
    let pa := leafPa l t.shadow va false
    if l.r && paBacked pa && s.partOf (paDie pa) == t.part then s.fillLine core owner pa l.kind ch else s
  | none => s

/-- Prefetches that waited for a walk take their lines. -/
def State.prefetched (s : State) (owner : Nat) (l : Option Leaf) (fills : List (Nat × Nat × Nat)) : State :=
  match l with
  | some l => fills.foldl (fun s x => s.prefetchLine x.1 owner x.2.1 x.2.2 l) s
  | none => s

/-- `PAGE_WALK_COMPLETE`: the walk's finding reaches the TLBs and the weaves that wait for it. A walk over a valid leaf
sets A; one that meets an error makes its weaves take deferred `MEMORY_UE` (R156, R235). -/
def execPageWalkComplete (d owner vpn : Nat) (s : State) : Host.Outcome State Fault Refusal :=
  .next <| match (s.die d).walks.find? fun k => k.owner == owner && k.vpn == vpn with
  | none => s
  | some k =>
    let va := vpn * 2 ^ 16
    let gone (x : Walk) : Bool := x.owner == owner && x.vpn == vpn
    let s := s.modDie d fun x => { x with walks := x.walks.filter fun y => !gone y }
    let reads := match s.tenant? owner with | some t => walkReads s owner t.part va 4 0 t.root | none => []
    let s := s.countSoft (s.softAt (reads.map Loc.hbm))
    match s.walkFault owner va with
    | some cause =>
      k.waiters.foldl (fun s x => match s.weave? x.1 x.2 with
        | some w => (s.modWeave x.1 x.2 fun w => { w with wait := .none }).deferTrap x.1 x.2 (s.walkTrap owner w cause vpn)
        | none => s) s
    | none =>
      let cores := (k.waiters.filterMap fun x => (s.crew? x.1).bind Crew.core?).eraseDups
      let r : State × Option Leaf := match s.walk owner va with
        | .leaf l pa =>
          let s := s.setUsed owner pa
          (s.tlbFill d owner va l cores, some l)
        | _ => (s, none)
      let s := k.waiters.foldl (fun s x => s.modWeave x.1 x.2 fun w => match w.wait with
        | .walk vs =>
          let left := vs.filter (· != vpn)
          { w with walked := w.walked ++ [(vpn, r.2)], wait := if left.isEmpty then .none else .walk left }
        | _ => w) r.1
      (k.regs.foldl (fun s x => s.freshReg d owner vpn x.1 x.2.1 x.2.2 r.2) s).prefetched owner r.2 k.fills

/-! ## Prefetch and cache control (R335, R337) -/

/-- `PFT`: a global access through bN (R144, R155) that raises no fault. Misses wait for free walkers (R156). -/
def execPft (f : MForm) (s : State) : Host.Outcome State Fault Refusal :=
  s.issue (.pft f) fun cid wx w =>
    let sp := Space.global f.xb.val
    match s.crew? cid with
    | none => s
    | some c => match c.core? with
      | none => s
      | some k =>
        let lanes := (maskLanes (w.actors f.hd)).map fun i =>
          (w.laneVa sp (w.laneOffset f i), s.probe c w k sp ⟨1, true, false, false⟩ (w.laneOffset f i))
        let misses := lanes.filterMap fun x => match x.2 with | .walk _ => some x.1 | _ => none
        let fresh := (s.behindVa w c.owner k sp).toList
        if lanes.isEmpty then s.skip cid wx w
        else if !s.walkersFree (dieOfCore k) c.owner (misses ++ fresh) then s
        else
          let s1 := s.skip cid wx (s.refreshTreg w c.owner k sp)
          (lanes.foldl (fun s x => match x.2 with
            | .ok ps => ps.foldl (fun s p => s.fillLine k c.owner p.loc.off p.kind f.ch.toNat) s
            | .walk _ => s.sideWalk (dieOfCore k) c.owner x.1 [(k, x.1, f.ch.toNat)] []
            | _ => s) s1).refreshWalk cid wx w c.owner k sp

/-- The VA that a group instruction names: VABASE + G[A] + DISP32. -/
def Weave.groupVa (w : Weave) (f : MForm) : Nat :=
  w.laneVa (.global f.xb.val) ((w.readG 0 f.hd.a).toNat + f.disp.toInt)

def execCctl (f : MForm) (s : State) : Host.Outcome State Fault Refusal :=
  s.issue (.cctl f) fun cid wx w =>
    let s1 := s.skip cid wx w
    if !w.qPass f.hd then s1
    else match s.crew? cid with
      | none => s
      | some c => match c.core? with
        | none => s
        | some k =>
          if f.ch == 2 then s1.l1Drop k fun _ => true
          else if f.ch == 1 then s1.l1Drop k fun l => l.kind == 0
          else
            let va := w.groupVa f
            match s.tenant? c.owner, s.xlate w k c.owner va with
            | some t, .hit l => s1.l1Drop k fun x => x.covers c.owner (leafPa l t.shadow va false)
            | _, .walk => s.startWalks cid wx k c.owner (groupAsks w [va])
            | _, _ => s1

/-- `UN_LINE_EXPIRY`: a UN line has been in L1 for 4 µs (R150). -/
def execUnLineExpiry (core line : Nat) (s : State) : Host.Outcome State Fault Refusal :=
  .next (s.l1Drop core fun l => l.line == line && l.kind == kindUn && l.filled + 4000 ≤ s.now)

/-! ## Fences and code (R338, R339) -/

/-- A fence completes when the weave's loads are bound; its stores are performed when they issue (log entry 12). -/
def execFence (f : MForm) (s : State) : Host.Outcome State Fault Refusal :=
  s.issue (.fence f) fun cid wx w =>
    if !w.acts f.hd then s.skip cid wx w
    else if w.outst != 0 then s
    else
      let s1 := s.skip cid wx w
      match (s.crew? cid).bind Crew.core? with
      | none => s
      | some k =>
        let s1 := s1.acquire k f.scp.toNat
        if f.wid == 1 then s1.l1Drop k fun l => l.kind == kindUn else s1

def execIfence (f : MForm) (s : State) : Host.Outcome State Fault Refusal :=
  s.issue (.ifence f) fun cid wx w =>
    if w.acts f.hd then s.putWeave cid wx { w.next with fline := none, fbytes := [] } else s.skip cid wx w

/-- The VA line meets [va, va + n), addresses modulo 2^52. -/
def lineMeets (line va n : Nat) : Bool :=
  n != 0 && ((line * 64 + 2 ^ 52 - va) % 2 ^ 52 < n || (va + 2 ^ 52 - line * 64) % 2 ^ 52 < 64)

def execIflush (f : MForm) (s : State) : Host.Outcome State Fault Refusal :=
  s.issue (.iflush f) fun cid wx w =>
    let s1 := s.skip cid wx w
    if !w.qPass f.hd then s1
    else match s.crew? cid with
      | none => s
      | some c => match s.tenant? c.owner with
        | none => s1
        | some t =>
          let va := w.groupVa f
          let n := (w.readG 0 f.hd.b).toNat
          (s.partDies t.part).foldl (fun s d => (List.range 64).foldl (fun s i =>
            s.modCore (64 * d + i) fun k =>
              { k with icache := k.icache.filter fun l => !(l.owner == c.owner && lineMeets l.line va n) }) s) s1

/-! ## Watching (R340, R341) -/

/-- Add lines to a weave's watch set; `none` is an unwatchable line, which leaves the whole set unwatched. -/
def State.watchLines (s : State) (cid wx : Nat) : List (Option WLine) → State
  | [] => s
  | l :: ls =>
    match s.weave? cid wx with
    | none => s
    | some w =>
      let lose (s : State) : State :=
        (s.disarm cid wx).modWeave cid wx fun w => { w with watch := [], unwatched := true }
      if w.unwatched then s
      else match l with
        | none => lose s
        | some x =>
          if w.watch.contains x then s.watchLines cid wx ls
          else if 4 ≤ w.watch.length || s.pointFull x then lose s
          else ((s.arm cid wx x).modWeave cid wx fun w => { w with watch := w.watch ++ [x] }).watchLines cid wx ls

/-- The space that WID names. -/
def MForm.space (f : MForm) : Space :=
  match f.wid.toNat with
  | 0 => .global f.xb.val
  | 1 => .scratch
  | _ => .commons

def execWatch (f : MForm) (s : State) : Host.Outcome State Fault Refusal :=
  s.issue (.watch f) fun cid wx w =>
    let lanes := maskLanes (w.actors f.hd)
    let sp := MForm.space f
    if lanes.isEmpty then s.skip cid wx w
    else s.access cid wx w f sp ⟨1, true, false, false⟩ lanes fun c k ps late =>
      let lines := (ps.flatMap fun x => x.2.map fun p => if p.watch && !p.shadow then some p.loc.line else none).eraseDups
      let s := s.putWeave cid wx (s.refreshTreg w c.owner k sp).next
      let s := ps.foldl (fun s x => x.2.foldl (fun s p => s.dropPiece k c.owner p) s) s
      (s.watchLines cid wx lines).deferLanes cid wx w.pc late

def execUnwch (f : MForm) (s : State) : Host.Outcome State Fault Refusal :=
  s.issue (.unwch f) fun cid wx w =>
    let s1 := s.skip cid wx w
    if w.acts f.hd then s1.clearWatch cid wx else s1

/-- `WAITA` returns r. -/
def State.waitaDone (s : State) (cid wx : Nat) (w : Weave) (f : MForm) (r : Bool) : State :=
  let w' := w.putP f.hd.d (w.writers f.hd) (if r then BitVec.allOnes 32 else 0)
  (s.putWeave cid wx (w'.note (w.writtenWords w' (.waita f))).next).clearWatch cid wx

def execWaita (f : MForm) (s : State) : Host.Outcome State Fault Refusal :=
  s.issue (.waita f) fun cid wx w =>
    if !w.uniform f.hd then s.skip cid wx w
    else if w.watch.isEmpty && !w.unwatched then s.waitaDone cid wx w f false
    else if w.woken then s.waitaDone cid wx w f true
    else match w.wakeRes with
      | some r => s.waitaDone cid wx w f r
      | none =>
        let s := s.waitOn cid wx .waita
        let stamp := s.ids
        let q := s.mgmt.quant * 1000
        let s := if f.disp == 0 then s else s.after (f.disp.toNat * 1000) (.waitaTimeout cid wx stamp)
        if w.unwatched then s.after q (.quantExpiry cid wx stamp) else s.after (64 * q) (.watchedTimeout cid wx stamp)

/-! ## Deferred traps (R225) -/

/-- `DEFERRED_TRAP`: the weave stands at an instruction boundary and takes its pending trap. -/
def execDeferredTrap (cid wx : Nat) (s : State) : Host.Outcome State Fault Refusal :=
  .next <| match (s.crew? cid).bind Crew.core? with
  | some _ => s.takePending cid wx
  | none => s

end Sys2Proof.Machine
end

