-- ==== Sys2Proof/Machine/Barriers.lean ====
section
/-! DEFINITION. Machine/Barriers.lean: the barrier instructions (R342 to R344) and the Barrier Directory's events (R104,
R105). -/

namespace Sys2Proof.Machine

/-! ## Generations (R343) -/

/-- K(s, n): the generation that a weave's crew last learned of. -/
def Crew.known (c : Crew) (scp n : Nat) : Word := if scp = 1 then (nthD c.cbars n (CBar.start 0)).gen else c.kOf scp n

/-- a(s, n): a weave's arrival generation. -/
def Crew.arrival (c : Crew) (wx scp n : Nat) : Option Word :=
  if scp = 1 then (c.weaves[wx]?).bind fun w => nthD w.carr n none
  else if (c.pendOf scp n).getLsbD wx then some (c.kOf scp n)
  else c.mOf scp n

/-- A crew that may not use a barrier of this scope (R101). -/
def Crew.barred (c : Crew) (scp : Nat) : Bool := (scp == 2 && (c.cont || !c.inGang)) || (scp == 4 && c.cont)

/-- WDIES and ABSW of every record: the dies with a resident waiter, and the stashed crews that wait on it (R103). -/
def State.syncWaiters (s : State) : State :=
  let waitsOn (c : Crew) (r : BdirRec) (w : Weave) : Bool := match w.wait with
    | .barrier scp n g => scp != 1 && g == r.gen && s.bdirNum? c scp n == some r.num
    | _ => false
  let users (r : BdirRec) : List Crew := s.crews.filter fun c => c.weaves.any (waitsOn c r)
  let dies (r : BdirRec) : BitVec 4 := (users r).foldl (fun m c => match c.core? with
    | some k => m ||| BitVec.twoPow 4 (dieOfCore k)
    | none => m) 0
  let away (r : BdirRec) : Nat := ((users r).filter fun c => match c.place with | .stashed .. => true | _ => false).length
  { s with bdir := s.bdir.map fun (r : BdirRec) => { r with wdies := dies r, absw := away r } }

/-- A crew takes K from the record (R343). -/
def State.refreshK (s : State) (cid scp n : Nat) : State :=
  match (s.crew? cid).bind fun c => (s.bdirNum? c scp n).bind s.bdir? with
  | some r => s.modCrew cid fun c => c.setK scp n r.gen
  | none => s

/-- The weave's bit is not yet set and its arrival generation is K: `BARA` first reads the record. -/
def Crew.mustRefresh (c : Crew) (wx scp n : Nat) : Bool :=
  scp != 1 && !(c.pendOf scp n).getLsbD wx && c.mOf scp n == some (c.kOf scp n)

/-! ## Arriving and waiting -/

/-- The arrival of a weave that has moved past its instruction. -/
def State.arrive (s : State) (cid wx scp n : Nat) : State :=
  match s.crew? cid with
  | none => s
  | some c =>
    if scp = 1 then
      let g := c.known 1 n
      (s.modWeave cid wx fun w => { w with carr := modNth w.carr n fun _ => some g }).cbarArrive cid n
    else
      let bits := c.pendOf scp n ||| BitVec.twoPow 32 wx
      (s.modCrew cid fun c => c.setPend scp n bits).crewArrive cid scp n

/-- A weave that has moved past its instruction waits until the generation it arrived in is over; an acquire (R181). -/
def State.barWait (s : State) (cid wx scp n : Nat) : State :=
  match s.crew? cid with
  | none => s
  | some c =>
    let g := c.known scp n
    if c.arrival wx scp n == some g then (s.waitOn cid wx (.barrier scp n g)).syncWaiters
    else match c.core? with
      | some k => if scp = 1 then s else s.acquire k scp
      | none => s

/-- `BARA`, `BARW` and `BARAW`. -/
def State.barrier (s : State) (i : Instr) (f : MForm) (arrives waits : Bool) : Host.Outcome State Fault Refusal :=
  s.issue i fun cid wx w =>
    let scp := f.scp.toNat
    let n := f.disp.toNat
    if !w.uniform f.hd then s.skip cid wx w
    else match s.crew? cid with
      | none => s
      | some c =>
        if c.barred scp then s.trap cid wx w .barrierScope w.exec
        else
          let s := if arrives && c.mustRefresh wx scp n then s.refreshK cid scp n else s
          let again := match s.crew? cid with
            | some c => c.arrival wx scp n == some (c.known scp n)
            | none => false
          if arrives && again then s.trap cid wx w .barrierRearrive w.exec
          else
            let s := s.putWeave cid wx w.next
            let s := if arrives then s.arrive cid wx scp n else s
            if waits then s.barWait cid wx scp n else s

def execBara (f : MForm) (s : State) : Host.Outcome State Fault Refusal := s.barrier (.bara f) f true false
def execBarw (f : MForm) (s : State) : Host.Outcome State Fault Refusal := s.barrier (.barw f) f false true
def execBaraw (f : MForm) (s : State) : Host.Outcome State Fault Refusal := s.barrier (.baraw f) f true true

/-- GEN and ARRIVED, saturated to 32 bits. -/
def barWords (gen : Word) (arrived : Nat) : List Word := [gen, BitVec.ofNat 32 (min arrived (2 ^ 32 - 1))]

def execBarq (f : MForm) (s : State) : Host.Outcome State Fault Refusal :=
  s.issue (.barq f) fun cid wx w =>
    let scp := f.scp.toNat
    let n := f.disp.toNat
    if !w.qPass f.hd then s.skip cid wx w
    else match s.crew? cid with
      | none => s
      | some c =>
        if c.barred scp then s.trap cid wx w .barrierScope w.exec
        else if scp = 1 then
          let b := nthD c.cbars n (CBar.start 0)
          let xs := barWords b.gen b.arrived
          s.putWeave cid wx ((w.putGRun f.hd.d xs).note xs).next
        else if 255 ≤ w.outst then s
        else
          let xs := match (s.bdirNum? c scp n).bind s.bdir? with
            | some r => barWords r.gen r.arrived
            | none => [0, 0]
          s.fly cid wx (w.note xs) (w.putGRun f.hd.d xs) (destRun (.barq f)) true none .loadComplete

/-! ## Directory events (R104, R105) -/

/-- `BDIR_ARRIVE`: a second arrival in the generation traps in the arriving weaves. -/
def execBdirArrive (num cid : Nat) (mine : Option Word) (s : State) : Host.Outcome State Fault Refusal :=
  .next <| match s.bdir? num with
  | none => s
  | some r =>
    if mine = some r.gen then match s.crew? cid with
      | some c => (List.range c.weaves.length).foldl (fun s j => match s.weave? cid j with
          | some w => if w.done then s else s.trap cid j w .barrierRearrive w.exec
          | none => s) s
      | none => s
    else s.bdirArriveOp num

/-- `BDIR_EXIT`. -/
def execBdirExit (num : Nat) (x : Leave) (s : State) : Host.Outcome State Fault Refusal :=
  .next (s.bdirExitOp num x.mine)

/-- `GENERATION_NOTICE`: the crews of the die learn the generation and the waiters of earlier ones go on; a stashed one
becomes runnable (R105, R111). Going on is an acquire (R181). -/
def execGenerationNotice (num : Nat) (gen : Word) (d : Nat) (s : State) : Host.Outcome State Fault Refusal :=
  .next <| match s.bdir? num with
  | none => s
  | some r =>
    let scp := if r.scope = 1 then 2 else 4
    let users := s.crews.filter fun c => c.die == d && s.bdirNum? c scp r.index == some num
    (users.foldl (fun s c =>
      let k := if (gen - c.kOf scp r.index).toNat < 2 ^ 31 then gen else c.kOf scp r.index
      let s := s.modCrew c.cid fun c => c.setK scp r.index k
      let waiting (w : Weave) : Bool := match w.wait with
        | .barrier x n g => x == scp && n == r.index && g != k
        | _ => false
      if c.weaves.any waiting then
        let s := match c.core? with | some k => s.acquire k scp | none => s
        ((List.range c.weaves.length).foldl (fun s j => match s.weave? c.cid j with
          | some w => if waiting w then s.wake c.cid j none else s
          | none => s) s).retryPlace c.cid
      else s) s).syncWaiters

/-- A barrier wait that `TRET` or a restore takes up again ends at once if its generation is over (R374, log entry 24). -/
def State.recheckBarrier (s : State) (cid wx : Nat) : State :=
  match s.crew? cid, s.weave? cid wx with
  | some c, some w => match w.wait with
    | .barrier scp n g =>
      if c.known scp n != g then
        let s := match c.core? with | some k => s.acquire k scp | none => s
        s.wake cid wx none
      else s
    | _ => s
  | _, _ => s

end Sys2Proof.Machine
end

