-- ==== Sys2Proof/Machine/Accord.lean ====
section
/-! DEFINITION. Machine/Accord.lean: the AT block (R348, R349), `LKA` and the tile instructions (R350 to R352), and the
events of a core's Accord queue (R213, R217, R219 to R223). A handle's state and contents are kept as the queue will
leave them; a tile's contents change when its operations retire. -/

namespace Sys2Proof.Machine

/-! ## Shared -/

/-- The leading lane: the lowest exec lane whose guard passes (R347). -/
def Weave.leading (w : Weave) (h : Head) : Nat := (lowestLane (w.actors h)).getD 0

/-- A scalar operand, read in the leading lane (R347). -/
def Weave.scalar (w : Weave) (f : EForm) (o : Operand) : Word :=
  if f.hd.grp then w.readG f.imm o else ((w.read f.imm o).lane (w.leading f.hd)).val

def State.modTable (s : State) (cid th : Nat) (f : Tbl → Tbl) : State :=
  s.modCrew cid fun c => { c with tables := modNth c.tables th f }
def State.modTile (s : State) (cid a : Nat) (f : Tile → Tile) : State :=
  s.modCrew cid fun c => { c with tiles := modNth c.tiles a f }
def Crew.table (c : Crew) (th : Nat) : Tbl := nthD c.tables th Tbl.unbound
def Crew.tile (c : Crew) (a : Nat) : Tile := nthD c.tiles a ⟨false, []⟩

/-- The elements of a tile, +0.0 where nothing is bound. -/
def Tile.elems (t : Tile) : List Word := if t.data.isEmpty then tileZero else t.data

/-- The queue has no room (R220). -/
def State.accFull (s : State) (core : Nat) : Bool := Config.accordDepth ≤ (s.core core).accq.length

/-- Enter an operation in a core's Accord queue. -/
def State.enqueue (s : State) (core : Nat) (op : AccOp) (ev : Instr) : State :=
  (s.modCore core fun k => { k with accq := k.accq ++ [op] }).post ev

/-- A queued `LKA` names the handle: a later table operation on it waits (R349). -/
def State.lkaNames (s : State) (core cid th : Nat) : Bool :=
  (s.core core).accq.any fun op => match op with
    | .lka c _ _ _ _ t _ _ _ => c == cid && t == th
    | _ => false

/-- Register writes of the weave's own are still to come (R214). -/
def State.ownWrites (s : State) (cid wx : Nat) : Bool :=
  s.flights.any fun fl => fl.cid == cid && fl.widx == wx && !fl.regs.isEmpty

/-- Every byte lies in the scratch window. -/
def State.inWindow (s : State) (c : Crew) (off n : Nat) : Bool := off + n ≤ ((s.windows c).map Crew.window).sum

/-- Scratch bytes as a crew addresses them. -/
def State.scratchRead (s : State) (c : Crew) (off n : Nat) : List Byte :=
  s.readPieces 0 c.owner true (s.scratchPieces c.cid off n)

/-- Write scratch bytes as a crew addresses them. -/
def State.scratchWrite (s : State) (c : Crew) (off : Nat) (bs : List Byte) : State :=
  s.storePieces 0 c.owner (s.scratchPieces c.cid off bs.length) bs

/-- The vote on a format word (R209): the voting lanes' common word, if they agree. -/
def Weave.vote (w : Weave) (f : EForm) : Option Word :=
  let x := w.scalar f f.hd.b
  if (maskLanes (w.actors f.hd)).all fun i => ((w.read f.imm f.hd.b).lane i).val == x then some x else none

/-- Run an Accord instruction that acts, on its crew and core. -/
def State.accord (s : State) (i : Instr) (f : EForm) (run : Nat → Nat → Weave → Crew → Nat → State) :
    Host.Outcome State Fault Refusal :=
  s.issue i fun cid wx w =>
    if !w.acts f.hd then s.skip cid wx w
    else match s.crew? cid with
      | none => s
      | some c => match c.core? with
        | none => s
        | some k => run cid wx w c k

/-- KiB that the crew's other sets count against TBLKB (R207). -/
def Crew.otherKib (c : Crew) (th : Nat) : Nat :=
  ((c.tables.zip (List.range 16)).map fun (t, i) => if i = th then 0 else t.counted).sum

/-! ## Building (R210, R211, R348) -/

/-- The granules of a binding. -/
def State.bindingGranule (s : State) (c : Crew) (src : Binding) (afmt kg : Nat) : Nat → List Nat × Nat :=
  match src with
  | .regs wx base => match c.weaves[wx]? with
    | some w => fun n => w.granuleAt base n
    | none => fun _ => ([], 0)
  | .scratch off =>
    let bs := s.scratchRead c off (16 * (kg + 1) * granuleBytes afmt)
    fun n => granuleInBytes afmt bs n

/-- A set built from a binding under a format word. -/
def State.buildSet (s : State) (c : Crew) (src : Binding) (fw : Word) : Tbl :=
  let rows := buildRows (fwAfmt fw) (fwKg fw) (s.bindingGranule c src (fwAfmt fw) (fwKg fw))
  { state := .valid, afmt := fwAfmt fw, tkind := fwSigned fw, gsz := fwG2 fw, kg := fwKg fw, src := src,
    size := setKib (fwSigned fw) (fwG2 fw) (fwKg fw), spill := 0, rows := rows.1, scales := rows.2 }

/-- `TBLD` and `TBLDS` past the vote: the quota, the queue, the build. -/
def State.build (s : State) (cid wx : Nat) (w : Weave) (f : EForm) (c : Crew) (core : Nat) (src : Binding) (fw : Word)
    (inside : Bool) : State :=
  let th := f.th.val
  let m := w.actors f.hd
  if !fwValid fw then s.trap cid wx w .formatInvalid m
  else if c.shape.tblkb < c.otherKib th + setKib (fwSigned fw) (fwG2 fw) (fwKg fw) then s.trap cid wx w .tableRamFull m
  else if !inside then s.trap cid wx w .scratchRange m
  else if s.accFull core || s.lkaNames core cid th then s
  else
    let t := s.buildSet c src fw
    (((s.putWeave cid wx w.next).modTable cid th fun _ => t).enqueue core (.build cid th) (.tableBuildComplete core))

def execTbld (f : EForm) (s : State) : Host.Outcome State Fault Refusal :=
  s.accord (.tbld f) f fun cid wx w c core =>
    match w.vote f with
    | none => s.trap cid wx w .formatDivergence (w.actors f.hd)
    | some fw =>
      let n := 4 * (fwKg fw + 1)
      if w.outOfRange f.hd.a n then s.trap cid wx w .regRange (w.actors f.hd)
      else if w.anyEmpty f.hd.a n then (if f.hd.em.getLsbD 0 then s.trap cid wx w .feEmpty (w.actors f.hd) else s)
      else s.build cid wx w f c core (.regs wx (regNo f.hd.a)) fw true

def execTblds (f : EForm) (s : State) : Host.Outcome State Fault Refusal :=
  s.accord (.tblds f) f fun cid wx w c core =>
    match w.vote f with
    | none => s.trap cid wx w .formatDivergence (w.actors f.hd)
    | some fw =>
      let off := (w.scalar f f.hd.a).toNat
      s.build cid wx w f c core (.scratch off) fw (s.inWindow c off (16 * (fwKg fw + 1) * granuleBytes (fwAfmt fw)))

/-! ## `TINV`, `TSPILL`, `TFILL`, `TSTAT`, `PLNSET` (R212 to R215, R348, R349) -/

def execTinv (f : EForm) (s : State) : Host.Outcome State Fault Refusal :=
  s.accord (.tinv f) f fun cid wx w _ core =>
    let th := f.th.val
    if s.accFull core || s.lkaNames core cid th then s
    else ((s.putWeave cid wx w.next).modTable cid th fun _ => Tbl.unbound).enqueue core (.tinv cid th) (.accordOpRetire core)

def execTspill (f : EForm) (s : State) : Host.Outcome State Fault Refusal :=
  s.accord (.tspill f) f fun cid wx w c core =>
    let th := f.th.val
    let t := c.table th
    let off := (w.scalar f f.hd.a).toNat
    if s.ownWrites cid wx then s
    else if t.state != .valid then s.trap cid wx w .tableStale (w.acting f.hd)
    else if !s.inWindow c off (t.size * 1024) then s.trap cid wx w .scratchRange (w.acting f.hd)
    else if s.accFull core || s.lkaNames core cid th || s.heldByLka c (s.scratchPieces cid off (t.size * 1024)) then s
    else
      let s := (s.putWeave cid wx w.next).scratchWrite c off t.spillBytes
      (s.modTable cid th fun t => if t.state = .valid then { t with state := .spilled, spill := off } else t).enqueue core
        (.tspill cid th) (.accordOpRetire core)

def execTfill (f : EForm) (s : State) : Host.Outcome State Fault Refusal :=
  s.accord (.tfill f) f fun cid wx w c core =>
    let th := f.th.val
    let t := c.table th
    if s.ownWrites cid wx then s
    else if t.state != .spilled then s.trap cid wx w .tableStale (w.acting f.hd)
    else if c.shape.tblkb < c.otherKib th + t.size then s.trap cid wx w .tableRamFull (w.acting f.hd)
    else if !s.inWindow c t.spill (t.size * 1024) then s.trap cid wx w .scratchRange (w.acting f.hd)
    else if s.accFull core || s.lkaNames core cid th then s
    else ((s.putWeave cid wx w.next).modTable cid th fun t => { t with state := .valid }).enqueue core (.tfill cid th)
      (.accordOpRetire core)

def execTstat (f : EForm) (s : State) : Host.Outcome State Fault Refusal :=
  s.accord (.tstat f) f fun cid wx w c _ =>
    if s.ownWrites cid wx then s
    else
      let x := (c.table f.th.val).stat
      s.putWeave cid wx ((w.putG f.hd.d x).note [x]).next

/-- The plane descriptor that CTL[33:32] names (R347). -/
def EForm.pd (f : EForm) : Nat := f.ctl.toNat % 4

def execPlnset (f : EForm) (s : State) : Host.Outcome State Fault Refusal :=
  s.accord (.plnset f) f fun cid wx w c _ =>
    let off := (w.scalar f f.hd.a).toNat
    let m := w.acting f.hd
    if !s.inWindow c off 260 then s.trap cid wx w .scratchRange m
    else
      let bs := s.scratchRead c off 260
      let d : PlaneD := ⟨BitVec.ofNat 32 (natLE (bs.take 4)), bs.drop 4⟩
      if d.ctl.toNat / 2 ^ 5 != 0 then s.trap cid wx w .formatInvalid m
      else if !d.inRange then s.trap cid wx w .planeRange m
      else (s.putWeave cid wx w.next).modCrew cid fun c => { c with pds := modNth c.pds (EForm.pd f) fun _ => d }

/-! ## `LKA` (R217, R218, R350) -/

/-- Tiles that the crew holds bound. -/
def Crew.boundTiles (c : Crew) : Nat := (c.tiles.filter (·.bound)).length

/-- The handle is unbound and the crew holds ACCQ tiles. -/
def Crew.noTile (c : Crew) (a : Nat) : Bool := !(c.tile a).bound && c.shape.accq ≤ c.boundTiles

/-- The word names what the set recorded, and the mode fits its kind (R217, R218). -/
def Tbl.fits (t : Tbl) (fw : Word) (d : PlaneD) : Bool :=
  t.afmt == fwAfmt fw && t.tkind == fwSigned fw && t.gsz == fwG2 fw && t.kg == fwKg fw && d.bcq == t.tkind

/-- The set that an `LKA` uses: a DISCARDED one is rebuilt from its binding (R214). -/
def State.rebuilt (s : State) (c : Crew) (t : Tbl) : Tbl :=
  if t.state = .discarded then
    let rows := buildRows t.afmt t.kg (s.bindingGranule c t.src t.afmt t.kg)
    { t with state := .valid, rows := rows.1, scales := rows.2 }
  else t

/-- The first failing check of R218, in its order. -/
def State.lkaCheck (s : State) (w : Weave) (f : EForm) (c : Crew) (off : Nat) : Option Cause :=
  let t := c.table f.th.val
  let d := nthD c.pds (EForm.pd f) ⟨0, []⟩
  match w.vote f with
  | none => some .formatDivergence
  | some fw =>
    if !fwValid fw then some .formatInvalid
    else match t.state with
      | .unbound => some .tableUnbound
      | .stale => some .tableStale
      | .spilled => some .tableSpilled
      | _ =>
        if !t.fits fw d then some .formatMismatch
        else if c.noTile f.ah.val then some .accQuota
        else if off % 32 != 0 || !s.inWindow c off (blockBytes fw d) then some .scratchRange
        else none

def execLka (f : EForm) (s : State) : Host.Outcome State Fault Refusal :=
  s.accord (.lka f) f fun cid wx w c core =>
    let off := (w.scalar f f.hd.a).toNat
    let th := f.th.val
    if s.ownWrites cid wx then s
    else match s.lkaCheck w f c off with
      | some cause => s.trap cid wx w cause (w.actors f.hd)
      | none =>
        if s.accFull core then s
        else
          let d := nthD c.pds (EForm.pd f) ⟨0, []⟩
          let t := s.rebuilt c (c.table th)
          let op := AccOp.lka cid wx w.pc (w.actors f.hd).toNat f.ah.val th off (w.scalar f f.hd.b) d
          (((s.putWeave cid wx w.next).modTable cid th fun _ => t).modTile cid f.ah.val fun x =>
            { x with bound := true }).enqueue core op (.lkaRetire core)

/-! ## Tiles (R219, R220, R351, R352) -/

def execArd (f : EForm) (s : State) : Host.Outcome State Fault Refusal :=
  s.accord (.ard f) f fun cid wx w _ core =>
    if s.accFull core then s
    else
      let s1 := s.fly cid wx w w (destRun (.ard f)) false none .ardComplete
      let id := s1.ids
      let mask (fl : Flight) : Flight := { fl with lanes := w.writers f.hd }
      { s1 with flights := updWhere s1.flights (fun fl => fl.id == id) mask }.modCore core fun k =>
        { k with accq := k.accq ++ [AccOp.ard id cid f.ah.val] }

/-- The elements that `AWR` gives a tile: writing lanes' values, +0.0 elsewhere. -/
def Weave.tileRows (w : Weave) (f : EForm) : List Word :=
  let m := w.writers f.hd
  (List.range 16).flatMap fun r => laneList.map fun n => if m.getLsbD n then ((w.read f.imm (f.hd.a.plus r)).lane n).val else 0

/-- `AWR` and `AZRO`: bind the tile, and replace it when the operation retires. -/
def State.tileWrite (s : State) (cid wx : Nat) (w : Weave) (f : EForm) (c : Crew) (core : Nat) (op : AccOp) : State :=
  if c.noTile f.ah.val then s.trap cid wx w .accQuota (w.acting f.hd)
  else if s.accFull core then s
  else ((s.putWeave cid wx w.next).modTile cid f.ah.val fun x => { x with bound := true }).enqueue core op (.accordOpRetire core)

def execAwr (f : EForm) (s : State) : Host.Outcome State Fault Refusal :=
  s.accord (.awr f) f fun cid wx w c core => s.tileWrite cid wx w f c core (.awr cid f.ah.val (w.tileRows f))

def execAzro (f : EForm) (s : State) : Host.Outcome State Fault Refusal :=
  s.accord (.azro f) f fun cid wx w c core => s.tileWrite cid wx w f c core (.azro cid f.ah.val)



/-- The tile that an operation uses. -/
def AccOp.tile? : AccOp → Option (Nat × Nat)
  | .lka c _ _ _ a _ _ _ _ => some (c, a)
  | .ard _ c a | .awr c a _ | .azro c a | .arel c a => some (c, a)
  | _ => none

/-- `AREL`: the handle is unbound at once when no operation on the tile is queued, else when those have retired (R219, R351). -/
def execArel (f : EForm) (s : State) : Host.Outcome State Fault Refusal :=
  s.accord (.arel f) f fun cid wx w _ core =>
    if s.accFull core then s
    else
      let t := s.putWeave cid wx w.next
      let busy := (s.core core).accq.any fun op => op.tile? == some (cid, f.ah.val)
      (if busy then t else t.modTile cid f.ah.val fun _ => ⟨false, []⟩).enqueue core (.arel cid f.ah.val) (.accordOpRetire core)

/-! ## The queue's events -/

/-- An operation that binds its tile (R219). -/
def AccOp.binds (op : AccOp) (cid a : Nat) : Bool :=
  match op with
  | .lka .. | .awr .. | .azro .. => op.tile? == some (cid, a)
  | _ => false

/-- Two queued `LKA`s fuse (R222). -/
def State.fuses (s : State) (a b : AccOp) : Bool :=
  match a, b with
  | .lka c _ _ _ _ _ off fw d, .lka c' _ _ _ _ _ off' fw' d' =>
    let together := c == c' || match s.crew? c, s.crew? c' with
      | some x, some y => sameGang x y
      | _, _ => false
    together && off == off' && fw == fw' && d == d'
  | _, _ => false

/-- The members that the head fuses with, in queue order, and the operations left: a member that another operation on its
tile stands before keeps its place. -/
def fuseGroup (fuses : AccOp → Bool) : List AccOp → List (Nat × Nat) → List AccOp × List AccOp
  | [], _ => ([], [])
  | op :: ops, seen =>
    let blocked := match op.tile? with
      | some t => seen.contains t
      | none => false
    if fuses op && !blocked then
      let r := fuseGroup fuses ops seen
      (op :: r.1, r.2)
    else
      let r := fuseGroup fuses ops (match op.tile? with | some t => t :: seen | none => seen)
      (r.1, op :: r.2)

/-- One `LKA` retires: its tile takes the sum, or its weave a deferred `INDEX_RANGE`. -/
def State.lkaLand (s : State) (bad : Bool) (bs : List Byte) : AccOp → State
  | .lka cid wx pc lanes a th _ _ d =>
    if bad then s.deferTrap cid wx ⟨.indexRange, true, pc, BitVec.ofNat 32 lanes, []⟩
    else match s.crew? cid with
      | some c => s.modTile cid a fun x => { x with data := lkaTile (c.table th) d bs x.elems }
      | none => s
  | _ => s

/-- `LKA_RETIRE`: the head reads its B block and retires with the members it fuses with (R217, R218, R222). -/
def execLkaRetire (core : Nat) (s : State) : Host.Outcome State Fault Refusal :=
  .next <| match (s.core core).accq with
  | .lka cid wx pc lanes a th off fw d :: rest =>
    let head := AccOp.lka cid wx pc lanes a th off fw d
    match s.crew? cid with
    | none => s.modCore core fun k => { k with accq := rest }
    | some c =>
      let bs := s.scratchRead c off (blockBytes fw d)
      let r := fuseGroup (s.fuses head) (head :: rest) []
      let bad := illegalCode fw d bs
      r.1.foldl (fun s op => s.lkaLand bad bs op) (s.modCore core fun k => { k with accq := r.2 })
  | q => if q.any (fun op => match op with | .lka .. => true | _ => false) then s.post (.lkaRetire core) else s

/-- `TABLE_BUILD_COMPLETE`: the build at the head of the queue is over (R213, R223). -/
def execTableBuildComplete (core : Nat) (s : State) : Host.Outcome State Fault Refusal :=
  .next <| match (s.core core).accq with
  | .build _ _ :: rest => s.modCore core fun k => { k with accq := rest }
  | q => if q.any (fun op => match op with | .build .. => true | _ => false) then s.post (.tableBuildComplete core) else s

/-- `ACCORD_OP_RETIRE`: the tile or table operation at the head of the queue takes effect (R219, R220, R349). -/
def execAccordOpRetire (core : Nat) (s : State) : Host.Outcome State Fault Refusal :=
  let pop (rest : List AccOp) : State := s.modCore core fun k => { k with accq := rest }
  .next <| match (s.core core).accq with
  | .awr cid a data :: rest => (pop rest).modTile cid a fun x => { x with data := data }
  | .azro cid a :: rest => (pop rest).modTile cid a fun x => { x with data := tileZero }
  | .arel cid a :: rest => (pop rest).modTile cid a fun _ => ⟨rest.any fun op => op.binds cid a, []⟩
  | .tspill _ _ :: rest | .tfill _ _ :: rest | .tinv _ _ :: rest => pop rest
  | q =>
    let mine (op : AccOp) : Bool := match op with
      | .lka .. | .build .. | .ard .. => false
      | _ => true
    if q.any mine then s.post (.accordOpRetire core) else s

/-- `ARD_COMPLETE`: once no earlier operation on the tile is queued, the registers take its rows (R220, R352). Absent
lanes are computed like thread lanes under a full write (R137). -/
def execArdComplete (id : Nat) (s : State) : Host.Outcome State Fault Refusal :=
  .next <| match s.flights.find? fun fl => fl.id == id with
  | none => s
  | some fl => match s.crew? fl.cid, s.weave? fl.cid fl.widx with
    | some c, some w =>
      let core := (c.holds?).getD 0
      let q := (s.core core).accq
      let isMine (op : AccOp) : Bool := match op with
        | .ard i _ _ => i == id
        | _ => false
      match q.find? isMine with
      | some (.ard _ cid a) =>
        let before := q.takeWhile fun op => !isMine op
        if before.any fun op => op.tile? == some (cid, a) then s.post (.ardComplete id)
        else
          let es := (c.tile a).elems
          let fill (x : (Nat × VReg) × Nat) : Nat × VReg :=
            let new := VReg.ofFn fun n => Lane.ofWord (nthD es (32 * x.2 + n) 0)
            (x.1.1, (nthD w.v x.1.1 (.uni Lane.zero)).write new fl.lanes w.absent)
          let regs := (fl.regs.zip (List.range 16)).map fill
          (s.modCore core fun k => { k with accq := k.accq.filter fun op => !isMine op }).land { fl with regs := regs }
      | _ => s
    | _, _ => s

end Sys2Proof.Machine
end

