-- ==== Sys2Proof/Machine/Pages.lean ====
section
/-! DEFINITION. Machine/Pages.lean: first-touch mapping (R158), page requests and their answers (R159, R160), the
page-service block (R162 to R164), shootdown (R157), `MAPP` and `TLBI` (R364). -/

namespace Sys2Proof.Machine

/-! ## Watermarks (R32) -/

/-- The watermark moves over the messages performed ahead of it. -/
def advanceMark : Nat → Nat → List Nat → Nat × List Nat
  | 0, wm, ahead => (wm, ahead)
  | fuel + 1, wm, ahead => if ahead.contains wm then advanceMark fuel (wm + 1) (ahead.filter (· != wm)) else (wm, ahead)

/-- A message of a context is performed. -/
def Ctx.perform (c : Ctx) (msn : Nat) : Ctx :=
  if msn < c.wm then c
  else
    let ahead := if c.ahead.contains msn then c.ahead else c.ahead ++ [msn]
    let r := advanceMark ahead.length c.wm ahead
    { c with wm := r.1, ahead := r.2 }

/-- A part of a message has acted: the last one completes it, another lets the next one come, before what has arrived later
(R33). -/
def State.perform (s : State) (m : Msg) : State :=
  if m.fin then s.modCtx m.ctx fun c => c.perform m.msn
  else
    let mine (x : Nat × Nat × List Instr) : Bool := x.1 == m.ctx && x.2.1 == m.msn
    match s.parts.find? mine with
    | some (_, _, i :: is) =>
      let rest := s.parts.filter fun x => !mine x
      { s with pending := i :: s.pending, parts := if is.isEmpty then rest else rest ++ [(m.ctx, m.msn, is)] }
    | _ => s

/-- Every earlier message of the context has been performed. -/
def State.covered (s : State) (m : Msg) : Bool :=
  match s.ctx? m.ctx with
  | some c => m.msn ≤ c.wm
  | none => true

/-- An event that waits for its context's watermark: it comes again until it may act. -/
def State.whenCovered (s : State) (m : Msg) (i : Instr) (act : State → State) : State :=
  if s.covered m then act s else s.post i

/-- Signal operations that wait for room in an owner's dirty-page log are performed in their order, as far as there is room
(R164); a host's message is performed with its operation. -/
def State.drainSignals (s : State) (owner : Nat) : State :=
  (s.sigWait.filter fun x => x.owner == owner).foldl (fun s x => match s.sigOpFor owner x.op x.ref x.msg with
    | (s, true) => match x.msg with
      | some m => s.perform m
      | none => s
    | (s, false) => s) { s with sigWait := s.sigWait.filter fun x => x.owner != owner }

/-! ## First touch (R158) -/

/-- GIVEN or TAKEN of a die. -/
def dieCount (x : DWord) (d : Nat) : Nat := bitsOf x.toNat (16 * d) 16

/-- TAKEN of a die advances by one. -/
def takeOne (x : DWord) (d : Nat) : DWord :=
  BitVec.ofNat 64 (x.toNat - dieCount x d * 2 ^ (16 * d) + (dieCount x d + 1) % 2 ^ 16 * 2 ^ (16 * d))

/-- A pool entry names a whole frame of the die, in the owner's partition (R162). -/
def State.poolEntryOk (s : State) (owner d f : Nat) : Bool :=
  match s.tenant? owner with
  | some t => f % 2 ^ 16 == 0 && paBacked f && paDie f == d && s.partOf d == t.part
  | none => false

/-- Take frames from a die's pool, skipping bad entries with an event each; fewer when the pool runs out. -/
def State.takeFrames (s : State) (owner d : Nat) : Nat → Nat → List Nat → State × List Nat
  | 0, _, fs => (s, fs)
  | _, 0, fs => (s, fs)
  | fuel + 1, n + 1, fs =>
    let given := match s.tenant? owner with | some t => t.given | none => 0
    let taken := s.psb owner 6
    if dieCount given d = dieCount taken d then (s, fs)
    else
      let log2 := s.poolLog2 owner
      let va := (s.psb owner 4).toNat + d * 8 * 2 ^ log2 + 8 * (dieCount taken d % 2 ^ log2)
      let f := match s.deviceWord owner (va % 2 ^ 52) with | .ok x => x.toNat | .error _ => 1
      let s := s.putPsb owner 6 (takeOne taken d)
      if s.poolEntryOk owner d f then s.takeFrames owner d fuel n (fs ++ [f])
      else (s.event owner { cls := .page, cause := .poolEntryBad, src := d, addr := f }).takeFrames owner d fuel (n + 1) fs

/-- Zero a 64 KiB frame for an owner. No L1 keeps a line of its earlier contents (R158). -/
def State.zeroFrame (s : State) (owner f : Nat) : State :=
  let inside (a : Nat) : Bool := f ≤ a && a < f + 2 ^ 16
  let tags := s.keyTags.filter fun x => !inside (x.1 * 256)
  let s := { s with hbm := s.hbm.filter fun c => !inside c.1, ueHbm := s.ueHbm.filter fun u => !inside u,
                    keyTags := tags ++ (List.range 256).map fun i => (f / 256 + i, s.keyOf owner)
                    cores := s.cores.map fun (k : Core) => { k with l1 := k.l1.filter fun l => !inside (l.line * 64) } }
  s.wakeLines ((s.armed.map (·.line)).filter fun l => match l with | .hbm n => inside (n * 64) | _ => false)

/-- Write a page-table entry. -/
def State.putEntry (s : State) (owner pa : Nat) (e : DWord) : State := s.locWrite owner (.hbm pa) (bytesLE 8 e.toNat)

/-- Link new tables below an entry, then write the leaf: tables take the frames in order. -/
def State.linkTables (s : State) (owner va : Nat) (leaf : DWord) : Nat → Nat → List Nat → State
  | pa, _, [] => s.putEntry owner pa leaf
  | pa, level, f :: fs =>
    (s.putEntry owner pa (BitVec.ofNat 64 (f + 1))).linkTables owner va leaf (f + 8 * walkIndex (level + 1) va) (level + 1) fs

/-- What a first-touch mapping comes to. -/
inductive Mapped where
  | mapped | valid | empty | notFirstTouch | malformed
  deriving DecidableEq, Repr

/-- Map a first-touch page of an owner on a die: a zeroed frame, and zeroed tables where the entry lies above level 3. A
pool that cannot give them all counts as empty (log entry 28). -/
def State.firstTouch (s : State) (owner d va : Nat) : State × Mapped :=
  match s.walk owner va with
  | .leaf _ _ => (s, .valid)
  | .missing => (s, .notFirstTouch)
  | .malformed | .unbacked => (s, .malformed)
  | .firstTouch pa level e =>
    let need := 1 + (3 - level)
    let given := match s.tenant? owner with | some t => t.given | none => 0
    let avail := (dieCount given d + 2 ^ 16 - dieCount (s.psb owner 6) d) % 2 ^ 16
    if avail < need then (s, .empty)
    else
      let r := s.takeFrames owner d avail need []
      match r.2 with
      | f :: tables =>
        if r.2.length < need then (r.1, .empty)
        else
          let s := r.2.foldl (fun s f => s.zeroFrame owner f) r.1
          let attrs := bitsOf e.toNat 2 6 * 2 ^ 2 + bitsOf e.toNat 48 9 * 2 ^ 48
          let leaf : DWord := BitVec.ofNat 64 (f + attrs + 3)
          (s.linkTables owner va leaf pa level tables, .mapped)
      | [] => (r.1, .empty)

/-! ## Page requests (R159) -/

/-- The access that faulted. -/
structure Need where
  r : Bool
  w : Bool
  x : Bool
  deriving DecidableEq, Repr

/-- The REASON of a leaf that lacks a permission. -/
def Need.denied (n : Need) (l : Leaf) : Option Nat :=
  if n.x && !l.x then some 3 else if n.w && !l.w then some 2 else if n.r && !l.r then some 4 else none

/-- Who waits for a page. -/
inductive Asker where
  | weave (cid wx : Nat)
  | other (retry fail : Instr)
  deriving DecidableEq, Repr

def PageReq.join (r : PageReq) : Asker → PageReq
  | .weave cid wx => { r with weaves := r.weaves ++ [(cid, wx)], cids := if r.cids.contains cid then r.cids else r.cids ++ [cid] }
  | .other a b => if r.others.contains (a, b) then r else { r with others := r.others ++ [(a, b)] }

/-- What becomes of a fault. -/
inductive Resolved where
  | go | wait | full | fail
  deriving DecidableEq, Repr

/-- The 64-byte record of a request. -/
def requestBytes (va reason d : Nat) (gen : Word) (lid : Nat) : List Byte :=
  bytesLE 64 (va / 2 ^ 16 * 2 ^ 16 + reason * 2 ^ 64 + d * 2 ^ 72 + gen.toNat * 2 ^ 96 + lid % 2 ^ 64 * 2 ^ 128)

/-- Raise a page request, or join the one pending for the page. -/
def State.pageRequest (s : State) (owner d va reason lid : Nat) (who : Asker) : State × Resolved :=
  let page := va / 2 ^ 16 * 2 ^ 16
  match s.tenant? owner with
  | none => (s, .fail)
  | some t =>
    let ring := (s.psb owner 0).toNat
    if ring = 0 then (s, .fail)
    else if t.reqs.any fun r => r.live && r.va == page then
      (s.modTenant owner fun t => { t with reqs := updWhere t.reqs (fun r => r.live && r.va == page) fun r => r.join who }, .wait)
    else
      let prod := s.psb owner 2
      let log2 := s.rqLog2 owner
      if ringFull prod t.rqcons log2 then
        match who with
        | .weave .. => (s, .full)
        | .other retry _ =>
          (s.modTenant owner fun t => { t with ringWait := t.ringWait.filter (· != retry) ++ [retry] }, .full)
      else
        let slot := prod.toNat % 2 ^ log2
        let gen := t.rqgen + 1
        match s.deviceWrite owner ((ring + 64 * slot) % 2 ^ 52) (requestBytes va reason d gen lid) with
        | .error _ => (s, .fail)
        | .ok s =>
          let s := s.putPsb owner 2 (prod + 1)
          let new : PageReq := PageReq.join ⟨slot, page, gen, [], [], [], true⟩ who
          (s.modTenant owner fun t => { t with rqgen := gen, reqs := t.reqs ++ [new] }, .wait)

/-- Resolve a fault on a page for a die: nothing left to do, a first-touch mapping, or a request (R158). A walk that comes
to an unpopulated address is no page fault: the access itself meets `PA_UNBACKED` (R17). -/
def State.resolveFault (s : State) (owner d va : Nat) (need : Need) (lid : Nat) (who : Asker) : State × Resolved :=
  match s.walk owner va with
  | .leaf l entry => match need.denied l with
    | none => (s.setUsed owner entry, .go)
    | some reason => s.pageRequest owner d va reason lid who
  | .missing => s.pageRequest owner d va 1 lid who
  | .malformed => s.pageRequest owner d va 6 lid who
  | .unbacked => (s, .go)
  | .firstTouch .. =>
    match s.firstTouch owner d va with
    | (s, .empty) => s.pageRequest owner d va 5 lid who
    | (s, _) => (s.advanceGen owner d, .go)

/-- The first page of a range that faults a device access, resolved on behalf of a copy or a packet. -/
def State.resolveRange (s : State) (owner d va n : Nat) (need : Need) (lid : Nat) (who : Nat → Asker) : State × Resolved × Nat :=
  let first := va / 2 ^ 16
  (List.range (if n = 0 then 0 else (va + n - 1) / 2 ^ 16 - first + 1)).foldl (fun acc i =>
    match acc with
    | (s, .go, _) =>
      let v := if i = 0 then va % 2 ^ 52 else (first + i) * 2 ^ 16 % 2 ^ 52
      let r := s.resolveFault owner d v need lid (who v)
      (r.1, r.2, v)
    | x => x) (s, .go, va)

/-! ## Answers and the page-service block (R160, R162 to R164) -/

/-- A weave goes on from a wait on its page request or on the request ring. -/
def Handler.resume : Handler → Handler
  | .pageWait lane => .resolve (lane + 1)
  | .ringFull lane => .resolve lane
  | h => h

/-- `PAGE_REQUEST_ANSWER`: the answer in the record takes effect, or is discarded as a late one; 0 is no answer yet. -/
def execPageRequestAnswer (m : Msg) (owner slot : Nat) (s : State) : Host.Outcome State Fault Refusal :=
  .next <| s.whenCovered m (.pageRequestAnswer m owner slot) fun s =>
    match s.tenant? owner with
    | none => s
    | some t =>
      let at_ := ((s.psb owner 0).toNat + 64 * slot) % 2 ^ 52
      match s.deviceRead owner at_ 64 with
      | .error _ => s
      | .ok bs =>
        let s := s.markUsed owner at_ 64
        let ans := natLE ((bs.drop 24).take 4)
        let gen := natLE ((bs.drop 28).take 4)
        let hit (r : PageReq) : Bool := r.live && r.slot == slot && r.gen.toNat == gen
        match t.reqs.find? hit with
        | none => s.event owner { cls := .info, cause := .pageAnswerLate, addr := natLE (bs.take 8) }
        | some r =>
          if ans = 0 then s
          else
          let s := s.modTenant owner fun t => { t with reqs := t.reqs.filter fun x => !hit x }
          if ans = 1 then
            let s := r.weaves.foldl (fun s x => s.modWeave x.1 x.2 fun w =>
              { w with handler := w.handler.map Handler.resume }) s
            r.others.foldl (fun s x => s.post x.1) s
          else
            let s := s.event owner { cls := .page, cause := .pageUnresolved, addr := r.va }
            let s := r.weaves.foldl (fun s x => s.modWeave x.1 x.2 fun w =>
              if w.hcause.getLsbD 8 then w
              else { w with handler := some .entered, hcause := BitVec.ofNat 32 Cause.pageUnresolved.code }) s
            r.others.foldl (fun s x => s.post x.2) s

/-- `RQCONS_WRITE`: the ring has room again for those that wait. -/
def execRqconsWrite (m : Msg) (owner : Nat) (s : State) : Host.Outcome State Fault Refusal :=
  .next <| s.whenCovered m (.rqconsWrite m owner) fun s =>
    let x := s.psb owner 3
    let waiting := match s.tenant? owner with | some t => t.ringWait | none => []
    let s := s.modTenant owner fun t => { t with rqcons := x, ringWait := [] }
    let go (w : Weave) : Weave := match w.handler with
      | some (.ringFull lane) => { w with handler := some (.resolve lane) }
      | _ => w
    let s := { s with crews := updWhere s.crews (fun c => c.owner == owner) fun (c : Crew) => { c with weaves := c.weaves.map go } }
    waiting.foldl State.post s

/-- `GIVEN_WRITE`. -/
def execGivenWrite (m : Msg) (owner : Nat) (s : State) : Host.Outcome State Fault Refusal :=
  .next <| s.whenCovered m (.givenWrite m owner) fun s =>
    let x := s.psb owner 5
    s.modTenant owner fun t => { t with given := x }

/-- `DLCONS_WRITE`: the log has room again for those that wait. -/
def execDlconsWrite (m : Msg) (owner : Nat) (s : State) : Host.Outcome State Fault Refusal :=
  .next <| s.whenCovered m (.dlconsWrite m owner) fun s =>
    let x := s.psb owner 9
    let waiting := match s.tenant? owner with | some t => t.logWait | none => []
    let s := s.modTenant owner fun t => { t with dlcons := x, logWait := [] }
    let go (w : Weave) : Weave := if w.wait = .dirtyLog then { w with wait := .none } else w
    let s := { s with crews := updWhere s.crews (fun c => c.owner == owner) fun (c : Crew) => { c with weaves := c.weaves.map go } }
    waiting.foldl State.post (s.drainSignals owner)

/-- The owner's generation advances on every die of its partition. -/
def State.advanceAll (s : State) (owner : Nat) : State :=
  match s.tenant? owner with
  | some t => (s.partDies t.part).foldl (fun s d => s.advanceGen owner d) s
  | none => s

/-- `DLCTL_WRITE`: a change of DLEPOCH opens a new epoch (R155, R163). -/
def execDlctlWrite (m : Msg) (owner : Nat) (s : State) : Host.Outcome State Fault Refusal :=
  .next <| s.whenCovered m (.dlctlWrite m owner) fun s =>
    let x := s.psb owner 10
    let old := match s.tenant? owner with | some t => t.dlctl | none => 0
    let s := s.modTenant owner fun t => { t with dlctl := x }
    if x.setWidth 32 != old.setWidth 32 then
      (s.modTenant owner fun t => { t with logged := t.logged.map fun _ => [] }).advanceAll owner
    else s

/-- Drop TLB entries of an owner that `p` picks, on every die of its partition. -/
def State.shootdown (s : State) (owner : Nat) (p : TlbEntry → Bool) : State :=
  match s.tenant? owner with
  | some t => ((s.partDies t.part).foldl (fun s d => s.tlbDrop d fun e => e.owner == owner && p e) s).advanceAll owner
  | none => s

/-- `TLBGEN_WRITE`: a change invalidates the owner's TLB entries and is acknowledged in TLBACK (R157). -/
def execTlbgenWrite (m : Msg) (owner : Nat) (s : State) : Host.Outcome State Fault Refusal :=
  .next <| s.whenCovered m (.tlbgenWrite m owner) fun s =>
    let x := s.psb owner 11
    let old := match s.tenant? owner with | some t => t.tlbgen | none => 0
    if x.setWidth 32 == old.setWidth 32 then s
    else
      let s := s.modTenant owner fun t => { t with tlbgen := x }
      (s.shootdown owner fun _ => true).putPsb owner 12 ((x.setWidth 32).setWidth 64)

/-- `DIRTY_LOG_FULL`: a note with DLRING and DLPROD goes to the host context of queue DLQ (R164). -/
def execDirtyLogFull (owner : Nat) (s : State) : Host.Outcome State Fault Refusal :=
  .next <|
    let ctl := match s.tenant? owner with | some t => t.dlctl | none => 0
    match s.queue? (bitsOf ctl.toNat 32 10) with
    | some q => s.say (.note q.ctx (bytesLE 8 (s.psb owner 7).toNat ++ bytesLE 8 (s.psb owner 8).toNat))
    | none => s

/-! ## `MAPP` and `TLBI` (R364) -/

def execMapp (f : SForm) (s : State) : Host.Outcome State Fault Refusal :=
  s.issue (.mapp f) fun cid wx w =>
    let x := w.wideG f.imm false f.hd.a
    if !w.qPass f.hd then s.skip cid wx w
    else if x.toNat / 2 ^ 52 != 0 then s.groupTrap cid wx w .addrNoncanon x.toNat
    else match s.crew? cid with
      | none => s
      | some c => match c.core? with
        | none => s
        | some k =>
          let d := dieOfCore k
          let r := s.firstTouch c.owner d x.toNat
          let code : Word := match r.2 with
            | .mapped => 0
            | .valid => 1
            | .empty => 2
            | .notFirstTouch | .malformed => 3
          let w' := ((w.putG f.hd.d code).note [code]).next
          (r.1.modWeave cid wx fun x => { w' with woken := x.woken }).advanceGen c.owner d

def execTlbi (f : SForm) (s : State) : Host.Outcome State Fault Refusal :=
  s.issue (.tlbi f) fun cid wx w =>
    let x := w.wideG f.imm false f.hd.a
    let every := f.hd.a == .ones
    if !w.qPass f.hd then s.skip cid wx w
    else if !every && x.toNat / 2 ^ 52 != 0 then s.groupTrap cid wx w .addrNoncanon x.toNat
    else
      let holds (e : TlbEntry) : Bool := e.page ≤ x.toNat && x.toNat < e.page + pageBytes e.leaf.size
      (s.skip cid wx w).shootdown (s.ownerOf cid) fun e => every || holds e

end Sys2Proof.Machine
end

