-- ==== Sys2Proof/Machine/Engines.lean ====
section
/-! DEFINITION. Machine/Engines.lean: copies and their tickets (R165, R166, R353 to R355), SHADOW publish (R167, R168,
R356), collectives (R205, R357) and their events. -/

namespace Sys2Proof.Machine

/-! ## Places (R167) -/

/-- Where byte k of an address lies for an engine: writes to a SHADOW page go to its inactive frame. -/
def State.enginePlace (s : State) (owner : Nat) (write : Bool) (a : CAddr) (k : Nat) : Except Cause Loc :=
  match a with
  | .glb va => match s.tenant? owner, s.walk owner ((va + k) % 2 ^ 52) with
    | some t, .leaf l _ =>
      let pa := leafPa l t.shadow ((va + k) % 2 ^ 52) write
      if !paBacked pa then .error .paUnbacked
      else if s.partOf (paDie pa) != t.part then .error .firewallBlocked
      else .ok (.hbm pa)
    | _, .unbacked => .error .paUnbacked
    | _, _ => .error .pageNotPresent
  | .scr cid off => match s.scratchPieces cid (off + k) 1 with
    | p :: _ => .ok p.loc
    | [] => .error .scratchRange
  | .kept _ => .error .scratchRange
  | .cmn x => match s.tenant? owner with
    | some t => if s.partOf (x / 2 ^ 26 % 4) == t.part then .ok (.commons owner (x / 2 ^ 26 % 4) (x % 2 ^ 26 + k)) else .error .firewallBlocked
    | none => .error .firewallBlocked

/-- The places of n bytes; the first failing one's cause. -/
def State.enginePlaces (s : State) (owner : Nat) (write : Bool) (a : CAddr) (n : Nat) : Except Cause (List Loc) :=
  (List.range n).foldr (fun k acc => match s.enginePlace owner write a k, acc with
    | .ok l, .ok ls => .ok (l :: ls)
    | .error c, _ => .error c
    | _, .error c => .error c) (.ok [])

/-- A byte lies in a word in error (R235). -/
def State.placeUe (s : State) (l : Loc) : Bool := s.pieceUe ⟨l, 1, 0, false, false, none⟩

/-- The pages of a global range, for the dirty-page log. -/
def State.rangePages (s : State) (owner : Nat) (a : CAddr) (n : Nat) : List (Nat × Nat) :=
  match a with
  | .glb va =>
    if n = 0 then []
    else ((List.range ((va + n - 1) / 2 ^ 16 - va / 2 ^ 16 + 1)).filterMap fun i =>
      let v := (va / 2 ^ 16 + i) * 2 ^ 16 % 2 ^ 52
      match s.walk owner v with
      | .leaf l _ => some (v / pageBytes l.size * pageBytes l.size, l.size)
      | _ => none).eraseDups
  | _ => []

/-- Resolve the faults of an engine's global range. -/
def State.resolveAddr (s : State) (owner d : Nat) (a : CAddr) (n : Nat) (write : Bool) (lid : Nat) (who : Asker) :
    State × Resolved × Nat :=
  match a with
  | .glb va => s.resolveRange owner d va n ⟨!write, write, false⟩ lid fun _ => who
  | _ => (s, .go, 0)

/-! ## Tickets (R353, R355) -/

/-- Record a ticket's status; the last 256 are kept. -/
def Crew.setTicket (c : Crew) (t st : Nat) : Crew :=
  let xs := assocSet c.tickets t st
  { c with tickets := xs.drop (xs.length - 256) }

/-- A crew issues a ticket for an operation that starts. -/
def Crew.issueTicket (c : Crew) : Crew :=
  { c.setTicket c.ticket.toNat 0 with
    inflight := c.inflight + 1, ticket := if c.ticket = allOnes32 then 1 else c.ticket + 1 }

/-- An operation of a crew ends. The crew may be gone. -/
def State.endTicket (s : State) (cid t : Nat) (ok : Bool) : State :=
  s.modCrew cid fun c =>
    let kept := c.tickets.any fun x => x.1 == t
    let c := if kept then c.setTicket t (if ok then 1 else 2) else c
    { c with inflight := c.inflight - 1 }

def execCstat (f : EForm) (s : State) : Host.Outcome State Fault Refusal :=
  s.accord (.cstat f) f fun cid wx w c k =>
    let t := w.scalar f f.hd.a
    let r : Nat :=
      if t = 0 then
        if c.inflight != 0 then 0 else if c.tickets.any (fun x => x.2 == 2) then 2 else 1
      else (assocGet c.tickets t.toNat).getD 3
    let w1 := { w with spin := { w.spin with loads := w.spin.loads ++ [SpinLoad.mk none false []] } }
    let s := s.putWeave cid wx ((w1.putG f.hd.d (BitVec.ofNat 32 r)).note [BitVec.ofNat 32 r]).next
    if r = 1 || r = 2 then s.acquire k 4 else s

/-! ## Copies (R165, R166, R354) -/

/-- A copy is at the head of its engine's queue (R165). -/
def State.copyHead (s : State) (c : Copy) : Bool :=
  ((s.copies.find? fun x => x.die == c.die && x.engine == c.engine).map (·.id)) == some c.id

/-- Two copies of one weave (R165). -/
def Copy.sameWeave (a b : Copy) : Bool := a.weave.isSome && a.weave == b.weave

/-- A copy has started: its engine has come to it, and every copy that its weave issued earlier has started (R165). -/
def State.copyRuns (s : State) (c : Copy) : Bool :=
  s.copyHead c && s.copies.all fun x => !(x.sameWeave c && x.id < c.id) || s.copyHead x

/-- The next copy of an engine starts, and later ones of its weave that its start lets start. -/
def State.nextCopy (s : State) (d e : Nat) : State :=
  match s.copies.find? fun x => x.die == d && x.engine == e with
  | some c => (s.copies.filter fun x => (x.id == c.id || x.sameWeave c) && s.copyRuns x).foldl (fun s x =>
      s.postOnce (.copyComplete x.id)) s
  | none => s

/-- A copy is over: its packet or its ticket learns of it, after its completion word (R166). -/
def State.endCopy (s : State) (c : Copy) (err : Option (Cause × Nat)) : State :=
  let s := { s with copies := s.copies.filter fun x => x.id != c.id }.nextCopy c.die c.engine
  let s := match err with
    | some (cause, va) => s.event c.owner { cls := .page, cause := cause, src := c.die, addr := va }
    | none => s
  let s := match c.fin with
    | .packet q idx => s.finishPacket q idx (err.map (·.1)) (BitVec.ofNat 64 ((err.map (·.2)).getD 0))
    | .ticket cid t cw =>
      let s := match cw, s.crew? cid with
        | some (off, v), some k => s.scratchWrite k off (bytesLE 4 (if err.isSome then ~~~ v else v).toNat)
        | _, _ => s
      s.endTicket cid t err.isNone
  match c.lid with
  | some lid => s.launchCheck lid
  | none => s

/-- Resolve the faults of the pages of a copy's runs, sources before destinations. -/
def State.resolveCopy (s : State) (c : Copy) (segs : List Seg) : State × Resolved × Nat :=
  let who := Asker.other (.copyComplete c.id) (.copyFail c.id)
  let lid := c.lid.getD 0
  segs.foldl (fun acc g => match acc with
    | (s, .go, _) => match s.resolveAddr c.owner c.die g.src g.len false lid who with
      | (s, .go, _) => s.resolveAddr c.owner c.die g.dst g.len true lid who
      | x => x
    | x => x) (s, .go, 0)

/-- The bytes of a run's source with their places; those that a scratch held when its crew left have none (R289). -/
def State.segSource (s : State) (owner : Nat) (g : Seg) : Except Cause (List (Option Loc × Byte)) :=
  match g.src with
  | .kept bs => .ok (bs.map fun b => (none, b))
  | a => match s.enginePlaces owner false a g.len with
    | .ok ls => .ok (ls.map fun l => (some l, s.locRead owner l))
    | .error c => .error c

/-- The places of a run's destination; a scratch whose crew has left takes nothing. -/
def State.segDest (s : State) (owner : Nat) (g : Seg) : Except Cause (List (Option Loc)) :=
  match s.enginePlaces owner true g.dst g.len with
  | .ok ls => .ok (ls.map some)
  | .error .scratchRange => .ok (List.replicate g.len none)
  | .error c => .error c

/-- Move the bytes of some runs of a copy: all are read, then all written; where one meets an error none is written. -/
def State.moveCopy (s : State) (c : Copy) (segs : List Seg) : State × Option (Cause × Nat) :=
  let plan := segs.foldr (fun g acc => match s.segSource c.owner g, s.segDest c.owner g, acc with
    | .ok a, .ok b, .ok r => .ok (a.zip b ++ r)
    | .error e, _, _ => .error e
    | _, .error e, _ => .error e
    | _, _, .error e => .error e) (Except.ok [] : Except Cause (List ((Option Loc × Byte) × Option Loc)))
  match plan with
  | .error e => (s, some (e, 0))
  | .ok xs =>
    let reads := xs.filterMap fun x => x.1.1
    if reads.any s.placeUe then (s, some (.memoryUe, 0))
    else
      (xs.foldl (fun s x => match x.2 with
        | some l => s.locWrite c.owner l [x.1.2]
        | none => s) (s.countSoft (s.softAt reads)), none)

/-- An engine's or a packet's event waits for room in the dirty-page log (R164). -/
def State.logWait (s : State) (owner : Nat) (i : Instr) : State :=
  s.modTenant owner fun t => { t with logWait := t.logWait.filter (· != i) ++ [i] }

/-- Some runs of a copy, once their pages are there and logged, are moved; the copy ends when none is left. -/
def State.performCopy (s : State) (c : Copy) (segs rest : List Seg) : State :=
  let set (s : State) (f : Copy → Copy) : State := { s with copies := updWhere s.copies (fun x => x.id == c.id) f }
  match s.resolveCopy c segs with
  | (s, .go, _) => match s.logPages c.owner c.die (segs.flatMap fun g => s.rangePages c.owner g.dst g.len) with
    | (s, true) => match s.moveCopy c segs with
      | (s, none) => if rest.isEmpty then s.endCopy c none else set s fun x => { x with segs := rest }
      | (s, some e) => s.endCopy c (some e)
    | (s, false) => (s.logWait c.owner (.copyComplete c.id)).postOnce (.dirtyLogFull c.owner)
  | (s, .fail, va) => s.endCopy c (some (.pageUnresolved, va))
  | (s, _, va) => set s fun x => { x with fault := va }

/-- `COPY_COMPLETE`: once its engine has come to it, a copy's bytes are performed. The copy of an owner that is switched out waits for
its switch-in (R64). -/
def execCopyComplete (id : Nat) (s : State) : Host.Outcome State Fault Refusal :=
  .next <| match s.copies.find? fun c => c.id == id with
  | none => s
  | some c => if s.tenantRuns c.owner && s.copyRuns c then s.performCopy c c.segs [] else s

/-- The address k bytes on. -/
def CAddr.plus : CAddr → Nat → CAddr
  | .glb va, k => .glb (va + k)
  | .scr cid off, k => .scr cid (off + k)
  | .cmn a, k => .cmn (a + k)
  | .kept bs, k => .kept (bs.drop k)

/-- The first 1 MiB of a run, as an engine's chunk (R165), and what is left of the run. -/
def Seg.chunk (g : Seg) : Seg × List Seg :=
  if g.len ≤ 2 ^ 20 then (g, [])
  else
    let now : CAddr := match g.src with | .kept bs => .kept (bs.take (2 ^ 20)) | a => a
    ({ g with src := now, len := 2 ^ 20 }, [⟨g.src.plus (2 ^ 20), g.dst.plus (2 ^ 20), g.len - 2 ^ 20⟩])

/-- A copy in flight whose tenant stops finishes its current chunk; what is left is its cursor (R64). -/
def State.finishChunk (s : State) (c : Copy) : State :=
  match c.segs with
  | g :: gs => if s.copyRuns c then s.performCopy c [g.chunk.1] (g.chunk.2 ++ gs) else s
  | [] => s

/-- Start a copy: it is queued to an engine of the die of its destination, in turn (R165). -/
def State.startCopy (s : State) (owner : Nat) (lid : Option Nat) (weave : Option (Nat × Nat)) (d : Nat) (segs : List Seg)
    (fin : CopyEnd) : State :=
  let s := s.newId
  let e := (s.die d).nextEngine
  let s := s.modDie d fun x => { x with nextEngine := (e + 1) % 16 }
  { s with copies := s.copies ++ [Copy.mk s.ids owner lid weave d e segs 0 fin] }.post (.copyComplete s.ids)

/-- The die whose engines take a copy to an address (R165). -/
def State.engineDie (s : State) (owner home : Nat) : CAddr → Nat
  | .glb va => match s.devicePa owner (va % 2 ^ 52) true with
    | .ok pa => paDie pa
    | .error _ => home
  | .scr _ _ | .kept _ => home
  | .cmn x => x / 2 ^ 26 % 4

/-- A descriptor's registers. -/
def Weave.run8 (w : Weave) (o : Operand) : List Word := (List.range 8).map fun k => w.readG 0 (o.plus k)
def pairAt (xs : List Word) (k : Nat) : Nat := (nthD xs k 0).toNat + 2 ^ 32 * (nthD xs (k + 1) 0).toNat

/-- SSP, DSP and CW of CTL (R353). -/
def copySsp (f : EForm) : Nat := bitsOf f.ctl.toNat 0 2
def copyDsp (f : EForm) : Nat := bitsOf f.ctl.toNat 2 2
def copyCw (f : EForm) : Bool := f.ctl.getLsbD 4

/-- An address in a space, as the issuing crew names it. -/
def caddr (sp cid a : Nat) : CAddr :=
  match sp with
  | 0 => .glb a
  | 1 => .scr cid a
  | _ => .cmn a

/-- The faulting VA of a range: an offset in a local space is none (R227, log entry 25). -/
def CAddr.va : CAddr → Nat
  | .glb x => x
  | _ => 0

/-- The range check of an address at issue (R354). -/
def State.rangeCheck (s : State) (c : Crew) (a : CAddr) (n : Nat) : Option Cause :=
  if n = 0 then none
  else match a with
    | .glb x => if 2 ^ 52 < x + n then some .addrNoncanon else none
    | .scr _ off => if s.inWindow c off n then none else some .scratchRange
    | .kept _ => none
    | .cmn x =>
      let mib := match s.tenant? c.owner with | some t => t.commonsMib | none => 0
      if 2 ^ 28 ≤ x || mib * 2 ^ 20 < x % 2 ^ 26 + n then some .commonsRange else none

/-- The first of some failing checks by R226, with its lanes and each lane's address. -/
def worstOf (xs : List (Cause × Mask × Nat)) : Option (Cause × Mask × List DWord) :=
  match xs with
  | [] => none
  | x :: ys =>
    let best := (ys.foldl (fun b y => if causeRank y.1 < causeRank b.1 then y else b) x).1
    let hits := xs.filter fun y => y.1 == best
    some (best, hits.foldl (fun m y => m ||| y.2.1) 0, laneList.map fun i => match hits.find? fun y => y.2.1.getLsbD i with
      | some y => BitVec.ofNat 64 y.2.2
      | none => 0)

/-- `CPY`, `CPYG` and `CPYS` past their own checks: the ranges, then the start. `parts` are lanes, source, destination. -/
def State.copyStart (s : State) (cid wx : Nat) (w : Weave) (f : EForm) (c : Crew) (core : Nat) (d : List Word)
    (parts : List (Mask × Nat × Nat)) (len : Nat) : State :=
  let segs := parts.map fun x => Seg.mk (caddr (copySsp f) cid x.2.1) (caddr (copyDsp f) cid x.2.2) len
  let off := (nthD d 7 0).toNat
  let all := if f.hd.grp then w.exec else w.actors f.hd
  let bads := (parts.zip segs).flatMap fun (x, g) =>
    (match s.rangeCheck c g.src len with | some e => [(e, x.1, g.src.va)] | none => []) ++
    (match s.rangeCheck c g.dst len with | some e => [(e, x.1, g.dst.va)] | none => [])
  let bads := if copyCw f && (off % 4 != 0 || !s.inWindow c off 4) then bads ++ [(Cause.scratchRange, all, 0)] else bads
  match worstOf bads with
  | some (e, m, vas) => s.memTrap cid wx w e m vas
  | none =>
    if Config.maxTickets ≤ c.inflight then s
    else
      let t := c.ticket
      let w1 := if f.hd.grp then w.putG f.hd.d t else w.putV f.hd.d (w.writers f.hd) (.uni (Lane.ofWord t))
      let note := if f.hd.d == .none then [] else [t]
      let s := (s.putWeave cid wx (w1.note note).next).modCrew cid Crew.issueTicket
      let s := s.wroteRegs cid wx (if w.writers f.hd == 0 then [] else match f.hd.d with | .v n => [n.val] | _ => [])
      let cw := if copyCw f then some (off, nthD d 6 0) else none
      let live := segs.filter fun g => g.len != 0
      match live.head? with
      | none => s.endCopy ⟨0, c.owner, none, none, dieOfCore core, 16, [], 0, .ticket cid t.toNat cw⟩ none
      | some g => s.startCopy c.owner (some c.lid) (some (cid, wx)) (s.engineDie c.owner (dieOfCore core) g.dst) live (.ticket cid t.toNat cw)

/-- Run a copy instruction on its crew and core. A lane form without a writing exec lane moves nothing but is performed
(R354, log entry 29). -/
def State.engine (s : State) (i : Instr) (f : EForm) (run : Nat → Nat → Weave → Crew → Nat → State) :
    Host.Outcome State Fault Refusal :=
  s.issue i fun cid wx w =>
    if neverPasses f.hd || (f.hd.grp && !w.qPass f.hd) then s.skip cid wx w
    else match s.crew? cid with
      | none => s
      | some c => match c.core? with
        | none => s
        | some k => run cid wx w c k

def execCpy (f : EForm) (s : State) : Host.Outcome State Fault Refusal :=
  s.engine (.cpy f) f fun cid wx w c core =>
    let d := w.run8 f.hd.a
    if 2 ^ 40 < pairAt d 4 then s.trap cid wx w .reservedField w.exec
    else s.copyStart cid wx w f c core d [(w.exec, pairAt d 0, pairAt d 2)] (pairAt d 4)

/-- `CPYG` and `CPYS`: one run of bytes for each writing exec lane. -/
def State.copyLanes (s : State) (i : Instr) (f : EForm) (gather : Bool) : Host.Outcome State Fault Refusal :=
  s.engine i f fun cid wx w c core =>
    let d := w.run8 f.hd.b
    let len := pairAt d 4
    if len = 0 || 65536 < len then s.trap cid wx w .reservedField (if w.actors f.hd == 0 then w.exec else w.actors f.hd)
    else
      let off (l : Nat) : Nat := ((w.read f.imm f.hd.a).lane l).val.toNat
      let parts := (maskLanes (w.actors f.hd)).map fun l =>
        if gather then (BitVec.twoPow 32 l, pairAt d 0 + off l, pairAt d 2 + l * len)
        else (BitVec.twoPow 32 l, pairAt d 0 + l * len, pairAt d 2 + off l)
      s.copyStart cid wx w f c core d parts len

def execCpyg (f : EForm) (s : State) : Host.Outcome State Fault Refusal := s.copyLanes (.cpyg f) f true
def execCpys (f : EForm) (s : State) : Host.Outcome State Fault Refusal := s.copyLanes (.cpys f) f false

/-! ## Publish (R168, R356) -/

/-- A copy that a crew issued before `PUBL` number `id` still has bytes to write in a shadow group: its page is mapped to the
group, or is a first-touch page that will be (R152, R158). -/
def State.copyInGroup (s : State) (id cid owner grp : Nat) : Bool :=
  s.copies.any fun c => c.id < id && (match c.fin with | .ticket x _ _ => x == cid | _ => false) && c.segs.any fun g => match g.dst with
    | .glb va => (List.range ((va + g.len - 1) / 2 ^ 16 - va / 2 ^ 16 + 1)).any fun i =>
      match s.walk owner ((va / 2 ^ 16 + i) * 2 ^ 16 % 2 ^ 52) with
      | .leaf l _ => l.sh && l.sgrp == grp
      | .firstTouch _ _ e => e.getLsbD 56 && bitsOf e.toNat 48 8 == grp
      | _ => false
    | _ => false

def execPubl (f : EForm) (s : State) : Host.Outcome State Fault Refusal :=
  s.accord (.publ f) f fun cid wx w _ _ =>
    let grp := (w.scalar f f.hd.a).toNat
    if 256 ≤ grp then s.trap cid wx w .reservedField (w.acting f.hd)
    else
      let s := s.newId
      let s := { s with publs := s.publs ++ [Publ.mk s.ids cid wx grp] }
      (s.putWeave cid wx { w.next with wait := .publ s.ids }).post (.publCommit s.ids)

/-- `PUBL_COMMIT`: the selector flips once the crew's copies into the group are complete. Every die drops its L1 lines of
the group; the model drops all of the owner's (R150, R168, R184). -/
def execPublCommit (id : Nat) (s : State) : Host.Outcome State Fault Refusal :=
  .next <| match s.publs.find? fun p => p.id == id with
  | none => s
  | some p =>
    let owner := s.ownerOf p.cid
    if s.copyInGroup id p.cid owner p.grp then s.post (.publCommit id)
    else
      let s := { s with publs := s.publs.filter fun x => x.id != id }
      let s := s.modTenant owner fun t => { t with shadow := t.shadow ^^^ BitVec.twoPow 256 p.grp }
      let dies := match s.tenant? owner with | some t => s.partDies t.part | none => []
      let s := dies.foldl (fun (s : State) d => (List.range 64).foldl (fun (s : State) i =>
        s.l1Drop (64 * d + i) fun l => l.owner == owner) s) s
      s.modWeave p.cid p.widx fun w => if w.wait = Wait.publ id then { w with wait := .none } else w

/-! ## Collectives (R205, R357) -/

/-- Bytes of an element in memory: a reducing kind holds FP32, a granule is one element. -/
def collBytes (kind wire : Nat) : Nat :=
  if kind ≤ 2 then 4
  else match wire with
    | 1 | 8 | 9 => 4
    | 2 | 3 | 6 | 7 => 2
    | 10 | 11 => 8
    | 13 | 15 => 33
    | 14 => 25
    | _ => 1

/-- The blocks of COUNT elements that a rank reads and writes. -/
def Part.reads (p : Part) : Nat :=
  match p.kind with
  | 2 | 7 => p.n
  | 3 => if p.rank = p.root then 1 else 0
  | 6 => if p.rank = p.root then p.n else 0
  | _ => 1
def Part.writes (p : Part) : Nat :=
  match p.kind with
  | 1 => if p.rank = p.root then 1 else 0
  | 4 => if p.rank = p.root then p.n else 0
  | 5 | 7 => p.n
  | _ => 1

/-- Bytes of a block. -/
def Part.block (p : Part) : Nat := p.count * collBytes p.kind p.wire

/-- Round an FP32 contribution to the wire format, combine two, and widen a result: FP32 or BF16 (R205). -/
def wireIn (wire : Nat) (x : Nat) : Nat := if wire = 2 then bf16.round 0 false (fp32.decode x) else x
def wireOp (wire op : Nat) (x y : Word) : Word :=
  let m := if wire = 2 then bf16 else fp32
  BitVec.ofNat 32 (match op with
    | 0 => m.round 0 false ((m.decode x.toNat).add 0 (m.decode y.toNat))
    | 1 => m.minmax false x.toNat y.toNat
    | _ => m.minmax true x.toNat y.toNat)
def wireOut (wire : Nat) (x : Word) : Word := if wire = 2 then x <<< 16 else x

/-- Levels of the tree over n ranks. -/
def treeLevels (n : Nat) : Nat := if n ≤ 1 then 0 else (n - 1).log2 + 1

/-- The reduction of one element over the ranks' values. -/
def collReduce (wire op : Nat) (xs : List Nat) : Word :=
  let cs := xs.map fun x => some (BitVec.ofNat 32 (wireIn wire x))
  let pad := List.replicate (2 ^ treeLevels xs.length - xs.length) none
  wireOut wire ((redTree (wireOp wire op) (treeLevels xs.length) (cs ++ pad)).getD 0)

/-- What a rank writes, from every rank's source bytes in rank order. -/
def collResult (p : Part) (src : List (List Byte)) : List Byte :=
  let b := p.block
  let reduced (base : Nat) : List Byte := (List.range p.count).flatMap fun i =>
    bytesLE 4 (collReduce p.wire p.op (src.map fun bs => natLE ((bs.drop (base + 4 * i)).take 4))).toNat
  match p.kind with
  | 0 => reduced 0
  | 1 => if p.rank = p.root then reduced 0 else []
  | 2 => reduced (p.rank * b)
  | 3 => nthD src p.root []
  | 4 => if p.rank = p.root then src.flatten else []
  | 5 => src.flatten
  | 6 => ((nthD src p.root []).drop (p.rank * b)).take b
  | _ => src.flatMap fun bs => (bs.drop (p.rank * b)).take b

/-- Two participants agree. -/
def Part.agrees (a b : Part) : Bool :=
  a.kind == b.kind && a.wire == b.wire && a.op == b.op && a.count == b.count && a.n == b.n && a.root == b.root && a.rank != b.rank

/-- The operations of some participants end. -/
def State.endParts (s : State) (ps : List Part) (ok : Bool) : State := ps.foldl (fun s p => s.endTicket p.cid p.ticket ok) s

/-- A participant joins the collective of its launch and TAG. -/
def State.joinColl (s : State) (owner lid : Nat) (tag : Word) (p : Part) : State :=
  let mine (c : Coll) : Bool := c.lid == lid && c.tag == tag && !c.posted
  let info (s : State) : State := s.event owner { cls := .info, cause := .noCause, src := p.die }
  match s.colls.find? mine with
  | none =>
    let home (l : Nat) : Option Nat := (s.launch? l).bind (·.recDie)
    if 4096 ≤ (s.colls.filter fun c => home c.lid == home lid).length then info (s.endTicket p.cid p.ticket false)
    else
      let s := s.newId
      let c : Coll := ⟨s.ids, lid, tag, [p], false, p.n == 1, 0⟩
      let s := { s with colls := s.colls ++ [c] }
      if p.n = 1 then s.post (.collectiveComplete s.ids) else s
  | some c =>
    let ps := c.parts ++ [p]
    let set (x : Coll) : State := { s with colls := updWhere s.colls (fun y => y.id == c.id) fun _ => x }
    let n := ((c.parts.head?).map (·.n)).getD 0
    if c.failed then
      let s := s.endTicket p.cid p.ticket false
      if ps.length = n then { s with colls := s.colls.filter fun y => y.id != c.id }
      else { s with colls := updWhere s.colls (fun y => y.id == c.id) fun y => { y with parts := ps } }
    else if c.parts.all fun x => x.agrees p then
      if ps.length = n then (set { c with parts := ps, posted := true }).post (.collectiveComplete c.id)
      else set { c with parts := ps }
    else
      let s := info ((set { c with parts := ps, failed := true }).endParts ps false)
      if ps.length = n then { s with colls := s.colls.filter fun y => y.id != c.id } else s

def execColl (f : EForm) (s : State) : Host.Outcome State Fault Refusal :=
  s.accord (.coll f) f fun cid wx w c core =>
    let d := w.run8 f.hd.a
    let kind := bitsOf f.ctl.toNat 0 3
    let p : Part :=
      { cid := cid, ticket := c.ticket.toNat, die := dieOfCore core, kind := kind, wire := bitsOf f.ctl.toNat 3 4,
        op := bitsOf f.ctl.toNat 7 2, src := pairAt d 0, dst := pairAt d 2, count := (nthD d 4 0).toNat,
        rank := (nthD d 5 0).toNat, n := (nthD d 6 0).toNat, root := (w.scalar f f.hd.c).toNat }
    let rooted := kind = 1 || kind = 3 || kind = 4 || kind = 6
    if p.n = 0 || 65536 < p.n || p.n ≤ p.rank || (rooted && p.n ≤ p.root) then s.trap cid wx w .reservedField w.exec
    else
      let bad (a n : Nat) : Bool := (s.rangeCheck c (.glb a) n).isSome
      if bad p.src (p.reads * p.block) then s.groupTrap cid wx w .addrNoncanon p.src
      else if bad p.dst (p.writes * p.block) then s.groupTrap cid wx w .addrNoncanon p.dst
      else if Config.maxTickets ≤ c.inflight then s
      else
        let note := if f.hd.d == .none then [] else [c.ticket]
        let s := (s.putWeave cid wx ((w.putG f.hd.d c.ticket).note note).next).modCrew cid Crew.issueTicket
        if p.count = 0 then s.endTicket cid p.ticket true else s.joinColl c.owner c.lid (nthD d 7 0) p

/-- The participants in rank order. -/
def Coll.ranks (c : Coll) : List Part :=
  let n := ((c.parts.head?).map (·.n)).getD 0
  (List.range n).filterMap fun r => c.parts.find? fun p => p.rank == r

/-- A collective is over. -/
def State.endColl (s : State) (c : Coll) (owner : Nat) (err : Option (Cause × Nat)) : State :=
  let s := { s with colls := s.colls.filter fun x => x.id != c.id }
  let s := match err with
    | some (cause, va) => s.event owner { cls := .page, cause := cause, addr := va }
    | none => s
  (s.endParts c.parts err.isNone).launchCheck c.lid

/-- Resolve the faults of every rank's ranges. -/
def State.resolveColl (s : State) (owner : Nat) (c : Coll) : State × Resolved × Nat :=
  let who := Asker.other (.collectiveComplete c.id) (.copyFail c.id)
  c.parts.foldl (fun acc p => match acc with
    | (s, .go, _) => match s.resolveAddr owner p.die (.glb p.src) (p.reads * p.block) false c.lid who with
      | (s, .go, _) => s.resolveAddr owner p.die (.glb p.dst) (p.writes * p.block) true c.lid who
      | x => x
    | x => x) (s, .go, 0)

/-- The places of every rank's source. -/
def State.collPlaces (s : State) (owner : Nat) (ps : List Part) : List Loc :=
  ps.flatMap fun p => match s.enginePlaces owner false (.glb p.src) (p.reads * p.block) with
    | .ok ls => ls
    | .error _ => []

/-- The bytes of every rank's source, and the places that every rank writes. -/
def State.collSources (s : State) (owner : Nat) : List Part → Except Cause (List (List Byte))
  | [] => .ok []
  | p :: ps => match s.enginePlaces owner false (.glb p.src) (p.reads * p.block), s.collSources owner ps with
    | .ok ls, .ok r => if ls.any s.placeUe then .error .memoryUe else .ok (ls.map (s.locRead owner) :: r)
    | .error e, _ => .error e
    | _, .error e => .error e

def State.collWrites (s : State) (owner : Nat) (src : List (List Byte)) : List Part → Except Cause (List (Loc × Byte))
  | [] => .ok []
  | p :: ps => match s.enginePlaces owner true (.glb p.dst) (p.writes * p.block), s.collWrites owner src ps with
    | .ok ls, .ok r => .ok (ls.zip (collResult p src) ++ r)
    | .error e, _ => .error e
    | _, .error e => .error e

/-- Log the pages that each rank writes, on its own die (R163). -/
def State.logRanks (s : State) (owner : Nat) : List Part → State × Bool
  | [] => (s, true)
  | p :: ps => match s.logPages owner p.die (s.rangePages owner (.glb p.dst) (p.writes * p.block)) with
    | (s, true) => s.logRanks owner ps
    | (s, false) => (s, false)

/-- `COLLECTIVE_COMPLETE`: every rank's sources are read, then every rank's results written (R357). -/
def execCollectiveComplete (id : Nat) (s : State) : Host.Outcome State Fault Refusal :=
  .next <| match s.colls.find? fun c => c.id == id with
  | none => s
  | some c =>
    let owner := match s.launch? c.lid with | some l => l.owner | none => 0
    if !s.tenantRuns owner then s else match s.resolveColl owner c with
    | (s, .go, _) =>
      let ps := c.ranks
      match s.logRanks owner ps with
      | (s, false) =>
        (s.logWait owner (.collectiveComplete id)).postOnce (.dirtyLogFull owner)
      | (s, true) => match s.collSources owner ps with
        | .error e => s.endColl c owner (some (e, 0))
        | .ok src => match s.collWrites owner src ps with
          | .error e => s.endColl c owner (some (e, 0))
          | .ok ws =>
            let s := s.countSoft (s.softAt (s.collPlaces owner ps))
            (ws.foldl (fun s x => s.locWrite owner x.1 [x.2]) s).endColl c owner none
    | (s, .fail, va) => s.endColl c owner (some (.pageUnresolved, va))
    | (s, _, va) => { s with colls := updWhere s.colls (fun x => x.id == id) fun x => { x with fault := va } }

/-- `COPY_FAIL`: the host has answered FAIL to the fault of a copy or of a collective, at the VA that faulted (R41, R160, R166). -/
def execCopyFail (id : Nat) (s : State) : Host.Outcome State Fault Refusal :=
  .next <| match s.copies.find? fun c => c.id == id with
  | some c => s.endCopy c (some (.pageUnresolved, c.fault))
  | none => match s.colls.find? fun c => c.id == id with
    | some c => s.endColl c (match s.launch? c.lid with | some l => l.owner | none => 0) (some (.pageUnresolved, c.fault))
    | none => s

end Sys2Proof.Machine
end

