-- ==== Sys2Proof/Machine/Work.lean ====
section
/-! DEFINITION. Machine/Work.lean: `EMIT`, `ENQ`, `RTAKE`, `RSPLIT` (R97 to R99, R358 to R360), the channel instructions
(R361, R362) and the system instructions (R233, R363, R365). -/

namespace Sys2Proof.Machine

/-! ## Continuations (R97, R358) -/

/-- Records of a bin, bins of a buffer, records of a buffer (log entry 30). -/
def binDepth : Nat := 64
def binCount : Nat := 64
def bufferDepth : Nat := 4096

/-- A launch's bins on a die. -/
def Launch.binsOn (l : Launch) (d : Nat) : List Bin := l.bins.filter fun b => b.die == d

/-- Records in a launch's buffer on a die. -/
def Launch.buffered (l : Launch) (d : Nat) : Nat := ((l.binsOn d).map fun b => b.recs.length).sum

/-- The lowest bin number of a die that is free. -/
def freeBin (bs : List Bin) : Option Nat := (List.range binCount).find? fun k => !bs.any fun b => b.bin == k

/-- Put a record in the bin of its ENTRY, or in a free bin; nothing when there is no room. -/
def Launch.putRecord (l : Launch) (d now : Nat) (entry : Pc) (args : List DWord) : Option Launch :=
  if bufferDepth ≤ l.buffered d then none
  else match l.bins.find? fun b => b.die == d && b.entry == entry with
    | some b =>
      if binDepth ≤ b.recs.length then none
      else some { l with bins := updWhere l.bins (fun x => x.die == d && x.entry == entry) fun x =>
        { x with recs := x.recs ++ [args], joined := now } }
    | none => (freeBin (l.binsOn d)).map fun k => { l with bins := l.bins ++ [Bin.mk d k entry [args] now] }

/-- Put records in order: all or none. -/
def Launch.putRecords (l : Launch) (d now : Nat) : List (Pc × List DWord) → Option Launch
  | [] => some l
  | x :: xs => (l.putRecord d now x.1 x.2).bind fun l => l.putRecords d now xs

def execEmit (f : EForm) (s : State) : Host.Outcome State Fault Refusal :=
  s.accord (.emit f) f fun cid wx w c core =>
    let d := dieOfCore core
    let lanes := maskLanes (w.actors f.hd)
    let entry (i : Nat) : DWord := w.wideLane f.imm false f.hd.b i
    let bad (p : Nat → Bool) : Mask := maskOf fun i => lanes.contains i && p i
    let odd := bad fun i => (entry i).toNat % 16 != 0
    let far := bad fun i => (entry i).toNat / 2 ^ 52 != 0
    if odd != 0 then s.trap cid wx w .pcMisaligned odd
    else if far != 0 then s.memTrap cid wx w .addrNoncanon far (laneList.map fun i => if far.getLsbD i then entry i else 0)
    else
      let recs := lanes.map fun i => ((entry i).setWidth 52, (List.range 6).map fun j => w.wideLane f.imm false (f.hd.a.plus (2 * j)) i)
      match s.launch? c.lid with
      | none => s
      | some l => match l.putRecords d s.now recs with
        | none => s.waitOn cid wx (.emit (recs.map (·.1)))
        | some l' =>
          let s := (s.putWeave cid wx w.next).modLaunch c.lid fun _ => l'
          (l'.binsOn d).foldl (fun s b =>
            let s := if b.joined = s.now then s.after 2000 (.continuationRelease c.lid d b.bin) else s
            if 32 ≤ b.recs.length then s.postOnce (.continuationRelease c.lid d b.bin) else s) s

/-! ## Queues (R37, R98, R359) -/

/-- A queue fetches and starts packets: it is ACTIVE, in no halted scope, and its tenant is switched in (R36, R64). -/
def State.serves (s : State) (q : Queue) : Bool :=
  q.state == .active && !q.halted && s.tenantRuns q.owner

/-- A queue reads the packets that it can see (R37): each read that is sent returns, whatever becomes of the queue, unless a
DESTROY stops it (R48). -/
def State.pokeQueue (s : State) (qn : Nat) : State :=
  match s.queue? qn with
  | none => s
  | some q =>
    let n := q.tail - (q.head + q.reading)
    if s.serves q && n != 0 then
      { (s.modQueue qn fun q => { q with reading := q.reading + n }) with pending := s.pending ++ List.replicate n (.packetRead qn) }
    else s

/-- The VA of a ring slot. -/
def Queue.slotVa (q : Queue) (i : Nat) : Nat := (q.ring + 64 * (i % 2 ^ q.log2n)) % 2 ^ 52

/-- HEAD has advanced: the weaves that wait in `ENQ` for room are served again. -/
def State.wakeEnq (s : State) (qn : Nat) : State :=
  s.crews.foldl (fun s c => (List.range c.weaves.length).foldl (fun s j => match s.weave? c.cid j with
    | some w => if w.wait = .enq qn then (s.wake c.cid j none).retryPlace c.cid else s
    | none => s) s) s

/-- The issuing core's copy of the line at a VA goes: the instruction wrote it past L1 (R173). -/
def State.dropVa (s : State) (core owner va : Nat) : State :=
  match s.devicePa owner va true with
  | .ok pa => s.l1Drop core fun l => l.covers owner pa
  | .error _ => s

/-- The die of the queues' home banks, which write the slots of `ENQ` and log their pages (R98, R163). -/
def enqDie : Nat := 0

/-- `ENQ` (R98): refused, or waiting for room in the ring or in the dirty-page log (R164), or written. -/
def execEnq (f : EForm) (s : State) : Host.Outcome State Fault Refusal :=
  s.accord (.enq f) f fun cid wx w c core =>
    let n := (w.scalar f f.hd.b).toNat
    let bytes := (List.range 16).flatMap fun k => bytesLE 4 (w.readG f.imm (f.hd.a.plus k)).toNat
    match s.queue? n with
    | none => s.trap cid wx w .enqRefused w.exec
    | some q =>
      if q.owner != c.owner || q.state != .active then s.trap cid wx w .enqRefused w.exec
      else if q.head + 2 ^ q.log2n ≤ q.res then s.waitOn cid wx (.enq n)
      else
        let va := q.slotVa q.res
        match s.deviceWrite c.owner va bytes with
        | .error _ => s.trap cid wx w .enqRefused w.exec
        | .ok _ => match s.logPages c.owner enqDie (s.rangePages c.owner (.glb va) 64) with
          | (s, false) => (s.modWeave cid wx fun w => { w with wait := .dirtyLog, tried := 0 }).postOnce (.dirtyLogFull c.owner)
          | (s, true) => match (s.putWeave cid wx (s.woke cid wx w).next).deviceWrite c.owner va bytes with
            | .error _ => s.trap cid wx w .enqRefused w.exec
            | .ok s =>
              let s := s.dropVa core c.owner va
              ((s.modQueue n fun q => { q with res := q.res + 1, tail := q.res + 1 }).syncQueue n).pokeQueue n

/-! ## Range work (R99, R360) -/

/-- Put a crew before those placed or restored later. -/
def insertPlaced (c : Crew) : List Crew → List Crew
  | [] => [c]
  | x :: xs => if x.placed ≤ c.placed then x :: insertPlaced c xs else c :: x :: xs

/-- The resident crews of a launch on a core, earliest placed first. A crew whose save or restore is in progress is not asked (log
entry 103). -/
def State.crewsOn (s : State) (core lid : Nat) : List Crew :=
  (s.crews.filter fun c => c.core? == some core && c.lid == lid).foldl (fun acc c => insertPlaced c acc) []

/-- The crews that a thief asks, in order: the cores after its own, wrapping, its own last. -/
def State.stealOrder (s : State) (c : Crew) (core : Nat) : List Crew :=
  (List.range 64).flatMap fun j =>
    (s.crewsOn (core / 64 * 64 + (core + j + 1) % 64) c.lid).filter fun x => x.cid != c.cid

/-- A crew without indices takes the upper half of the first victim's. -/
def State.steal (s : State) (c : Crew) (core : Nat) : State :=
  match (s.stealOrder c core).find? fun v => v.lo.toNat + 2 ≤ v.hi.toNat with
  | none => s
  | some v =>
    let mid : DWord := BitVec.ofNat 64 (v.lo.toNat + (v.hi.toNat - v.lo.toNat + 1) / 2)
    (s.modCrew v.cid fun x => { x with hi := mid }).modCrew c.cid fun x => { x with lo := mid, hi := v.hi }

def execRtake (f : EForm) (s : State) : Host.Outcome State Fault Refusal :=
  s.accord (.rtake f) f fun cid wx w c core =>
    let n := (w.scalar f f.hd.b).toNat
    let s := if n != 0 && c.lo == c.hi then s.steal c core else s
    match s.crew? cid with
    | none => s
    | some c =>
      let m := min n (c.hi.toNat - c.lo.toNat)
      let xs : List Word := [c.lo.setWidth 32, (c.lo >>> 32).setWidth 32, BitVec.ofNat 32 m]
      (s.putWeave cid wx ((w.putGRun f.hd.d xs).note xs).next).modCrew cid fun c => { c with lo := c.lo + BitVec.ofNat 64 m }

def execRsplit (f : EForm) (s : State) : Host.Outcome State Fault Refusal :=
  s.accord (.rsplit f) f fun cid wx w _ _ =>
    let lo := w.wideG f.imm false f.hd.a
    let hi := w.wideG f.imm false f.hd.b
    (s.putWeave cid wx w.next).modCrew cid fun c => { c with lo := lo, hi := if hi.toNat < lo.toNat then lo else hi }

/-! ## Channels (R361, R362) -/

/-- Half h of a ring, and a change to it. -/
def Ring.half (r : Ring) (h : Nat) : Half := if h = 0 then r.h0 else r.h1
def Ring.modHalf (r : Ring) (h : Nat) (f : Half → Half) : Ring :=
  if h = 0 then { r with h0 := f r.h0 } else { r with h1 := f r.h1 }

/-- The scratch offset, in the crew's window, of slot k of a half. -/
def Ring.slot (r : Ring) (h k : Nat) : Nat := r.base + (h * r.rate + k) * 2 ^ r.rlog2

/-- An address of the crew's own window as the crew names it. -/
def State.ownAddr (s : State) (c : Crew) (off : Nat) : Nat := windowAddr (s.windows c) c.cid off

def Crew.ring? (c : Crew) (chan : Nat) (input : Bool) : Option Ring := c.rings.find? fun r => r.chan == chan && r.input == input
def Crew.modRing (c : Crew) (chan : Nat) (input : Bool) (f : Ring → Ring) : Crew :=
  { c with rings := updWhere c.rings (fun r => r.chan == chan && r.input == input) f }

/-- `RPOP` and `RPUSH`: the next slot of a ring, with bit 31 set when it is not ready. -/
def State.ringNext (s : State) (i : Instr) (f : EForm) (input : Bool) : Host.Outcome State Fault Refusal :=
  s.accord i f fun cid wx w c _ =>
    let chan := (w.scalar f f.hd.b).toNat
    match c.stage, c.ring? chan input with
    | some _, some r =>
      if r.cnt = r.rate then s.trap cid wx w .rateMismatch (w.acting f.hd)
      else
        let h := c.f % 2
        let x := r.half h
        let ready := if input then x.firing == c.f && r.cnt < x.recs else !x.busy
        let off := s.ownAddr c (r.slot h r.cnt)
        let v : Word := BitVec.ofNat 32 (if ready then off else 2 ^ 31 + off)
        let w1 := if ready then w else { w with spin := { w.spin with loads := w.spin.loads ++ [SpinLoad.mk none false []] } }
        let s := s.putWeave cid wx ((w1.putG f.hd.d v).note [v]).next
        if ready then s.modCrew cid fun c => c.modRing chan input fun r => { r with cnt := r.cnt + 1 } else s
    | _, _ => s.trap cid wx w .channelRange (w.acting f.hd)

def execRpop (f : EForm) (s : State) : Host.Outcome State Fault Refusal := s.ringNext (.rpop f) f true
def execRpush (f : EForm) (s : State) : Host.Outcome State Fault Refusal := s.ringNext (.rpush f) f false

/-- PLEN, firings of a stage in a period, crews of a stage. -/
def Graph.plen (g : Graph) : Nat := g.table.length
def Graph.q (g : Graph) (stg : Nat) : Nat := nthD g.qv stg 0
def Graph.crewsOf (g : Graph) (stg : Nat) : Nat := (nthD g.stages stg (0, 1)).2

/-- The number, counted over the periods in table order, of firing n of a stage (R84). -/
def Graph.firingNo (g : Graph) (stg n : Nat) : Option Nat :=
  let q := g.q stg
  if q = 0 then none else (g.table.idxOf? (stg, n % q)).map fun e => n / q * g.plen + e

/-- Ask the feeders of a graph's live instances, and their releases, to look again. -/
def State.pokeGraph (s : State) (gid : Nat) : State :=
  match s.graph? gid with
  | none => s
  | some g => g.insts.foldl (fun s i => (List.range g.chans.length).foldl (fun s c =>
      s.postOnce (.feederMove gid i.id c)) (s.postOnce (.firingRelease gid i.id))) s

/-- A crew of a stage has ended its firing F. -/
def State.firingDone (s : State) (gid inst stg k f : Nat) : State :=
  match s.graph? gid with
  | none => s
  | some g => match g.firingNo stg (f * g.crewsOf stg + k) with
    | none => s
    | some e => (s.modGraph gid fun g =>
        { g with insts := updWhere g.insts (fun i => i.id == inst) fun (i : Inst) => { i with doneF := i.doneF ++ [e] } }).pokeGraph gid

/-- An input half is free for its next firing once all its records have come and the crew, whose firing is `f`, has ended
theirs (R362). -/
def Half.release (h : Half) (rate f : Nat) : Half :=
  if h.recs = rate && h.firing < f then ⟨h.firing + 2, 0, false⟩ else h

/-- A half after `RDONE` of firing f: an output half goes to its feeder; an input half may be free. -/
def Ring.finish (r : Ring) (f : Nat) : Ring :=
  { r.modHalf (f % 2) fun h => if r.input then h.release r.rate (f + 1) else ⟨f, r.rate, true⟩ with cnt := 0 }

def execRdone (f : EForm) (s : State) : Host.Outcome State Fault Refusal :=
  s.accord (.rdone f) f fun cid wx w c _ =>
    match c.stage with
    | none => s.trap cid wx w .channelRange (w.acting f.hd)
    | some (gid, inst, stg, k) =>
      if c.rings.any fun r => !r.input && r.cnt != r.rate then s.trap cid wx w .rateMismatch (w.acting f.hd)
      else
        let s := (s.putWeave cid wx w.next).modCrew cid fun c => { c with f := c.f + 1, rings := c.rings.map fun (r : Ring) => r.finish c.f }
        s.firingDone gid inst stg k c.f

/-! ## System (R233, R244, R363, R365) -/

/-- Registers h and hg are not preserved past `TRET`: they take free values (R233, log entry 3). -/
def Weave.scrubSup (w : Weave) (n : Nat) : Weave :=
  { w with
    h := (List.range 16).map fun r => laneList.map fun i => ⟨Config.freeWord n (32 * r + i), Config.freeBit n (32 * r + i)⟩
    hg := (List.range 16).map fun r => Config.freeWord n (512 + r) }

/-- Return from a trap: `TRET`, by the resident handler or as an instruction (R233). -/
def State.tret (s : State) (cid wx : Nat) (w : Weave) : State :=
  ((s.draw).putWeave cid wx ((w.scrubSup s.fresh).tret)).recheckBarrier cid wx

def execTret (f : SForm) (s : State) : Host.Outcome State Fault Refusal :=
  s.issue (.tret f) fun cid wx w => if w.acts f.hd then s.tret cid wx w.next else s.skip cid wx w

def execSvc (f : SForm) (s : State) : Host.Outcome State Fault Refusal :=
  s.issue (.svc f) fun cid wx w =>
    if w.acts f.hd then s.trapAfter cid wx w .service (w.acting f.hd) else s.skip cid wx w

/-- The value that `CSRR` reads; a supervisor CSR reads 0 in user mode. -/
def csrRead (c : Crew) (w : Weave) (n : Nat) : DWord :=
  let sup (x : DWord) : DWord := if w.mode = .super then x else 0
  match n with
  | 0x0010 => (c.hscope.setWidth 64) ||| (if c.attach then 4 else 0)
  | 0x0011 => c.dbgsig
  | 0x0800 => sup (w.hcause.setWidth 64)
  | 0x0801 => sup w.hpc
  | 0x0802 => sup (w.hxm.setWidth 64)
  | 0x0803 => sup (w.hfm.setWidth 64)
  | _ => sup (w.hhm.setWidth 64)

def execCsrr (f : SForm) (s : State) : Host.Outcome State Fault Refusal :=
  s.issue (.csrr f) fun cid wx w =>
    if !w.qPass f.hd then s.skip cid wx w
    else match s.crew? cid with
      | none => s
      | some c =>
        let x := csrRead c w f.csr.toNat
        let w' := w.putGWide f.hd.d (csrWide f.csr.toNat) x
        s.putWeave cid wx (w'.note (w.writtenWords w' (.csrr f))).next

/-- A write that sets a reserved bit, or HSCOPE to 3 (R365). -/
def csrBad (n : Nat) (x : DWord) : Bool :=
  match n with
  | 0x0010 => x.toNat % 4 == 3 || 8 ≤ x.toNat
  | 0x0800 => 2 ^ 9 ≤ x.toNat
  | 0x0801 => 2 ^ 52 ≤ x.toNat
  | _ => false

def execCsrw (f : SForm) (s : State) : Host.Outcome State Fault Refusal :=
  s.issue (.csrw f) fun cid wx w =>
    if !w.qPass f.hd then s.skip cid wx w
    else
      let n := f.csr.toNat
      let x : DWord := if csrWide n then w.wideG f.imm false f.hd.a else (w.readG f.imm f.hd.a).setWidth 64
      if csrBad n x then s.trap cid wx w .reservedField w.exec
      else match n with
        | 0x0010 => (s.putWeave cid wx w.next).modCrew cid fun c => { c with hscope := x.setWidth 2, attach := x.getLsbD 2 }
        | 0x0011 => (s.putWeave cid wx w.next).modCrew cid fun c => { c with dbgsig := x }
        | 0x0800 => s.putWeave cid wx { w with hcause := x.setWidth 32 }.next
        | 0x0801 => s.putWeave cid wx { w with hpc := x }.next
        | 0x0802 => s.putWeave cid wx { w with hxm := x.setWidth 32 }.next
        | 0x0803 => s.putWeave cid wx { w with hfm := x.setWidth 32 }.next
        | _ => s.putWeave cid wx { w with hhm := x.setWidth 32 }.next

end Sys2Proof.Machine
end

