-- ==== Sys2Proof/Machine/Queues.lean ====
section
/-! DEFINITION. Machine/Queues.lean: packets and their validity (R39, R40), packet read and start (R37, R38, R49), doorbells
(R37), `QCMD` CREATE and RESUME (R33 to R36), and the WAITSIG, COPY and NOTE packets (R41, R45). -/

namespace Sys2Proof.Machine

/-! ## Packets (R39, R40) -/

/-- Bits of a packet, and 64-bit word k. -/
def Packet.field (p : Packet) (lo len : Nat) : Nat := bitsOf p.bits.toNat lo len
def Packet.word (p : Packet) (k : Nat) : Nat := p.field (64 * k) 64
def Packet.ty (p : Packet) : Nat := p.field 0 8
def Packet.bar (p : Packet) : Bool := p.bits.getLsbD 8
def Packet.aoe (p : Packet) : Bool := p.bits.getLsbD 9
def Packet.tag (p : Packet) : Nat := p.field 32 32
def Packet.csig (p : Packet) : DWord := BitVec.ofNat 64 (p.word 1)
/-- NSIG, and the signals that a WAITSIG names. -/
def Packet.nsig (p : Packet) : Nat := p.field 448 3
def Packet.sigs (p : Packet) : List DWord := (List.range p.nsig).map fun k => BitVec.ofNat 64 (p.word (2 + k))

/-- A VA: bits above 51 are zero. -/
def vaOk (x : Nat) : Bool := decide (x < 2 ^ 52)

/-- The body of a packet keeps the limits of R40 for its TYPE; a launch record is aligned to 64 bytes (R90, log entry 86). -/
def Packet.bodyOk (p : Packet) : Bool :=
  match p.ty with
  | 1 => vaOk (p.word 2) && p.word 2 % 64 == 0 && vaOk (p.word 3) && p.word 4 != 0 && p.field 320 192 == 0
  | 2 =>
    1 ≤ p.nsig && p.nsig ≤ 5 && p.field 451 61 == 0 && p.sigs.all refOk
      && (List.range 5).all fun k => k < p.nsig || p.word (2 + k) == 0
  | 3 =>
    let a := p.word 2
    let b := p.word 3
    let n := p.word 4
    vaOk a && vaOk b && n ≤ 2 ^ 40 && p.field 320 192 == 0 && (a + n ≤ b || b + n ≤ a || n == 0)
  | 4 =>
    let gop := p.field 128 8
    1 ≤ gop && gop ≤ 4 && p.field 136 56 == 0 && vaOk (p.word 3) && vaOk (p.word 4) && p.field 320 192 == 0
      && (gop == 1 || gop == 3 || p.word 4 == 0)
  | 5 => vaOk (p.word 2) && p.word 2 % 16 == 0 && p.field 257 255 == 0
  | _ => false

/-- A packet that is not invalid (R40, R43). -/
def Packet.valid (p : Packet) : Bool := p.field 10 22 == 0 && (p.csig == 0 || refOk p.csig) && p.bodyOk

/-- The event that starts a packet of a queue. -/
def Packet.startEvent (p : Packet) (q : Nat) : Instr :=
  match p.ty, p.field 128 8 with
  | 1, _ => .launch q p.idx
  | 2, _ => .waitsig q p.idx
  | 3, _ => .copyPacket q p.idx
  | 4, 1 => .bind q p.idx
  | 4, 2 => .run q p.idx
  | 4, 3 => .patch q p.idx
  | 4, _ => .unbind q p.idx
  | _, _ => .note q p.idx

/-! ## Read, start, error (R36 to R38, R49) -/

/-- A queue meets an error of its own: ERROR from ACTIVE, ERRIDX, ERRCAUSE and an error record (R36, R37). -/
def State.queueError (s : State) (qn : Nat) (c : Cause) (idx tag : Nat) : State :=
  match s.queue? qn with
  | none => s
  | some q =>
    let s := s.modQueue qn fun q =>
      { q with state := if q.state = .active then .error else q.state, errIdx := idx, errCause := c }
    (s.syncQueue qn).event q.owner { cls := .packet, cause := c, tag := tag, qnum := qn, pidx := idx }

/-- The graph of an object, made UNBOUND when its first operation comes. -/
def State.graphAt (s : State) (owner gobj : Nat) : State × Nat :=
  match s.graphs.find? fun g => g.owner == owner && g.gobj == gobj with
  | some g => (s, g.gid)
  | none =>
    let s := s.newId
    let g : Graph :=
      { gid := s.ids, owner := owner, gobj := gobj, state := .unbound, next := 0, sref := 0, wsva := 0, parlen := 0, periods := 0,
        done := 0, gcause := .noCause, stages := [], chans := [], qv := [], caps := [], table := [], psoff := 0, boff := 0,
        coff := 0, wsuse := 0, shift := [], held := [], insts := [], waiting := [] }
    ({ s with graphs := s.graphs ++ [g] }, s.ids)

/-- An operation takes its place in an object's line, unless it has one. -/
def Graph.lineUp (g : Graph) (qn idx : Nat) : Graph :=
  if g.waiting.contains (qn, idx) then g else { g with waiting := g.waiting ++ [(qn, idx)] }

/-- A GRAPH packet that starts takes its place in its object's line (R77). -/
def State.graphStart (s : State) (owner qn : Nat) (p : Packet) : State :=
  if p.ty = 4 then
    let r := s.graphAt owner (p.word 3)
    r.1.modGraph r.2 fun g => g.lineUp qn p.idx
  else s

/-- Start the packets that may start, in index order: at most 16 are started and incomplete, and a BAR packet waits for
all before it (R38). An invalid packet is discarded (R40). -/
def State.startQueue (s : State) (qn : Nat) : Nat → State
  | 0 => s
  | fuel + 1 =>
    match s.queue? qn with
    | none => s
    | some q => match q.ready with
      | [] => s
      | p :: rest =>
        if !s.serves q || 16 ≤ q.started.length || (p.bar && !q.started.isEmpty) then s
        else
          let s := s.modQueue qn fun q => { q with ready := rest }
          if p.valid then
            let s := s.newId
            let st : Started := ⟨p, if p.ty = 2 then p.sigs.eraseDups else [], false, p.ty == 4, s.ids, none⟩
            (((s.modQueue qn fun q => { q with started := q.started ++ [st] }).graphStart q.owner qn p).post (p.startEvent qn)).startQueue
              qn fuel
          else s.queueError qn .packetInvalid p.idx p.tag

/-- Start what may start and read on. -/
def State.pumpQueue (s : State) (qn : Nat) : State := (s.startQueue qn 16).pokeQueue qn

/-- Every queue of an owner goes on. -/
def State.pumpOwner (s : State) (owner : Nat) : State :=
  ((s.queues.filter fun q => q.owner == owner).map (·.q)).foldl State.pumpQueue s

/-- A started packet of a queue whose completion is not on its way. -/
def State.openPacket (s : State) (qn idx : Nat) : Option (Queue × Packet) :=
  (s.queue? qn).bind fun q => (q.started.find? fun p => p.pkt.idx == idx && !p.posted).map fun p => (q, p.pkt)

/-- `PACKET_READ`: the 64 bytes return in one access and HEAD advances, or the read returns a fault; the reads after one that
returned a fault are sent again when it has been taken (R49). -/
def execPacketRead (qn : Nat) (s : State) : Host.Outcome State Fault Refusal :=
  .next <| match s.queue? qn with
  | none => s
  | some q =>
    if q.reading = 0 || q.fault.isSome then s
    else match s.deviceRead q.owner (q.slotVa q.head) 64 with
      | .error _ => (s.modQueue qn fun q => { q with fault := some q.head }).post (.queueFetchFault qn)
      | .ok bs =>
        let p : Packet := ⟨q.head, BitVec.ofNat 512 (natLE bs)⟩
        let s := (s.countSoft (s.softDevice q.owner (q.slotVa q.head) 64)).markUsed q.owner (q.slotVa q.head) 64
        let s := s.modQueue qn fun q => { q with head := q.head + 1, reading := q.reading - 1, ready := q.ready ++ [p] }
        ((s.syncQueue qn).wakeEnq qn).pumpQueue qn

/-- `QUEUE_FETCH_FAULT`: HEAD stays at the packet whose read faulted, and that read and those after it are sent again (R49). A queue
that has been destroyed meanwhile has no such read. -/
def execQueueFetchFault (qn : Nat) (s : State) : Host.Outcome State Fault Refusal :=
  .next <| match (s.queue? qn).bind Queue.fault with
  | none => s
  | some idx => (s.modQueue qn fun q => { q with reading := 0, fault := none }).queueError qn .queueFetchFault idx 0

/-! ## Doorbells (R37, R98) -/

/-- A context's owner. -/
def State.ctxOwner (s : State) (ctx : Nat) : Nat := ((s.ctx? ctx).map (·.owner)).getD 255

/-- A tail-pointer write of T takes effect. -/
def State.tailWrite (s : State) (owner qn t : Nat) : State :=
  match s.queue? qn with
  | none => s
  | some q =>
    if q.owner != owner || q.state == .free || t ≤ q.tail || t ≤ q.res then s
    else if q.head + 2 ^ q.log2n < t then s.queueError qn .queueOverrun t 0
    else ((s.modQueue qn fun q => { q with tail := t, res := t }).syncQueue qn).pokeQueue qn

/-- `TAIL_POINTER_WRITE`. -/
def execTailPointerWrite (m : Msg) (qn : Nat) (t : DWord) (s : State) : Host.Outcome State Fault Refusal :=
  .next <| s.whenCovered m (.tailPointerWrite m qn t) fun s =>
    (s.perform m).tailWrite (s.ctxOwner m.ctx) qn t.toNat

/-! ## `QCMD` (R33 to R36) -/

def QState.code : QState → Nat
  | .free => 0
  | .active => 1
  | .aborted => 2
  | .error => 3
  | .draining => 4

/-- The outcome of a `QCMD` in `QRES`; QSTATE is reported for STATUS 0, 2 and 3. -/
def State.putQres (s : State) (m : Msg) (qn status : Nat) : State :=
  let st := if status = 1 || status = 4 then 0 else ((s.queue? qn).map fun q => q.state.code).getD 0
  s.modCtx m.ctx fun c => { c with seq := c.seq + 1, qstate := BitVec.ofNat 8 st, status := BitVec.ofNat 8 status }

/-- QNUM, CMD and the reserved bits of a `QCMD` word. -/
def cmdQueue (w : DWord) : Nat := bitsOf w.toNat 0 10
def cmdCode (w : DWord) : Nat := bitsOf w.toNat 12 4
def cmdBad (w : DWord) (code : Nat) : Bool := bitsOf w.toNat 62 2 != 0 || bitsOf w.toNat 10 2 != 0 || cmdCode w != code

def Ctx.qres (c : Ctx) : Nat := c.status.toNat + c.qstate.toNat * 2 ^ 8 + c.seq.toNat * 2 ^ 16

/-- A control-page command, in MSN order: its checks, its effect with a STATUS, `QRES` (R34). A rejected one changes only
`QRES` (R58). -/
def State.qcmd (s : State) (m : Msg) (w : DWord) (code : Nat) (i : Instr) (run : State → Queue → State × Nat) : State :=
  s.whenCovered m i fun s =>
    let qn := cmdQueue w
    let r : State × Nat :=
      if cmdBad w code then (s, 4)
      else match s.queue? qn with
        | some q => if q.owner = s.ctxOwner m.ctx then run s q else (s, 1)
        | none => (s, 1)
    (r.1.putQres m qn r.2).perform m

/-- CREATE of a FREE queue from its descriptor (R35); RING is a VA (log entry 83), the sender the queue's host context (log
entry 85). -/
def State.createQueue (s : State) (m : Msg) (w : DWord) (q : Queue) : State × Nat :=
  let va := bitsOf w.toNat 16 46 * 64
  if q.state != .free then (s, 2)
  else match s.deviceRead q.owner va 64 with
    | .error _ => (s, 3)
    | .ok bs =>
      let n := natLE bs
      let ring := bitsOf n 0 64
      let log2 := bitsOf n 64 8
      let dsig : DWord := BitVec.ofNat 64 (bitsOf n 256 64)
      if log2 < 4 || 16 < log2 || ring % (64 * 2 ^ log2) != 0 || !vaOk ring || !(dsig == 0 || refOk dsig) then (s, 3)
      else
        let s := (s.markUsed q.owner va 64).modQueue q.q fun q =>
          { q with state := .active, ctx := m.ctx, descVa := va, ring := ring, log2n := log2, dsig := dsig, tail := 0,
                   head := 0, res := 0, errIdx := 0, errCause := .noCause, ready := [], started := [], reading := 0,
                   fault := none, halted := false }
        ((s.syncQueue q.q).wakeEnq q.q, 0)

/-- `QCMD` CREATE; a command word with an unknown code comes here and is refused. -/
def execQcmdCreate (m : Msg) (w : DWord) (s : State) : Host.Outcome State Fault Refusal :=
  .next <| s.qcmd m w 1 (.qcmdCreate m w) fun s q => s.createQueue m w q

/-- `QCMD` RESUME: an ABORTED or ERROR queue goes on at its first packet that has not started. -/
def execQcmdResume (m : Msg) (w : DWord) (s : State) : Host.Outcome State Fault Refusal :=
  .next <| s.qcmd m w 3 (.qcmdResume m w) fun s q =>
    if q.state = .aborted || q.state = .error then
      (((s.modQueue q.q fun q => { q with state := .active }).syncQueue q.q).pumpQueue q.q, 0)
    else (s, 2)

/-! ## WAITSIG, COPY, NOTE -/

/-- Register a packet on a signal, then read VALUE (R45, R50). An unset peer entry is observed as aborted (R43). -/
def State.waitOne (s : State) (owner qn idx : Nat) (ref : DWord) : State :=
  let r : WaitReg := ⟨owner, ref, .packet qn idx, 0⟩
  if (s.openPacket qn idx).isNone then s
  else if ref.getLsbD 63 then
    if s.peerKnown owner ref then s.registerRemote owner ref r.who else s.inform r none
  else
    let s := s.register owner ref r.who
    s.inform r (s.sigValue owner ref)

def execWaitsig (qn idx : Nat) (s : State) : Host.Outcome State Fault Refusal :=
  .next <| match s.openPacket qn idx with
  | none => s
  | some (q, p) => p.sigs.eraseDups.foldl (fun s ref => s.waitOne q.owner qn idx ref) s

/-- The lowest die of an owner's partition, for work that no die's core asks for. -/
def State.ownerDie (s : State) (owner : Nat) : Nat :=
  match s.tenant? owner with
  | some t => s.firstDie t.part
  | none => 0

/-- Resolve the faults of a device access on behalf of a packet (R41): what to run again, and the error otherwise. -/
def State.packetAccess (s : State) (q : Queue) (idx va n : Nat) (write : Bool) (again : Instr) (lid : Nat) : State × Bool :=
  let who (v : Nat) : Asker := .other again (.packetCompletion q.q idx (some .pageUnresolved) (BitVec.ofNat 64 v))
  match s.resolveRange q.owner (s.ownerDie q.owner) va n ⟨!write, write, false⟩ lid who with
  | (s, .go, _) => match s.deviceRange q.owner va n write with
    | some .paUnbacked => (s.finishPacket q.q idx (some .paUnbacked) 0, false)
    | _ => (s, true)
  | (s, .fail, v) =>
    let s := s.event q.owner { cls := .page, cause := .pageUnresolved, addr := v }
    (s.finishPacket q.q idx (some .pageUnresolved) (BitVec.ofNat 64 v), false)
  | (s, _, _) => (s, false)

/-- A COPY packet: a copy on an engine of the die that owns DST; LEN 0 completes at once. -/
def execCopyPacket (qn idx : Nat) (s : State) : Host.Outcome State Fault Refusal :=
  .next <| match s.openPacket qn idx with
  | none => s
  | some (q, p) =>
    if p.word 4 = 0 then s.finishPacket qn idx none 0
    else if s.copies.any fun c => c.fin == .packet qn idx then s
    else
      let d := s.engineDie q.owner (s.ownerDie q.owner) (.glb (p.word 3))
      s.startCopy q.owner none none d [⟨.glb (p.word 2), .glb (p.word 3), p.word 4⟩] (.packet qn idx)

/-- A NOTE packet: NVAL and the device time are written, and with NTFY sent to the queue's host context. -/
def execNote (qn idx : Nat) (s : State) : Host.Outcome State Fault Refusal :=
  .next <| match s.openPacket qn idx with
  | none => s
  | some (q, p) => match s.packetAccess q idx (p.word 2) 16 true (.note qn idx) 0 with
    | (s, false) => s
    | (s, true) =>
      let bs := bytesLE 8 (p.word 3) ++ bytesLE 8 (s.now % 2 ^ 64)
      let s := match s.deviceWrite q.owner (p.word 2) bs with | .ok s => s | .error _ => s
      let s := if p.bits.getLsbD 256 then s.say (.note q.ctx bs) else s
      s.finishPacket qn idx none 0

end Sys2Proof.Machine
end

