-- ==== Sys2Proof/Machine/Placement.lean ====
section
/-! DEFINITION. Machine/Placement.lean: launch records (R90, R91), room on a core (R92), home dies (R94, R29), the order of
waiting units (R95), gangs (R96), continuation bins (R97) and the LAUNCH packet (R41, R102). -/

namespace Sys2Proof.Machine

/-! ## Launch records (R90, R91) -/

/-- The fields of a launch record's 512 bits. -/
def lrecOf (n : Nat) : LRec :=
  let f (lo len : Nat) : Nat := bitsOf n lo len
  { gang := n.testBit 8, split := n.testBit 9, threads := f 16 11, gcrews := f 32 4, prio := f 36 4, homearg := f 40 8,
    reslim := f 64 32, hstride := f 128 64, entry0 := f 192 64, entry1 := f 256 64, regs0 := f 320 10, regs1 := f 330 10,
    pweaves := f 340 5, gregs := f 352 8, accq := f 360 8, tblq := f 368 5, tblkb := f 384 9, scrkb := f 400 9 }

/-- Weaves of each crew. -/
def LRec.w (r : LRec) : Nat := (r.threads + 31) / 32

/-- The reserved bits of a launch record, as (low bit, length). -/
def lrecReserved : List (Nat × Nat) :=
  [(10, 6), (27, 5), (48, 16), (96, 32), (345, 7), (373, 11), (393, 7), (409, 103)]

/-- A record within the limits of R90 and R91. -/
def lrecOk (n : Nat) : Bool :=
  let r := lrecOf n
  let entryOk (e : Nat) : Bool := decide (e < 2 ^ 52) && e % 16 == 0
  bitsOf n 0 8 == 1 && (lrecReserved.all fun x => bitsOf n x.1 x.2 == 0) && 1 ≤ r.threads && r.threads ≤ 1024
    && (r.gang || r.gcrews == 0) && (r.homearg ≤ 63 || r.homearg == 0xFF) && entryOk r.entry0 && entryOk r.entry1
    && r.regs0 ≤ 640 && r.regs1 ≤ 640 && r.gregs ≤ 128 && r.accq ≤ 128 && r.tblq ≤ 16 && r.tblkb ≤ 256 && r.scrkb ≤ 384
    && (if r.split then 1 ≤ r.pweaves && r.pweaves + 1 ≤ r.w else r.pweaves == 0 && r.regs1 == 0 && r.entry1 == 0)

/-- The shape of a launch's crews; `z` are the bytes of a stage crew's rings. -/
def LRec.shape (r : LRec) (z : Nat) : Shape :=
  { threads := r.threads, weaves := r.w, pweaves := r.pweaves, regs0 := r.regs0, regs1 := r.regs1, gregs := r.gregs,
    accq := r.accq, tblq := r.tblq, tblkb := r.tblkb, scrkb := r.scrkb, ringBytes := z, prio := r.prio, split := r.split }

def Launch.shape (l : Launch) : Shape := l.lrec.shape ((l.ringBytes.head?).getD 0)

/-- The shape of a continuation crew of n lanes (R97). -/
def Launch.contShape (l : Launch) (n : Nat) : Shape :=
  { l.lrec.shape 0 with threads := n, weaves := 1, pweaves := 0, regs0 := max l.lrec.regs0 12, regs1 := 0, split := false }

/-- Crews of a unit. -/
def Launch.members (l : Launch) : Nat := if l.lrec.gang then l.lrec.gcrews + 1 else 1

/-! ## Room (R92, R242) -/

/-- Weave slots, register-file bytes, scratchpad bytes, table RAM KiB, accumulator slots. -/
structure Room where
  slots : Nat
  regs : Nat
  scr : Nat
  tbl : Nat
  acc : Nat
  deriving DecidableEq, Repr

def Room.minus (a b : Room) : Room := ⟨a.slots - b.slots, a.regs - b.regs, a.scr - b.scr, a.tbl - b.tbl, a.acc - b.acc⟩
def Room.plus (a b : Room) : Room := ⟨a.slots + b.slots, a.regs + b.regs, a.scr + b.scr, a.tbl + b.tbl, a.acc + b.acc⟩
/-- A room that holds something of a need. -/
def Room.helps (room need : Room) : Bool :=
  (need.slots != 0 && room.slots != 0) || (need.regs != 0 && room.regs != 0) || (need.scr != 0 && room.scr != 0)
    || (need.tbl != 0 && room.tbl != 0) || (need.acc != 0 && room.acc != 0)
/-- A need that a room meets. -/
def Room.fits (need room : Room) : Bool :=
  need.slots ≤ room.slots && need.regs ≤ room.regs && need.scr ≤ room.scr && need.tbl ≤ room.tbl && need.acc ≤ room.acc

/-- What a crew needs: its declared allotment (R243). -/
def Shape.need (sh : Shape) : Room :=
  let bytes (regs : Nat) : Nat := regs * 132 + sh.gregs * 4
  ⟨sh.w, sh.pweaves * bytes sh.regs1 + (sh.w - sh.pweaves) * bytes sh.regs0, sh.scrkb * 1024 + 512 * sh.w + sh.ringBytes,
   sh.tblkb, sh.accq⟩

/-- What a core has with some units mapped out (R242). -/
def roomWithoutUnits (out : List (Nat × Nat)) : Room :=
  let n (kind : Nat) : Nat := (out.filter fun x => x.1 == kind).length
  ⟨48, 524288 - 32768 * n 0, 393216 - 24576 * n 1, 256 - 16 * n 2, 128 - 8 * n 3⟩

/-- What a core has when empty, as it stands, and after the repairs that wait for it to be empty. -/
def Core.room (k : Core) : Room := roomWithoutUnits k.out
def Core.roomRepaired (k : Core) : Room := roomWithoutUnits (k.out ++ k.repairs)

/-- What the crews on a core and the reservations of gangs leave. -/
def State.roomLeft (s : State) (res : List GangRes) (core : Nat) : Room :=
  let r := (s.crews.filter fun c => c.holds? == some core).foldl (fun r c => r.minus c.shape.need) (s.core core).room
  res.foldl (fun r g => match s.launch? g.lid with
    | some l => ((g.cores ++ g.partly).filter (· == core)).foldl (fun r _ => r.minus l.shape.need) r
    | none => r) r

/-- The cores of a die, and those that take new crews: a pre-emption in progress keeps its target cores closed (R119). -/
def dieCores (d : Nat) : List Nat := (List.range 64).map fun i => 64 * d + i
def State.draining (s : State) (core : Nat) : Bool :=
  s.pre.any fun p => p.targets.any fun cid => ((s.crew? cid).bind Crew.holds?) == some core
def State.openCores (s : State) (d : Nat) : List Nat := (dieCores d).filter fun k => !s.draining k

/-- The core with the most free weave slots that meets a need, ties to the lowest (R94). -/
def State.bestCore (s : State) (res : List GangRes) (d : Nat) (need : Room) : Option Nat :=
  (s.openCores d).foldl (fun best k =>
    let r := s.roomLeft res k
    if !need.fits r then best
    else match best with
      | none => some k
      | some b => if (s.roomLeft res b).slots < r.slots then some k else best) none

/-- Crews of a need that an empty core holds, up to a bound. -/
def crewsThatFit (need : Room) : Nat → Room → Nat
  | 0, _ => 0
  | n + 1, r => if need.fits r then crewsThatFit need n (r.minus need) + 1 else 0

/-- A die's cores would hold some crews of a need if they were empty and repaired (R92, R242). -/
def State.dieHolds (s : State) (d members : Nat) (need : Room) : Bool :=
  members ≤ ((dieCores d).map fun k => crewsThatFit need members (s.core k).roomRepaired).sum

/-! ## Home dies (R94, R29) -/

def State.partOfOwner (s : State) (owner : Nat) : Nat := ((s.tenant? owner).map (·.part)).getD 0

/-- The next die of a partition in increasing number, wrapping, that is not parked. -/
def State.nextUnparked (s : State) (part d : Nat) : Option Nat :=
  ([1, 2, 3].map fun k => (d + k) % 4).find? fun e => s.partOf e == part && (s.die e).power != .parked

/-- The home die of a unit before any parking. -/
def State.baseHome (s : State) (l : Launch) (u : Nat) : Nat :=
  let ds := s.partDies (s.partOfOwner l.owner)
  let nth (k : Nat) : Nat := nthD ds (k % max 1 ds.length) 0
  match l.homeBase with
  | none => nth u
  | some b =>
    let h := (b.toNat + u * l.lrec.hstride) % 2 ^ 52
    match s.tenant? l.owner, s.walk l.owner h with
    | some t, .leaf f _ =>
      let d := paDie (leafPa f t.shadow h false)
      if ds.contains d then d else nth (h / 256)
    | _, _ => nth (h / 256)

/-- The home die of a unit not yet placed: rehomings recorded as 4 × old + new, then the rule for a parked die. -/
def State.home (s : State) (l : Launch) (u : Nat) : Nat :=
  let h := l.homeMap.foldl (fun h x => if x / 4 = h then x % 4 else h) (s.baseHome l u)
  if (s.die h).power = .parked then (s.nextUnparked (s.partOfOwner l.owner) h).getD h else h

/-- The lowest unit of an interval that is at home on a die; homes repeat after `period` units, when that is not 0. -/
def State.unitFrom (s : State) (l : Launch) (d : Nat) : Nat → Nat → Option Nat
  | 0, _ => none
  | fuel + 1, u => if s.home l u = d then some u else s.unitFrom l d fuel (u + 1)

def State.firstUnit (s : State) (l : Launch) (d : Nat) : Option Nat :=
  let period := if l.homeBase.isNone then 4 else if l.lrec.hstride = 0 then 1 else 0
  l.unplaced.findSome? fun x => s.unitFrom l d (if period = 0 then x.2 - x.1 else min (x.2 - x.1) period) x.1

/-- The units of an interval that are at home on a die, in order, up to a number. -/
def State.unitsFrom (s : State) (l : Launch) (d : Nat) : Nat → Nat → Nat → List Nat
  | 0, _, _ => []
  | fuel + 1, u, n =>
    if n = 0 then []
    else if s.home l u = d then u :: s.unitsFrom l d fuel (u + 1) (n - 1)
    else s.unitsFrom l d fuel (u + 1) n

/-- The units of a launch that wait for their first place on a die: of a gang launch every one, since each reserves what it lacks
(R96), up to the most gangs that can hold a share of a die; of another the first, which the others wait behind (R95). -/
def State.unitsOn (s : State) (l : Launch) (d : Nat) : List Nat :=
  match s.firstUnit l d with
  | none => []
  | some u =>
    if !l.lrec.gang then [u]
    else l.unplaced.foldl (fun acc x => acc ++ s.unitsFrom l d (x.2 - max u x.1) (max u x.1) (4096 - acc.length)) []

/-- The units of a launch can be placed: a crew on some core of the partition; a gang on the die it is at home on, each die
judged that has one (R92). -/
def State.possible (s : State) (l : Launch) : Bool :=
  let ds := s.partDies (s.partOfOwner l.owner)
  if l.lrec.gang then ds.all fun d => s.dieHolds d l.members l.shape.need || (s.firstUnit l d).isNone
  else ds.any fun d => s.dieHolds d 1 l.shape.need

/-- Take a unit out of the intervals of units not yet placed. -/
def removeUnit (u : Nat) (xs : List (Nat × Nat)) : List (Nat × Nat) :=
  xs.flatMap fun x =>
    if x.1 ≤ u && u < x.2 then
      (if x.1 < u then [(x.1, u)] else []) ++ (if u + 1 < x.2 then [(u + 1, x.2)] else [])
    else [x]

/-! ## Residency limits (R95) -/

/-- Units of a launch that count as resident. -/
def State.residentUnits (s : State) (lid : Nat) : Nat :=
  ((s.crews.filter fun c => c.lid == lid && c.holds?.isSome).map fun c => if c.cont then 2 ^ 64 + c.cid else c.unit).eraseDups.length

def State.limitReached (s : State) (l : Launch) : Bool := l.lrec.reslim != 0 && l.lrec.reslim ≤ s.residentUnits l.lid

/-- A launch whose units may be placed or restored. -/
def State.launchOpen (s : State) (l : Launch) : Bool :=
  !l.ended && !l.halted && l.recDie.isSome && s.tenantRuns l.owner

/-- A die whose cores take crews. -/
def Die.accepts (d : Die) : Bool := match d.power with | .on _ => true | _ => false

/-! ## Release (R93, R97, R124) -/

/-- The rings of a stage crew, in channel order (R361). -/
def ringsFrom (chans : List Chan) (stg : Nat) : Nat → Nat → List Ring
  | _, c =>
    ((chans.zip (List.range chans.length)).filter fun x => x.1.pstg == stg || x.1.cstg == stg).foldl
      (fun (acc : List Ring × Nat) x =>
        let input := x.1.cstg == stg
        let rate := if input then x.1.crate else x.1.prate
        let r : Ring := ⟨x.2, input, rate, x.1.rlog2, acc.2, 0, ⟨0, 0, false⟩, ⟨1, 0, false⟩⟩
        (acc.1 ++ [r], acc.2 + 2 * rate * 2 ^ x.1.rlog2)) ([], c) |>.1

/-- The rings of a launch's crews, above the SCRKB part of the window. -/
def State.ringsOf (s : State) (l : Launch) : List Ring :=
  match l.kind with
  | .stage gid _ stg => match s.graph? gid with
    | some g => ringsFrom g.chans stg 0 (l.lrec.scrkb * 1024)
    | none => []
  | .packet .. => []

/-- Entries of a die's remap table (R241). -/
def routeCount : Nat := 2048

/-- A gang member's route leads to its core from now on. A table that is full takes no new route (log entry 80). -/
def State.setRoute (s : State) (c : Crew) (core : Nat) : State :=
  if !c.inGang then s
  else s.modDie (dieOfCore core) fun x =>
    let rest := x.routes.filter fun r => !(r.lid == c.lid && r.unit == c.unit && r.member == c.member)
    { x with routes := if rest.length < routeCount then rest ++ [Route.mk c.owner c.lid c.unit c.member core] else rest }

/-- A stage crew has come to a core: the feeders of its graph look again (R86). -/
def State.pokeStage (s : State) (c : Crew) : State :=
  match c.stage with
  | some (gid, _) => s.pokeGraph gid
  | none => s

/-- Release one crew of a unit on a core; `stamp` tells when, the same for all crews of a gang (R96). -/
def State.releaseCrew (s : State) (l : Launch) (u member d core stamp : Nat) : State :=
  let cid := s.ids
  let s := s.newId
  let sh := l.shape
  let stage := match l.kind with | .stage gid inst stg => some (gid, inst, stg, u) | .packet .. => none
  let seat : Seat := ⟨cid, l.owner, l.lid, u, member, l.lrec.gang, false, d, core, stage, s.ringsOf l⟩
  let slots := assignSlots sh.w (s.slotLoad core)
  let ws := startWeaves sh false (BitVec.ofNat 52 l.lrec.entry0) (BitVec.ofNat 52 l.lrec.entry1) slots
  let c := Crew.start seat sh ws stamp
  ((({ s with crews := s.crews ++ [c] }.setRoute c core).acquire core 5).toLeaf (leafOfCore core) (.place cid)).pokeStage c

/-- A unit has been placed. -/
def State.placedUnit (s : State) (l : Launch) (u : Nat) : State :=
  s.modLaunch l.lid fun l => { l with unplaced := removeUnit u l.unplaced, outstanding := l.outstanding + 1 }

/-- Sixteen free records of a die's Barrier Directory, as the first number of an aligned block (R102). -/
def State.freeBlock (s : State) (d : Nat) : Option Nat :=
  (List.range 1024).find? fun b => !s.bdir.any fun r => r.num / 16384 == d && r.num % 16384 / 16 == b

/-- Records reserved on a die. -/
def State.recordsOn (s : State) (d : Nat) : Nat := (s.bdir.filter fun r => r.num / 16384 == d).length

/-- Reserve 16 records (R102, R103). -/
def State.reserveBlock (s : State) (d base own scope launch unit expect : Nat) : State :=
  { s with bdir := s.bdir ++ (List.range 16).map fun n =>
      { num := d * 16384 + base + n, own := own, scope := scope, index := n, gen := 0, expect := expect, arrived := 0,
        launch := launch, unit := unit, wdies := 0, absw := 0, left := 0 } }

/-- Reserve the records of the launches that still wait for them, in the order of their starts. -/
def State.reserveLaunches (s : State) : State :=
  let waiting := s.launches.filter fun l => l.recDie.isNone && !l.ended
  let later (l : Launch) (xs : List Launch) : List Launch :=
    xs.takeWhile (fun x => x.startSeq ≤ l.startSeq) ++ [l] ++ xs.dropWhile fun x => x.startSeq ≤ l.startSeq
  (waiting.foldl (fun acc l => later l acc) []).foldl (fun s l =>
    let ds := s.partDies (s.partOfOwner l.owner)
    let best := ds.foldl (fun best d => match best with
      | none => some d
      | some b => if s.recordsOn d < s.recordsOn b then some d else best) (none : Option Nat)
    match best with
    | none => s
    | some d => match s.freeBlock d with
      | none => s
      | some b =>
        let s := s.reserveBlock d (16 * b) l.owner 2 l.lid 0 l.count
        (s.modLaunch l.lid fun l => { l with recDie := some d, recBase := 16 * b }).kick) s

/-! ## Continuations (R97) -/

/-- A weave of an absent crew that could issue if it were resident. -/
def Weave.couldIssue (w : Weave) : Bool := !w.done && ((w.pendReady && !w.haltKept) || w.wait == .none)

/-- A crew some weave of which could issue, and that no halt of its own scope holds back (R111, R246). One that is over comes back for
its feeders to take what it has handed over (R86). -/
def Crew.couldIssue (c : Crew) : Bool :=
  !(c.hscope == 1 && c.weaves.any Weave.haltKept) && ((c.ended && c.undrained) || c.weaves.any Weave.couldIssue)

/-- Every crew of a launch at home on a die is blocked or has exited: a candidate, or absent with nothing it could issue. -/
def State.allBlocked (s : State) (lid d : Nat) : Bool :=
  (s.crews.filter fun c => c.lid == lid && c.homeDie == d).all fun c =>
    c.ended || (if c.core?.isSome then c.candidate else !c.couldIssue)

/-- A bin that may be released. -/
def State.binDue (s : State) (l : Launch) (b : Bin) : Bool :=
  32 ≤ b.recs.length || b.joined + 2000 ≤ s.now || s.allBlocked l.lid b.die

/-- Load six arguments per lane into v0 to v11. -/
def Weave.withArgs (w : Weave) (recs : List (List DWord)) : Weave :=
  let arg (i j : Nat) : DWord := nthD (nthD recs i []) j 0
  let reg (k : Nat) : VReg := .ofFn fun i => Lane.ofWord (if k % 2 = 0 then (arg i (k / 2)).setWidth 32 else (arg i (k / 2) >>> 32).setWidth 32)
  { w with v := (w.v.zip (List.range w.v.length)).map fun (old, k) => if k < 12 then reg k else old }

/-- Those of a launch that wait in `EMIT` on a die, resident or saved, go on once there is room for all they emit (R97, R111). -/
def State.wakeEmit (s : State) (lid d : Nat) : State :=
  (s.crews.filter fun c => c.lid == lid && c.die == d).foldl (fun s c =>
    (List.range c.weaves.length).foldl (fun s j => match s.weave? c.cid j, s.launch? lid with
      | some w, some l => match w.wait with
        | .emit es => if (l.putRecords d s.now (es.map fun e => (e, []))).isSome then (s.wake c.cid j none).retryPlace c.cid else s
        | _ => s
      | _, _ => s) s) s

/-- Release up to 32 records of a bin as a crew on a core. Records that stay wait out their 2 µs (R97). -/
def State.releaseBin (s : State) (l : Launch) (b : Bin) (core : Nat) : State :=
  let now := b.recs.take 32
  let rest := b.recs.drop 32
  let sh := l.contShape now.length
  let cid := s.ids
  let s := s.newId
  let seat : Seat := ⟨cid, l.owner, l.lid, 2 ^ 64, 0, false, true, b.die, core, none, []⟩
  let slots := assignSlots 1 (s.slotLoad core)
  let ws := (startWeaves sh true b.entry b.entry slots).map fun w => w.withArgs now
  let mine (x : Bin) : Bool := x.die == b.die && x.bin == b.bin
  let s := s.modLaunch l.lid fun l =>
    { l with outstanding := l.outstanding + 1,
             bins := if rest.isEmpty then l.bins.filter fun x => !mine x else updWhere l.bins mine fun x => { x with recs := rest } }
  let s := ({ s with crews := s.crews ++ [Crew.start seat sh ws cid] }.acquire core 4).toLeaf (leafOfCore core) (.place cid)
  let s := if rest.isEmpty then s else s.at_ (b.joined + 2000) (.continuationRelease l.lid b.die b.bin)
  s.wakeEmit l.lid b.die

/-! ## The order of waiting units (R95, R111) -/

/-- A waiting unit with its launch and its place in the order. -/
structure Item where
  l : Launch
  prio : Nat
  seq : Nat
  unit : Nat
  what : Waits
  deriving DecidableEq, Repr

/-- The order of R95: higher PRIO, then the packet that started earlier, then the lower unit; stages of one RUN in their
order. -/
def Item.before (a b : Item) : Bool :=
  b.prio < a.prio || (a.prio == b.prio && (a.seq < b.seq || (a.seq == b.seq &&
    (a.l.lid < b.l.lid || (a.l.lid == b.l.lid && a.unit ≤ b.unit)))))

def insertItem (x : Item) : List Item → List Item
  | [] => [x]
  | y :: ys => if y.before x then y :: insertItem x ys else x :: y :: ys

/-- An absent, saved unit with some weave that could issue; `c` is its first crew. -/
def State.runnable (s : State) (c : Crew) : Bool :=
  let ms := s.unitOf c
  (ms.all fun x => match x.place with | .stashed .. => true | _ => false) && ms.any Crew.couldIssue

/-- The units that wait for a place on a die, in order (log entry 92), and those that a pre-emption keeps away. -/
def State.absent (s : State) (d : Nat) : List Item :=
  let open_ := s.launches.filter s.launchOpen
  let item (l : Launch) (u : Nat) (x : Waits) : Item := ⟨l, l.lrec.prio, l.startSeq, u, x⟩
  let fresh := open_.flatMap fun l => (s.unitsOn l d).map fun u => item l u (.unit u)
  let back := s.crews.filterMap fun c =>
    match open_.find? fun l => l.lid == c.lid with
    | some l =>
      if c.homeDie == d && c.member == 0 && s.runnable c then some (item l c.unit (.back ((s.unitOf c).map (·.cid)))) else none
    | none => none
  let bins := open_.flatMap fun l => (l.bins.filter fun b => b.die == d && s.binDue l b).map fun b => item l (2 ^ 64) (.bin b.bin)
  (fresh ++ back ++ bins).foldl (fun acc x => insertItem x acc) []

/-- A unit of a launch has no place: it has not been placed, or it is saved. A continuation unit is any of the launch that waits
on the die (R97). -/
def State.placeless (s : State) (l : Launch) (d unit : Nat) : Bool :=
  if unit = 2 ^ 64 then (s.absent d).any fun x => x.l.lid == l.lid && x.unit == unit
  else (l.unplaced.any fun x => x.1 ≤ unit && unit < x.2)
    || s.crews.any fun c => c.lid == l.lid && c.unit == unit && !c.cont && c.holds?.isNone

/-- The reason of a pre-emption has passed: the unit it was for is placed, or its launch is over (R382). -/
def State.passed (s : State) (p : PreReq) : Bool :=
  match p.why with
  | .forUnit d lid unit => match s.launch? lid with
    | some l => l.ended || !s.placeless l d unit
    | none => true
  | _ => p.targets.isEmpty

/-- Scevar has stopped, or is held in reset (R58). -/
def State.scvStopped (s : State) : Bool := s.scv.hung || s.mgmt.ftl

/-- The units that may be placed, restored or released on a die, in order: a crew that a pre-emption has saved comes back
once its reason has passed (R119, R382). While Scevar is stopped its leaves only bring back saved crews: new crews and gangs
wait for it (R53, R58). -/
def State.waiting (s : State) (d : Nat) : List Item :=
  (s.absent d).filter fun x => match x.what with
    | .back cids => !(s.scvStopped && x.l.lrec.gang) && !s.pre.any fun p => (p.gone.any cids.contains) && !s.passed p
    | _ => !s.scvStopped

/-- What follows a pre-emption whose targets have all left. -/
def State.afterPre (s : State) (p : PreReq) : State :=
  match p.why with
  | .forUnit .. | .forHalt _ => s.kick
  | .forSwitch _ => s.postOnce .tenantSwitch
  | .forPark d => s.postOnce (.diePowerDown d)

/-- Settle pre-emptions: one whose reason has passed is withdrawn, unless its saves have begun and targets are left (R382). -/
def State.settlePre (s : State) : State :=
  s.pre.foldl (fun s p =>
    if s.passed p && (p.targets.isEmpty || !p.saving) then
      { s with pre := s.pre.filter fun (x : PreReq) => x.id != p.id }.afterPre p
    else s) s

/-! ## Gangs (R96) -/

/-- Reserve cores for what a gang lacks: one core after another, as long as one has room. -/
def State.gainCores (s : State) (d : Nat) (need : Room) (res : List GangRes) (g : GangRes) : Nat → GangRes
  | 0 => g
  | n + 1 => match s.bestCore (res ++ [g]) d need with
    | some k => s.gainCores d need res { g with cores := g.cores ++ [k] } n
    | none => g

/-- The cores of an earlier reservation that a gang keeps beside the reservations of older gangs. A core that a pre-emption
drains takes no crew (R119). -/
def State.keepCores (s : State) (need : Room) (res : List GangRes) (g : GangRes) : List Nat → GangRes
  | [] => g
  | k :: ks =>
    if need.fits (s.roomLeft (res ++ [g]) k) && !s.draining k then s.keepCores need res { g with cores := g.cores ++ [k] } ks
    else s.keepCores need res g ks

/-- For members that no core has a place for, reserve what is free of one, on a core each: one that is reserved already, else
the core with the most free weave slots (R96, log entry 91). -/
def State.gainSome (s : State) (d : Nat) (need : Room) (res : List GangRes) (g : GangRes) (had : List Nat) : Nat → GangRes
  | 0 => g
  | n + 1 =>
    let left (k : Nat) : Room := s.roomLeft (res ++ [g]) k
    let fit := (s.openCores d).filter fun k => !g.partly.contains k && need.fits (s.core k).roomRepaired && (left k).helps need
    let best := fit.foldl (fun best k => match best with
      | none => some k
      | some b => if (left b).slots < (left k).slots then some k else best) (none : Option Nat)
    match (had.find? fun k => fit.contains k).orElse fun _ => best with
    | some k => s.gainSome d need res { g with partly := g.partly ++ [k] } had n
    | none => g

/-- A gang's unit number, when the item is a gang that waits for cores. -/
def Item.gangUnit (x : Item) : Option Nat :=
  match x.what with
  | .bin _ => none
  | _ => if x.l.lrec.gang then some x.unit else none

/-- The reservations on a die: each waiting gang in order takes what it lacks, an older one before a younger. DESIGN CHOICE (log
entry 102): a gang that RESLIM holds back is no waiting gang; what it held is free. -/
def State.gangShares (s : State) (d : Nat) (xs : List Item) : List GangRes :=
  xs.foldl (fun res x => match x.gangUnit with
    | none => res
    | some u =>
      if s.limitReached x.l then res
      else
        let mine (g : GangRes) : Bool := g.lid == x.l.lid && g.unit == u && g.die == d
        let had : GangRes := (s.gangRes.find? mine).getD ⟨x.l.lid, u, d, [], []⟩
        let need := x.l.shape.need
        let g := s.keepCores need res ⟨x.l.lid, u, d, [], []⟩ had.cores
        let g := s.gainCores d need res g (x.l.members - g.cores.length)
        let g := s.gainSome d need res g had.partly (x.l.members - g.cores.length)
        if g.cores.isEmpty && g.partly.isEmpty then res else res ++ [g]) []

/-- The reservations that the gangs waiting on a die have now. While Scevar is stopped they stay as they are (R58). -/
def State.sharesOn (s : State) (d : Nat) : List GangRes :=
  if s.scvStopped then s.gangRes.filter fun g => g.die == d else s.gangShares d (s.waiting d)

/-- Waiting gangs take what is free on a die (R96). -/
def State.reserveShares (s : State) (d : Nat) : State :=
  { s with gangRes := (s.gangRes.filter fun (g : GangRes) => g.die != d) ++ s.sharesOn d }

/-- Begin the restore of saved crews on cores reserved for them (R114). -/
def State.beginRestore (s : State) (d : Nat) (cids cores : List Nat) : State :=
  let seats := cids.zip cores
  let bytes := (cids.map fun cid => ((s.crew? cid).map Crew.imageBytes).getD 0).sum
  let s := seats.foldl (fun s x => s.modCrew x.1 fun c => { c with place := .restoring x.2 })
    ((s.crews.filter fun c => cids.contains c.cid).foldl State.unstash s)
  (s.modDie d fun x => { x with restore := some ⟨cids, s.now, false, none, []⟩ }).after (1000 + bytes / 128) (.restoreComplete d)

/-- What can be done next for a die's waiting units, in their order: place or restore a unit on cores, release a bin,
change a gang's reservations. -/
inductive Act where
  | plain (x : Item) (core : Nat)
  | gang (x : Item) (cores : List Nat)
  | reserve
  deriving DecidableEq, Repr

/-- A restore can begin on a die (R114). -/
def State.canRestore (s : State) (d : Nat) (x : Item) : Bool :=
  match x.what with
  | .back _ => (s.die d).restore.isNone
  | _ => true

/-- A crew's need. -/
def State.itemNeed (s : State) (x : Item) : Room :=
  match x.what with
  | .back (cid :: _) => match s.crew? cid with | some c => c.shape.need | none => x.l.shape.need
  | .bin b => match x.l.bins.find? fun y => y.bin == b with
    | some y => (x.l.contShape (min 32 y.recs.length)).need
    | none => x.l.shape.need
  | _ => x.l.shape.need

/-- The first thing that can be done. -/
def State.firstAct (s : State) (d : Nat) : Option Act :=
  if !(s.die d).accepts then none
  else
    let xs := s.waiting d
    let shares := s.sharesOn d
    -- a waiting gang gains what is free before any other unit does
    if shares != s.gangRes.filter fun g => g.die == d then some .reserve
    else xs.findSome? fun x =>
      if s.limitReached x.l || !s.canRestore d x then none
      else match x.gangUnit with
        | some u => match shares.find? fun g => g.lid == x.l.lid && g.unit == u with
          | some g =>
            if g.cores.length = x.l.members && (s.freeBlock d).isSome then some (.gang x g.cores) else none
          | none => none
        | none => (s.bestCore s.gangRes d (s.itemNeed x)).map fun k => .plain x k

/-- Crews of a core below a priority, the lowest first, the youngest first among equals. -/
def State.victims (s : State) (core prio : Nat) : List Crew :=
  let cs := s.crews.filter fun c => c.core? == some core && c.shape.prio < prio
  cs.foldl (fun acc c =>
    let before (a : Crew) : Bool := a.shape.prio < c.shape.prio || (a.shape.prio == c.shape.prio && c.placed < a.placed)
    acc.takeWhile before ++ [c] ++ acc.dropWhile before) []

/-- The die's cores would have room for an item if some crews left; a core that a pre-emption still drains takes none (R119). -/
def State.roomWithout (s : State) (d : Nat) (x : Item) (gone : List Nat) : Bool :=
  let s' := { s with crews := s.crews.filter fun c => !gone.contains c.cid }
  let need := s.itemNeed x
  let members := if x.gangUnit.isSome then x.l.members else 1
  let res := s.gangRes.filter fun g => !(g.lid == x.l.lid && g.unit == x.unit)
  members ≤ ((s'.openCores d).map fun k => crewsThatFit need members (s'.roomLeft res k)).sum
    && (x.gangUnit.isNone || (s.freeBlock d).isSome || (s.crews.any fun c => gone.contains c.cid && c.inGang))

/-- The cids of a unit. -/
def State.unitCids (s : State) (c : Crew) : List Nat := (s.unitOf c).map (·.cid)

/-- The fewest candidates of one core, in order, that make room; each goes with its unit. -/
def State.setUntil (s : State) (d : Nat) (x : Item) : List Nat → List Crew → Option (List Crew)
  | gone, [] => if s.roomWithout d x gone then some [] else none
  | gone, c :: cs =>
    if s.roomWithout d x gone then some [] else (s.setUntil d x (gone ++ s.unitCids c) cs).map (c :: ·)

/-- When the youngest of some crews was placed or restored. -/
def youngest (cs : List Crew) : Nat := cs.foldl (fun m c => max m c.placed) 0

/-- The crews that pre-emption takes for an item on a die: of the core that needs the fewest, then the one whose youngest
was placed latest, then the lowest (R95, R382). A gang goes as a whole. -/
def State.preemptSet (s : State) (d : Nat) (x : Item) : Option (List Nat) :=
  let best := ((s.openCores d).filter fun k => !(s.victims k x.prio).isEmpty).foldl (fun best k => match s.setUntil d x [] (s.victims k x.prio) with
    | some (c :: cs) => match best with
      | none => some (c :: cs)
      | some b =>
        if cs.length + 1 < b.length || (cs.length + 1 == b.length && youngest b < youngest (c :: cs)) then some (c :: cs) else best
    | _ => best) (none : Option (List Crew))
  best.map fun cs => (cs.flatMap fun c => (s.unitOf c).map (·.cid)).eraseDups

/-- Ask for the pre-emption that the first unit without a place may have. -/
def State.askPreempt (s : State) (d : Nat) : State :=
  match (s.waiting d).find? fun x => !s.limitReached x.l && (s.preemptSet d x).isSome with
  | some x =>
    let asked := s.pre.any fun p => match p.why with | .forUnit e _ _ => e == d && !p.targets.isEmpty | _ => false
    if asked then s else s.postOnce (.preemptionRequest (.forUnit d x.l.lid x.unit))
  | none => s

/-- Nothing can be done for a die's units: a slot may be needed (R112). -/
def State.lacking (s : State) (d : Nat) : State :=
  if (s.die d).accepts && !(s.waiting d).isEmpty then (s.askPreempt d).postOnce .slotNeeded else s

/-- Place a unit on a core, begin its restore there, or release its bin. -/
def State.putItem (s : State) (d : Nat) (x : Item) (core : Nat) : State :=
  match x.what with
  | .unit u => (s.releaseCrew x.l u 0 d core s.ids).placedUnit x.l u
  | .back cids => s.beginRestore d cids [core]
  | .bin b => match x.l.bins.find? fun (y : Bin) => y.die == d && y.bin == b with
    | some y => s.releaseBin x.l y core
    | none => s

/-- `UNIT_PLACEMENT`: the first unit of the order that can be placed, restored or released. Launches that wait for records of
the Barrier Directory look first (R102). -/
def execUnitPlacement (d : Nat) (s : State) : Host.Outcome State Fault Refusal :=
  let s := if s.scvStopped then s else s.reserveLaunches
  .next <| match s.firstAct d with
  | none => s.lacking d
  | some (.gang ..) | some .reserve => s.postOnce (.gangPlacement d)
  | some (.plain x core) => ((s.putItem d x core).settlePre).postOnce (.unitPlacement d)

/-- `CONTINUATION_RELEASE`: a bin that is due goes to a core when it is the first of the die's order that can (R95, R97). -/
def execContinuationRelease (lid d bin : Nat) (s : State) : Host.Outcome State Fault Refusal :=
  .next <| match s.launch? lid with
  | none => s
  | some l => match l.bins.find? fun b => b.die == d && b.bin == bin with
    | none => s
    | some b =>
      if !s.binDue l b then s
      else match s.firstAct d with
        | some (.plain x core) =>
          if x.l.lid = lid && x.what == .bin bin then (s.putItem d x core).kick else s.postOnce (.unitPlacement d)
        | some _ => s.postOnce (.unitPlacement d)
        | none => s.lacking d

/-- Place a gang: its records, then all its crews at once (R96, R102). -/
def State.placeGang (s : State) (d : Nat) (x : Item) (cores : List Nat) : State :=
  let s := { s with gangRes := s.gangRes.filter fun g => !(g.lid == x.l.lid && g.unit == x.unit && g.die == d) }
  match s.freeBlock d, x.what with
  | none, _ => s
  | some b, .back cids =>
    let block := ((s.crews.filter fun c => cids.contains c.cid).flatMap (·.block))
    let s := s.reserveBlock d (16 * b) x.l.owner 1 x.l.lid x.unit 0
    let load (r : BdirRec) : BdirRec := match block[r.index]? with
      | some (g, a, e, n) => { r with gen := g, arrived := a, expect := e, left := n }
      | none => r
    let mine (r : BdirRec) : Bool := r.scope == 1 && r.launch == x.l.lid && r.unit == x.unit
    { s with bdir := updWhere s.bdir mine load }.beginRestore d cids cores
  | some b, _ =>
      let s := s.reserveBlock d (16 * b) x.l.owner 1 x.l.lid x.unit x.l.members
      ((cores.zip (List.range cores.length)).foldl (fun s' y => s'.releaseCrew x.l x.unit y.2 d y.1 s.ids) s).placedUnit x.l x.unit

/-- `GANG_PLACEMENT`: the gangs' reservations change, or the first gang that lacks nothing is placed. -/
def execGangPlacement (d : Nat) (s : State) : Host.Outcome State Fault Refusal :=
  .next <| match s.firstAct d with
  | none => s.lacking d
  | some (.plain ..) => s.postOnce (.unitPlacement d)
  | some .reserve => (s.reserveShares d).postOnce (.gangPlacement d)
  | some (.gang x cores) => (((s.placeGang d x cores).settlePre).postOnce (.gangPlacement d)).postOnce (.unitPlacement d)

/-! ## The LAUNCH packet (R41, R91, R94, R102) -/

/-- The place of a started packet among the starts of all packets. -/
def Queue.startOf (q : Queue) (idx : Nat) : Nat := ((q.started.find? fun p => p.pkt.idx == idx).map (·.seq)).getD 0

/-- A launch of units 0 to count − 1, for a packet with its place among the starts. -/
def Launch.start (lid owner seq : Nat) (k : LKind) (r : LRec) (args count : Nat) (base : Option DWord) (z : List Nat) : Launch :=
    { lid := lid, owner := owner, kind := k, lrec := r, args := args, count := count, startSeq := seq,
      homeBase := base, unplaced := [(0, count)], homeMap := [], recDie := none, recBase := 0, outstanding := 0,
      firstErr := none, ended := false, posted := false, halted := false, bins := [], ringBytes := z }

def State.newLaunch (s : State) (owner seq : Nat) (k : LKind) (r : LRec) (args count : Nat) (base : Option DWord)
    (z : List Nat) : State :=
  let s := s.newId
  { s with launches := s.launches ++ [Launch.start s.ids owner seq k r args count base z] }

/-- The packet's launch record as it was read, once (R91). -/
def Queue.recordOf (q : Queue) (idx : Nat) : Option Nat := (q.started.find? fun p => p.pkt.idx == idx).bind (·.record)

/-- Read a LAUNCH packet's record, unless it has been read; nothing while its fault is seen to. DESIGN CHOICE (log entry 101): a
record in a word in error completes the packet with `MEMORY_UE`. -/
def State.readRecord (s : State) (q : Queue) (p : Packet) : State × Option Nat :=
  match q.recordOf p.idx with
  | some n => (s, some n)
  | none => match s.packetAccess q p.idx (p.word 2) 64 false (.launch q.q p.idx) 0 with
    | (s, false) => (s, none)
    | (s, true) => match s.deviceRead q.owner (p.word 2) 64 with
      | .error c => (s.finishPacket q.q p.idx (some c) 0, none)
      | .ok bs =>
        let n := natLE bs
        let s := s.countSoft (s.softDevice q.owner (p.word 2) 64)
        (s.modQueue q.q fun q => { q with started := updWhere q.started (fun x => x.pkt.idx == p.idx) fun x => { x with record := some n } },
         some n)

/-- `LAUNCH`: the launch record and the home base are read once; then units wait for places. -/
def execLaunch (qn idx : Nat) (s : State) : Host.Outcome State Fault Refusal :=
  .next <| match s.openPacket qn idx with
  | none => s
  | some (q, p) =>
    if s.launches.any fun l => l.kind == .packet qn idx then s
    else match s.readRecord q p with
      | (s, none) => s
      | (s, some n) =>
        let r := lrecOf n
        if !lrecOk n then s.finishPacket qn idx (some .launchInvalid) 0
        else
          let at_ := (p.word 3 + 8 * r.homearg) % 2 ^ 52
          let got : State × Bool := if r.homearg = 0xFF then (s, true) else s.packetAccess q idx at_ 8 false (.launch qn idx) 0
          match got with
          | (s, false) => s
          | (s, true) =>
            let word := s.deviceWord q.owner at_
            let base : Option DWord := if r.homearg = 0xFF then none else some (match word with | .ok x => x | .error _ => 0)
            let s := if r.homearg = 0xFF then s else s.countSoft (s.softDevice q.owner at_ 8)
            -- a home word in error: DESIGN CHOICE, log entry 101
            if r.homearg != 0xFF && (match word with | .ok _ => false | .error _ => true) then
              s.finishPacket qn idx (some .memoryUe) 0
            else if !s.possible (Launch.start 0 q.owner 0 (.packet qn idx) r (p.word 3) (p.word 4) base []) then
              s.finishPacket qn idx (some .residencyImpossible) 0
            else
              (s.newLaunch q.owner (q.startOf idx) (.packet qn idx) r (p.word 3) (p.word 4) base []).reserveLaunches

end Sys2Proof.Machine
end

