-- ==== Sys2Proof/Machine/Handler.lean ====
section
/-! DEFINITION. Machine/Handler.lean: the resident trap handler by its dispositions (R230, R232): page faults (R158, R159),
services (R363), the debug monitor (R245, R246) and the end of a launch. -/

namespace Sys2Proof.Machine

/-- The cause that a weave's `hcause` holds. -/
def Weave.cause (w : Weave) : Cause := causeOf (w.hcause.toNat % 128)

/-- The faulting VA of a lane, from h0:h1 (R227). -/
def Weave.faultVa (w : Weave) (lane : Nat) : Nat :=
  let word (r : Nat) : Nat := (nthD (nthD w.h r []) lane Lane.zero).val.toNat
  word 0 + 2 ^ 32 * word 1

def State.setHandler (s : State) (cid wx : Nat) (h : Handler) : State :=
  s.modWeave cid wx fun w => { w with handler := some h }

/-! ## END (R232) -/

/-- The leaf that serves a crew. -/
def Crew.leaf (c : Crew) : Nat :=
  match c.holds? with
  | some k => leafOfCore k
  | none => c.homeDie * 8

/-- END: the KERNEL event, then the cause goes to Scevar. -/
def State.endCause (s : State) (c : Crew) (wx : Nat) (w : Weave) (cause : Cause) : State :=
  let addr := if cause.code / 16 = 1 then w.faultVa ((lowestLane w.hfm).getD 0) else w.hpc.toNat
  ((s.kernelEvent c cause addr).toScevar c.leaf (.endCause c.lid cause)).setHandler c.cid wx .ended

/-! ## Page faults (R158, R159) -/

/-- What the accesses of an instruction need of a page. -/
def needOf : Instr → Need
  | .st _ | .bupd _ | .sigadd _ => ⟨false, true, false⟩
  | .atom _ => ⟨true, true, false⟩
  | _ => ⟨true, false, false⟩

/-- What the faulting instruction needs: to be fetched, when its line never reached the fetch buffer; else what its
accesses need. -/
def Weave.faultNeed (w : Weave) : Need :=
  let pc := w.hpc.toNat
  if w.fline = some (pc / 64) then
    match decode (lineWord w.fbytes (pc % 64)) with
    | .ok i => needOf i
    | .error _ => ⟨true, false, false⟩
  else ⟨false, false, true⟩

/-- The next faulting lane from a lane on. -/
def Weave.laneFrom (w : Weave) (lane : Nat) : Option Nat := laneList.find? fun i => lane ≤ i && w.hfm.getLsbD i

/-- FAIL: the weave's cause becomes `PAGE_UNRESOLVED`. -/
def State.pageFail (s : State) (cid wx owner va : Nat) : State :=
  let s := s.event owner { cls := .page, cause := .pageUnresolved, addr := va / 2 ^ 16 * 2 ^ 16 }
  s.modWeave cid wx fun w => { w with handler := some .entered, hcause := BitVec.ofNat 32 Cause.pageUnresolved.code }

/-- The handler comes to a faulting lane. It first drops what the die's TLBs hold of the page (log entry 23). -/
def State.resolveLane (s : State) (c : Crew) (wx : Nat) (w : Weave) (core lane : Nat) : State :=
  match w.laneFrom lane with
  | none => s.tret c.cid wx w
  | some i =>
    let d := dieOfCore core
    let va := w.faultVa i
    let holds (e : TlbEntry) : Bool := e.owner == c.owner && e.page ≤ va && va < e.page + pageBytes e.leaf.size
    let s := s.tlbDrop d holds
    match s.resolveFault c.owner d va w.faultNeed c.lid (.weave c.cid wx) with
    | (s, .go) => s.setHandler c.cid wx (.resolve (i + 1))
    | (s, .wait) => s.setHandler c.cid wx (.pageWait i)
    | (s, .full) => s.setHandler c.cid wx (.ringFull i)
    | (s, .fail) => s.pageFail c.cid wx c.owner va

/-! ## Services (R363) -/

/-- The firmware performs the `SVC` before `hpc`. -/
def State.service (s : State) (c : Crew) (wx : Nat) (w : Weave) : State :=
  let at_ := (w.hpc.setWidth 52 - 16 : Pc).toNat
  match decode (lineWord w.fbytes (at_ % 64)) with
  | .ok (.svc f) =>
    let n := ((w.read f.imm f.hd.a).lane ((lowestLane w.hfm).getD 0)).val.toNat
    if n = 0 then s.tret c.cid wx w
    else if n = 1 then
      let x : DWord := if f.hd.b = .none then 0 else w.wideG f.imm false f.hd.b
      (s.event c.owner { cls := .info, cause := .service, src := c.homeDie, addr := x.toNat }).tret c.cid wx w
    else s.endCause c wx w .service
  | _ => s.endCause c wx w .service

/-! ## Debug halts (R245, R246) -/

/-- A weave halted by its own cause, where it stands or as its image holds it. -/
def Weave.haltsScope (w : Weave) : Bool := (w.handler == some .halted && w.cause != .debugHalt) || w.haltKept

/-- A weave halted by its own cause whose halt covers another weave of crew `c` (log entry 94). -/
def State.haltCovers (s : State) (c : Crew) : Bool :=
  s.crews.any fun x => (x.weaves.any Weave.haltsScope)
    && ((x.cid == c.cid && x.hscope == 1) || (x.lid == c.lid && x.hscope == 2))

/-- A scope member takes `DEBUG_HALT` at its next boundary. -/
def State.haltWeave (s : State) (cid wx : Nat) : State :=
  match s.weave? cid wx with
  | none => s
  | some w =>
    if w.done || w.handler == some .halted || w.handler == some .ended || w.pend.isSome then s
    else (s.modWeave cid wx fun w => { w with pend := some ⟨.debugHalt, false, w.pc, w.exec, []⟩ }).post (.deferredTrap cid wx)

/-- Every other resident weave of the crews `p` picks. -/
def State.haltOthers (s : State) (cid wx : Nat) (p : Crew → Bool) : State :=
  (s.crews.filter fun c => p c && c.core?.isSome).foldl (fun s c =>
    (List.range c.weaves.length).foldl (fun s j => if c.cid = cid && j = wx then s else s.haltWeave c.cid j) s) s

/-- Halt the scope of a crew (R246). A halt of scope launch requests a pre-emption (R119). -/
def State.haltScope (s : State) (c : Crew) (wx : Nat) : State :=
  match c.hscope.toNat with
  | 1 => s.haltOthers c.cid wx fun x => x.cid == c.cid
  | 2 =>
    let s := s.markHalted c.lid true
    (s.haltOthers c.cid wx fun x => x.lid == c.lid).postOnce (.preemptionRequest (.forHalt c.lid))
  | _ => s

/-- The monitor can reach a debugger: ATTACH and a valid local reference. -/
def Crew.attached (c : Crew) : Bool := c.attach && c.dbgsig != 0 && !c.dbgsig.getLsbD 63 && refOk c.dbgsig

/-- A DEBUG cause: SET(1), an INFO event, the halt of the scope, the wait for VALUE 0. A scope member waits with the
weave that halted it. -/
def State.debug (s : State) (c : Crew) (wx : Nat) (w : Weave) : State :=
  if w.cause = .debugHalt then
    if s.haltCovers c then (s.setHandler c.cid wx .halted).noteCand c.cid else s.tret c.cid wx w
  else if !c.attached then s.endCause c wx w w.cause
  else
    let s := s.sigOp c.owner (.set 1) c.dbgsig
    let s := s.event c.owner { cls := .info, cause := w.cause, src := c.homeDie, addr := w.hpc.toNat }
    let s := (s.setHandler c.cid wx .halted).haltScope c wx
    (s.register c.owner c.dbgsig (.weave c.cid wx)).noteCand c.cid

/-- Weaves that waited with a halt that is over go on (R246). -/
def State.resumeMates (s : State) (p : Crew → Bool) : State :=
  (s.crews.filter p).foldl (fun s c =>
    if s.haltCovers c then s
    else (List.range c.weaves.length).foldl (fun s j => match s.weave? c.cid j with
      | some w =>
        if w.handler = some .halted && w.cause = .debugHalt then (s.tret c.cid j w).noteCand c.cid
        else if (w.pend.map Pending.cause) = some .debugHalt then s.modWeave c.cid j fun w => { w with pend := none }
        else s
      | none => s) s) s

/-- The halt that a weave of a crew caused is over: what no other halt covers goes on (R246). -/
def State.resumeScope (s : State) (c : Crew) : State :=
  match c.hscope.toNat with
  | 1 => s.resumeMates fun x => x.cid == c.cid
  | 2 =>
    let s := s.resumeMates fun x => x.lid == c.lid
    if s.haltCovers { c with hscope := 0 } then s
    else
      let s := s.markHalted c.lid false
      let s := match (s.launch? c.lid).map Launch.kind with
        | some (.packet q _) => s.pumpQueue q
        | _ => s
      s.kick
  | _ => s

/-- `DEBUG_RESUME`: VALUE 0 resumes the scope, a negative one ends the launch with `DEBUG_HALT`. A weave that was saved where it
stood halted makes its crew runnable, and takes its cause again (R234, log entry 74). -/
def execDebugResume (cid wx : Nat) (s : State) : Host.Outcome State Fault Refusal :=
  .next <| match s.crew? cid, s.weave? cid wx with
  | some c, some w =>
    if !w.haltsScope then s
    else
      let v := (s.sigValue c.owner c.dbgsig).getD (-1)
      if 0 < v then s
      else
        let s := s.unregister (.weave cid wx)
        if v < 0 then s.endCause c wx w .debugHalt
        else if w.haltKept then (((s.wake cid wx none).resumeScope c).retryPlace cid)
        else ((s.tret cid wx w).noteCand cid).resumeScope c
  | _, _ => s

/-! ## The handler's turn -/

/-- What the handler does with a cause that it comes to (R230). -/
def State.handlerEnter (s : State) (c : Crew) (wx : Nat) (w : Weave) : State :=
  match w.cause with
  | .pageNotPresent | .pageProtection => s.setHandler c.cid wx (.resolve 0)
  | .service => s.service c wx w
  | .feEmpty | .softwareTrap | .breakpoint | .debugHalt => s.debug c wx w
  | cause => s.endCause c wx w cause

/-- One turn of the resident handler of a weave. -/
def State.handlerStep (cid wx : Nat) (s : State) : State :=
  match s.crew? cid, s.weave? cid wx with
  | some c, some w => match c.core?, w.handler with
    | some _, some .entered => s.handlerEnter c wx w
    | some k, some (.resolve lane) => s.resolveLane c wx w k lane
    | _, _ => s
  | _, _ => s

end Sys2Proof.Machine
end

