-- ==== Sys2Proof/Machine/Image.lean ====
section
/-! DEFINITION. Machine/Image.lean: the image of a saved crew, byte by byte (R130, R153, R236 to R240). A saved crew's
contents have one home, its own fields, which the freeze of R234 has brought to the form that an image holds; this file reads
them as the image lays them out (log entry 69). -/

namespace Sys2Proof.Machine

/-- A list of bytes brought to a length. -/
def padTo (n : Nat) (bs : List Byte) : List Byte := bs.take n ++ List.replicate (n - bs.length) 0

/-- Bits of a list of flags, lowest first, in n bytes. -/
def flagBytes (n : Nat) (f : Nat → Bool) : List Byte :=
  (List.range n).map fun k => BitVec.ofNat 8 (((List.range 8).map fun i => if f (8 * k + i) then 2 ^ i else 0).sum)

/-- Two-bit codes, four a byte, lowest first, in n bytes. -/
def codeBytes2 (n : Nat) (f : Nat → Nat) : List Byte :=
  (List.range n).map fun k => BitVec.ofNat 8 (((List.range 4).map fun i => f (4 * k + i) % 4 * 4 ^ i).sum)

/-! ## Records (R130, R135, R153) -/

def TokKind.code : TokKind → Nat
  | .ifk => 1 | .elsek => 2 | .loopk => 3 | .callk => 4

/-- A token record of 32 bytes. -/
def Token.bytes (t : Token) : List Byte :=
  bytesLE 4 t.kind.code ++ bytesLE 4 t.rmask.toNat ++ bytesLE 8 t.pmask.toNat ++ bytesLE 8 t.pca.toNat ++ bytesLE 8 t.pcj.toNat

def bit01 (b : Bool) : Nat := if b then 1 else 0

/-- A translation register of 24 bytes. -/
def TReg.bytes (t : TReg) : List Byte :=
  bytesLE 8 t.vabase.toNat ++ bytesLE 8 (t.pabase.toNat + t.tgen.toNat * 2 ^ 48)
    ++ bytesLE 8 (t.limit.toNat + (bit01 t.bv + 2 * bit01 t.br + 4 * bit01 t.bw + 8 * t.kind.toNat + 32 * bit01 t.watch) * 2 ^ 32)

/-- The shape code of a register. -/
def VReg.tag : VReg → Nat
  | .uni _ => 0 | .aff .. => 1 | .gen _ => 2

/-- A register's vector data (R239). -/
def VReg.bytes : VReg → List Byte
  | .uni x => bytesLE 8 (x.val.toNat + bit01 x.sb * 2 ^ 32)
  | .aff b d => bytesLE 4 b.toNat ++ bytesLE 4 d.toNat
  | .gen xs => padTo 128 (xs.flatMap fun x => bytesLE 4 x.val.toNat) ++ flagBytes 4 fun i => (nthD xs i Lane.zero).sb

/-! ## The weave block (R238) -/

/-- The wait kind that a weave is entered under (R111). One that halts with its scope waits on the signal's line (R246), a `WAITA`
without watched lines as an unwatched spinner (R341). -/
def Weave.keptKind (w : Weave) : Kept :=
  if (w.pend.map Pending.cause) = some .debugHalt then .address
  else match w.wait with
    | .barrier .. => .barrier
    | .waita => if w.unwatched then .unwatchedSpin else .address
    | .signal _ => .address
    | .emit _ | .enq _ => .room
    | .spin => if w.spin.watched then .watchedSpin else .unwatchedSpin
    | _ => .ready

def Kept.code : Kept → Nat
  | .ready => 0 | .barrier => 1 | .address => 2 | .room => 3 | .watchedSpin => 4 | .unwatchedSpin => 5

/-- The wait object: the record of a barrier, the number of a crew barrier; the queue, or the launch whose buffer it is; the
time of parking in µs. -/
def State.waitObject (s : State) (c : Crew) (w : Weave) : Nat :=
  match w.wait with
  | .barrier scp n _ => if scp = 1 then n else (s.bdirNum? c scp n).getD (c.gangBase + n)
  | .enq q => q
  | .emit _ => c.lid
  | .spin => w.parked / 1000
  | .waita => if w.unwatched then w.parked / 1000 else 0
  | _ => 0

/-- The wait generation. -/
def Weave.waitGen (w : Weave) : Word :=
  match w.wait with
  | .barrier _ _ g => g
  | _ => 0

/-- Wait kind, pending trap, its cause and DEFER. -/
def Weave.waitWord (w : Weave) : Nat :=
  w.keptKind.code + (match w.pend with
    | none => 0
    | some t => 2 ^ 3 + t.cause.code % 128 * 2 ^ 4 + bit01 t.defer * 2 ^ 11)

/-- A weave block of 3,072 bytes; `voff` is the offset of the weave's vector data. -/
def State.weaveBlock (s : State) (c : Crew) (w : Weave) (voff : Nat) : List Byte :=
  let lanes : Mask := match w.pend with | some t => t.lanes | none => 0
  padTo 3072 (
    bytesLE 8 w.pc.toNat ++ bytesLE 4 w.exec.toNat ++ bytesLE 4 w.helper.toNat ++ bytesLE 4 w.waitWord ++ bytesLE 4 lanes.toNat
    ++ bytesLE 8 (s.waitObject c w) ++ bytesLE 4 w.waitGen.toNat ++ bytesLE 4 w.toks.length ++ bytesLE 4 voff ++ bytesLE 4 w.v.length
    ++ padTo 16 (flagBytes 2 fun n => (nthD w.carr n none).isSome)
    ++ padTo 64 (w.carr.flatMap fun x => bytesLE 4 ((x.getD 0).toNat))
    ++ padTo 1536 (w.toks.reverse.flatMap Token.bytes)
    ++ padTo 512 (w.g.flatMap fun x => bytesLE 4 x.toNat)
    ++ flagBytes 96 (fun n => !w.empty.contains n)
    ++ padTo 64 (w.p.flatMap fun x => bytesLE 4 x.toNat)
    ++ padTo 32 (bytesLE 4 w.q.toNat)
    ++ padTo 192 (w.b.flatMap TReg.bytes)
    ++ codeBytes2 160 fun n => (nthD w.v n (.uni Lane.zero)).tag)

/-! ## The crew block (R237, R239) -/

/-- The bytes of a weave's vector data, rounded up to 64. -/
def Weave.vectorBytes (w : Weave) : List Byte :=
  let bs := w.v.flatMap VReg.bytes
  padTo (roundUp bs.length 64) bs

/-- The offsets of the sections: each weave's vector data, the scratch, the tiles, the end (R236). -/
def Crew.sections (c : Crew) : List Nat × Nat × Nat × Nat :=
  let v0 := 2048 + 3072 * c.weaves.length
  let offs := c.weaves.foldl (fun (acc : List Nat × Nat) w => (acc.1 ++ [acc.2], acc.2 + w.vectorBytes.length)) ([], v0)
  let tiles := offs.2 + c.shape.scrkb * 1024 + c.shape.ringBytes
  (offs.1, offs.2, tiles, tiles + 2048 * (c.tiles.filter (·.bound)).length)

/-- The 64-byte header, with a CRC word. -/
def Crew.header (c : Crew) (crc : Word) : List Byte :=
  let sec := c.sections
  bytesLE 2 1 ++ bytesLE 1 c.owner ++ bytesLE 1 (bit01 c.inGang + 2 * bit01 c.shape.split + 4 * bit01 c.cont)
    ++ bytesLE 2 c.shape.threads ++ bytesLE 1 c.shape.weaves ++ bytesLE 1 c.shape.pweaves ++ bytesLE 8 c.lid ++ bytesLE 8 c.unit
    ++ bytesLE 2 c.member ++ bytesLE 2 c.shape.regs0 ++ bytesLE 2 c.shape.regs1 ++ bytesLE 1 c.shape.gregs ++ bytesLE 1 c.shape.prio
    ++ bytesLE 4 sec.2.2.2 ++ bytesLE 4 sec.2.1 ++ bytesLE 4 sec.2.2.1 ++ bytesLE 2 c.vcore ++ bytesLE 2 c.homeDie
    ++ bytesLE 4 c.shape.scrkb ++ bytesLE 4 c.shape.ringBytes ++ bytesLE 4 crc.toNat
    ++ bytesLE 4 (c.shape.accq % 256 + c.shape.tblq % 32 * 2 ^ 8 + c.shape.tblkb % 512 * 2 ^ 13)

/-- The binding of a table handle: `TSTAT` word, source base, spill offset. -/
def Tbl.bindingBytes (t : Tbl) : List Byte :=
  let base := match t.src with | .regs _ b => b | .scratch off => off
  if t.state = .unbound then List.replicate 16 0 else bytesLE 4 t.stat.toNat ++ bytesLE 4 base ++ bytesLE 8 t.spill

/-- Bins and records of the launch's continuation buffer on the crew's home die: the cursor (R97). -/
def State.contCursor (s : State) (c : Crew) : List Byte :=
  let bins := ((s.launch? c.lid).map fun l => l.bins.filter fun b => b.die == c.homeDie).getD []
  bytesLE 8 bins.length ++ bytesLE 8 ((bins.map fun b => b.recs.length).sum)

/-- The count of a ring's pops or pushes. -/
def Crew.ringCount (c : Crew) (k : Nat) : Nat := ((c.rings[k]?).map Ring.cnt).getD 0

/-- The crew block after its header. -/
def State.crewRest (s : State) (c : Crew) : List Byte :=
  let ms (xs : List (Option Word)) : List Byte := padTo 64 (xs.flatMap fun x => bytesLE 4 ((x.getD 0).toNat))
  let status (t : Nat) : Nat := ((c.tickets.find? fun x => x.1 % 256 == t).map (·.2)).getD 0
  bytesLE 8 c.lo.toNat ++ bytesLE 8 c.hi.toNat ++ s.contCursor c ++ bytesLE 4 c.f ++ bytesLE 4 c.ticket.toNat
    ++ ((List.range 24).map fun k => BitVec.ofNat 8 (c.ringCount k))
    ++ padTo 128 (c.cbars.flatMap fun b => bytesLE 4 b.gen.toNat ++ bytesLE 4 b.arrived)
    ++ ms c.lm ++ ms c.gm
    ++ padTo 128 (c.tiles.map fun t => BitVec.ofNat 8 (bit01 t.bound))
    ++ padTo 256 (c.tables.flatMap Tbl.bindingBytes)
    ++ padTo 1040 (c.pds.flatMap fun d => bytesLE 4 d.ctl.toNat ++ padTo 256 d.arr)
    ++ bytesLE 4 (c.hscope.toNat + 4 * bit01 c.attach)
    ++ (flagBytes 2 fun n => (nthD c.lm n none).isSome) ++ (flagBytes 2 fun n => (nthD c.gm n none).isSome)
    ++ bytesLE 8 c.dbgsig.toNat
    ++ padTo 64 (c.lpend.flatMap fun x => bytesLE 4 x.toNat) ++ padTo 64 (c.gpend.flatMap fun x => bytesLE 4 x.toNat)
    ++ ((List.range 32).map fun k => BitVec.ofNat 8 (c.ringCount (24 + k)))
    ++ codeBytes2 64 status

/-! ## The image (R236, R240) -/

/-- The image of a crew with a CRC word in its header. -/
def State.imageWith (s : State) (c : Crew) (crc : Word) : List Byte :=
  let sec := c.sections
  c.header crc ++ s.crewRest c
    ++ ((c.weaves.zip sec.1).flatMap fun (w, off) => s.weaveBlock c w off)
    ++ c.weaves.flatMap Weave.vectorBytes
    ++ Memory.readN c.scratch 0 (c.shape.scrkb * 1024 + c.shape.ringBytes)
    ++ ((c.tiles.filter (·.bound)).flatMap fun t => padTo 2048 (t.data.flatMap fun x => bytesLE 4 x.toNat))

/-- The CRC-32 of some bytes, taken as little-endian words (log entry 17). -/
def crcOf (bs : List Byte) : Word :=
  signature ((List.range ((bs.length + 3) / 4)).map fun k => BitVec.ofNat 32 (natLE ((bs.drop (4 * k)).take 4)))

/-- The image of a crew (R239): its CRC is that of the image with the CRC field read as 0. -/
def State.image (s : State) (c : Crew) : List Byte := s.imageWith c (crcOf (s.imageWith c 0))

/-- The gang block: GEN and ARRIVED of the gang's 16 records (R240). -/
def Crew.gangBlock (c : Crew) : List Byte :=
  padTo 256 (c.block.flatMap fun x => bytesLE 8 x.1.toNat ++ bytesLE 8 x.2.1)

/-- What a unit's save writes to the stash: the crew's image, or the gang block and the members' images in order (R236, R240). -/
def State.unitImage (s : State) (c : Crew) : List Byte :=
  if c.inGang then ((s.windows c).head?.map Crew.gangBlock).getD [] ++ (s.windows c).flatMap s.image else s.image c

end Sys2Proof.Machine
end

