-- ==== Sys2Proof/Machine/Residency.lean ====
section
/-! DEFINITION. Machine/Residency.lean: rotation (R106, R111 to R117), saves and restores (R113, R114, R234, R236 to R243),
the pre-emption ladder (R119, R382). -/

namespace Sys2Proof.Machine

/-! ## Saving (R113, R234) -/

/-- Work of a crew that a save waits for: loads, divisions and `ARD`s in flight, Accord operations, publishes. -/
def State.inFlight (s : State) (cid : Nat) : Bool :=
  (s.flights.any fun f => f.cid == cid) || (s.publs.any fun p => p.cid == cid) ||
    s.cores.any fun k => k.accq.any fun op => match op with
      | .lka c .. | .ard _ c _ | .awr c .. | .azro c _ | .arel c _ | .build c _ | .tspill c _ | .tfill c _ | .tinv c _ => c == cid

/-- A weave as its image holds it. Handler state is abandoned: the weave stands as at trap entry, with the cause of a
debug halt or a deferred trap pending (R234). A halted weave waits on its signal's line; one that has ended its launch issues
nothing more. -/
def Weave.freeze (w : Weave) (dbgsig : DWord) : Weave :=
  let debugCause := match w.cause with
    | .feEmpty | .softwareTrap | .breakpoint | .debugHalt => true
    | _ => false
  let back : Weave := match w.mode with
    | .user => w
    | .super =>
      let gone := w.handler == some .ended
      let again := !gone && (debugCause || w.hcause.getLsbD 7)
      let vas := laneList.map fun i => BitVec.ofNat 64 (w.faultVa i)
      let t : Pending := ⟨w.cause, w.hcause.getLsbD 7, w.hpc.setWidth 52, w.hfm, vas⟩
      { w with pc := w.hpc.setWidth 52, exec := w.hxm &&& w.present, helper := w.hhm &&& w.present, mode := .user,
               handler := if gone then some .ended else none, kept := .none, pend := if again then some t else w.pend,
               wait := if w.handler = some .halted && w.cause != .debugHalt then .signal dbgsig else w.kept }
  let wait := match back.wait with
    | .walk _ | .publ _ | .dirtyLog => .none
    | .spin => if back.spin.armed then .spin else .none
    | x => x
  { back with wait := wait, walked := [], fline := none, fbytes := [], yld := [], yldUntil := 0,
              spin := if wait = .spin then back.spin else Spin.fresh back.spin.nospin }

/-- A VALID set becomes DISCARDED at a save (R213). -/
def Tbl.discard (t : Tbl) : Tbl := if t.state = .valid then { t with state := .discarded, rows := [], scales := [] } else t

/-- Where a save of some bytes goes on a die: its commons stash, else its HBM stash (R113). -/
def Die.stashFor (d : Die) (bytes : Nat) : Option Bool :=
  if d.stashBytes + bytes ≤ 2 ^ 23 then some false else if d.hbmStashBytes + bytes ≤ 2 ^ 35 then some true else none

/-- Bytes of the images of some crews. -/
def State.imageSize (s : State) (cids : List Nat) : Nat := (cids.map fun cid => ((s.crew? cid).map Crew.imageBytes).getD 0).sum

/-- Begin the save of a unit's crews (R113, R114). A service in hand is performed first. -/
def State.beginSave (s : State) (d : Nat) (cids : List Nat) (forced : Bool) (incoming : Option (Nat × Waits))
    (rest : List (List Nat)) : State :=
  let serve (s : State) (cid : Nat) : State := match s.crew? cid with
    | some c => (List.range c.weaves.length).foldl (fun s j => match s.weave? cid j with
        | some w => if w.handler = some .entered && w.cause = .service then s.handlerStep cid j else s
        | none => s) s
    | none => s
  let s := cids.foldl serve s
  let s := cids.foldl (fun s cid => s.modCrew cid fun c => match c.place with
    | .resident k => { c with place := .saving k }
    | _ => c) s
  (s.modDie d fun x => { x with save := some ⟨cids, s.now, forced, incoming, rest⟩ }).after (1000 + s.imageSize cids / 128) (.saveComplete d)

/-- Discard the units of some crews: their launch completes in error, with a RESIDENCY event (R115, R119, R243). -/
def State.discardUnit (s : State) (c : Crew) (cause : Cause) : State :=
  (s.event c.owner { cls := .residency, cause := cause, src := c.homeDie }).endLaunch c.lid cause

/-- A deferred trap that arose while the crew of a weave in its handler was being saved is a second trap: the launch ends (R225,
R234). -/
def State.secondTrap (s : State) (cid wx : Nat) : State :=
  match s.weave? cid wx with
  | some w =>
    if w.mode = .super && w.pendReady then
      let s := s.takePending cid wx
      match s.crew? cid, s.weave? cid wx with
      | some c, some w => s.endCause c wx w w.cause
      | _, _ => s
    else s
  | none => s

/-- The same for every weave of some crews. -/
def State.secondTraps (s : State) (cids : List Nat) : State :=
  (s.crews.filter fun c => cids.contains c.cid).foldl (fun s c =>
    (List.range c.weaves.length).foldl (fun s j => s.secondTrap c.cid j) s) s

/-- The generation of a crew's barrier, as the barrier file or the record holds it. -/
def State.barrierGen (s : State) (c : Crew) (scp n : Nat) : Word :=
  if scp = 1 then c.known 1 n
  else match (s.bdirNum? c scp n).bind s.bdir? with
    | some r => r.gen
    | none => c.known scp n

/-- The gang block: the gang's records go into the image and are freed (R102, R240). -/
def State.packGang (s : State) (c : Crew) : State :=
  if !c.inGang then s
  else
    let mine (r : BdirRec) : Bool := r.scope == 1 && r.launch == c.lid && r.unit == c.unit
    let block := (List.range 16).map fun n => match s.bdir.find? fun r => mine r && r.index == n with
      | some r => (r.gen, r.arrived, r.expect, r.left)
      | none => (0, 0, 0, 0)
    let base := ((s.bdirNum? c 2 0).getD 0)
    let s := { s with bdir := s.bdir.filter fun r => !mine r
                      crews := updWhere s.crews (fun x => sameGang x c) fun (x : Crew) => { x with gangBase := base } }
    s.modCrew c.cid fun c => { c with block := block }

/-- Leave page requests that the crews' handlers waited on. -/
def State.leaveRequests (s : State) (cids : List Nat) : State :=
  { s with
    tenants := s.tenants.map fun (t : Tenant) => { t with reqs := t.reqs.map fun (r : PageReq) =>
      { r with weaves := r.weaves.filter fun x => !cids.contains x.1 } }
    dies := s.dies.map fun (d : Die) => { d with walks := d.walks.map fun (w : Walk) =>
      { w with waiters := w.waiters.filter fun x => !cids.contains x.1 } } }

/-- The image is written: the crews are stashed and their wait conditions examined again, a barrier's by GEN of its record (R114);
a `SIGWT` wait counts its 64 × QUANT from now (log entry 89). -/
def State.stash (s : State) (d : Nat) (cids : List Nat) (hbm : Bool) : State :=
  let bytes := s.imageSize cids
  let s := (s.leaveRequests cids).secondTraps cids
  let met (c : Crew) (scp n : Nat) (g : Word) : Bool := s.barrierGen c scp n != g
  let s := (s.crews.filter fun c => cids.contains c.cid && c.member == 0).foldl State.packGang s
  let s := cids.foldl (fun s cid => s.modCrew cid fun c =>
    { c with place := .stashed d hbm, candSince := none, weaves := c.weaves.map fun w => w.freeze c.dbgsig,
             tables := c.tables.map Tbl.discard }) s
  let s := s.modDie d fun x => if hbm then { x with hbmStashBytes := x.hbmStashBytes + bytes } else { x with stashBytes := x.stashBytes + bytes }
  cids.foldl (fun s cid => match s.crew? cid with
    | some c => (List.range c.weaves.length).foldl (fun s j => match s.weave? cid j with
        | some w => match w.wait with
          | .barrier scp n g => if met c scp n g then s.modWeave cid j fun w => { w with wait := .none } else s
          | .waita => if w.woken then s.modWeave cid j fun w => { w with wait := .none } else s
          | .signal _ => s.after (64 * s.mgmt.quant * 1000) (.watchedTimeout cid j w.stamp)
          | _ => s
        | none => s) s
    | none => s) s

/-! ## The ladder (R119, R382) -/

/-- A unit is resident and may be saved without its consent, or is a candidate. -/
def State.targetUnit (s : State) (cid : Nat) : Option (List Crew) :=
  (s.crew? cid).bind fun c =>
    let us := s.unitOf c
    if us.all fun x => x.core?.isSome then some us else none

/-- The next target of a pre-emption to save on a die: a candidate, or any once the drain has ended. -/
def State.nextTarget (s : State) (d : Nat) : Option (List Nat) :=
  s.pre.findSome? fun p => p.targets.findSome? fun cid => match s.targetUnit cid with
    | some us =>
      if (us.all fun x => x.die == d) && (p.saving || ((us.all fun x => x.ended || x.candidate) && !us.all Crew.ended)) then some (us.map (·.cid)) else none
    | none => none

/-- Save the next target on each die. Without stash room the crew is reset by force (R119 step 4). -/
def State.pumpPre (s : State) : State :=
  [0, 1, 2, 3].foldl (fun s d =>
    if (s.die d).save.isSome then s
    else match s.nextTarget d with
      | none => s
      | some cids => match (s.die d).stashFor (s.imageSize cids) with
        | some _ => s.beginSave d cids true none []
        | none => match cids.head?.bind s.crew? with
          | some c => s.discardUnit c .preemptSaveFailed
          | none => s) s

/-- The targets of a request. -/
def State.preTargets (s : State) (why : Preempt) : List Nat :=
  match why with
  | .forUnit d lid unit => match (s.waiting d).find? fun x => x.l.lid == lid && x.unit == unit with
    | some x => (s.preemptSet d x).getD []
    | none => []
  | .forSwitch owner => (s.crews.filter fun c => c.owner == owner && c.holds?.isSome).map (·.cid)
  | .forPark d => (s.crews.filter fun c => (c.holds?.map dieOfCore) == some d).map (·.cid)
  | .forHalt lid =>
    (s.crews.filter fun c => c.lid == lid && c.core?.isSome
      && !(c.weaves.any fun w => w.handler == some .halted && w.cause != .debugHalt)).map (·.cid)

/-- `PREEMPTION_REQUEST`: the targets are fixed and the drain window begins. A request for a unit that all targets of an
earlier one have left, and which still has no place, takes that one's saved crews over. -/
def execPreemptionRequest (req : Preempt) (s : State) : Host.Outcome State Fault Refusal :=
  .next <|
    if s.pre.any fun p => p.why == req && !p.targets.isEmpty then s
    else
      let targets := s.preTargets req
      let s := s.newId
      let old := s.pre.filter fun (p : PreReq) => p.why == req
      let p : PreReq := ⟨s.ids, req, targets, old.flatMap PreReq.gone, false⟩
      if targets.isEmpty then s.afterPre p
      else
        (({ s with pre := (s.pre.filter fun (p : PreReq) => p.why != req) ++ [p] }.after (s.mgmt.drain * 1000) (.drainExpiry s.ids)).settlePre).pumpPre

/-- What waits on the die of a request for a unit can go to a core now: the unit's own turn is on its way (R385). -/
def State.placeFirst (s : State) (id : Nat) : Option Nat :=
  match (s.pre.find? fun p => p.id == id).map PreReq.why with
  | some (.forUnit d _ _) => if (s.firstAct d).isSome then some d else none
  | _ => none

/-- `DRAIN_EXPIRY`: a request whose reason has passed is withdrawn (R382); every other target is saved at its next instruction
boundary. A unit for which a core is free is placed first. -/
def execDrainExpiry (id : Nat) (s : State) : Host.Outcome State Fault Refusal :=
  let s := s.settlePre
  .next <| match s.placeFirst id with
  | some d => (s.postOnce (.unitPlacement d)).post (.drainExpiry id)
  | none => ({ s with pre := updWhere s.pre (fun p => p.id == id) fun p => { p with saving := true } }.settlePre).pumpPre

/-! ## Rotation (R112, R115) -/

/-- 0 a waiter, 1 a watched spinner, 2 an unwatched one: the class of a candidate unit is its last weave's to choose. -/
def Weave.rank (w : Weave) : Nat :=
  if w.done then 0 else match w.wait with | .spin => if w.spin.watched then 1 else 2 | _ => 0
def rankOf (us : List Crew) : Nat := us.foldl (fun m c => c.weaves.foldl (fun m w => max m w.rank) m) 0

/-- The candidate units on a die, by their first crews. -/
def State.candidates (s : State) (d : Nat) : List Crew :=
  s.crews.filter fun c => c.core?.isSome && c.die == d && (!c.inGang || c.member == 0)
    && (s.unitOf c).all fun x => x.core?.isSome && (x.ended || x.candidate)
    && (s.unitOf c).any fun x => !x.ended

/-- The moment a unit became a candidate. -/
def sinceOf (us : List Crew) : Nat := us.foldl (fun m c => max m (c.candSince.getD 0)) 0

/-- One candidate is chosen before another (R112 step 3). DESIGN CHOICE (log entry 104): a gang counts with its worst class, the
moment its last crew became a candidate, and the core of its member 0. -/
def State.preferred (s : State) (a b : Crew) : Bool :=
  let ua := s.unitOf a
  let ub := s.unitOf b
  let ka := a.core?.getD 0
  let kb := b.core?.getD 0
  rankOf ua < rankOf ub || (rankOf ua == rankOf ub && (sinceOf ua < sinceOf ub || (sinceOf ua == sinceOf ub
    && (ka < kb || (ka == kb && b.placed < a.placed)))))

/-- Candidates in the order of choice. -/
def State.choice (s : State) (cs : List Crew) : List Crew :=
  cs.foldl (fun acc c => acc.takeWhile (fun a => s.preferred a c) ++ [c] ++ acc.dropWhile fun a => s.preferred a c) []

/-- The victims for an incoming unit: one candidate, or the fewest of one core (R112 steps 3 and 4). -/
def State.victimsFor (s : State) (d : Nat) (x : Item) : List Crew :=
  let cs := s.choice ((s.candidates d).filter fun c => !s.limitReached x.l || c.lid == x.l.lid)
  match cs.find? fun c => s.roomWithout d x (s.unitCids c) with
  | some c => [c]
  | none =>
    let sets := (dieCores d).filterMap fun k => s.setUntil d x [] (cs.filter fun c => c.core? == some k)
    sets.foldl (fun best v => if best.isEmpty || v.length < best.length then v else best) []

/-- A launch record on which a resident candidate of the die waits, that the item's unit has not arrived at: the first
tier of R112. -/
def State.firstTier (s : State) (d : Nat) (x : Item) : Bool :=
  (s.candidates d).any fun c => (s.unitOf c).any fun y => y.lid == x.l.lid && y.weaves.any fun w => match w.wait with
    | .barrier 4 n g => match x.what with
      | .unit _ => true
      -- a gang has arrived when each of its crews that goes on has (R100)
      | .back cids => (s.crews.any fun z => cids.contains z.cid && !z.cont && !z.ended && z.mOf 4 n != some g)
      | .bin _ => false
    | _ => false

/-- A saved unit that no core of its home die can hold is discarded (R243). -/
def State.dropImpossible (s : State) (d : Nat) : State :=
  (s.waiting d).foldl (fun s x => match x.what with
    | .back cids =>
      let members := cids.length
      if !s.dieHolds d members (s.itemNeed x) then match cids.head?.bind s.crew? with
        | some c => s.discardUnit c .residencyImpossible
        | none => s
      else s
    | _ => s) s

/-- Every resident unit of a partition is a candidate. -/
def State.allCandidates (s : State) (part : Nat) : Bool :=
  (s.crews.filter fun c => c.core?.isSome && s.partOf c.die == part).all fun c => c.ended || c.candidate

/-- One die's RRU (R112, R115). -/
def State.rotate (s : State) (d : Nat) : State :=
  if !(s.die d).accepts || (s.die d).save.isSome then s
  else
    let s := s.dropImpossible d
    if (s.firstAct d).isSome then s.postOnce (.unitPlacement d)
    else
      let xs := (s.waiting d).filter fun x => s.canRestore d x || s.limitReached x.l
      match (xs.find? fun x => s.firstTier d x).orElse fun _ => xs.head? with
      | none => s
      | some x => match s.victimsFor d x with
        | [] => s
        | v :: vs =>
          let cids := s.unitCids v
          match (s.die d).stashFor (s.imageSize cids) with
          | some _ => s.beginSave d cids false (some (x.l.lid, x.what)) (vs.map s.unitCids)
          | none =>
            if s.allCandidates (s.partOf d) then
              (s.event x.l.owner { cls := .residency, cause := .stashFull, src := d }).endLaunch x.l.lid .stashFull
            else s

/-- `SLOT_NEEDED`: pre-emptions in progress, then each die's RRU. -/
def execSlotNeeded (s : State) : Host.Outcome State Fault Refusal :=
  .next <| [0, 1, 2, 3].foldl State.rotate (s.settlePre.pumpPre)

/-! ## Completion (R114, R243) -/

/-- What a rotation's save has made room for, with its core, when it can go there at once (R112, R114). -/
def State.bringIn (s : State) (d : Nat) (incoming : Option (Nat × Waits)) : Option (Item × Nat) :=
  incoming.bind fun y => ((s.waiting d).find? fun x => x.l.lid == y.1 && x.what == y.2).bind fun x =>
    if x.gangUnit.isSome || s.limitReached x.l || !s.canRestore d x || !(s.die d).accepts then none
    else (s.bestCore s.gangRes d (s.itemNeed x)).map fun k => (x, k)

/-- A unit's image is written and its core's resources are free. -/
def State.saved (s : State) (d : Nat) (cids : List Nat) (hbm : Bool) : State :=
  let s := (s.modDie d fun x => { x with save := none }).stash d cids hbm
  let left (p : PreReq) : PreReq :=
    { p with targets := p.targets.filter fun t => !cids.contains t, gone := p.gone ++ p.targets.filter fun t => cids.contains t }
  let s := { s with pre := s.pre.map left }
  s.reserveLaunches.repairAll.syncWaiters.settlePre.pumpPre

/-- The next unit of the set that a rotation saves to make room for one that still waits (R112 step 4): while it is a
candidate, has no save before it and finds stash room. -/
def State.saveNext (s : State) (d : Nat) (j : Job) : Option State :=
  match j.rest, j.incoming with
  | cids :: rest, some y =>
    let us := s.crews.filter fun c => cids.contains c.cid
    let waits := (s.waiting d).any fun x => x.l.lid == y.1 && x.what == y.2
    if waits && (s.die d).save.isNone && us.length == cids.length && (us.all fun c => c.core?.isSome && (c.ended || c.candidate))
        && ((s.die d).stashFor (s.imageSize cids)).isSome then some (s.beginSave d cids false (some y) rest)
    else none
  | _, _ => none

/-- `SAVE_COMPLETE`: once nothing of the crews is in flight, the image is written; waiting gangs reserve what the crews have freed
(R96); then what room was made for comes in, or the next of the set is saved. An image write that meets an uncorrectable error fails, as one without room does (R119). -/
def execSaveComplete (d : Nat) (s : State) : Host.Outcome State Fault Refusal :=
  .next <| match (s.die d).save with
  | none => s
  | some j =>
    let bad := s.crews.any fun c => j.cids.contains c.cid && c.imageBad
    if j.cids.any s.inFlight then s.post (.saveComplete d)
    else match j.cids.head?.bind s.crew?, if bad then none else (s.die d).stashFor (s.imageSize j.cids) with
      | some c, none => (s.modDie d fun x => { x with save := none }).discardUnit c .preemptSaveFailed
      | some _, some hbm =>
        let s := (s.saved d j.cids hbm).reserveShares d
        match s.bringIn d j.incoming with
        | some (x, core) => (s.putItem d x core).kick
        | none => (s.saveNext d j).getD s.kick
      | none, _ => s.modDie d fun x => { x with save := none }

/-- One restored crew: on its core, translation registers invalid, generations as the records hold them, a spinner at
its target, nospin flags 0; the core's L1 keeps nothing old of the owner (R114, R155, R296, R374). `stamp` tells when. -/
def State.restoreCrew (s : State) (cid core stamp : Nat) : State :=
  match s.crew? cid with
  | none => s
  | some c =>
    let slots := assignSlots c.weaves.length (s.slotLoad core)
    let back (w : Weave) (slot : Nat) : Weave :=
      { w with slot := slot, issuedAt := 0, b := w.b.map (fun t => { t with bv := false }), spin := { w.spin with nospin := false } }
    let s := s.modCrew cid fun c =>
      { c with place := .resident core, placed := stamp, block := [], weaves := (c.weaves.zip slots).map fun (w, k) => back w k }
    let s := (List.range 16).foldl (fun s n => (s.refreshK cid 2 n).refreshK cid 4 n) s
    let s := s.l1Drop core fun l => l.owner == c.owner
    let s := (s.setRoute c core).pokeStage c
    (List.range c.weaves.length).foldl (fun s j => match s.weave? cid j with
      | some w => match w.wait with
        | .barrier .. => s.recheckBarrier cid j
        | .spin => s.unpark cid j
        | .signal ref =>
          if w.pend.isSome then s
          else if ref.getLsbD 63 then
            (if s.peerKnown c.owner ref then s.say (.peerRegister c.owner ref) else s.inform ⟨c.owner, ref, .weave cid j, 0⟩ none)
          else s.inform ⟨c.owner, ref, .weave cid j, 0⟩ (s.sigValue c.owner ref)
        | _ => s
      | none => s) s

/-- `RESTORE_COMPLETE`: an image in error discards the unit (R235). -/
def execRestoreComplete (d : Nat) (s : State) : Host.Outcome State Fault Refusal :=
  .next <| match (s.die d).restore with
  | none => s
  | some j =>
    let s := s.modDie d fun x => { x with restore := none }
    let cs := s.crews.filter fun c => j.cids.contains c.cid
    match cs.find? fun c => c.imageBad with
    | some c => (s.discardUnit c .memoryUe).kick
    | none =>
      let stamp := s.ids
      let s := cs.foldl (fun s c => match c.place with
        | .restoring k => s.restoreCrew c.cid k stamp
        | _ => s) s.newId
      -- a halt that covers a crew which was on its way back takes it now (R246)
      let s := cs.foldl (fun s c => if s.haltCovers c then
          (List.range c.weaves.length).foldl (fun s j => s.haltWeave c.cid j) s else s) s
      ((cs.foldl (fun s c => s.noteCand c.cid) s).syncWaiters).kick

end Sys2Proof.Machine
end

