-- ==== Sys2Proof/Machine/Graphs.lean ====
section
/-! DEFINITION. Machine/Graphs.lean: rate graphs: BIND with its balance, firing table and work area (R71 to R81), RUN and
PATCH (R82, R83), firings and feeders (R84 to R86, R361), failure (R87). -/

namespace Sys2Proof.Machine

/-! ## Descriptors (R72 to R75) -/

/-- What a descriptor says. -/
structure Desc where
  wsva : Nat
  wslen : Nat
  parva : Nat
  parlen : Nat
  periods : Nat
  stages : List (Nat × Nat)
  chans : List Chan
  deriving DecidableEq, Repr

/-- NSTG, NCH, STGVA and CHVA of a header. -/
def hdrNstg (n : Nat) : Nat := bitsOf n 8 8
def hdrNch (n : Nat) : Nat := bitsOf n 16 16
def hdrStgva (n : Nat) : Nat := bitsOf n 64 64
def hdrChva (n : Nat) : Nat := bitsOf n 128 64

/-- A header within the limits of R72. -/
def hdrOk (n : Nat) : Bool :=
  let va (x al : Nat) : Bool := vaOk x && x % al == 0
  bitsOf n 0 8 == 1 && 1 ≤ hdrNstg n && hdrNstg n ≤ 64 && 1 ≤ hdrNch n && hdrNch n ≤ 256 && bitsOf n 32 32 == 0
    && va (hdrStgva n) 16 && va (hdrChva n) 32 && va (bitsOf n 192 64) 4096 && va (bitsOf n 320 64) 64
    && 1 ≤ bitsOf n 384 16 && bitsOf n 384 16 ≤ 1024 && bitsOf n 400 48 == 0 && 1 ≤ bitsOf n 448 32 && bitsOf n 480 32 == 0

/-- A stage record, and its limits; a launch record is aligned to 64 bytes (R90; log entry 97). -/
def stageOf (x : Nat) : Nat × Nat := (bitsOf x 0 64, bitsOf x 64 8)
def stageOk (x : Nat) : Bool := vaOk (bitsOf x 0 64) && bitsOf x 0 64 % 64 == 0 && 1 ≤ bitsOf x 64 8 && bitsOf x 64 8 ≤ 64 && bitsOf x 72 56 == 0

/-- A channel record. -/
def chanOf (x : Nat) : Chan :=
  { pstg := bitsOf x 0 8, cstg := bitsOf x 8 8, prate := bitsOf x 16 8, crate := bitsOf x 24 8, rlog2 := bitsOf x 32 4,
    delay := bitsOf x 40 8, hpoff := bitsOf x 64 32 }

def Chan.source (c : Chan) : Bool := c.pstg == 0xFF
def Chan.sink (c : Chan) : Bool := c.cstg == 0xFF
def Chan.internal (c : Chan) : Bool := !c.source && !c.sink
def Chan.bytes (c : Chan) : Nat := 2 ^ c.rlog2

/-- A channel record within the limits of R74 and R75. -/
def chanOk (nstg parlen x : Nat) : Bool :=
  let c := chanOf x
  bitsOf x 36 4 == 0 && bitsOf x 48 16 == 0 && bitsOf x 96 160 == 0 && 6 ≤ c.rlog2 && c.rlog2 ≤ 12
    && !(c.source && c.sink) && c.pstg != c.cstg
    && (if c.source then c.prate == 0 && c.delay == 0 else decide (c.pstg < nstg) && 1 ≤ c.prate)
    && (if c.sink then c.crate == 0 && c.delay == 0 else decide (c.cstg < nstg) && 1 ≤ c.crate)
    && (if c.internal then c.hpoff == 0 else c.hpoff % 8 == 0 && c.hpoff + 16 ≤ 64 * parlen)

/-- Bytes of the rings of a stage's crew (R86). -/
def ringBytesOf (chans : List Chan) (stg : Nat) : Nat :=
  (chans.map fun c => (if c.pstg = stg then 2 * c.prate * c.bytes else 0) + (if c.cstg = stg then 2 * c.crate * c.bytes else 0)).sum

/-- Channel ends of a stage. -/
def endsOf (chans : List Chan) (stg : Nat) : Nat := (chans.filter fun c => c.pstg == stg || c.cstg == stg).length

/-! ## The balance (R78) -/

/-- A rational as numerator and denominator in lowest terms. -/
def ratio (a b : Nat) : Nat × Nat := (a / Nat.gcd a b, b / Nat.gcd a b)

/-- The known entries of q, whether the round changed one, whether two equations differ. -/
structure Balance where
  q : List (Option (Nat × Nat))
  changed : Bool
  bad : Bool
  deriving DecidableEq, Repr

/-- One channel's equation. -/
def Balance.chan (b : Balance) (c : Chan) : Balance :=
  if b.bad || !c.internal then b
  else match nthD b.q c.pstg none, nthD b.q c.cstg none with
    | some i, none => { b with q := modNth b.q c.cstg fun _ => some (ratio (i.1 * c.prate) (i.2 * c.crate)), changed := true }
    | none, some j => { b with q := modNth b.q c.pstg fun _ => some (ratio (j.1 * c.crate) (j.2 * c.prate)), changed := true }
    | some i, some j => { b with bad := i.1 * c.prate * j.2 != j.1 * c.crate * i.2 }
    | none, none => b

/-- Rounds until nothing changes. -/
def Balance.rounds (chans : List Chan) : Nat → Balance → Balance
  | 0, b => b
  | n + 1, b =>
    let b := chans.foldl Balance.chan { b with changed := false }
    if b.bad || !b.changed then b else b.rounds chans n

/-- The repetition vector, or the cause. -/
def balance (nstg : Nat) (chans : List Chan) : Except Cause (List Nat) :=
  let b0 : Balance := ⟨some (1, 1) :: List.replicate (nstg - 1) none, false, false⟩
  let b := b0.rounds chans (nstg + 1)
  if b.bad then .error .rateInconsistent
  else if b.q.any Option.isNone then .error .graphInvalid
  else
    let xs := b.q.filterMap id
    let d := xs.foldl (fun m x => Nat.lcm m x.2) 1
    let ys := xs.map fun x => x.1 * (d / x.2)
    let g := ys.foldl Nat.gcd 0
    .ok (ys.map (· / g))

/-! ## The firing table (R79) -/

/-- A period as it is simulated: firings left and done by stage, occupancy and its maximum by channel, the table. -/
structure Sim where
  left : List Nat
  ord : List Nat
  occ : List Nat
  top : List Nat
  table : List (Nat × Nat)
  deriving DecidableEq, Repr

/-- The highest-numbered stage that may fire. -/
def Sim.pick (m : Sim) (chans : List Chan) : Option Nat :=
  ((List.range m.left.length).filter fun s => nthD m.left s 0 != 0
    && (chans.zip m.occ).all fun x => x.1.cstg != s || x.1.source || x.1.crate ≤ x.2).getLast?

def Sim.fire (m : Sim) (chans : List Chan) (s : Nat) : Sim :=
  let occ := (chans.zip m.occ).map fun (c, n) =>
    if !c.internal then n else n - (if c.cstg = s then c.crate else 0) + (if c.pstg = s then c.prate else 0)
  { left := modNth m.left s (· - 1), ord := modNth m.ord s (· + 1), occ := occ,
    top := (m.top.zip occ).map fun (a, b) => max a b, table := (s, nthD m.ord s 0) :: m.table }

/-- Fire until no firing is left; nothing when no stage qualifies. -/
def Sim.run (chans : List Chan) : Nat → Sim → Option Sim
  | 0, m => some m
  | n + 1, m => match m.pick chans with
    | some s => Sim.run chans n (m.fire chans s)
    | none => none

/-- The firing table and the channels' capacities. -/
def schedule (chans : List Chan) (q : List Nat) : Option (List (Nat × Nat) × List Nat) :=
  let m : Sim := ⟨q, q.map fun _ => 0, chans.map (·.delay), chans.map fun _ => 0, []⟩
  (Sim.run chans q.sum m).map fun m =>
    (m.table.reverse, (chans.zip m.top).map fun (c, t) => if c.internal then 2 * t else 0)

/-! ## The work area (R80) -/

def Graph.cap (g : Graph) (c : Nat) : Nat := nthD g.caps c 0
/-- The offset of a channel's buffer. -/
def bufferOff (boff : Nat) : List (Chan × Nat) → Nat → Nat
  | _, 0 => boff
  | [], _ => boff
  | (c, cap) :: xs, n + 1 => bufferOff (boff + (if c.internal then roundUp (cap * c.bytes) 4096 else 0)) xs n

def Graph.buffer (g : Graph) (c : Nat) : Nat := g.wsva + bufferOff g.boff (g.chans.zip g.caps) c
def Graph.slotVa (g : Graph) (k : Nat) : Nat := g.wsva + g.psoff + 64 * g.parlen * k
/-- COFF, which the header also holds. -/
def coffOf (plen : Nat) : Nat := roundUp (0x540 + 4 * plen) 16

/-- The bytes of the work area from its start to the end of the cursors. -/
def Graph.areaBytes (g : Graph) : List Byte :=
  let pad (n : Nat) (xs : List Nat) : List Nat := xs ++ List.replicate (n - xs.length) 0
  bytesLE 8 g.table.length ++ bytesLE 8 g.psoff ++ bytesLE 8 g.boff ++ bytesLE 8 g.wsuse ++ bytesLE 8 g.coff ++ List.replicate 24 0
    ++ (pad 64 g.qv).flatMap (bytesLE 4) ++ (pad 256 g.caps).flatMap (bytesLE 4)
    ++ (g.table.flatMap fun x => bytesLE 4 (x.1 + x.2 * 256))
    ++ List.replicate (g.coff - (0x540 + 4 * g.table.length) + 32 * g.chans.length) 0

/-! ## The object (R76, R77) -/

def GState.code : GState → Nat
  | .unbound => 0
  | .bound => 1
  | .faulted => 2

/-- The 64-byte image. -/
def Graph.image (g : Graph) : List Byte :=
  bytesLE 64 (g.state.code + g.next * 2 ^ 8 + g.sref.toNat * 2 ^ 10 + g.insts.length * 2 ^ 16 + g.wsva * 2 ^ 64
    + g.periods % 2 ^ 32 * 2 ^ 128 + g.done.toNat * 2 ^ 192 + g.gcause.code * 2 ^ 256)

/-- Change a graph and write its image, where its page can be written: an operation first sees to the page's faults
(`State.imageAccess`, log entry 90). -/
def State.setGraph (s : State) (gid : Nat) (f : Graph → Graph) : State :=
  let s := s.modGraph gid f
  match s.graph? gid with
  | some g => match s.deviceWrite g.owner g.gobj g.image with | .ok s => s | .error _ => s
  | none => s

/-- The operation at the head of an object's line goes on. -/
def State.nextOp (s : State) (gid : Nat) : State :=
  match (s.graph? gid).bind fun g => g.waiting.head? with
  | some (q, idx) => match s.openPacket q idx with
    | some (_, p) => s.postOnce (p.startEvent q)
    | none => s
  | none => s

/-- An operation leaves its object's line. -/
def State.leaveOp (s : State) (gid qn idx : Nat) : State :=
  (s.modGraph gid fun g => { g with waiting := g.waiting.filter (· != (qn, idx)) }).nextOp gid

/-- The operation has begun: a DESTROY no longer cancels it (R48). -/
def State.beginOp (s : State) (qn idx : Nat) : State :=
  s.modQueue qn fun q => { q with started := updWhere q.started (fun p => p.pkt.idx == idx) fun p => { p with graphWait := false } }

/-- An operation ends. -/
def State.endOp (s : State) (gid qn idx : Nat) (err : Option Cause) : State :=
  (s.finishPacket qn idx err 0).leaveOp gid qn idx

/-- Take a GRAPH packet to its object, in line (R77). -/
def State.graphOp (s : State) (qn idx : Nat) (run : State → Queue → Packet → Graph → State) : State :=
  match s.openPacket qn idx with
  | none => s
  | some (q, p) =>
    let r := s.graphAt q.owner (p.word 3)
    let s := r.1.modGraph r.2 fun g => g.lineUp qn idx
    match s.graph? r.2 with
    | some g => if g.waiting.head? = some (qn, idx) then run s q p g else s
    | none => s

/-- The image of an operation's object can be written, or its fault is being seen to (R41, R76). -/
def State.imageAccess (s : State) (q : Queue) (p : Packet) (g : Graph) : State × Bool :=
  s.packetAccess q p.idx g.gobj 64 true (p.startEvent q.q) 0

/-! ## BIND and UNBIND (R75 to R81) -/

/-- A read on behalf of an operation: the bytes, or the state in which its fault is seen to. DESIGN CHOICE (log entry 101): bytes in a
word in error complete the operation with `MEMORY_UE`. -/
def State.opRead (s : State) (q : Queue) (p : Packet) (va n : Nat) : State × Option (List Byte) :=
  match s.packetAccess q p.idx va n false (p.startEvent q.q) 0 with
  | (s, true) => match s.deviceRead q.owner va n with
    | .ok bs => (s.countSoft (s.softDevice q.owner va n), some bs)
    | .error c => (s.finishPacket q.q p.idx (some c) 0, none)
  | (s, false) => (s, none)

/-- Records of n bytes from a list of bytes. -/
def recordsOf (n k : Nat) (bs : List Byte) : List Nat := (List.range k).map fun i => natLE ((bs.drop (n * i)).take n)

/-- What the rates of a valid descriptor come to: the repetition vector, the table and the capacities. -/
def solve (d : Desc) : Except Cause (List Nat × List (Nat × Nat) × List Nat) :=
  match balance d.stages.length d.chans with
  | .error c => .error c
  | .ok q =>
    if 65536 < q.sum then .error .graphInvalid
    else match schedule d.chans q with
      | some (t, caps) => .ok (q, t, caps)
      | none => .error .graphDeadlock

/-- A graph bound by a descriptor: its layout. -/
def Graph.bindTo (g : Graph) (d : Desc) (q : List Nat) (t : List (Nat × Nat)) (caps : List Nat) : Graph :=
  let coff := coffOf t.length
  let psoff := roundUp (coff + 32 * d.chans.length) 4096
  let boff := roundUp (psoff + 3 * 64 * d.parlen) 4096
  { g with
    state := .bound, next := 0, sref := 0, wsva := d.wsva, parlen := d.parlen, periods := d.periods, done := 0,
    stages := d.stages, chans := d.chans, qv := q, caps := caps, table := t, psoff := psoff, boff := boff, coff := coff,
    wsuse := bufferOff boff (d.chans.zip caps) d.chans.length, shift := d.chans.map fun _ => 0,
    held := d.chans.map (·.delay), insts := [] }

/-- Every stage of a descriptor has a channel and its rings fit (R75). -/
def Desc.ok (d : Desc) : Bool :=
  (List.range d.stages.length).all fun k => endsOf d.chans k != 0 && ringBytesOf d.chans k ≤ 131072

/-- A BIND fails: a rebind leaves the object UNBOUND (R81). -/
def State.bindFail (s : State) (q : Queue) (p : Packet) (g : Graph) (c : Cause) : State :=
  if g.state = .unbound then s.endOp g.gid q.q p.idx (some c)
  else match s.imageAccess q p g with
    | (s, false) => s
    | (s, true) => (s.setGraph g.gid fun g => { g with state := .unbound }).endOp g.gid q.q p.idx (some c)

/-- The binding is written to the work area: the area itself, the parameters in slot 0, the initial records. -/
def State.writeArea (s : State) (g : Graph) (par : List Byte) : State :=
  let put (s : State) (va : Nat) (bs : List Byte) : State := match s.deviceWrite g.owner va bs with | .ok s => s | .error _ => s
  let s := put s g.wsva g.areaBytes
  let s := put s (g.slotVa 0) par
  (List.range g.chans.length).foldl (fun s k => match g.chans[k]? with
    | some c => put s (g.buffer k) (List.replicate (c.delay * c.bytes) 0)
    | none => s) s

/-- A BIND with its descriptor read and valid. -/
def State.bindWith (s : State) (q : Queue) (p : Packet) (g : Graph) (d : Desc) : State :=
  if !d.ok || 256 ≤ (s.graphs.filter fun x => x.state != .unbound && x.gid != g.gid).length then s.bindFail q p g .graphInvalid
  else match solve d with
    | .error c => s.bindFail q p g c
    | .ok (v, t, caps) =>
      let g' := g.bindTo d v t caps
      if d.wslen < g'.wsuse then s.bindFail q p g .graphWorkspace
      else match s.opRead q p d.parva (64 * d.parlen) with
        | (s, none) => s
        | (s, some par) => match s.packetAccess q p.idx g'.wsva g'.wsuse true (p.startEvent q.q) 0 with
          | (s, false) => s
          | (s, true) => match s.imageAccess q p g with
            | (s, false) => s
            | (s, true) =>
              let s := s.writeArea g' par
              (s.setGraph g.gid fun x => { g' with waiting := x.waiting }).endOp g.gid q.q p.idx none

def execBind (qn idx : Nat) (s : State) : Host.Outcome State Fault Refusal :=
  .next <| s.graphOp qn idx fun s q p g =>
    if g.state != .unbound && !g.insts.isEmpty then s
    else
      let s := s.beginOp qn idx
      match s.opRead q p (p.word 4) 64 with
      | (s, none) => s
      | (s, some hb) =>
        let h := natLE hb
        if !hdrOk h || p.word 4 % 64 != 0 || p.word 3 % 64 != 0 then s.bindFail q p g .graphInvalid
        else match s.opRead q p (hdrStgva h) (16 * hdrNstg h) with
          | (s, none) => s
          | (s, some sb) => match s.opRead q p (hdrChva h) (32 * hdrNch h) with
            | (s, none) => s
            | (s, some cb) =>
              let ss := recordsOf 16 (hdrNstg h) sb
              let cs := recordsOf 32 (hdrNch h) cb
              let parlen := bitsOf h 384 16
              if !(ss.all stageOk && cs.all (chanOk (hdrNstg h) parlen)) then s.bindFail q p g .graphInvalid
              else s.bindWith q p g
                { wsva := bitsOf h 192 64, wslen := bitsOf h 256 64, parva := bitsOf h 320 64, parlen := parlen,
                  periods := bitsOf h 448 32, stages := ss.map stageOf, chans := cs.map chanOf }

/-- `UNBIND`. DESIGN CHOICE (log entry 100): a GOBJ that is no multiple of 64 is an object that nothing can bind; its UNBIND completes,
and the image goes where GOBJ says. -/
def execUnbind (qn idx : Nat) (s : State) : Host.Outcome State Fault Refusal :=
  .next <| s.graphOp qn idx fun s q p g =>
    if !g.insts.isEmpty then s
    else match (s.beginOp qn idx).imageAccess q p g with
      | (s, false) => s
      | (s, true) => (s.setGraph g.gid fun g => { g with state := .unbound }).endOp g.gid qn idx none

/-! ## RUN (R82) -/

/-- The cause of an operation on an object that is not BOUND. -/
def Graph.unfit (g : Graph) : Option Cause :=
  match g.state with
  | .bound => none
  | .unbound => some .graphInvalid
  | .faulted => some .graphFaulted

/-- The VA and length, in records, of the array of each channel's end in a parameter slot. -/
def arraysOf (chans : List Chan) (par : List Byte) : List (Nat × Nat) :=
  chans.map fun c =>
    if c.internal then (0, 0)
    else (natLE ((par.drop c.hpoff).take 8), natLE ((par.drop (c.hpoff + 8)).take 8))

/-- Records that an instance moves through the outer end of a source or sink. -/
def Graph.arrayNeed (g : Graph) (c : Chan) : Nat :=
  if c.source then g.periods * g.q c.cstg * c.crate else if c.sink then g.periods * g.q c.pstg * c.prate else 0

/-- A stage's launch, as RUN makes it: the record's bits and the home base. -/
structure StageRun where
  stg : Nat
  bits : Nat
  base : Option DWord
  deriving DecidableEq, Repr

/-- Read each stage's launch record, and its home base from the parameters. -/
def State.readStages (s : State) (q : Queue) (p : Packet) (g : Graph) (slot : Nat) (par : List Byte) :
    List (Nat × Nat × Nat) → State × Option (List StageRun)
  | [] => (s, some [])
  | (stg, lrec, _) :: xs => match s.opRead q p lrec 64 with
    | (s, none) => (s, none)
    | (s, some bs) =>
      let n := natLE bs
      let a := (lrecOf n).homearg
      let got : State × Option (Option DWord) :=
        if a = 0xFF || !lrecOk n then (s, some none)
        else if 8 * a + 8 ≤ par.length then (s, some (some (BitVec.ofNat 64 (natLE ((par.drop (8 * a)).take 8)))))
        else match s.opRead q p ((g.slotVa slot + 8 * a) % 2 ^ 52) 8 with
          | (s, some w) => (s, some (some (BitVec.ofNat 64 (natLE w))))
          | (s, none) => (s, none)
      match got with
      | (s, none) => (s, none)
      | (s, some b) => match s.readStages q p g slot par xs with
        | (s, some r) => (s, some (⟨stg, n, b⟩ :: r))
        | (s, none) => (s, none)

/-- Why the stages of a RUN cannot run: a record that R91 refuses or that asks for gangs (log entry 33), too many channel
ends (R361), no core that can hold a crew (R87, R92). -/
def State.stagesBad (s : State) (g : Graph) (rs : List StageRun) : Option Cause :=
  if rs.any fun r => !lrecOk r.bits || (lrecOf r.bits).gang then some .launchInvalid
  else if (List.range g.stages.length).any fun k => 56 < endsOf g.chans k then some .graphInvalid
  else if rs.any fun r => !s.possible (Launch.start 0 g.owner 0 (.stage g.gid 0 r.stg) (lrecOf r.bits) 0 1 r.base
      [ringBytesOf g.chans r.stg]) then some .residencyImpossible
  else none

/-- The die that owns the byte at a VA, whatever its page permits; the owner's first die where no frame is mapped. -/
def State.byteDie (s : State) (owner va : Nat) : Nat :=
  match s.tenant? owner, s.walk owner (va % 2 ^ 52) with
  | some t, .leaf l _ => paDie (leafPa l t.shadow (va % 2 ^ 52) false)
  | _, _ => s.ownerDie owner

/-- The feeder of each channel (R85): number c mod 8 of the die that owns the channel's buffer, or the array's first byte when
the instance is created; of the partition's first die where no frame is mapped yet (log entry 81). -/
def State.feedersOf (s : State) (g : Graph) (arrays : List (Nat × Nat)) : List (Nat × Nat) :=
  (g.chans.zip (List.range g.chans.length)).map fun (x, c) =>
    (s.byteDie g.owner (if x.internal then g.buffer c else (nthD arrays c (0, 0)).1), c % 8)

/-- The instance and its stages' launches. -/
def State.createInst (s : State) (q : Queue) (p : Packet) (g : Graph) (rs : List StageRun) (arrays : List (Nat × Nat)) : State :=
  let s := s.newId
  let id := s.ids
  let s := rs.foldl (fun s r =>
    s.newLaunch g.owner (q.startOf p.idx) (.stage g.gid id r.stg) (lrecOf r.bits) (g.slotVa g.next) (g.crewsOf r.stg) r.base
      [ringBytesOf g.chans r.stg]) s
  let lids := (s.launches.filter fun l => match l.kind with | .stage a b _ => a == g.gid && b == id | _ => false).map (·.lid)
  let inst : Inst :=
    { id := id, q := q.q, idx := p.idx, slot := g.next, periods := g.periods, lids := lids, arrays := arrays, feeders := s.feedersOf g arrays, released := 0,
      doneF := [], chans := g.chans.map fun _ => ⟨0, 0⟩, finished := false,
      failing := none, lost := [] }
  let s := s.setGraph g.gid fun g =>
    { g with insts := g.insts ++ [inst], sref := g.sref ||| BitVec.twoPow 3 g.next }
  ((s.reserveLaunches.leaveOp g.gid q.q p.idx).postOnce (.firingRelease g.gid id))

/-- A RUN of which a crew cannot be placed fails as an instance does: GCAUSE, FAULTED, and the live instances (R87). -/
def State.runImpossible (s : State) (g : Graph) (qn idx : Nat) : State :=
  let s := s.setGraph g.gid fun g => { g with state := .faulted, gcause := .residencyImpossible }
  (g.insts.foldl (fun s x => s.post (.instanceFail g.gid x.id ⟨none, .graphFaulted⟩)) s).endOp g.gid qn idx (some .residencyImpossible)

/-- Some source or sink array is too short for an instance (R82). DESIGN CHOICE (log entry 96): one whose VA has bits above bit 51
counts as too short. -/
def Graph.arraysShort (g : Graph) (arrays : List (Nat × Nat)) : Bool :=
  (g.chans.zip arrays).any fun x => x.2.2 < g.arrayNeed x.1 || !vaOk x.2.1

def execRun (qn idx : Nat) (s : State) : Host.Outcome State Fault Refusal :=
  .next <| s.graphOp qn idx fun s q p g =>
    match g.unfit with
    | some c => (s.beginOp qn idx).endOp g.gid qn idx (some c)
    | none =>
      if 2 ≤ g.insts.length then s
      else
        let s := s.beginOp qn idx
        match s.opRead q p (g.slotVa g.next) (64 * g.parlen) with
        | (s, none) => s
        | (s, some par) =>
          let arrays := arraysOf g.chans par
          match s.readStages q p g g.next par ((List.range g.stages.length).zip g.stages) with
          | (s, none) => s
          | (s, some rs) => match s.imageAccess q p g with
            | (s, false) => s
            | (s, true) =>
              if g.arraysShort arrays then s.endOp g.gid qn idx (some .graphInvalid)
              else match s.stagesBad g rs with
              | some .residencyImpossible => s.runImpossible g qn idx
              | some c => s.endOp g.gid qn idx (some c)
              | none => s.createInst q p g rs arrays

/-! ## PATCH (R83) -/

/-- OFF, LEN and data of an entry; nothing when it breaks R83. DESIGN CHOICE (log entry 98): an OFF or LEN outside its limits, as an
NENT outside its own, has the cause `GRAPH_INVALID` that R83 gives for OFF + LEN and for reserved bits. -/
def patchEntry (parlen e : Nat) : Option (Nat × List Byte) :=
  let off := bitsOf e 0 32
  let len := bitsOf e 32 8
  if off % 8 != 0 || len % 8 != 0 || len < 8 || 48 < len || bitsOf e 40 24 != 0 || bitsOf e 448 64 != 0 || 64 * parlen < off + len then none
  else some (off, (bytesLE 64 e |>.drop 8).take len)

/-- Every entry, or nothing when one is bad. -/
def patchEntries (parlen : Nat) : List Nat → Option (List (Nat × List Byte))
  | [] => some []
  | e :: es => match patchEntry parlen e, patchEntries parlen es with
    | some x, some xs => some (x :: xs)
    | _, _ => none

/-- The lowest slot that no live instance references. -/
def freeSlot (sref : BitVec 3) : Nat := ([0, 1, 2].find? fun k => !sref.getLsbD k).getD 0

/-- Apply a patch: its slot is copied first when an instance references it. -/
def State.applyPatch (s : State) (q : Queue) (p : Packet) (g : Graph) (par : List Byte) (es : List (Nat × List Byte)) (periods : Nat) :
    State :=
  let f := if g.sref.getLsbD g.next then freeSlot g.sref else g.next
  match s.packetAccess q p.idx (g.slotVa f) (64 * g.parlen) true (p.startEvent q.q) 0 with
  | (s, false) => s
  | (s, true) => match s.imageAccess q p g with
  | (s, false) => s
  | (s, true) =>
    let put (s : State) (off : Nat) (bs : List Byte) : State :=
      match s.deviceWrite g.owner (g.slotVa f + off) bs with | .ok s => s | .error _ => s
    let s := if f = g.next then s else put s 0 par
    let s := es.foldl (fun s e => put s e.1 e.2) s
    (s.setGraph g.gid fun g => { g with next := f, periods := if periods = 0 then g.periods else periods }).endOp g.gid q.q p.idx none

def execPatch (qn idx : Nat) (s : State) : Host.Outcome State Fault Refusal :=
  .next <| s.graphOp qn idx fun s q p g =>
    let s := s.beginOp qn idx
    match g.unfit with
    | some c => s.endOp g.gid qn idx (some c)
    | none => match s.opRead q p (p.word 4) 64 with
      | (s, none) => s
      | (s, some hb) =>
        let h := natLE hb
        let n := bitsOf h 0 32
        if n = 0 || 1024 < n || bitsOf h 64 448 != 0 then s.endOp g.gid qn idx (some .graphInvalid)
        else match s.opRead q p (p.word 4 + 64) (64 * n) with
          | (s, none) => s
          | (s, some eb) => match patchEntries g.parlen (recordsOf 64 n eb) with
            | none => s.endOp g.gid qn idx (some .graphInvalid)
            | some es => match s.opRead q p (g.slotVa g.next) (64 * g.parlen) with
              | (s, none) => s
              | (s, some par) => s.applyPatch q p g par es (bitsOf h 32 32)

/-! ## Firings (R84) -/

/-- Firings of an instance in all. -/
def Inst.total (i : Inst) (g : Graph) : Nat := i.periods * g.plen

/-- The live instance before another. -/
def Graph.older (g : Graph) (id : Nat) : Option Inst := (g.insts.takeWhile fun i => i.id != id).getLast?

/-- The next firing of an instance may be released: its entry of the period before has completed. -/
def Graph.mayRelease (g : Graph) (i : Inst) : Bool :=
  let k := i.released
  if i.total g ≤ k then false
  else if g.plen ≤ k then i.doneF.contains (k - g.plen)
  else match g.older i.id with
    | some o => o.doneF.contains ((o.periods - 1) * g.plen + k)
    | none => true

def State.modInst (s : State) (gid id : Nat) (f : Inst → Inst) : State :=
  s.modGraph gid fun g => { g with insts := updWhere g.insts (fun i => i.id == id) f }

/-- `FIRING_RELEASE`. -/
def execFiringRelease (gid id : Nat) (s : State) : Host.Outcome State Fault Refusal :=
  .next <| match s.graph? gid with
  | none => s
  | some g => match g.insts.find? fun i => i.id == id with
    | none => s
    | some i =>
      if g.state = .bound && i.failing.isNone && g.mayRelease i then
        (s.modInst gid id fun i => { i with released := i.released + 1 }).pokeGraph gid
      else s

/-! ## Feeders (R85, R86, R361) -/

def Inst.prog (i : Inst) (c : Nat) : ChProg := nthD i.chans c ⟨0, 0⟩

/-- Records moved into and out of a channel by all live instances, and the records in its buffer. -/
def Graph.movedIn (g : Graph) (c : Nat) : Nat := (g.insts.map fun i => (i.prog c).movIn).sum
def Graph.movedOut (g : Graph) (c : Nat) : Nat := (g.insts.map fun i => (i.prog c).movOut).sum
def Graph.occupancy (g : Graph) (c : Nat) : Nat := nthD g.held c 0 + g.movedIn c - g.movedOut c

/-- Where the next record goes in a buffer, and where the next one comes from. -/
def Graph.inVa (g : Graph) (c : Nat) (x : Chan) : Nat :=
  g.buffer c + (nthD g.held c 0 + nthD g.shift c 0 + g.movedIn c) % max 1 (g.cap c) * x.bytes
def Graph.outVa (g : Graph) (c : Nat) (x : Chan) : Nat :=
  g.buffer c + (nthD g.shift c 0 + g.movedOut c) % max 1 (g.cap c) * x.bytes

/-- Records of an instance through a channel's producer end and consumer end. -/
def Graph.inTotal (g : Graph) (i : Inst) (x : Chan) : Nat := i.periods * g.q x.pstg * x.prate
def Graph.outTotal (g : Graph) (i : Inst) (x : Chan) : Nat := i.periods * g.q x.cstg * x.crate

/-- Every older instance has moved all its records at an end of a channel. -/
def Graph.olderIn (g : Graph) (i : Inst) (c : Nat) (x : Chan) : Bool :=
  (g.insts.takeWhile fun o => o.id != i.id).all fun o => (o.prog c).movIn == g.inTotal o x
def Graph.olderOut (g : Graph) (i : Inst) (c : Nat) (x : Chan) : Bool :=
  (g.insts.takeWhile fun o => o.id != i.id).all fun o => (o.prog c).movOut == g.outTotal o x

/-- The crew that serves firing n of a stage, and its firing count F: a feeder stalls on a crew that is not resident, until the
instance has failed (R86, R87). -/
def State.stageCrew (s : State) (g : Graph) (i : Inst) (stg n : Nat) (away : Bool) : Option (Crew × Nat) :=
  let k := n % max 1 (g.crewsOf stg)
  (s.crews.find? fun c => c.stage == some (g.gid, i.id, stg, k) && (c.core?.isSome || away)).map fun c => (c, n / max 1 (g.crewsOf stg))

/-- A firing has been released. -/
def Graph.isReleased (g : Graph) (i : Inst) (stg n : Nat) : Bool :=
  match g.firingNo stg n with
  | some e => decide (e < i.released)
  | none => false

/-- A released firing may start: each internal input holds CRATE records or has begun to give them, each internal output
has room for PRATE. -/
def Graph.mayStart (g : Graph) (i : Inst) (stg n : Nat) : Bool :=
  (g.chans.zip (List.range g.chans.length)).all fun (x, c) =>
    !x.internal ||
      ((x.cstg != stg || n * x.crate < (i.prog c).movOut || x.crate ≤ g.occupancy c)
        && (x.pstg != stg || g.occupancy c + x.prate ≤ g.cap c))

/-- The die of a channel's feeder. -/
def Inst.feedDie (i : Inst) (c : Nat) : Nat := (nthD i.feeders c (0, 0)).1

/-- A feeder's access has failed for good: a PAGE event, and the failure of its instance (R87). -/
def State.feedFail (s : State) (g : Graph) (i : Inst) (c va : Nat) (cause : Cause) : State :=
  let s := if cause = .memoryUe then s else s.event g.owner { cls := .page, cause := cause, addr := va }
  s.postOnce (.instanceFail g.gid i.id ⟨some c, cause⟩)

/-- Read a record at a VA; faults are resolved, or fail the instance (R87). -/
def State.feedRead (s : State) (g : Graph) (i : Inst) (c va n : Nat) : State × Option (List Byte) :=
  match s.resolveRange g.owner (i.feedDie c) va n ⟨true, false, false⟩ 0
      fun _ => .other (.feederMove g.gid i.id c) (.instanceFail g.gid i.id ⟨some c, .pageUnresolved⟩) with
  | (s, .go, _) => match s.deviceRead g.owner va n with
    | .ok bs => (s.countSoft (s.softDevice g.owner va n), some bs)
    | .error e => (s.feedFail g i c 0 e, none)
  | (s, .fail, v) => (s.feedFail g i c v .pageUnresolved, none)
  | (s, _, _) => (s, none)

/-- Write a record at a VA, its page logged first; whether it was written. -/
def State.feedWrite (s : State) (g : Graph) (i : Inst) (c va : Nat) (bs : List Byte) : State × Bool :=
  let d := i.feedDie c
  let again := Instr.feederMove g.gid i.id c
  match s.resolveRange g.owner d va bs.length ⟨false, true, false⟩ 0
      fun _ => .other again (.instanceFail g.gid i.id ⟨some c, .pageUnresolved⟩) with
  | (s, .go, _) => match s.logPages g.owner d (s.rangePages g.owner (.glb va) bs.length) with
    | (s, true) => match s.deviceStore g.owner va bs with
      | .ok s => (s, true)
      | .error e => (s.feedFail g i c 0 e, false)
    | (s, false) => ((s.logWait g.owner again).postOnce (.dirtyLogFull g.owner), false)
  | (s, .fail, v) => (s.feedFail g i c v .pageUnresolved, false)
  | (s, _, _) => (s, false)

def State.modProg (s : State) (gid id c : Nat) (f : ChProg → ChProg) : State :=
  s.modInst gid id fun i => { i with chans := modNth i.chans c f }

/-- A record has left an output half; a half that is drained is free, and its first word becomes 0. -/
def State.takenOut (s : State) (c : Crew) (ch F : Nat) (r : Ring) : State :=
  let h := F % 2
  let left := (r.half h).recs - 1
  let s := s.modCrew c.cid fun c => c.modRing ch false fun r => r.modHalf h fun x => { x with recs := left, busy := left != 0 }
  if left != 0 then s
  else
    let s := s.locWrite c.owner (.scratch c.cid (r.slot h 0)) (bytesLE 4 0)
    match s.crew? c.cid with
    | some c => if c.ended && !c.undrained then s.crewExit c.cid else s
    | none => s

/-- The crew whose output ring holds the next record of a channel for its feeder to take, with its firing count and the ring: nothing
while the channel has no room, or while an older instance has records to move first. -/
def State.inReady (s : State) (g : Graph) (i : Inst) (c : Nat) (x : Chan) (away : Bool) : Option (Crew × Nat × Ring) :=
  let n := (i.prog c).movIn
  let f := n / max 1 x.prate
  if x.source || g.inTotal i x ≤ n || !g.olderIn i c x || !g.isReleased i x.pstg f then none
  else if x.internal && g.cap c ≤ g.occupancy c then none
  else (s.stageCrew g i x.pstg f away).bind fun k => (k.1.ring? c false).bind fun r =>
    let h := r.half (k.2 % 2)
    if !h.busy || h.firing != k.2 then none else some (k.1, k.2, r)

/-- The next record from a producer's output ring: into the buffer, or into the sink array. -/
def State.moveIn (s : State) (g : Graph) (i : Inst) (c : Nat) (x : Chan) (away : Bool) : State × Bool :=
  match s.inReady g i c x away with
  | none => (s, false)
  | some (crew, F, r) =>
    let n := (i.prog c).movIn
    let bs := s.locReadN crew.owner (.scratch crew.cid (r.slot (F % 2) (n % x.prate))) x.bytes
    let va := if x.sink then (nthD i.arrays c (0, 0)).1 + n * x.bytes else g.inVa c x
    match s.feedWrite g i c va bs with
    | (s, false) => (s, false)
    | (s, true) =>
      let s := s.modProg g.gid i.id c fun p => { movIn := p.movIn + 1, movOut := if x.sink then p.movOut + 1 else p.movOut }
      (s.takenOut crew c F r, true)

/-- The next record to a consumer's input ring: from the buffer, or from the source array. -/
def State.moveOut (s : State) (g : Graph) (i : Inst) (c : Nat) (x : Chan) : State × Bool :=
  let n := (i.prog c).movOut
  let f := n / max 1 x.crate
  let k := n % max 1 x.crate
  if x.sink || g.outTotal i x ≤ n || !g.olderOut i c x || !g.isReleased i x.cstg f then (s, false)
  else if x.internal && g.occupancy c = 0 then (s, false)
  else if k = 0 && !g.mayStart i x.cstg f then (s, false)
  else match s.stageCrew g i x.cstg f false with
    | none => (s, false)
    | some (crew, F) => match crew.ring? c true with
      | none => (s, false)
      | some r =>
        let h := r.half (F % 2)
        if h.firing != F || h.recs != k then (s, false)
        else
          let va := if x.source then (nthD i.arrays c (0, 0)).1 + n * x.bytes else g.outVa c x
          match s.feedRead g i c va x.bytes with
          | (s, none) => (s, false)
          | (s, some bs) =>
            let s := s.locWrite crew.owner (.scratch crew.cid (r.slot (F % 2) k)) bs
            let arrived (x : Half) : Half := { x with recs := x.recs + 1 }.release r.rate crew.f
            let s := s.modCrew crew.cid fun c' => c'.modRing c true fun r => r.modHalf (F % 2) arrived
            (s.modProg g.gid i.id c fun p => { movOut := p.movOut + 1, movIn := if x.source then p.movIn + 1 else p.movIn }, true)

/-- Numbered channels of a graph. -/
def Graph.numbered (g : Graph) : List (Chan × Nat) := g.chans.zip (List.range g.chans.length)

/-- Every crew of an instance has exited, and what some still have in their output rings no feeder can take: the channel is full and
nothing takes from it. -/
def State.outputsStuck (s : State) (g : Graph) (i : Inst) : Bool :=
  (g.older i.id).isNone && !g.mayRelease i
    && (s.crews.all fun c => !i.lids.contains c.lid || c.ended)
    && (s.launches.all fun l => !i.lids.contains l.lid || (l.unplaced.isEmpty && l.bins.isEmpty))
    && g.numbered.all fun (x, c) => (s.inReady g i c x true).isNone

/-- Every sink record of an instance is performed: it completes once its crews have exited (R82). Crews that have exited with
outputs that nothing can take go too, with those records (log entry 106). -/
def State.sinksDone (s : State) (gid id : Nat) : State :=
  match s.graph? gid with
  | none => s
  | some g => match g.insts.find? fun i => i.id == id with
    | none => s
    | some i =>
      let all := g.numbered.all fun (x, c) => !x.sink || (i.prog c).movOut == g.inTotal i x
      if !all then s
      else
        let s := s.modInst gid id fun i => { i with finished := true }
        let s := if s.outputsStuck g i then
            (s.crews.filter fun c => i.lids.contains c.lid && c.undrained).foldl State.unitExit s
          else s
        s.instCheck gid id

/-! ## The end of an instance (R82, R87) -/

/-- An instance leaves its graph; what it has left in the channels stays there for the next (R84). -/
def Graph.dropInst (g : Graph) (i : Inst) : Graph :=
  let others := g.insts.filter fun x => x.id != i.id
  { g with
    insts := others
    sref := if others.any fun x => x.slot == i.slot then g.sref else g.sref &&& ~~~ BitVec.twoPow 3 i.slot
    shift := (g.shift.zip (List.range g.shift.length)).map fun (n, c) => n + (i.prog c).movOut
    held := (g.held.zip (List.range g.held.length)).map fun (n, c) => n + (i.prog c).movIn - (i.prog c).movOut }

/-- A RUN has completed: its instance and its launches are over, and DONE counts it unless it completed in error. -/
def State.runDone (s : State) (qn idx : Nat) (ok : Bool) : State :=
  match s.graphs.findSome? fun g => (g.insts.find? fun i => i.q == qn && i.idx == idx).map fun i => (g.gid, i) with
  | none => s
  | some (gid, i) =>
    let s := { s with launches := s.launches.filter fun (l : Launch) => !i.lids.contains l.lid
                      bdir := s.bdir.filter fun (r : BdirRec) => !i.lids.contains r.launch
                      colls := s.colls.filter fun (c : Coll) => !i.lids.contains c.lid }
    (((s.setGraph gid fun g => { g.dropInst i with done := if ok then g.done + 1 else g.done }).reserveLaunches).nextOp gid).pokeGraph gid

/-- Records of completed firings that feeders still have to take from the instance's crews, as far as they can take them now. -/
def State.flushOutputs (s : State) (gid id : Nat) : Nat → State
  | 0 => s
  | n + 1 => match s.graph? gid with
    | none => s
    | some g => match g.insts.find? fun i => i.id == id with
      | none => s
      | some i =>
        match g.numbered.findSome? fun (x, c) =>
          if i.lost.contains c then none else match s.moveIn g i c x true with
            | (s, true) => some s
            | _ => none with
        | some s => s.flushOutputs gid id n
        | none => s

/-- The channels with a record of a completed firing that a failing instance still has to write: its memory is being seen to, or the
older instance, which fails too, goes first. -/
def State.unflushed (s : State) (g : Graph) (i : Inst) : List (Chan × Nat) :=
  g.numbered.filter fun (x, c) => !i.lost.contains c && !x.source &&
    ((s.inReady g i c x true).isSome || ((g.older i.id).isSome && s.crews.any fun k => i.lids.contains k.lid &&
      k.rings.any fun r => r.chan == c && !r.input && (r.h0.busy || r.h1.busy)))

/-- The object's image can be written for a failing instance, or its page is being seen to (R41, R76). -/
def State.failImage (s : State) (g : Graph) (i : Inst) (c : Cause) : State × Bool :=
  let last := g.chans.length
  if i.lost.contains last then (s, true)
  else match s.resolveRange g.owner (s.ownerDie g.owner) g.gobj 64 ⟨false, true, false⟩ 0
      fun _ => .other (.instanceFail g.gid i.id ⟨none, c⟩) (.instanceFail g.gid i.id ⟨some last, c⟩) with
    | (s, .go, _) | (s, .fail, _) => (s, true)
    | (s, _, _) => (s, false)

/-- The end of an instance that has failed: its crews and launches go, and its packet completes when their writes are performed
(R47). -/
def State.endInst (s : State) (gid : Nat) (i : Inst) (c : Cause) : State :=
  let s := i.lids.foldl (fun s lid => s.dropLaunch lid c) s
  if i.lids.any s.engineBusy then s.post (.instanceFail gid i.id ⟨none, c⟩)
  else
    let s := { s with launches := s.launches.filter fun (l : Launch) => !i.lids.contains l.lid
                      bdir := s.bdir.filter fun (r : BdirRec) => !i.lids.contains r.launch
                      colls := s.colls.filter fun (x : Coll) => !i.lids.contains x.lid }
    let s := (s.setGraph gid fun g => match g.insts.find? fun x => x.id == i.id with
      | some x => g.dropInst x
      | none => g).finishPacket i.q i.idx (some c) 0
    let rest := match s.graph? gid with | some g => g.insts | none => []
    (rest.foldl (fun s x => s.postOnce (.instanceFail gid x.id ⟨none, x.failing.getD .graphFaulted⟩)) s.reserveLaunches).nextOp gid

/-- A failing instance goes on to its end: the object is FAULTED once its image can be written, the records of completed firings are
written, as far as there is room for them; then it ends. -/
def State.failOn (s : State) (gid id : Nat) (c : Cause) : State :=
  match (s.graph? gid).bind fun g => (g.insts.find? fun i => i.id == id).map fun i => (g, i) with
  | none => s
  | some (g, i) => match s.failImage g i c with
    | (s, false) => s
    | (s, true) =>
      let s := if g.state = .faulted && (c == .graphFaulted || g.gcause == c) then s
        else s.setGraph gid fun g => { g with state := .faulted, gcause := if c = .graphFaulted then g.gcause else c }
      let waiting := (s.crews.filter fun x => i.lids.contains x.lid).map fun x =>
        (x.rings.map fun r => if r.input then 0 else r.h0.recs + r.h1.recs).sum
      let s := s.flushOutputs gid id waiting.sum
      match (s.graph? gid).bind fun g => (g.insts.find? fun i => i.id == id).map fun i => (g, i) with
      | none => s
      | some (g, i) => if (s.unflushed g i).isEmpty then s.endInst gid i c else s

/-- `INSTANCE_FAIL`: the instance's crews stop, no later firing is released, and the other instance fails with `GRAPH_FAULTED`;
then it goes to its end. The first cause is the one that counts. -/
def execInstanceFail (gid id : Nat) (x : InstFault) (s : State) : Host.Outcome State Fault Refusal :=
  .next <| match (s.graph? gid).bind fun g => (g.insts.find? fun i => i.id == id).map fun i => (g, i) with
  | none => s
  | some (g, i) =>
    let c := i.failing.getD x.cause
    let s := s.modInst gid id fun i => { i with failing := some c, lost := i.lost ++ x.ch.toList }
    let s := { s with crews := updWhere s.crews (fun x => i.lids.contains x.lid) Crew.stopAll }
    let s := (g.insts.filter fun x => x.id != id && x.failing.isNone).foldl (fun s x =>
      s.postOnce (.instanceFail gid x.id ⟨none, .graphFaulted⟩)) s
    s.failOn gid id c

/-- `FEEDER_MOVE`: the next record of a channel, out of it first. -/
def execFeederMove (gid id ch : Nat) (s : State) : Host.Outcome State Fault Refusal :=
  .next <| match s.graph? gid with
  | none => s
  | some g => match g.insts.find? fun i => i.id == id, g.chans[ch]? with
    | some i, some x =>
      if !s.tenantRuns g.owner then s
      else match i.failing with
        | some c => s.failOn gid id c
        | none => match s.moveOut g i ch x with
          | (s, true) => (s.pokeGraph gid).sinksDone gid id
          | (s, false) => match s.moveIn g i ch x false with
            | (s, true) => (s.pokeGraph gid).sinksDone gid id
            | (s, false) => s.sinksDone gid id
    | _, _ => s

end Sys2Proof.Machine
end

