-- ==== Sys2Proof/Machine/Packets.lean ====
section
/-! DEFINITION. Machine/Packets.lean: packet completion (R41, R46, R48), `QCMD` DESTROY (R48), a host's signal operations
(R33, R43, R44). -/

namespace Sys2Proof.Machine

/-- A DRAINING queue without a started packet becomes FREE and its DSIG receives ADD(−1) (R48). -/
def State.drained (s : State) (qn : Nat) : State :=
  match s.queue? qn with
  | none => s
  | some q =>
    if q.state = .draining && q.started.isEmpty then
      let s := (s.modQueue qn fun q => { q with state := .free }).syncQueue qn
      if q.dsig = 0 then s else s.sigOp q.owner (.add (-1)) q.dsig
    else s

/-- A completed operation leaves its graph object's line. A rebind that failed for want of a page leaves the object
UNBOUND (R77, R81). -/
def State.leaveGraphs (s : State) (qn : Nat) (p : Started) (err : Option Cause) : State :=
  (s.graphs.filter fun g => g.waiting.contains (qn, p.pkt.idx)).foldl (fun s g =>
    let failed := err.isSome && !p.graphWait && p.pkt.field 128 8 == 1 && g.state != .unbound
    let s := if failed then s.setGraph g.gid fun g => { g with state := .unbound } else s
    s.leaveOp g.gid qn p.pkt.idx) s

/-- The launches of a completed LAUNCH packet are over: their records are free for launches that wait (R102). -/
def State.freeLaunches (s : State) (qn idx : Nat) : State :=
  let lids := (s.launches.filter fun l => l.kind == .packet qn idx).map (·.lid)
  ({ s with launches := s.launches.filter fun (l : Launch) => !lids.contains l.lid
            bdir := s.bdir.filter fun (r : BdirRec) => !lids.contains r.launch
            colls := s.colls.filter fun (c : Coll) => !lids.contains c.lid }).reserveLaunches

/-- What an error at completion adds: ERRIDX and ERRCAUSE, ABORTED under AOE, and the error record of class PACKET (R36, R46,
R369). A BIND records class GRAPH too, before it (R75, log entry 35). -/
def State.packetError (s : State) (q : Queue) (p : Packet) (c : Cause) (addr : DWord) : State :=
  let s := s.modQueue q.q fun q =>
    { q with errIdx := p.idx, errCause := c, state := if p.aoe && q.state == .active then .aborted else q.state }
  let e : Event := { cls := .packet, cause := c, tag := p.tag, qnum := q.q, pidx := p.idx, addr := addr.toNat }
  let s := s.syncQueue q.q
  let s := if p.ty = 4 && p.field 128 8 == 1 then s.event q.owner { e with cls := .graph } else s
  s.event q.owner e

/-- A started packet completes. -/
def State.completePacket (s : State) (qn idx : Nat) (err : Option Cause) (addr : DWord) : State :=
  match s.queue? qn with
  | none => s
  | some q => match q.started.find? fun p => p.pkt.idx == idx with
    | none => s
    | some p =>
      let s := s.modQueue qn fun q => { q with started := q.started.filter fun x => x.pkt.idx != idx }
      let s := match err with
        | some c => s.packetError q p.pkt c addr
        | none => s
      let s := if p.pkt.csig = 0 then s else s.sigOp q.owner (if err.isSome then .abort else .add (-1)) p.pkt.csig
      let s := (s.unregister (.packet qn idx)).leaveGraphs qn p err
      let s := if p.pkt.ty = 4 && p.pkt.field 128 8 == 2 then s.runDone qn idx err.isNone else s
      (((s.freeLaunches qn idx).drained qn).pumpQueue qn)

/-- The object whose image a packet's completion writes: that of a RUN, or of a rebind that fails (R76, R81). -/
def State.completionGraph (s : State) (qn idx : Nat) (err : Option Cause) : Option Graph :=
  let failed (g : Graph) : Bool := g.waiting.contains (qn, idx) && g.state != .unbound && match s.queue? qn with
    | some q => q.started.any fun p => p.pkt.idx == idx && !p.graphWait && p.pkt.ty == 4 && p.pkt.field 128 8 == 1
    | none => false
  s.graphs.find? fun g => if err.isSome then failed g else g.insts.any fun i => i.q == qn && i.idx == idx

/-- Whether the page of that image can be written now. What fails is the packet (R41); a page that has failed is not asked for
again. -/
def State.completionImage (s : State) (qn idx : Nat) (err : Option Cause) (addr : DWord) : State × Resolved × Nat :=
  match s.queue? qn, s.completionGraph qn idx err with
  | some q, some g =>
    if err = some .pageUnresolved && addr.toNat / 2 ^ 16 = g.gobj / 2 ^ 16 then (s, .go, 0)
    else s.resolveRange q.owner (s.ownerDie q.owner) g.gobj 64 ⟨false, true, false⟩ 0 fun v =>
      .other (.packetCompletion qn idx err addr) (.packetCompletion qn idx (some .pageUnresolved) (BitVec.ofNat 64 v))
  | _, _ => (s, .go, 0)

/-- `PACKET_COMPLETION`. -/
def execPacketCompletion (qn idx : Nat) (err : Option Cause) (addr : DWord) (s : State) : Host.Outcome State Fault Refusal :=
  .next <| match s.completionImage qn idx err addr with
    | (s, .go, _) => s.completePacket qn idx err addr
    | (s, .fail, v) =>
      (s.event ((s.queue? qn).map (·.owner) |>.getD 255) { cls := .page, cause := .pageUnresolved, addr := v }).completePacket qn idx
        (some .pageUnresolved) (BitVec.ofNat 64 v)
    | (s, _, _) => s

/-- A started packet that a DESTROY cancels: a WAITSIG that waits, a GRAPH packet that has not begun (R48). -/
def Started.cancelled (p : Started) : Bool := !p.posted && (p.pkt.ty == 2 || p.graphWait)

/-- DESTROY of a queue (R48): fetch stops, packets that have not started are discarded, those that only wait complete at once
in error; a queue without a started packet is FREE at once. -/
def State.destroyQueue (s : State) (q : Queue) : State × Nat :=
  if q.state = .active || q.state = .aborted || q.state = .error then
    let s := (s.modQueue q.q fun q => { q with state := .draining, reading := 0, fault := none, ready := [] }).syncQueue q.q
    let s := (q.started.filter Started.cancelled).foldl (fun s p =>
      (s.unregister (.packet q.q p.pkt.idx)).completePacket q.q p.pkt.idx (some .queueDestroyed) 0) s
    ((s.wakeEnq q.q).drained q.q, 0)
  else (s, 2)

/-- `QCMD` DESTROY. -/
def execQcmdDestroy (m : Msg) (w : DWord) (s : State) : Host.Outcome State Fault Refusal :=
  .next <| s.qcmd m w 2 (.qcmdDestroy m w) fun s q => s.destroyQueue q

/-! ## `SIGOP` (R33, R43, R44) -/

/-- A host's operation on a local signal; a reference that is not well formed is ignored. The message is performed with the
operation, which may wait for room in the dirty-page log (R32, R164). -/
def State.hostSigop (s : State) (m : Msg) (ref : DWord) (op : SigOp) : State :=
  if ref.getLsbD 63 || !refOk ref then s.perform m
  else match s.sigOpFor (s.ctxOwner m.ctx) op ref (some m) with
    | (s, true) => s.perform m
    | (s, false) => s

/-- `SIGOP` ADD. -/
def execSigopAdd (m : Msg) (ref delta : DWord) (s : State) : Host.Outcome State Fault Refusal :=
  .next <| s.hostSigop m ref (.add delta)

/-- `SIGOP` SET. -/
def execSigopSet (m : Msg) (ref x : DWord) (s : State) : Host.Outcome State Fault Refusal :=
  .next <| s.hostSigop m ref (.set x)

end Sys2Proof.Machine
end

