-- ==== Sys2Proof/Machine/Hosts.lean ====
section
/-! DEFINITION. Machine/Hosts.lean: what a host's RMA does (R30 to R33, R161): the control page, the management space (R59),
tenant memory and what the device watches there (R67, R160, R162). -/

namespace Sys2Proof.Machine

/-! ## Arrival (R31, R66, R69) -/

/-- A message that does not verify under the key of its context is dropped, with a SECURITY event to the context's owner; one
of a context that is not bound is dropped; in recovery mode only context 0 on port 0 is served (log entries 59, 60, 93). -/
def State.fromHost (s : State) (m : Msg) (run : Ctx → State) : State :=
  match s.ctx? m.ctx with
  | none => s
  | some c =>
    if m.auth != c.tss || c.tss == .bad then s.event c.owner { cls := .security, cause := .tssAuthFail, src := 4 }
    else if s.mgmt.recovery && !(c.id == 0 && m.port == 0) then s
    else run c

/-- A NACK: nothing is written, and the message is over. -/
def State.refuse (s : State) (m : Msg) (why : String) : State := (s.say (.nack m.ctx m.msn why)).perform m

/-- The key-table entry of a context; key 0 is the control page, key 1 of context 0 the management space (R31, R59), whatever a
KEY_SET has named (DESIGN CHOICE, log entry 95). -/
def Ctx.keyOf (c : Ctx) (k : Nat) : Option Key :=
  if k = 0 then some ⟨0, 0, 0x4000, true, true⟩
  else if c.id = 0 && k = 1 then some ⟨1, 0, 0x10000, true, true⟩
  else c.keys.find? fun x => x.key == k && x.len != 0

/-- A range within a key, with its permission. -/
def Key.admits (k : Key) (off n : Nat) (write : Bool) : Bool := off + n ≤ k.len && (if write then k.w else k.r)

/-! ## Registers (R33, R59) -/

/-- A register covered whole by a write: its bytes as a number. -/
def coveredAt (off : Nat) (bs : List Byte) (at_ size : Nat) : Option Nat :=
  if off ≤ at_ && at_ + size ≤ off + bs.length then some (natLE ((bs.drop (at_ - off)).take size)) else none

/-- The event of a `QCMD` word; a CMD value that is not listed comes to CREATE, which refuses it. -/
def qcmdEvent (m : Msg) (w : DWord) : Instr :=
  match cmdCode w with
  | 2 => .qcmdDestroy m w
  | 3 => .qcmdResume m w
  | _ => .qcmdCreate m w

/-- The event of a `SIGOP` write; operations 2 and 3 have none. -/
def sigopEvent (m : Msg) (n : Nat) : Option Instr :=
  let w0 : DWord := BitVec.ofNat 64 n
  let w1 : DWord := BitVec.ofNat 64 (n / 2 ^ 64)
  let ref := w0 &&& ~~~ 3
  match n % 4 with
  | 0 => some (.sigopAdd m ref w1)
  | 1 => some (.sigopSet m ref w1)
  | _ => none

/-- The control-page registers that a write covers whole, in increasing offset, with their events. -/
def controlEvents (m : Msg) (off : Nat) (bs : List Byte) : List (Option Instr) :=
  ((coveredAt off bs 0 8).map fun n => some (qcmdEvent m (BitVec.ofNat 64 n))).toList
    ++ ((coveredAt off bs 0x10 16).map fun n => sigopEvent m n).toList
    ++ (List.range (bs.length / 8 + 1)).filterMap fun i =>
        let n := (max off 0x2000 + 7 - 0x2000) / 8 + i
        if n < 1024 then (coveredAt off bs (0x2000 + 8 * n) 8).map fun x => some (.tailPointerWrite m n (BitVec.ofNat 64 x)) else none

/-- The event of an `MCMD` word; an unknown code comes to TENANT_CREATE, which refuses it. -/
def mcmdEvent (m : Msg) (w : DWord) : Instr :=
  match w.toNat % 256 with
  | 2 => .tenantDestroy m w
  | 3 => .ctxSet m w
  | 4 => .keySet m w
  | 5 => .peerSet m w
  | 6 => .qgrant m w
  | 7 => .migrateOut m w
  | 8 => .migrateIn m w
  | 9 => .attest m w
  | 10 => .fwStage m w
  | _ => .tenantCreate m w

/-- The writable registers of the management space: offset, size, event. -/
def mgmtRegs (m : Msg) : List (Nat × Nat × (Nat → Instr)) :=
  [(0x100, 4, fun n => .pwrCtlWrite m (BitVec.ofNat 32 n)), (0x108, 4, fun n => .registerWrite m 0x108 (BitVec.ofNat 64 n)),
   (0x200, 4, fun n => .partCfgWrite m (BitVec.ofNat 32 n)), (0x210, 4, fun n => .rruCfgWrite m (BitVec.ofNat 32 n)),
   (0x300, 8, fun n => mcmdEvent m (BitVec.ofNat 64 n)), (0x408, 8, fun n => .registerWrite m 0x408 (BitVec.ofNat 64 n)),
   (0x410, 8, fun n => .registerWrite m 0x410 (BitVec.ofNat 64 n)), (0x418, 8, fun n => .registerWrite m 0x418 (BitVec.ofNat 64 n)),
   (0x428, 8, fun n => .registerWrite m 0x428 (BitVec.ofNat 64 n))]

/-- The management registers that a write covers whole, with their events. In recovery mode only FW_STAGE acts (R69). -/
def mgmtEvents (recovery : Bool) (m : Msg) (off : Nat) (bs : List Byte) : List (Option Instr) :=
  (mgmtRegs m).filterMap fun r =>
    (coveredAt off bs r.1 r.2.1).map fun n => if recovery && !(r.1 == 0x300 && n % 256 == 10) then none else some (r.2.2 n)

/-- The same event with the mark that ends its message, or without. -/
def withFin (b : Bool) : Instr → Instr
  | .qcmdCreate m w => .qcmdCreate { m with fin := b } w
  | .qcmdDestroy m w => .qcmdDestroy { m with fin := b } w
  | .qcmdResume m w => .qcmdResume { m with fin := b } w
  | .sigopAdd m r d => .sigopAdd { m with fin := b } r d
  | .sigopSet m r d => .sigopSet { m with fin := b } r d
  | .tailPointerWrite m q t => .tailPointerWrite { m with fin := b } q t
  | .tenantCreate m w => .tenantCreate { m with fin := b } w
  | .tenantDestroy m w => .tenantDestroy { m with fin := b } w
  | .ctxSet m w => .ctxSet { m with fin := b } w
  | .keySet m w => .keySet { m with fin := b } w
  | .peerSet m w => .peerSet { m with fin := b } w
  | .qgrant m w => .qgrant { m with fin := b } w
  | .migrateOut m w => .migrateOut { m with fin := b } w
  | .migrateIn m w => .migrateIn { m with fin := b } w
  | .attest m w => .attest { m with fin := b } w
  | .fwStage m w => .fwStage { m with fin := b } w
  | .pwrCtlWrite m v => .pwrCtlWrite { m with fin := b } v
  | .partCfgWrite m v => .partCfgWrite { m with fin := b } v
  | .rruCfgWrite m v => .rruCfgWrite { m with fin := b } v
  | .registerWrite m o v => .registerWrite { m with fin := b } o v
  | i => i

/-- Register writes, each as if written separately; the last one ends the message. -/
def partsOf (m : Msg) : List Instr → List Instr
  | [] => []
  | [i] => [withFin m.fin i]
  | i :: is => withFin false i :: partsOf m is

/-- Registers act on write, in increasing offset (R33): the first one's event goes before what has arrived later, and each
other's when the one before it has acted. -/
def State.postParts (s : State) (m : Msg) (is : List Instr) : State :=
  match partsOf m is with
  | [] => s
  | [i] => { s with pending := i :: s.pending }
  | i :: is => { s with pending := i :: s.pending, parts := s.parts ++ [(m.ctx, m.msn, is)] }

/-- A write to registers: those covered whole act; a write that acts on none is over at once. -/
def State.registersWrite (s : State) (m : Msg) (off n : Nat) (es : List (Option Instr)) : State :=
  let s := if es.isEmpty then s else s.say (.ack m.ctx m.msn)
  match es.filterMap id with
  | [] => if es.isEmpty then s.post (.controlPagePartialWrite m off n) else s.perform m
  | is => s.postParts m is

/-! ## The management space as bytes (R25, R59, R61, R68, R120) -/

def Power.code : Power → Nat
  | .on p => p
  | .parked => 6
  | .parking | .unparking => 7

def State.pwrCtl (s : State) : Nat :=
  s.mgmt.ceil.toNat + s.mgmt.pmax.toNat * 2 ^ 20 + (if s.mgmt.pwrErr then 2 ^ 31 else 0)
def State.pwrStat (s : State) : Nat :=
  ([0, 1, 2, 3].map fun d => (s.die d).power.code * 2 ^ (3 * d)).sum + s.mgmt.avg.toNat * 2 ^ 12
def State.partCfg (s : State) : Nat :=
  ([0, 1, 2, 3].map fun d => s.partOf d % 4 * 2 ^ (2 * d)).sum + s.firewall.toNat * 2 ^ 8 + (if s.mgmt.partErr then 2 ^ 31 else 0)
def State.scvStat (s : State) : Nat := s.mgmt.restarts + (if s.mgmt.ftl then 2 ^ 31 else 0)
def State.rruCfg (s : State) : Nat :=
  s.mgmt.quant + (if s.mgmt.spen then 2 ^ 17 else 0) + s.mgmt.drain * 2 ^ 18 + (if s.mgmt.rruErr then 2 ^ 31 else 0)
def Ecb.bytes (b : Ecb) : List Byte := [b.estat, b.eclr, b.emask, b.esev, b.prod, b.cons, b.drops, 0].flatMap fun w => bytesLE 8 w.toNat

/-- The readable parts of the management space below the error ring: offset and bytes. -/
def State.mgmtBytes (s : State) : List (Nat × List Byte) :=
  [(0x100, bytesLE 4 s.pwrCtl), (0x104, bytesLE 4 s.pwrStat), (0x108, bytesLE 4 s.mgmt.preq.toNat), (0x200, bytesLE 4 s.partCfg),
   (0x208, bytesLE 4 s.scvStat), (0x210, bytesLE 4 s.rruCfg), (0x308, bytesLE 8 s.mgmt.mres.toNat), (0x400, s.mgmt.ecb.bytes)]

/-- One byte of the management space. -/
def State.mgmtByte (s : State) (x : Nat) : Byte :=
  if 0x1000 ≤ x && x < 0x2000 then Memory.read s.mgmt.mailbox (x - 0x1000)
  else if 0x8000 ≤ x then
    let rec_ := (assocGet s.mgmt.errRing ((x - 0x8000) / 64)).getD 0
    BitVec.ofNat 8 (rec_.toNat / 2 ^ (8 * (x % 64)))
  else match s.mgmtBytes.find? fun r => r.1 ≤ x && x < r.1 + r.2.length with
    | some r => nthD r.2 (x - r.1) 0
    | none => 0

/-- One byte of a context's control page: `QRES`, and zero elsewhere, write-only registers too (log entry 84). -/
def Ctx.controlByte (c : Ctx) (x : Nat) : Byte := if 8 ≤ x && x < 16 then BitVec.ofNat 8 (c.qres / 2 ^ (8 * (x - 8))) else 0

/-! ## Tenant memory (R32, R161) and what the device watches (R67, R160, R162) -/

/-- A write of n bytes at `va` touches the 8 bytes at `x`. -/
def touches (va n x : Nat) : Bool := decide (va < x + 8) && decide (x < va + n)

/-- What the device sees of a host's write: ECLR, words of the page-service block, answers to page requests. -/
def State.watchWrite (s : State) (m : Msg) (t : Tenant) (va n : Nat) : State :=
  let hit (k : Nat) : Bool := touches va n (t.ecb + 8 * k)
  let s := if hit 1 then s.post (.eclrWrite t.tag) else s
  let s := if hit 11 then s.post (.rqconsWrite m t.tag) else s
  let s := if hit 13 then s.post (.givenWrite m t.tag) else s
  let s := if hit 17 then s.post (.dlconsWrite m t.tag) else s
  let s := if hit 18 then s.post (.dlctlWrite m t.tag) else s
  let s := if hit 19 then s.post (.tlbgenWrite m t.tag) else s
  let ring := (s.psb t.tag 0).toNat
  if ring = 0 then s
  else
    let k0 := (va - ring) / 64
    (List.range (n / 64 + 2)).foldl (fun s i =>
      let k := k0 + i
      if k < 2 ^ s.rqLog2 t.tag && touches va n (ring + 64 * k + 24) then s.post (.pageRequestAnswer m t.tag k) else s) s

/-- A write through a memory key: the whole range is translated first. -/
def State.memoryWrite (s : State) (m : Msg) (owner va : Nat) (bs : List Byte) : State :=
  match s.tenant? owner with
  | none => s.refuse m "page fault"
  | some t => match s.deviceStore owner va bs with
    | .error _ => s.refuse m "page fault"
    | .ok s => ((s.say (.ack m.ctx m.msn)).perform m).watchWrite m t va bs.length

/-- `RMA_WRITE`. -/
def execRmaWrite (m : Msg) (key off : Nat) (data : List Byte) (s : State) : Host.Outcome State Fault Refusal :=
  .next <| s.fromHost m fun c => match c.keyOf key with
    | none => s.refuse m "bad key"
    | some k =>
      if !k.admits off data.length true then s.refuse m "range or permission"
      else if key = 0 then
        if s.mgmt.recovery then s.perform m else s.registersWrite m off data.length (controlEvents m off data)
      else if c.id = 0 && key = 1 then
        let mail := ((data.zip (List.range data.length)).filter fun x => 0x1000 ≤ off + x.2 && off + x.2 < 0x2000)
        let box := mail.foldl (fun b x => Memory.write b (off + x.2 - 0x1000) x.1) s.mgmt.mailbox
        let s := { s with mgmt := { s.mgmt with mailbox := box } }
        let es := mgmtEvents s.mgmt.recovery m off data
        if es.isEmpty && !mail.isEmpty then (s.say (.ack m.ctx m.msn)).perform m
        else s.registersWrite m off data.length es
      else s.memoryWrite m c.owner (k.va + off) data

/-- Bytes of HBM as a host reads them; bytes of a word in error are free values (R235 gives none, log entry 3). -/
def State.hostRead (s : State) (owner va n : Nat) : Except Cause (List Byte) :=
  match s.deviceRange owner va n false with
  | some c => .error c
  | none => .ok (((s.deviceBytes owner va n).zip (List.range n)).map fun (b, i) => match s.devicePa owner ((va + i) % 2 ^ 52) false with
      | .ok pa => if s.hbmUe pa 1 then Config.freeByte s.fresh i else b
      | .error _ => b)

/-- `RMA_READ`. -/
def execRmaRead (m : Msg) (key off len : Nat) (s : State) : Host.Outcome State Fault Refusal :=
  .next <| s.fromHost m fun c => match c.keyOf key with
    | none => s.refuse m "bad key"
    | some k =>
      if !k.admits off len false then s.refuse m "range or permission"
      else if key = 0 then (s.say (.data m.ctx m.msn ((List.range len).map fun i => c.controlByte (off + i)))).perform m
      else if c.id = 0 && key = 1 then (s.say (.data m.ctx m.msn ((List.range len).map fun i => s.mgmtByte (off + i)))).perform m
      else match s.hostRead c.owner (k.va + off) len with
        | .error _ => s.refuse m "page fault"
        | .ok bs => (((s.draw.countSoft (s.softDevice c.owner (k.va + off) len)).markUsed c.owner (k.va + off) len).say (.data m.ctx m.msn bs)).perform m

/-- `UNSUPPORTED_OPERATION`: a NACK with that code; no device state changes (R30). -/
def execUnsupportedOperation (m : Msg) (s : State) : Host.Outcome State Fault Refusal :=
  .next <| s.fromHost m fun _ => s.refuse m "unsupported operation"

/-- `CONTROL_PAGE_PARTIAL_WRITE`: acknowledged, and ignored (R33). -/
def execControlPagePartialWrite (m : Msg) (_off _len : Nat) (s : State) : Host.Outcome State Fault Refusal :=
  .next <| (s.say (.ack m.ctx m.msn)).perform m

end Sys2Proof.Machine
end

