-- ==== Sys2Proof/Machine/Log.lean ====
section
/-! DEFINITION. Machine/Log.lean: Scevar's write-ahead log (R56 to R58): the records, Scevar's state as the 16-byte objects
they name, transactions, and the log kept of every step. -/

namespace Sys2Proof.Machine

/-! ## Records (R56) -/

def LogType.code : LogType → Nat
  | .begin => 1
  | .update => 2
  | .commit => 3
  | .abort => 4
  | .checkpoint => 5

/-- The OBJ field: the place of an UPDATE's object (log entry 9), else the number that the record carries. -/
def LogRec.objField (r : LogRec) : Nat :=
  if r.type = .update then (Config.scevarObject r.obj).toNat else r.obj

/-- Bits [447:0], least significant byte first. -/
def LogRec.body (r : LogRec) : List Byte :=
  bytesLE 8 r.lsn ++ bytesLE 4 r.txid ++ bytesLE 4 r.type.code ++ bytesLE 8 r.objField ++ bytesLE 16 r.before.toNat ++ bytesLE 16 r.after.toNat

/-- The 64 bytes of a record. -/
def LogRec.bytes (r : LogRec) : List Byte := r.body ++ bytesLE 4 r.crc.toNat ++ List.replicate 4 0

def LogRec.crcOk (r : LogRec) : Bool := r.crc == crcOf r.body

/-- Where a record stands in the 4 MiB ring. -/
def LogRec.slot (r : LogRec) : Nat := r.lsn % 65536 * 64

/-- Its physical address. -/
def LogRec.pa (r : LogRec) : Nat := Config.logBase + r.slot

/-- A record with its CRC. -/
def LogRec.sealed (r : LogRec) : LogRec := { r with crc := crcOf r.body }

/-- Append a record with the next LSN. -/
def Scevar.add (v : Scevar) (tx : Nat) (ty : LogType) (obj : Nat) (before after : BitVec 128) (cmd : Option Instr) : Scevar :=
  { v with lsn := v.lsn + 1, log := v.log ++ [(LogRec.mk (v.lsn + 1) tx ty obj before after cmd 0).sealed] }

/-- Scevar's log and objects move on: the new records are performed in HBM, for the management owner (R56). -/
def State.setLog (s : State) (v : Scevar) : State :=
  let s' := (v.log.filter fun r => s.scv.lsn < r.lsn).foldl (fun (s : State) r => s.hbmWrite 255 r.pa r.bytes) s
  { s' with scv := v }

/-- A record that HBM still holds as it was written: its CRC does not fail (R58). -/
def State.holdsRecord (s : State) (r : LogRec) : Bool :=
  r.crcOk && !s.hbmUe r.pa 64 && s.hbmBytes 255 r.pa 64 == r.bytes

/-! ## Scevar's objects (R53, R56) -/

/-- Fields, lowest first, each with its width. -/
def packFields : List (Nat × Nat) → Nat
  | [] => 0
  | (n, v) :: xs => v % 2 ^ n + 2 ^ n * packFields xs

/-- Numbered objects of one kind. -/
def objectsOf (kind start : Nat) (xs : List (List (Nat × Nat))) : List (Nat × BitVec 128) :=
  (xs.zip (List.range xs.length)).map fun x => (2 ^ 40 * kind + start + x.2, BitVec.ofNat 128 (packFields x.1))

/-- The 64 bytes of a packet that has been read, by its place in the ring. -/
def Packet.objects (q : Nat) (p : Packet) : List (Nat × BitVec 128) :=
  objectsOf 11 (2 ^ 20 * q + 4 * (p.idx % 2 ^ 16)) ((List.range 4).map fun k => [(128, p.bits.toNat / 2 ^ (128 * k))])

/-- A queue's grant, state and descriptor fields, its started packets, and the packets it holds. -/
def Queue.objects (q : Queue) : List (Nat × BitVec 128) :=
  objectsOf 1 (8 * q.q)
    [[(8, q.owner), (16, q.ctx), (8, q.state.code), (8, q.log2n), (1, bit01 q.halted), (64, q.descVa)],
     [(64, q.ring), (64, q.dsig.toNat)], [(64, q.tail), (64, q.head)], [(64, q.res), (64, q.errIdx)],
     [(16, q.errCause.code), (16, q.reading), (16, q.ready.length), (65, match q.fault with | some i => i + 1 | none => 0)]]
  ++ objectsOf 2 (16 * q.q) (q.started.map fun p =>
    [(64, p.pkt.idx), (8, p.need.length), (1, bit01 p.posted), (1, bit01 p.graphWait)])
  ++ (q.started.map (·.pkt) ++ q.ready).flatMap (Packet.objects q.q)

def Waiter.fields : Waiter → List (Nat × Nat)
  | .packet q idx => [(2, 1), (16, q), (38, idx)]
  | .weave cid wx => [(2, 2), (6, wx), (48, cid)]
  | .peer => [(2, 3)]

/-- A registration in a wait table. -/
def WaitReg.fields (r : WaitReg) : List (Nat × Nat) := [(64, r.ref.toNat), (8, r.owner)] ++ r.who.fields

def tssFields : TssKey → List (Nat × Nat)
  | .boot => [(2, 1)]
  | .named k => [(2, 2), (30, k)]
  | .bad => [(2, 3)]

/-- A context's binding, its `QRES` and its keys. The management context is bound at boot and stays so. -/
def Ctx.objects (c : Ctx) : List (Nat × BitVec 128) :=
  objectsOf 3 (2 * c.id)
    [[(8, c.status.toNat), (8, c.qstate.toNat), (16, c.seq.toNat), (8, c.owner)] ++ tssFields c.tss,
     if c.id = 0 then [] else [(64, c.job.toNat), (64, c.addr.toNat)]]
  ++ c.keys.flatMap fun k => objectsOf 4 (4096 * c.id + k.key) [[(52, k.va), (53, k.len), (1, bit01 k.r), (1, bit01 k.w)]]

/-- A tenant, its slice and its peers. -/
def Tenant.objects (t : Tenant) : List (Nat × BitVec 128) :=
  objectsOf 5 (4 * t.tag)
    [[(64, t.root), (64, t.ecb)], [(64, t.ring), (8, t.ringLog2), (8, t.commonsMib), (32, t.slice)],
     [(64, t.sliceEnd), (1, bit01 t.running), (1, bit01 t.migrated), (4, t.phase)]]
  ++ t.peers.flatMap fun x => objectsOf 6 (2048 * t.tag + x.1) [[(64, x.2.1.toNat), (64, x.2.2.toNat)]]

/-- A launch: what it is for and where its records are, how far it has come, the units that are not placed yet. -/
def Launch.objects (l : Launch) : List (Nat × BitVec 128) :=
  let kind : List (Nat × Nat) := match l.kind with
    | .packet q idx => [(1, 0), (16, q), (47, idx)]
    | .stage gid inst stg => [(1, 1), (24, gid), (31, inst), (8, stg)]
  objectsOf 12 (4 * l.lid)
    [[(8, l.owner), (7, match l.firstErr with | some c => c.code | none => 0), (1, bit01 l.firstErr.isSome), (1, bit01 l.ended), (1, bit01 l.posted),
      (1, bit01 l.halted), (3, match l.recDie with | some d => d + 1 | none => 0), (14, l.recBase), (28, l.homeMap.length)] ++ kind,
     [(64, l.outstanding), (64, l.count)], [(64, l.args), (64, l.startSeq)],
     [(64, match l.homeBase with | some b => b.toNat | none => 0), (1, bit01 l.homeBase.isSome)]]
  ++ objectsOf 13 (2 ^ 16 * l.lid) (l.unplaced.map fun x => [(64, x.1), (64, x.2)])

/-- Scevar's state: queues, wait tables, contexts, tenants, partitions, launches, gang reservations, the outcome of management
commands. -/
def State.scvObjects (s : State) : List (Nat × BitVec 128) :=
  s.queues.flatMap Queue.objects ++ objectsOf 7 0 (s.waits.map WaitReg.fields) ++ objectsOf 8 0 (s.remoteWaits.map WaitReg.fields)
    ++ s.ctxs.flatMap Ctx.objects ++ s.tenants.flatMap Tenant.objects
    ++ objectsOf 9 0 [[(32, s.partCfg), (20, s.mgmt.leafIndex)], [(64, s.mgmt.mres.toNat)]]
    ++ objectsOf 10 0 (s.gangRes.map fun g => [(32, g.lid), (32, g.unit), (2, g.die), (16, g.cores.length), (16, g.partly.length)])
    ++ s.launches.flatMap Launch.objects

/-- The objects that differ, with their contents before and after; an object that is not there is zero. -/
def changedObjects (old new : List (Nat × BitVec 128)) : List (Nat × BitVec 128 × BitVec 128) :=
  (new.filterMap fun x =>
    let b := (assocGet old x.1).getD 0
    if b = x.2 then none else some (x.1, b, x.2))
  ++ (old.filter fun x => (assocGet new x.1).isNone && x.2 != 0).map fun x => (x.1, x.2, 0)

/-! ## Transactions (R57) -/

/-- The message and the word of a control-page or management command. -/
def commandOf : Instr → Option (Msg × DWord)
  | .qcmdCreate m w | .qcmdDestroy m w | .qcmdResume m w | .tenantCreate m w | .tenantDestroy m w | .ctxSet m w | .keySet m w
  | .peerSet m w | .qgrant m w | .migrateOut m w | .migrateIn m w | .attest m w | .fwStage m w => some (m, w)
  | _ => none

/-- BEGIN: the command word, the context and the MSN where a command began it (log entry 9). -/
def Scevar.begin (v : Scevar) (i : Instr) : Scevar :=
  let v := { v with txid := v.txid + 1 }
  match commandOf i with
  | some (m, w) => v.add v.txid .begin w.toNat (BitVec.ofNat 128 (packFields [(64, m.ctx), (64, m.msn)])) 0 (some i)
  | none => v.add v.txid .begin 0 0 0 none

/-- An UPDATE: the record first, then the object. -/
def Scevar.update (v : Scevar) (x : Nat × BitVec 128 × BitVec 128) : Scevar :=
  let v := v.add v.txid .update x.1 x.2.1 x.2.2 none
  { v with objs := assocSet v.objs x.1 x.2.2 }

/-- A transaction, whole. -/
def Scevar.transact (v : Scevar) (i : Instr) (xs : List (Nat × BitVec 128 × BitVec 128)) : Scevar :=
  let v := xs.foldl Scevar.update (v.begin i)
  v.add v.txid .commit 0 0 0 none

/-- Scevar stops amid a transaction: its records so far stand in the log, and nothing of it leaves Scevar. The watchdog
restarts it in 50 ms (R58). A command is carried out again by recovery; any other event waits. -/
def State.breakOff (s : State) (i : Instr) (xs : List (Nat × BitVec 128 × BitVec 128)) : State :=
  let v := { xs.foldl Scevar.update (s.scv.begin i) with hang := none, hung := true }
  let s := (s.setLog v).after 50000000 .scevarRestart
  if (commandOf i).isSome then s else s.post i

/-- A step's changes are committed before any effect of it leaves Scevar. A log with little room asks for a CHECKPOINT. -/
def State.commitStep (t : State) (i : Instr) (xs : List (Nat × BitVec 128 × BitVec 128)) : State :=
  let v := if xs.isEmpty || i == .moduleReset then t.scv else t.scv.transact i xs
  let full := decide (57344 < v.log.length) && !t.pending.contains .checkpoint
  { t.setLog v with pending := if full then t.pending ++ [.checkpoint] else t.pending }

/-- Work in which Scevar may stop: its own events, and the release of crews, which it tells a leaf of. -/
def scevarWork (i : Instr) : Bool :=
  scevarEvent i || match i with
    | .unitPlacement _ => true
    | _ => false

/-- The log of a step from `s` to `t`: what it changes of Scevar's state is a transaction (R56, R57). -/
def State.logStep (s : State) (i : Instr) (t : State) : State :=
  let xs := changedObjects s.scvObjects t.scvObjects
  match s.scv.hang with
  | none => t.commitStep i xs
  | some n => if scevarWork i && !xs.isEmpty then s.breakOff i (xs.take n) else t.commitStep i xs

end Sys2Proof.Machine
end

