-- ==== Sys2Proof/Machine/Scevar.lean ====
section
/-! DEFINITION. Machine/Scevar.lean: command-link messages (R54, R55), checkpoints and recovery (R57, R58), tenant
switches (R64, R86). -/

namespace Sys2Proof.Machine

/-! ## Command links (R54, R55) -/

/-- The receiver takes the first message on the wire: the permit returns, a held message goes out, and a message whose
number has been accepted before is discarded. -/
def LinkDir.take (d : LinkDir) : LinkDir × Option LinkBody :=
  match d.wire with
  | [] => (d, none)
  | m :: ms =>
    let old := match d.accepted with
      | some a => decide (m.1 ≤ a)
      | none => false
    let d := ({ d with wire := ms, permits := d.permits + 1 }).flush
    if old then (d, none) else ({ d with accepted := some m.1, sent := d.sent.filter fun x => m.1 < x.1 }, some m.2)

/-- A leaf restores its permits and sends again what Scevar has not accepted; `last` is the first number it has not. -/
def LinkDir.resend (d : LinkDir) (last : Nat) : LinkDir :=
  ({ d with permits := 16, wire := [], queue := d.sent.filter fun x => last ≤ x.1 }).flush

/-- What a message does. Scevar counts a crew's end and ends a launch with its cause; a leaf that is told a crew is to
run has released it already (log entry 36); RESYNC restores the permits of both directions. -/
def State.linkEffect (s : State) (leaf : Nat) : LinkBody → State
  | .place _ => s
  | .crewDone lid _ => (s.modLaunch lid fun l => { l with outstanding := l.outstanding - 1 }).launchCheck lid
  | .endCause lid c => s.endLaunch lid c
  | .resync last =>
    let s := { s with links := modNth s.links leaf fun l => { down := { l.down with permits := 8 - l.down.wire.length }, up := l.up.resend last } }
    match s.links[leaf]? with
    | some l => l.up.wire.foldl (fun s _ => s.post (.commandLinkMessage leaf false)) s
    | none => s

/-- `COMMAND_LINK_MESSAGE`. A message that waited for the permit comes next. -/
def execCommandLinkMessage (leaf : Nat) (toLeaf : Bool) (s : State) : Host.Outcome State Fault Refusal :=
  .next <| match s.links[leaf]? with
  | none => s
  | some l =>
    let r := (if toLeaf then l.down else l.up).take
    let s := { s with links := modNth s.links leaf fun l => if toLeaf then { l with down := r.1 } else { l with up := r.1 } }
    let s := if r.1.wire.isEmpty then s else s.postOnce (.commandLinkMessage leaf toLeaf)
    match r.2 with
    | some b => s.linkEffect leaf b
    | none => s

/-! ## Checkpoints and recovery (R57, R58) -/

def Scevar.has (v : List LogRec) (tx : Nat) (ty : LogType) : Bool := v.any fun r => r.txid == tx && r.type == ty

/-- The transactions of some records that no COMMIT and no ABORT closes. -/
def openTx (v : List LogRec) : List Nat :=
  ((v.map (·.txid)).eraseDups).filter fun tx => Scevar.has v tx .begin && !Scevar.has v tx .commit && !Scevar.has v tx .abort

/-- The LSN of the oldest open BEGIN, 0 for none. -/
def oldestOpen (v : List LogRec) : Nat :=
  match v.find? fun r => r.type == .begin && (openTx v).contains r.txid with
  | some r => r.lsn
  | none => 0

/-- A CHECKPOINT record; the records that no recovery reads again leave the ring. -/
def Scevar.checkpoint (v : Scevar) : Scevar :=
  let o := oldestOpen v.log
  let v := v.add 0 .checkpoint o 0 0 none
  { v with log := v.log.filter fun r => (if o = 0 then v.lsn else o) ≤ r.lsn }

/-- `CHECKPOINT`: written now, and again in 1 ms. -/
def execCheckpoint (s : State) : Host.Outcome State Fault Refusal :=
  .next <|
    let s := s.setLog s.scv.checkpoint
    if s.timers.any fun t => t.2 == .checkpoint then s else s.after 1000000 .checkpoint

/-- The records that a recovery reads: from where the last CHECKPOINT says, up to the first that fails its CRC; `ok` are those that
HBM holds. -/
def Scevar.scan (v : Scevar) (ok : LogRec → Bool) : List LogRec :=
  let start := match v.log.reverse.find? fun r => r.type == .checkpoint && ok r with
    | some r => if r.obj = 0 then r.lsn else r.obj
    | none => 0
  (v.log.filter fun r => start ≤ r.lsn).takeWhile ok

/-- Redo, undo and ABORT. What the rest of the machine sees of Scevar's state is written at COMMIT (R57), so only the
objects in HBM are ahead of it. -/
def Scevar.recover (v : Scevar) (ok : LogRec → Bool) : Scevar :=
  let rs := v.scan ok
  let undo := openTx rs
  let redo (o : List (Nat × BitVec 128)) (r : LogRec) : List (Nat × BitVec 128) :=
    if r.type = .update && Scevar.has rs r.txid .commit then assocSet o r.obj r.after else o
  let back (o : List (Nat × BitVec 128)) (r : LogRec) : List (Nat × BitVec 128) :=
    if r.type = .update && undo.contains r.txid then assocSet o r.obj r.before else o
  let v := { v with log := rs, objs := rs.reverse.foldl back (rs.foldl redo v.objs), hang := none, hung := false }
  undo.foldl (fun v tx => v.add tx .abort 0 0 0 none) v

/-- The number of the message that a command came in. -/
def msnOf (i : Instr) : Nat := ((commandOf i).map fun x => x.1.msn).getD 0

/-- Put a command before those of later messages. -/
def insertByMsn (i : Instr) : List Instr → List Instr
  | [] => [i]
  | j :: js => if msnOf j ≤ msnOf i then j :: insertByMsn i js else i :: j :: js

/-- The commands that recovery carries out again, in MSN order. -/
def Scevar.again (v : Scevar) (ok : LogRec → Bool) : List Instr :=
  let rs := v.scan ok
  (rs.filterMap fun r => if r.type = .begin && (openTx rs).contains r.txid then r.cmd else none).foldl (fun acc i => insertByMsn i acc) []

/-- An event for every owner and for the management owner. -/
def State.eventAll (s : State) (e : Event) : State := ((s.tenants.map Tenant.tag) ++ [255]).foldl (fun s o => s.event o e) s

/-- `SCEVAR_RESTART`: the third restart within 1 s is fatal (its class: log entry 37); any other recovers and sends RESYNC
to the leaves that are not powered down, and the units that waited for Scevar look for places again. -/
def execScevarRestart (s : State) : Host.Outcome State Fault Refusal :=
  .next <|
    if s.mgmt.ftl then s
    else
      let recent := (s.scv.recent.filter fun t => s.now < t + 1000000000) ++ [s.now]
      let s := { s with mgmt := { s.mgmt with restarts := min 0xFFFF (s.mgmt.restarts + 1) }, scv := { s.scv with recent := recent } }
      if 3 ≤ recent.length then
        { s with mgmt := { s.mgmt with ftl := true } }.eventAll { cls := .link, cause := .scevarFatal }
      else
        let cmds := s.scv.again s.holdsRecord
        let s := s.setLog (s.scv.recover s.holdsRecord)
        let s := (cmds.foldl State.post s).kick
        (List.range s.links.length).foldl (fun s leaf => match s.links[leaf]? with
          | some l => if (s.die (leaf / 8)).power == .parked || (s.die (leaf / 8)).power == .unparking then s else
              s.toLeaf leaf (.resync (match l.up.accepted with | some a => a + 1 | none => 0))
          | none => s) s

/-! ## Tenant switches (R64) -/

/-- A tenant that is not skipped: an ACTIVE queue with an unstarted packet, or a crew that could run. -/
def State.tenantReady (s : State) (t : Tenant) : Bool :=
  !t.migrated
    && ((s.queues.any fun q => q.owner == t.tag && q.state == .active && (!q.ready.isEmpty || q.head < q.tail))
      || (s.crews.any fun c => c.owner == t.tag && c.couldIssue)
      || s.launches.any fun l => l.owner == t.tag && !l.ended && (!l.unplaced.isEmpty || !l.bins.isEmpty))

/-- A 16-byte half of a feeder cursor (R86, log entry 38). -/
def Graph.cursorHalf (g : Graph) (c : Nat) (x : Chan) : Option Inst → List Byte
  | none => List.replicate 16 0
  | some i =>
    let p := i.prog c
    let per := if x.source then g.q x.cstg * x.crate else g.q x.pstg * x.prate
    bytesLE 4 p.movIn ++ bytesLE 4 p.movOut ++ bytesLE 4 (p.movIn / max 1 per) ++ bytesLE 4 (2 ^ 31)

/-- The die of the feeder that saves a channel's cursor: its older live instance's. -/
def State.cursorDie (s : State) (g : Graph) (c : Nat) : Nat :=
  match g.insts with
  | i :: _ => i.feedDie c
  | [] => s.ownerDie g.owner

/-- The page of each cursor of an owner's graphs is logged before the cursor is written (R163); whether all are. -/
def State.logCursors (s : State) (owner : Nat) : State × Bool :=
  (s.graphs.filter fun g => g.owner == owner && g.state != .unbound).foldl (fun acc g =>
    (List.range g.chans.length).foldl (fun acc c => match acc with
      | (s, true) => s.logPages owner (s.cursorDie g c) (s.rangePages owner (.glb (g.wsva + g.coff + 32 * c)) 32)
      | x => x) acc) (s, true)

/-- The cursors of every channel of an owner's graphs. DESIGN CHOICE (log entry 99): one whose page cannot be written is left out. -/
def State.writeCursors (s : State) (owner : Nat) : State :=
  (s.graphs.filter fun g => g.owner == owner && g.state != .unbound).foldl (fun s g =>
    (g.chans.zip (List.range g.chans.length)).foldl (fun s (x, c) =>
      match s.deviceStore owner (g.wsva + g.coff + 32 * c) (g.cursorHalf c x g.insts[0]? ++ g.cursorHalf c x g.insts[1]?) with
      | .ok s => s
      | .error _ => s) s) s

/-- An owner's TLB entries, L1 and instruction-cache lines leave every core and die. -/
def State.dropCaches (s : State) (owner : Nat) : State :=
  { s with
    dies := s.dies.map fun (d : Die) => { d with tlb := d.tlb.filter fun e => e.owner != owner, walks := d.walks.filter fun k => k.owner != owner }
    cores := s.cores.map fun (k : Core) => { k with
      tlb := k.tlb.filter fun e => e.owner != owner
      l1 := k.l1.filter fun l => l.owner != owner
      icache := k.icache.filter fun l => l.owner != owner } }

/-- Step 3 of a switch: queue state and cursors go to memory, waits leave the tables. The started packets and the waits are
saved in a form that nothing gives, so they stay in the state (log entry 9). -/
def State.switchSave (s : State) (t : Tenant) : State :=
  let s := s.writeCursors t.tag
  let s := ((s.queues.filter fun q => q.owner == t.tag && q.state != .free).map (·.q)).foldl State.syncQueue s
  let mine (r : WaitReg) : Bool := r.owner == t.tag && r.who != .peer
  { s with waits := s.waits.filter fun r => !mine r, remoteWaits := s.remoteWaits.filter fun r => !(mine r && !t.migrated) }

/-- Steps 3 and 4 of a switch. -/
def State.switchOut (s : State) (t : Tenant) : State :=
  ((s.switchSave t).dropCaches t.tag).modTenant t.tag fun t => { t with sliceEnd := 0, phase := 0 }

/-- A saved wait is registered again, and its signal re-read (R45, R51). A remote one whose peer is no longer known observes
its signal as aborted (R43). -/
def State.waitAgain (s : State) (owner : Nat) (ref : DWord) (who : Waiter) : State :=
  if ref.getLsbD 63 then
    if !s.peerKnown owner ref then s.inform ⟨owner, ref, who, 0⟩ none
    else if s.remoteWaits.any fun r => r.owner == owner && r.ref == ref && r.who == who then s.say (.peerRegister owner ref)
    else s.registerRemote owner ref who
  else
    let s := s.register owner ref who
    s.inform ⟨owner, ref, who, 0⟩ (s.sigValue owner ref)

/-- The waits of an owner's WAITSIG packets and weaves. -/
def State.savedWaits (s : State) (owner : Nat) : List (DWord × Waiter) :=
  (s.queues.filter fun q => q.owner == owner).flatMap (fun q =>
    (q.started.filter fun p => p.pkt.ty == 2 && !p.posted).flatMap fun p => p.need.map fun r => (r, Waiter.packet q.q p.pkt.idx))
  ++ (s.crews.filter fun c => c.owner == owner).flatMap (fun c => (c.weaves.zip (List.range c.weaves.length)).filterMap fun (w, j) =>
    match w.wait with
    | .signal r => if w.done then none else some (r, Waiter.weave c.cid j)
    | _ => none)

/-- Step 5: the waits are registered again. -/
def State.switchLoad (s : State) (t : Tenant) : State := (s.savedWaits t.tag).foldl (fun s x => s.waitAgain t.tag x.1 x.2) s

/-- Step 6: fetch, copies, feeders and placement go on. -/
def State.switchGo (s : State) (t : Tenant) : State :=
  let s := s.modTenant t.tag fun t => { t with running := true, migrated := false, phase := 0, sliceEnd := s.now + t.slice * 1000 }
  let s := s.after (t.slice * 1000) .tenantSwitch
  let s := (s.copies.filter fun c => c.owner == t.tag).foldl (fun s c => s.postOnce (.copyComplete c.id)) s
  let s := (s.colls.filter fun c => c.posted && ((s.launch? c.lid).map Launch.owner) == some t.tag).foldl
    (fun s c => s.postOnce (.collectiveComplete c.id)) s
  let s := ((s.graphs.filter fun g => g.owner == t.tag).map (·.gid)).foldl State.pokeGraph s
  (s.pumpOwner t.tag).kick

/-- Steps 5 and 6 of a switch. -/
def State.switchIn (s : State) (t : Tenant) : State := (s.switchLoad t).switchGo t

/-- The tenants of a partition in increasing index, those after `tag` first. -/
def State.tenantsAfter (s : State) (part tag : Nat) : List Tenant :=
  let ix := (List.range 16).filterMap fun k => s.tenant? (16 * part + k)
  (ix.filter fun t => tag < t.tag) ++ ix.filter fun t => t.tag ≤ tag

/-- A tenant stops, step 1 of a switch: fetch at once, then its crews by the ladder; its copies in flight finish their chunk. -/
def State.stopTenant (s : State) (t : Tenant) : State :=
  let s := (s.copies.filter fun c => c.owner == t.tag).foldl State.finishChunk s
  (s.modTenant t.tag fun t => { t with running := false, phase := 1 }).postOnce (.preemptionRequest (.forSwitch t.tag))

/-- An owner's crews hold cores. -/
def State.holdsCores (s : State) (owner : Nat) : Bool := s.crews.any fun c => c.owner == owner && c.holds?.isSome

/-- A step of a switch has been performed for a tenant; the next follows. -/
def State.setPhase (s : State) (tag n : Nat) : State := (s.modTenant tag fun t => { t with phase := n }).postOnce .tenantSwitch

/-- A partition's next step when no tenant runs and no crew holds a core: step 2 is over; the outgoing tenant's slice is marked until
step 4 is done, and the tenant that comes in is the first one after it. -/
def State.switchStep (s : State) (ts : List Tenant) (part : Nat) : Option State :=
  match ts.find? fun t => t.phase == 5 with
  | some t => some (s.switchGo t)
  | none =>
    match ts.find? fun t => t.phase == 3 with
    | some t => some (((s.dropCaches t.tag).modTenant t.tag fun t => { t with sliceEnd := 0 }).setPhase t.tag 4)
    | none =>
      match ts.find? fun t => t.sliceEnd != 0 with
      | some t =>
        if t.phase = 1 then some (s.setPhase t.tag 2)
        else match s.logCursors t.tag with
          | (s, true) => some ((s.switchSave t).setPhase t.tag 3)
          | (s, false) => some ((s.logWait t.tag .tenantSwitch).postOnce (.dirtyLogFull t.tag))
      | none =>
        let gone := ts.find? fun t => t.phase == 4
        let us := (s.tenantsAfter part ((gone.map Tenant.tag).getD 255)).filter fun t => !t.migrated
        let s := match gone with | some t => s.modTenant t.tag fun t => { t with phase := 0 } | none => s
        match (us.find? fun t => s.tenantReady t).orElse fun _ => us.head? with
        | some t => some ((s.switchLoad t).setPhase t.tag 5)
        | none => if gone.isSome then some s else none

/-- One partition's next step, when there is one to take now. -/
def State.switchPart (s : State) (part : Nat) : Option State :=
  let ts := s.tenantsAfter part 255
  match ts.find? fun t => t.running with
  | some t =>
    if s.now < t.sliceEnd then none
    else if (s.tenantsAfter part t.tag).any fun u => u.tag != t.tag && s.tenantReady u then some (s.stopTenant t)
    else some ((s.modTenant t.tag fun t => { t with sliceEnd := s.now + t.slice * 1000 }).after (t.slice * 1000) .tenantSwitch)
  | none => if ts.any fun t => s.holdsCores t.tag then none else s.switchStep ts part

/-- `TENANT_SWITCH`: the next step of the first partition that has one, a transaction of its own (R64); then the others look. -/
def execTenantSwitch (s : State) : Host.Outcome State Fault Refusal :=
  .next <| match ([0, 1, 2, 3] : List Nat).findSome? s.switchPart with
  | some t => t.postOnce .tenantSwitch
  | none => s

end Sys2Proof.Machine
end

