-- ==== Sys2Proof/Machine/Manage.lean ====
section
/-! DEFINITION. Machine/Manage.lean: the management commands (R59, R60): tenants, contexts, keys, peers, queues (R63 to R67),
migration (R51), attestation (R70), firmware (R69). -/

namespace Sys2Proof.Machine

/-! ## Commands (R57, R59, R60) -/

/-- Argument word k: in the mailbox, or as a command that takes several turns found it at its first. -/
def State.arg (s : State) (k : Nat) : Nat :=
  match s.mgmt.args with
  | [] => natLE (Memory.readN s.mgmt.mailbox (8 * k) 8)
  | xs => nthD xs k 0

/-- A command that takes several turns keeps its two argument words. -/
def State.keepArgs (s : State) : State := { s with mgmt := { s.mgmt with args := [s.arg 0, s.arg 1] } }

/-- The outcome of a command in `MRES`, laid out as `QRES`: RESULT, SEQ, STATUS, and QSTATE, which STATUS 0, 2 and 3 give
for the queue that a QGRANT names (R33, R59). -/
def State.putMres (s : State) (code status result : Nat) : State :=
  let seq := (bitsOf s.mgmt.mres.toNat 16 16 + 1) % 2 ^ 16
  let named := code = 6 && [0, 2, 3].contains status
  let qs := if named then ((s.queue? (s.arg 0)).map fun q => q.state.code).getD 0 else 0
  { s with mgmt := { s.mgmt with mres := BitVec.ofNat 64 (status + qs * 2 ^ 8 + seq * 2 ^ 16 + result * 2 ^ 32), args := [] } }

/-- A command's outcome: the state after it, its STATUS and its RESULT. -/
abbrev Outcome3 := State × Nat × Nat

/-- A management command, in MSN order. A rejected command changes nothing but `MRES`. -/
def State.mcmd (s : State) (m : Msg) (w : DWord) (code : Nat) (i : Instr) (run : State → Outcome3) : State :=
  s.whenCovered m i fun s =>
    let r : Outcome3 := if w.toNat != code then (s, 4, 0) else run s
    let s := if r.2.1 = 0 then r.1 else s
    let s := s.putMres code r.2.1 (if r.2.1 = 0 then r.2.2 else 0)
    s.perform m

/-! ## Tenants (R59, R63, R65, R67) -/

/-- MiB of a die's commons that tenant slices may take: 64 less the Barrier Directory, the stash and, on die 0, the queue
control lines (R102). -/
def commonsRoom (d : Nat) : Nat := if d = 0 then 54 else 55

/-- The commons requested is free on every die of a partition. -/
def State.commonsFree (s : State) (part mib : Nat) : Bool :=
  let used := ((s.tenants.filter fun t => t.part == part).map Tenant.commonsMib).sum
  (s.partDies part).all fun d => used + mib ≤ commonsRoom d

/-- The lowest tenant index that a partition does not use (log entry 87). -/
def State.freeTag (s : State) (part : Nat) : Option Nat :=
  ((List.range 16).map fun k => 16 * part + k).find? fun tag => (s.tenant? tag).isNone

/-- Arguments of TENANT_CREATE within their limits. -/
def State.createOk (s : State) : Bool :=
  let part := s.arg 0
  let root := s.arg 1
  part < 4 && !(s.partDies part).isEmpty && root % 2 ^ 16 == 0 && paBacked root && s.partOf (paDie root) == part
    && s.arg 2 % 64 == 0 && vaOk (s.arg 2) && s.arg 3 % 64 == 0 && vaOk (s.arg 3) && 4 ≤ s.arg 4 && s.arg 4 ≤ 16
    && s.arg 5 ≤ 64 && 100 ≤ s.arg 6 && s.arg 6 ≤ 1000000

/-- A tenant at its creation; its counters start at 0 (log entries 10, 11). -/
def Tenant.new (tag part root ecb ring log2 mib slice key : Nat) : Tenant :=
  { tag := tag, part := part, root := root, ecb := ecb, ring := ring, ringLog2 := log2, commonsMib := mib, slice := slice,
    keyId := key, peers := [], commons := [[], [], [], []], shadow := 0, gens := [0, 0, 0, 0], logged := [[], [], [], []],
    rqcons := 0, given := 0, dlcons := 0, dlctl := 0, tlbgen := 0, reqs := [], rqgen := 0, ringWait := [], logWait := [],
    running := false, sliceEnd := 0, phase := 0, migrated := false }

/-- TENANT_CREATE, its limits kept. Free indices and commons are looked for before the block is written (log entry 58). -/
def State.createTenant (s : State) : Outcome3 :=
  let part := s.arg 0
  match s.freeTag part with
  | none => (s, 5, 0)
  | some tag =>
    if !s.commonsFree part (s.arg 5) then (s, 5, 0)
    else
      let s := s.newId
      let t := Tenant.new tag part (s.arg 1) (s.arg 2) (s.arg 3) (s.arg 4) (s.arg 5) (s.arg 6) s.ids
      let s := { s with tenants := s.tenants ++ [t] }
      match s.deviceWrite tag t.ecb ([0, 0, 0, 0x30, 0, 0, 0, 0].flatMap fun x => bytesLE 8 x) with
      | .error _ => (s, 3, 0)
      | .ok s =>
        let s := if s.tenants.any fun u => u.part == part && u.running then s else s.postOnce .tenantSwitch
        (s, 0, tag)

/-- `TENANT_CREATE`; an unknown command code comes here and is refused. -/
def execTenantCreate (m : Msg) (w : DWord) (s : State) : Host.Outcome State Fault Refusal :=
  .next <| s.mcmd m w 1 (.tenantCreate m w) fun s => if s.createOk then s.createTenant else (s, 3, 0)

/-- The first part of TENANT_DESTROY: DESTROY for the tenant's queues, forced reset for its crews; its copies run on. -/
def State.beginDestroy (s : State) (tag : Nat) : State :=
  let s := s.modTenant tag fun t => { t with running := true, migrated := false }
  let s := (s.queues.filter fun q => q.owner == tag).foldl (fun s q => match s.queue? q.q with
    | some q => (s.destroyQueue q).1
    | none => s) s
  (s.copies.filter fun c => c.owner == tag).foldl (fun s c => s.postOnce (.copyComplete c.id)) (s.forceReset tag .forcedReset)

/-- The host messages of some signal operations are over. -/
def State.performAll (s : State) (xs : List SigWait) : State :=
  xs.foldl (fun s x => match x.msg with
    | some m => s.perform m
    | none => s) s

/-- The last part: everything that carries the owner's tag is freed; the key is gone with the tenant. -/
def State.endDestroy (s : State) (tag : Nat) : State :=
  let s := s.dropCrews ((s.crews.filter fun c => c.owner == tag).map (·.cid))
  let s := s.dropCaches tag
  let s := { s with sigWait := s.sigWait.filter fun x => x.owner != tag }.performAll (s.sigWait.filter fun x => x.owner == tag)
  let engines := ((s.copies.filter fun c => c.owner == tag).map fun c => (c.die, c.engine)).eraseDups
  let s := { s with
    tenants := s.tenants.filter fun (t : Tenant) => t.tag != tag
    queues := s.queues.filter fun (q : Queue) => q.owner != tag
    ctxs := s.ctxs.filter fun (c : Ctx) => c.owner != tag
    waits := s.waits.filter fun (r : WaitReg) => r.owner != tag
    remoteWaits := s.remoteWaits.filter fun (r : WaitReg) => r.owner != tag
    launches := s.launches.filter fun (l : Launch) => l.owner != tag
    bdir := s.bdir.filter fun (r : BdirRec) => r.own != tag
    copies := s.copies.filter fun (c : Copy) => c.owner != tag
    graphs := s.graphs.filter fun (g : Graph) => g.owner != tag
    ueCommons := s.ueCommons.filter fun u => u.1 != tag }
  (engines.foldl (fun s x => s.nextCopy x.1 x.2) s).postOnce .tenantSwitch

/-- `TENANT_DESTROY`: it ends once the tenant's queues are FREE. -/
def execTenantDestroy (m : Msg) (w : DWord) (s : State) : Host.Outcome State Fault Refusal :=
  .next <|
    let tag := s.arg 0
    if s.covered m && w.toNat == 2 && (s.tenant? tag).isSome && s.queues.any fun q => q.owner == tag && q.state != .free then
      let s := s.keepArgs.beginDestroy tag
      if s.queues.any fun q => q.owner == tag && q.state != .free then s.post (.tenantDestroy m w)
      else s.mcmd m w 2 (.tenantDestroy m w) fun s => (s.endDestroy tag, 0, 0)
    else s.mcmd m w 2 (.tenantDestroy m w) fun s =>
      if (s.tenant? tag).isNone then (s, 3, 0) else ((s.forceReset tag .forcedReset).endDestroy tag, 0, 0)

/-! ## Contexts, keys, peers, queues (R31, R43, R59) -/

/-- A context as CTX_SET binds it (log entry 39). -/
def Ctx.new (id job addr owner tss : Nat) : Ctx :=
  { id := id, job := BitVec.ofNat 64 job, addr := BitVec.ofNat 64 addr, owner := owner, tss := .named tss, keys := [], wm := 0, ahead := [],
    seq := 0, qstate := 0, status := 0 }

/-- `CTX_SET`. -/
def execCtxSet (m : Msg) (w : DWord) (s : State) : Host.Outcome State Fault Refusal :=
  .next <| s.mcmd m w 3 (.ctxSet m w) fun s =>
    let id := s.arg 0
    if id < 1 || 255 < id || (s.tenant? (s.arg 3)).isNone then (s, 3, 0)
    else
      let c := Ctx.new id (s.arg 1) (s.arg 2) (s.arg 3) (s.arg 4)
      ({ s with ctxs := s.ctxs.filter (fun x => x.id != id) ++ [c] }, 0, 0)

/-- `KEY_SET`. A context that is not bound has no key table (log entry 39). DESIGN CHOICE (log entry 95): one for context 0 is
accepted; its key 1 goes on naming the management space, and no RMA goes through another (`Ctx.keyOf`, `State.memoryWrite`). -/
def execKeySet (m : Msg) (w : DWord) (s : State) : Host.Outcome State Fault Refusal :=
  .next <| s.mcmd m w 4 (.keySet m w) fun s =>
    let k : Key := ⟨s.arg 1, s.arg 2, s.arg 3, s.arg 4 % 2 == 1, s.arg 4 / 2 % 2 == 1⟩
    if 4 ≤ s.arg 4 then (s, 4, 0)
    else if (s.ctx? (s.arg 0)).isNone || k.key < 1 || 4095 < k.key || !vaOk k.va || 2 ^ 52 < k.va + k.len then (s, 3, 0)
    else (s.modCtx (s.arg 0) fun c => { c with keys := c.keys.filter (fun x => x.key != k.key) ++ [k] }, 0, 0)

/-- `PEER_SET`. -/
def execPeerSet (m : Msg) (w : DWord) (s : State) : Host.Outcome State Fault Refusal :=
  .next <| s.mcmd m w 5 (.peerSet m w) fun s =>
    let tag := s.arg 0
    let ix := s.arg 1
    if (s.tenant? tag).isNone || 2047 < ix then (s, 3, 0)
    else
      let e := (ix, BitVec.ofNat 64 (s.arg 2), BitVec.ofNat 64 (s.arg 3))
      (s.modTenant tag fun t => { t with peers := t.peers.filter (fun x => x.1 != ix) ++ [e] }, 0, 0)

/-- A queue number just granted. -/
def Queue.new (q owner : Nat) : Queue :=
  { q := q, owner := owner, ctx := 0, state := .free, descVa := 0, ring := 0, log2n := 0, dsig := 0, tail := 0, head := 0, res := 0,
    errIdx := 0, errCause := .noCause, ready := [], started := [], reading := 0, fault := none, halted := false }

/-- `QGRANT`: a number that no tenant holds is FREE. -/
def execQgrant (m : Msg) (w : DWord) (s : State) : Host.Outcome State Fault Refusal :=
  .next <| s.mcmd m w 6 (.qgrant m w) fun s =>
    let q := s.arg 0
    let tag := s.arg 1
    if 1023 < q || (s.tenant? tag).isNone then (s, 3, 0)
    else match s.queue? q with
      | some x => if x.state = .free then ({ s with queues := s.queues.filter (fun y => y.q != q) ++ [Queue.new q tag] }, 0, 0) else (s, 2, 0)
      | none => ({ s with queues := s.queues ++ [Queue.new q tag] }, 0, 0)

/-! ## Migration (R51, R59) -/

/-- Every cause. -/
def causes : List Cause :=
  [.noCause, .illegalOpcode, .illegalOperand, .privilegedOperand, .privilegedOpcode, .reservedField, .regRange,
   .feEmpty, .tokenOverflow, .tokenUnderflow, .tokenMismatch, .pcMisaligned, .softwareTrap, .pageNotPresent,
   .pageProtection, .pageUnresolved, .paUnbacked, .kindStraddle, .addrNoncanon, .scratchRange, .commonsRange,
   .firewallBlocked, .atomicSplit, .memoryUe, .pageAnswerLate, .poolEntryBad, .linkFatal, .tssAuthFail, .peerUnset,
   .tableStale, .tableUnbound, .tableSpilled, .tableRamFull, .indexRange, .formatDivergence, .formatInvalid,
   .formatMismatch, .accQuota, .planeRange, .packetInvalid, .queueOverrun, .queueFetchFault, .signalUnderflow,
   .signalAborted, .enqRefused, .launchInvalid, .barrierScope, .barrierRearrive, .rateInconsistent, .graphInvalid,
   .graphDeadlock, .graphWorkspace, .graphFaulted, .rateMismatch, .channelRange, .intDivZero, .breakpoint, .debugHalt,
   .service, .doubleTrap, .residencyImpossible, .stashFull, .preemptSaveFailed, .forcedReset, .thermalShutdown,
   .scevarFatal, .firmwareRejected, .queueDestroyed]

/-- A started packet in the save area: index, the signals still needed, flags, the packet. -/
def Started.saved (p : Started) : List Byte :=
  bytesLE 8 p.pkt.idx ++ flagBytes 1 (fun k => p.need.contains ((p.pkt.sigs[k]?).getD 0) && k < p.pkt.nsig)
    ++ bytesLE 7 (bit01 p.posted + 2 * bit01 p.graphWait) ++ bytesLE 64 p.pkt.bits.toNat

/-- A queue in the save area: its fields, then its started packets and those read but not started (log entry 40). -/
def Queue.saved (q : Queue) : List Byte :=
  bytesLE 2 q.q ++ bytesLE 1 q.state.code ++ bytesLE 1 q.log2n ++ bytesLE 4 q.started.length ++ bytesLE 8 q.ready.length
    ++ [q.descVa, q.ring, q.dsig.toNat, q.tail, q.head, q.res, q.errIdx, q.errCause.code].flatMap (bytesLE 8)
    ++ q.started.flatMap Started.saved ++ q.ready.flatMap fun p => bytesLE 8 p.idx ++ bytesLE 64 p.bits.toNat

/-- The save area of a tenant: its length in bytes, its queues' number, the queues. -/
def State.saveArea (s : State) (owner : Nat) : List Byte :=
  let qs := s.queues.filter fun q => q.owner == owner
  let bs := qs.flatMap Queue.saved
  bytesLE 8 (16 + bs.length) ++ bytesLE 8 qs.length ++ bs

/-- Number n of a byte list's 8-byte words. -/
def saveWord (bs : List Byte) (n : Nat) : Nat := natLE ((bs.drop (8 * n)).take 8)

/-- A started packet read back. -/
def startedAt (seq : Nat) (bs : List Byte) : Started :=
  let p : Packet := ⟨saveWord bs 0, BitVec.ofNat 512 (natLE ((bs.drop 16).take 64))⟩
  let f := saveWord bs 1
  ⟨p, ((p.sigs.zip (List.range 8)).filter fun x => f.testBit x.2).map (·.1), f.testBit 8, f.testBit 9, seq, none⟩

def qstateOf (n : Nat) : QState := ([.active, .aborted, .error, .draining].find? fun x => x.code == n).getD .free

/-- A queue's part of the save area: the fields it gives, the queue's other fields kept, and what follows it. -/
def Queue.load (q : Queue) (ids : Nat) (bs : List Byte) : Queue × List Byte :=
  let h := saveWord bs 0
  let nst := min 16 (bitsOf h 32 32)
  let nrd := min 65536 (saveWord bs 1)
  let st := bs.drop 80
  let rd := st.drop (80 * nst)
  ({ q with
      state := qstateOf (bitsOf h 16 8), log2n := bitsOf h 24 8, descVa := saveWord bs 2, ring := saveWord bs 3,
      dsig := BitVec.ofNat 64 (saveWord bs 4), tail := saveWord bs 5, head := saveWord bs 6, res := saveWord bs 7, errIdx := saveWord bs 8,
      errCause := (causes.find? fun c => c.code == saveWord bs 9).getD .noCause, reading := 0, fault := none,
      started := (List.range nst).map fun k => startedAt (ids + k) (st.drop (80 * k)),
      ready := (List.range nrd).map fun k => ⟨saveWord (rd.drop (72 * k)) 0, BitVec.ofNat 512 (natLE ((rd.drop (72 * k + 8)).take 64))⟩ },
   rd.drop (72 * nrd))

/-- Load n queues that are granted to the owner; the state of another number is passed over. -/
def State.loadQueues (s : State) (owner : Nat) : Nat → List Byte → State
  | 0, _ => s
  | n + 1, bs =>
    let qn := bitsOf (saveWord bs 0) 0 16
    let q := ((s.queue? qn).filter fun q => q.owner == owner).getD (Queue.new qn 256)
    let r := q.load s.ids bs
    let s := { s with ids := s.ids + r.1.started.length }
    (if q.owner = owner then s.modQueue qn fun _ => r.1 else s).loadQueues owner n r.2

/-- A started packet that nothing on this machine carries on, as after a migration from another device, begins again. -/
def State.beginAgain (s : State) (q : Queue) (p : Started) : State :=
  let onWay := p.posted || (match p.pkt.ty with
    | 1 => s.launches.any fun l => l.kind == .packet q.q p.pkt.idx
    | 2 => true
    | 3 => s.copies.any fun c => c.fin == .packet q.q p.pkt.idx
    | 4 => s.graphs.any fun g => g.waiting.contains (q.q, p.pkt.idx)
    | _ => s.pending.contains (p.pkt.startEvent q.q))
  if onWay then s else (s.graphStart q.owner q.q p.pkt).postOnce (p.pkt.startEvent q.q)

/-- The queue state of a save area is loaded, or the fault of reading it. -/
def State.readSave (s : State) (owner va : Nat) : Except Cause State :=
  match s.deviceRead owner (va % 2 ^ 52) 16 with
  | .error c => .error c
  | .ok h => match s.deviceRead owner (va % 2 ^ 52) (min (2 ^ 40) (saveWord h 0)) with
    | .error c => .error c
    | .ok bs =>
      let s := s.loadQueues owner (min 1024 (saveWord h 1)) (bs.drop 16)
      .ok ((s.queues.filter fun q => q.owner == owner).foldl (fun s q => q.started.foldl (fun s p => s.beginAgain q p) s) s)

def State.writeSave (s : State) (owner va : Nat) : Except Cause State := s.deviceWrite owner (va % 2 ^ 52) (s.saveArea owner)

def saveFails : Except Cause State → Bool
  | .error _ => true
  | .ok _ => false

/-- A tenant has work that a migration lets end first: crews on cores, packets whose completion is on its way. -/
def State.leaving (s : State) (tag : Nat) : Bool :=
  s.holdsCores tag || s.queues.any fun q => q.owner == tag && q.started.any (·.posted)

/-- The signal operations of an owner that wait for its dirty-page log go on to the device that it migrates to (R51). -/
def State.relaySignals (s : State) (owner : Nat) : State :=
  let xs := s.sigWait.filter fun x => x.owner == owner
  let s := { s with sigWait := s.sigWait.filter fun x => x.owner != owner }
  xs.foldl (fun s x => s.say (.relay owner (.sigop owner x.op x.ref))) (s.performAll xs)

/-- `MIGRATE_OUT`: the tenant stops as at a switch-out; once its crews have left and completions on their way have come, its queue
state goes to the save area and what peers send for it is relayed. A save area that cannot be written is found before the tenant
stops; from then on the command waits for it (log entry 40), and for room to log the pages of the feeders' cursors (R163). -/
def execMigrateOut (m : Msg) (w : DWord) (s : State) : Host.Outcome State Fault Refusal :=
  .next <|
    let tag := s.arg 0
    match s.tenant? tag with
    | some t =>
      let fails := saveFails (s.writeSave tag (s.arg 1))
      let stopped := !s.mgmt.args.isEmpty
      let full := !(s.logCursors tag).2
      if s.covered m && w.toNat == 7 && vaOk (s.arg 1) && (if stopped then s.leaving tag || full || fails else (s.leaving tag || full) && !fails) then
        let s' := if t.running then s.keepArgs.stopTenant t else s.keepArgs
        if s.leaving tag || fails then s'.post (.migrateOut m w)
        else (s'.logWait tag (.migrateOut m w)).postOnce (.dirtyLogFull tag)
      else s.mcmd m w 7 (.migrateOut m w) fun s =>
        if !vaOk (s.arg 1) then (s, 3, 0)
        else match s.writeSave tag (s.arg 1) with
          | .error _ => (s, 3, 0)
          | .ok s =>
            let s := ((s.logCursors tag).1.relaySignals tag).modTenant tag fun t => { t with running := false, migrated := true }
            (match s.tenant? tag with | some t => (s.switchOut t).postOnce .tenantSwitch | none => s, 0, 0)
    | none => s.mcmd m w 7 (.migrateOut m w) fun s => (s, 3, 0)

/-- `MIGRATE_IN`: queue state comes from the save area and the tenant goes on here as at a switch-in, its waits registered
again before a forwarded notification counts (R51). A tenant whose partition serves another waits for its slice. -/
def execMigrateIn (m : Msg) (w : DWord) (s : State) : Host.Outcome State Fault Refusal :=
  .next <| s.mcmd m w 8 (.migrateIn m w) fun s =>
    match s.tenant? (s.arg 0) with
    | none => (s, 3, 0)
    | some t =>
      if !vaOk (s.arg 1) then (s, 3, 0)
      else match s.readSave t.tag (s.arg 1) with
        | .error _ => (s, 3, 0)
        | .ok s =>
          if t.running then (s.switchLoad t, 0, 0)
          else
            let s := s.modTenant t.tag fun t => { t with migrated := false }
            if s.tenants.any fun u => u.part == t.part && (u.running || u.phase != 0) then (s, 0, 0) else (s.switchIn t, 0, 0)

/-! ## Identity and firmware (R69, R70) -/

/-- The report: nonce, firmware digest, fused minimum, `PART_CFG`, leaf index, signature. -/
def State.report (s : State) : List Byte :=
  let signed := Memory.readN s.mgmt.mailbox 0 32
    ++ (List.range 32).map (Config.firmwareDigest (s.mgmt.running.getD Config.factoryImage)) ++ bytesLE 8 Config.fusedMinimum.toNat
    ++ bytesLE 4 s.partCfg ++ bytesLE 4 s.mgmt.leafIndex
  signed ++ (List.range 2820).map fun i => Config.xmssByte signed s.mgmt.leafIndex i

/-- `ATTEST`: the leaf index advances before the signature is released. -/
def execAttest (m : Msg) (w : DWord) (s : State) : Host.Outcome State Fault Refusal :=
  .next <| s.mcmd m w 9 (.attest m w) fun s =>
    if 2 ^ 20 ≤ s.mgmt.leafIndex then (s, 5, 0)
    else
      let box := Memory.writeN s.mgmt.mailbox 0 s.report
      ({ s with mgmt := { s.mgmt with mailbox := box, leafIndex := s.mgmt.leafIndex + 1 } }, 0, 0)

/-- `FW_STAGE`: an image in populated HBM of one die (log entry 88) that passes the checks is staged. -/
def execFwStage (m : Msg) (w : DWord) (s : State) : Host.Outcome State Fault Refusal :=
  .next <| s.mcmd m w 10 (.fwStage m w) fun s =>
    let pa := s.arg 0
    let n := s.arg 1
    if !paBacked pa || 0x2800000000 < pa % 2 ^ 38 + n then (s, 3, 0)
    else
      let bs := s.hbmBytes 255 pa n
      if Config.imageVerifies bs then ({ s with mgmt := { s.mgmt with staged := some bs } }, 0, 0) else (s, 3, 0)

end Sys2Proof.Machine
end

