-- ==== Sys2Proof/Machine/Power.lean ====
section
/-! DEFINITION. Machine/Power.lean: performance states and the power ceiling (R21 to R24), the power registers (R25, R26),
parking (R27 to R29), `PART_CFG` (R61, R62), `RRU_CFG` (R121), other registers and ECLR (R59, R67). -/

namespace Sys2Proof.Machine

/-! ## Performance states (R22) -/

/-- The state that a die holds or is moving to last. -/
def Die.target (d : Die) : Option Nat :=
  match d.power with
  | .on p => some (d.queuedP.getD (d.nextP.getD p))
  | _ => none

/-- Start a transition: a slower state has its clock at once, a faster one when its voltage has risen. -/
def State.startP (s : State) (d p : Nat) : State :=
  match (s.die d).power with
  | .on old =>
    if p = old then s.modDie d fun x => { x with nextP := none }
    else if p < old then (s.modDie d fun x => { x with nextP := some p }).after 8200 (.pstateTransitionDone d)
    else (s.modDie d fun x => { x with nextP := some p, power := .on p }).after 2200 (.pstateTransitionDone d)
  | _ => s

/-- Ask a die for a state; a transition in progress ends first. -/
def State.requestP (s : State) (d p : Nat) : State :=
  if (s.die d).target = some p then s
  else if (s.die d).nextP.isSome then s.modDie d fun x => { x with queuedP := some p }
  else s.startP d p

/-- `PSTATE_TRANSITION_DONE`. -/
def execPstateTransitionDone (d : Nat) (s : State) : Host.Outcome State Fault Refusal :=
  .next <| match (s.die d).power, (s.die d).nextP with
  | .on _, some p =>
    let queued := (s.die d).queuedP
    let s := s.modDie d fun x => { x with power := .on p, nextP := none, queuedP := none }
    match queued with
    | some q => s.startP d q
    | none => s
  | _, _ => s

/-! ## The ceiling (R23) -/

/-- The dies that are not parked, hottest first: those that the sensors name, then the others. -/
def State.hottest (s : State) : List Nat :=
  (s.env.hottest.filter (· < 4) ++ [0, 1, 2, 3]).eraseDups.filter fun d => (s.die d).target.isSome

/-- Take the next measure: a die one state slower, Accord issue, a die's issue, the copy engines and host traffic; the hottest
die to its least, then the next (log entry 82). -/
def State.throttle (s : State) : State :=
  match s.hottest.find? fun d => (s.die d).target.getD 5 < 5 with
  | some d => s.requestP d ((s.die d).target.getD 0 + 1)
  | none =>
    if s.mgmt.accGate < 7 then { s with mgmt := { s.mgmt with accGate := s.mgmt.accGate + 1 } }
    else match s.hottest.find? fun d => (s.die d).gate < 8 with
      | some d => s.modDie d fun x => { x with gate := x.gate + 1 }
      | none => if s.mgmt.hostGate < 8 then { s with mgmt := { s.mgmt with hostGate := s.mgmt.hostGate + 1 } } else s

/-- Measures until the prediction fits. -/
def State.throttleWhile (s : State) (limit : Nat) : List Nat → State
  | [] => s
  | w :: ws => if limit < w then s.throttle.throttleWhile limit ws else s

/-- Lift the last kind of measure by one step. -/
def State.lift (s : State) : State :=
  let cool := s.hottest.reverse
  if s.mgmt.hostGate != 0 then { s with mgmt := { s.mgmt with hostGate := s.mgmt.hostGate - 1 } }
  else match cool.find? fun d => (s.die d).gate != 0 with
    | some d => s.modDie d fun x => { x with gate := x.gate - 1 }
    | none =>
      if s.mgmt.accGate != 0 then { s with mgmt := { s.mgmt with accGate := s.mgmt.accGate - 1 } }
      else match cool.find? fun d => !(s.die d).hot && s.mgmt.pmax.toNat < (s.die d).target.getD 0 with
        | some d => s.requestP d ((s.die d).target.getD 0 - 1)
        | none => s

/-- `POWER_SAMPLE`: a sample joins the 1 ms window; measures are taken while the prediction passes the ceiling, or one is
lifted when 1 ms has passed since the last was. -/
def execPowerSample (s : State) : Host.Outcome State Fault Refusal :=
  .next <|
    let xs := (s.mgmt.samples ++ [s.env.watts]).drop (s.mgmt.samples.length + 1 - 100)
    let avg := if xs.length = 100 then BitVec.ofNat 12 (min 4095 (xs.sum / 100)) else s.mgmt.avg
    let s := { s with mgmt := { s.mgmt with samples := xs, avg := avg },
                      dies := (s.dies.zip (List.range s.dies.length)).map fun (x : Die × Nat) => { x.1 with hot := s.env.hotDies.contains x.2 } }
    let limit := 5 * s.mgmt.ceil.toNat
    let above := match s.env.predicted with | w :: _ => decide (limit < w) | [] => false
    let s := if above then s.throttleWhile limit s.env.predicted
      else if s.mgmt.lastLift + 1000000 ≤ s.now then
        let up : State := s.lift
        { up with mgmt := { up.mgmt with lastLift := s.now } }
      else s
    if s.timers.any fun t => t.2 == .powerSample then s else s.after 10000 .powerSample

/-- `THERMAL_LIMIT`: each die at 105 °C is forced to P5 (R24). -/
def execThermalLimit (s : State) : Host.Outcome State Fault Refusal :=
  .next <| s.env.hotDies.foldl (fun s d => if (s.die d).target.isSome then (s.modDie d fun x => { x with hot := true }).requestP d 5 else s) s

/-- `THERMAL_SHUTDOWN`: a fatal error for every owner; then nothing runs until a module reset (R24, log entry 37). -/
def execThermalShutdown (s : State) : Host.Outcome State Fault Refusal :=
  .next <|
    let s := s.eventAll { cls := .link, cause := .thermalShutdown }
    { s with mgmt := { s.mgmt with shutdown := true } }

/-! ## Registers (R25, R26, R61, R62, R120, R121) -/

/-- `PWR_CTL_WRITE`. Dies faster than PMAX permits slow down to it. -/
def execPwrCtlWrite (m : Msg) (v : Word) (s : State) : Host.Outcome State Fault Refusal :=
  .next <|
    let n := v.toNat
    let ceil := bitsOf n 0 9
    let pmax := bitsOf n 20 4
    let ok := 90 ≤ ceil && ceil ≤ 280 && pmax ≤ 5 && bitsOf n 9 11 == 0 && bitsOf n 24 7 == 0
    let err := !ok || (s.mgmt.pwrErr && !v.getLsbD 31)
    let s := { s with mgmt := { s.mgmt with pwrErr := err } }
    let s :=
      if ok then
        let s := { s with mgmt := { s.mgmt with ceil := BitVec.ofNat 9 ceil, pmax := BitVec.ofNat 4 pmax } }
        [0, 1, 2, 3].foldl (fun s d => match (s.die d).target with
          | some p => if p < pmax then s.requestP d pmax else s
          | none => s) s
      else s
    s.perform m

/-- A crew's saved image lies on a die. -/
def Place.stashedOn (d : Nat) : Place → Bool
  | .stashed e _ => e == d
  | _ => false

/-- State of an owner lies on a die: its root table or HBM, its commons, crews and their saved images, barrier records, continuation
bins, feeders, walks, routes, copies, the die's and its cores' translations and cached lines (R14, R62). -/
def State.ownerOn (s : State) (t : Tenant) (d : Nat) : Bool :=
  s.partOf d == t.part
    && (paDie t.root == d || t.commonsMib != 0
      || (s.keyTags.any fun k => k.2 == t.keyId && paDie (k.1 * 256) == d)
      || (s.crews.any fun c => c.owner == t.tag && (c.homeDie == d || (c.holds?.map dieOfCore) == some d || c.place.stashedOn d))
      || ((s.die d).tlb.any fun e => e.owner == t.tag)
      || ((s.cores.drop (64 * d)).take 64).any fun (k : Core) =>
          k.tlb.any (fun e => e.owner == t.tag) || k.l1.any (fun l => l.owner == t.tag) || k.icache.any fun l => l.owner == t.tag
      || (s.bdir.any fun r => r.own == t.tag && r.num / 16384 == d)
      || (s.launches.any fun l => l.owner == t.tag && l.bins.any fun b => b.die == d)
      || (s.graphs.any fun g => g.owner == t.tag && g.insts.any fun i => i.feeders.any fun f => f.1 == d)
      || ((s.die d).walks.any fun k => k.owner == t.tag) || ((s.die d).routes.any fun r => r.owner == t.tag)
      || s.copies.any fun c => c.owner == t.tag && c.die == d)

/-- The dies of each partition number are one die, two that a link joins, or all four (R62). -/
def partsOk (pids : List Nat) : Bool :=
  [0, 1, 2, 3].all fun p =>
    let ds := [0, 1, 2, 3].filter fun d => nthD pids d 0 == p
    ds.length ≤ 1 || ds.length == 4 || ([[0, 1], [2, 3], [0, 2], [1, 3]] : List (List Nat)).contains ds

/-- `PART_CFG_WRITE`. -/
def execPartCfgWrite (m : Msg) (v : Word) (s : State) : Host.Outcome State Fault Refusal :=
  .next <|
    let n := v.toNat
    let pids := [0, 1, 2, 3].map fun d => bitsOf n (2 * d) 2
    let held := [0, 1, 2, 3].any fun d => nthD pids d 0 != s.partOf d && s.tenants.any fun t => s.ownerOn t d
    let ok := partsOk pids && bitsOf n 12 19 == 0 && !held
    let err := !ok || (s.mgmt.partErr && !v.getLsbD 31)
    let s := { s with mgmt := { s.mgmt with partErr := err, pids := if ok then pids else s.mgmt.pids } }
    s.perform m

/-- Every parked spinner is woken and every run counter is 0 (R121). -/
def State.wakeSpinners (s : State) : State :=
  s.crews.foldl (fun s c => (List.range c.weaves.length).foldl (fun s j => match s.weave? c.cid j with
    | some w =>
      if w.wait = .spin then (s.unpark c.cid j).retryPlace c.cid
      else s.modWeave c.cid j fun w => { w with spin := { w.spin with count := 0 } }
    | none => s) s) s

/-- `RRU_CFG_WRITE`. -/
def execRruCfgWrite (m : Msg) (v : Word) (s : State) : Host.Outcome State Fault Refusal :=
  .next <|
    let n := v.toNat
    let quant := bitsOf n 0 14
    let drain := bitsOf n 18 10
    let spen := v.getLsbD 17
    let ok := 1 ≤ drain && drain ≤ 1000 && 10 ≤ quant && quant ≤ 10000 && bitsOf n 14 3 == 0 && bitsOf n 28 3 == 0
    let err := !ok || (s.mgmt.rruErr && !v.getLsbD 31)
    let off := s.mgmt.spen && !spen
    let s := { s with mgmt := { s.mgmt with rruErr := err } }
    let s := if ok then { s with mgmt := { s.mgmt with quant := quant, drain := drain, spen := spen } } else s
    (if ok && off then s.wakeSpinners else s).perform m

/-- A change of PREQ for a die. -/
def State.preqChange (s : State) (d : Nat) (old new : BitVec 4) : State :=
  match old.getLsbD d, new.getLsbD d with
  | false, true => s.post (.diePark d)
  | true, false => s.post (.dieUnpark d)
  | _, _ => s

/-- `REGISTER_WRITE`: `DIE_PARK`, and the host's words of the management error-control block; others ignore it. -/
def execRegisterWrite (m : Msg) (off : Nat) (v : DWord) (s : State) : Host.Outcome State Fault Refusal :=
  .next <|
    let b := s.mgmt.ecb
    let s := match off with
      | 0x108 =>
        let old := s.mgmt.preq
        let new : BitVec 4 := v.setWidth 4
        [0, 1, 2, 3].foldl (fun (s : State) d => s.preqChange d old new) { s with mgmt := { s.mgmt with preq := new } }
      | 0x408 => { s with mgmt := { s.mgmt with ecb := { b with eclr := v } } }.post (.eclrWrite 255)
      | 0x410 => { s with mgmt := { s.mgmt with ecb := { b with emask := v } } }
      | 0x418 => { s with mgmt := { s.mgmt with ecb := { b with esev := v } } }
      | 0x428 => { s with mgmt := { s.mgmt with ecb := { b with cons := v } } }
      | _ => s
    s.perform m

/-- `ECLR_WRITE`: ESTAT := ESTAT AND NOT ECLR, then ECLR := 0 (R67). -/
def execEclrWrite (owner : Nat) (s : State) : Host.Outcome State Fault Refusal :=
  .next <| match s.tenant? owner with
  | some t => match s.deviceWord owner t.ecb, s.deviceWord owner (t.ecb + 8) with
    | .ok stat, .ok clr => s.deviceWriteWords owner t.ecb [stat &&& ~~~ clr, 0]
    | _, _ => s
  | none =>
    let b := s.mgmt.ecb
    if owner = 255 then { s with mgmt := { s.mgmt with ecb := { b with estat := b.estat &&& ~~~ b.eclr, eclr := 0 } } } else s

/-! ## Parking (R27 to R29) -/

/-- `DIE_PARK`: no new crew, and the resident ones go by the ladder. A transition in progress ends first. -/
def execDiePark (d : Nat) (s : State) : Host.Outcome State Fault Refusal :=
  .next <| match (s.die d).power with
  | .on _ =>
    let s := s.modDie d fun x => { x with power := .parking, nextP := none, queuedP := none }
    { s with gangRes := s.gangRes.filter fun (g : GangRes) => g.die != d,
             timers := s.timers.filter fun x => x.2 != Instr.pstateTransitionDone d }.postOnce (.preemptionRequest (.forPark d))
  | _ => s

/-- The bins of a launch when those of a die join another's: the records of one ENTRY are in one bin (R97). -/
def mergeBins (d e : Nat) (bins : List Bin) : List Bin :=
  let rest := bins.filter fun b => b.die != d
  (bins.filter fun b => b.die == d).foldl (fun acc b =>
    if acc.any fun x => x.die == e && x.entry == b.entry then
      updWhere acc (fun x => x.die == e && x.entry == b.entry) fun x => { x with recs := x.recs ++ b.recs, joined := max x.joined b.joined }
    else
      let n := ((acc.filter fun x => x.die == e).map (·.bin + 1)).foldl max 0
      let k := (freeBin (acc.filter fun x => x.die == e)).getD n
      acc ++ [{ b with die := e, bin := k }]) rest

/-- Rehome the absent units of a partition from a die to another (R29): saved units, units not yet placed, continuations. -/
def State.rehome (s : State) (part d e : Nat) : State :=
  let here (owner : Nat) : Bool := owner / 16 == part
  let s := { s with
    crews := updWhere s.crews (fun c => here c.owner && c.homeDie == d) fun (c : Crew) => { c with homeDie := e }
    launches := updWhere s.launches (fun l => here l.owner) fun (l : Launch) =>
      { l with homeMap := l.homeMap ++ [4 * d + e], bins := mergeBins d e l.bins } }
  -- a bin in its new place looks at once, and again when its 2 µs have passed (R97)
  s.launches.foldl (fun s l => (l.binsOn e).foldl (fun s b =>
    (s.postOnce (.continuationRelease l.lid e b.bin)).at_ (b.joined + 2000) (.continuationRelease l.lid e b.bin)) s) s

/-- The compute domain of a die loses its contents; units mapped out stay so. -/
def Core.powerDown (k : Core) : Core := { k with l1 := [], icache := [], tlb := [], accq := [] }

/-- `DIE_POWER_DOWN`: once no crew holds the die. Units are rehomed to the next die that is not parked, if there is one.
A PREQ that has changed meanwhile is acted on now (R28). -/
def execDiePowerDown (d : Nat) (s : State) : Host.Outcome State Fault Refusal :=
  .next <|
    if (s.die d).power != .parking then s
    else if s.crews.any fun c => (c.holds?.map dieOfCore) == some d then s.postOnce (.preemptionRequest (.forPark d))
    else
      let s := s.modDie d fun x => { x with power := .parked, gate := 0, walks := [] }
      let s := (dieCores d).foldl (fun s k => s.modCore k Core.powerDown) s
      let s := match s.nextUnparked (s.partOf d) d with
        | some e => s.rehome (s.partOf d) d e
        | none => s
      (if s.mgmt.preq.getLsbD d then s else s.post (.dieUnpark d)).kick

/-- `DIE_UNPARK`: a parked die powers up; its command links start afresh (R55). -/
def execDieUnpark (d : Nat) (s : State) : Host.Outcome State Fault Refusal :=
  .next <|
    if (s.die d).power != .parked then s
    else
      let s := { s with links := (s.links.zip (List.range s.links.length)).map fun (l, k) => if k / 8 = d then CmdLink.reset else l }
      (s.modDie d fun x => { x with power := .unparking }).after 200000 (.unparkComplete d)

/-- `UNPARK_COMPLETE`: the die is at P5 and takes crews. Units that kept a parked home because every die of the partition
was parked come here, if no other die takes crews yet. -/
def execUnparkComplete (d : Nat) (s : State) : Host.Outcome State Fault Refusal :=
  .next <|
    if (s.die d).power != .unparking then s
    else
      let part := s.partOf d
      let others := (s.partDies part).filter (· != d)
      let s := s.modDie d fun x => { x with power := .on 5 }
      let down := others.filter fun e => (s.die e).power == .parked
      let s := if others.all fun e => (s.die e).power == .parked || (s.die e).power == .unparking then
        down.foldl (fun s e => s.rehome part e d) s else s
      (if s.mgmt.preq.getLsbD d then s.post (.diePark d) else s).kick

end Sys2Proof.Machine
end

