-- ==== Sys2Proof/Machine/Links.lean ====
section
/-! DEFINITION. Machine/Links.lean: Welt links (R12, R14), ports (R20), patrol scrub (R18), uncorrectable errors (R235, R242),
module reset (R69). -/

namespace Sys2Proof.Machine

/-! ## Welt links (R14) -/

/-- The dies that a link joins (R12), in the bit order of FW. -/
def linkDies : Nat → List Nat
  | 0 => [0, 1]
  | 1 => [2, 3]
  | 2 => [0, 2]
  | 3 => [1, 3]
  | _ => []

def State.modWelt (s : State) (k : Nat) (f : Welt → Welt) : State := { s with welt := modNth s.welt k f }

/-- `FLIT_CRC_FAIL`: the link retries; the 64th failure in a row retrains it. -/
def execFlitCrcFail (s : State) : Host.Outcome State Fault Refusal :=
  .next <|
    let k := s.env.badLink
    match s.welt[k]? with
    | none => s
    | some l =>
      if l.state != .up then s
      else
        let n := if s.env.passed then 1 else l.fails + 1
        let s := s.modWelt k fun l => { l with fails := n }
        if 64 ≤ n then s.postOnce (.linkRetrain k) else s

/-- `LINK_RETRAIN`: traffic stalls. -/
def execLinkRetrain (k : Nat) (s : State) : Host.Outcome State Fault Refusal :=
  .next <| s.modWelt k fun l => if l.state = .up then { l with state := .retraining } else l

/-- `LINK_RETRAIN_COMPLETE`: traffic goes on. -/
def execLinkRetrainComplete (k : Nat) (s : State) : Host.Outcome State Fault Refusal :=
  .next <| s.modWelt k fun l => if l.state = .retraining then ⟨.up, 0⟩ else l

/-- `LINK_FATAL`: every owner with state on the two dies gets a LINK event; the management owner has its log on die 0 (R56).
Traffic over the link stays stalled (log entry 79). -/
def execLinkFatal (k : Nat) (s : State) : Host.Outcome State Fault Refusal :=
  .next <| match s.welt[k]? with
  | none => s
  | some l =>
    if l.state != .retraining then s
    else
      let ds := linkDies k
      let owners := (s.tenants.filter fun t => ds.any fun d => s.ownerOn t d).map Tenant.tag
        ++ (if ds.contains 0 then [255] else [])
      let s := s.modWelt k fun l => { l with state := .dead }
      owners.foldl (fun s o => s.event o { cls := .link, cause := .linkFatal, src := nthD ds 0 0 }) s

/-! ## Ports (R20) -/

def State.modPort (s : State) (p : Nat) (f : Port → Port) : State := { s with ports := modNth s.ports p f }

/-- `PORT_CONFIG_WRITE`: at once while the port is down, else at its next link-up. -/
def execPortConfigWrite (m : Msg) (p : Nat) (split : Bool) (s : State) : Host.Outcome State Fault Refusal :=
  .next <| (s.modPort p fun x => { x with cfgSplit := split, split := if x.up then x.split else split }).perform m

/-- `PORT_LINK_UP`. -/
def execPortLinkUp (p : Nat) (s : State) : Host.Outcome State Fault Refusal :=
  .next <| s.modPort p fun x => { x with up := true, split := x.cfgSplit }

/-- `PORT_LINK_DOWN`. -/
def execPortLinkDown (p : Nat) (s : State) : Host.Outcome State Fault Refusal :=
  .next <| s.modPort p fun x => { x with up := false }

/-! ## Errors in memory (R18, R235, R242) -/

/-- `PATROL_SCRUB`: every line of every stack has been visited: the errors corrected are counted in their stacks; an
uncorrectable one is reported. -/
def execPatrolScrub (s : State) : Host.Outcome State Fault Refusal :=
  .next <|
    let s := { s with stackErrs := (s.stackErrs.zip (List.range 8)).map fun (n, k) => n + nthD s.env.corrected k 0
                      env := { s.env with soft := [] } }
    let s := if s.env.sites.isEmpty then s else s.post .memoryUe
    if s.timers.any fun t => t.2 == .patrolScrub then s else s.after 86400000000000 .patrolScrub

/-- The owner of the state that holds a word; 255 when no owner does. -/
def UeSite.owner (s : State) : UeSite → Nat
  | .hbm pa => match assocGet s.keyTags (pa / 256) with
    | some k => ((s.tenants.find? fun t => t.keyId == k).map Tenant.tag).getD 255
    | none => 255
  | .commons o _ _ => if (s.tenant? o).isSome then o else 255
  | .bdir r => ((s.bdir? r).map BdirRec.own).getD 255
  | .registerFile cid _ _ | .scratchpad cid _ | .accumulator cid _ | .tableRam cid _ _ | .stash cid => ((s.crew? cid).map Crew.owner).getD 255
  | .l1 k n => (((s.core k).l1.find? fun l => l.line == n).map L1Line.owner).getD 255
  | .icache k n => (((s.core k).icache.find? fun l => l.line == n).map ILine.owner).getD 255
  | .emptyCore .. => 255
  | .tlb _ o _ | .dieTlb _ o _ => if (s.tenant? o).isSome then o else 255

/-- The die where a word lies (R68). -/
def UeSite.src (s : State) : UeSite → Nat
  | .hbm pa => paDie pa
  | .commons _ d _ | .dieTlb d _ _ => d
  | .bdir r => r / 16384
  | .registerFile cid _ _ | .scratchpad cid _ | .accumulator cid _ | .tableRam cid _ _ | .stash cid =>
    ((s.crew? cid).map Crew.die).getD 0
  | .emptyCore k _ _ | .l1 k _ | .icache k _ | .tlb k _ _ => dieOfCore k

/-- A crew takes a deferred `MEMORY_UE` in a weave, or in its first that has not exited. -/
def State.crewUe (s : State) (cid : Nat) (wx : Option Nat) : State :=
  match s.crew? cid with
  | none => s
  | some c =>
    let live := (List.range c.weaves.length).find? fun j => match s.weave? cid j with | some w => !w.done | none => false
    match wx.orElse fun _ => live with
    | none => s
    | some j => match s.weave? cid j with
      | some w => s.deferTrap cid j ⟨.memoryUe, true, w.pc, w.exec, []⟩
      | none => s

/-- A unit of a core found with a permanent fault waits for the core to be empty, once (R242). -/
def State.mapOutAt (s : State) (core kind bank : Nat) : State :=
  (s.modCore core fun x =>
    if x.out.contains (kind, bank) || x.repairs.contains (kind, bank) then x else { x with repairs := x.repairs ++ [(kind, bank)] }).repair core

/-- The same for the core that holds a crew. -/
def State.mapOut (s : State) (cid kind : Nat) (bank : Option Nat) : State :=
  match (s.crew? cid).bind Crew.holds?, bank with
  | some k, some b => s.mapOutAt k kind b
  | _, _ => s

/-- What an uncorrectable error does where it lies (R235). -/
def State.ueEffect (s : State) : UeSite → State
  | .hbm pa =>
    let w := pa / 32 * 32
    if s.ueHbm.contains w then s else { s with ueHbm := s.ueHbm ++ [w] }
  | .commons o d off =>
    let w := (o, d, off / 8 * 8)
    if s.ueCommons.contains w then s else { s with ueCommons := s.ueCommons ++ [w] }
  | .bdir r => match s.bdir? r with
    | some x => s.endLaunch x.launch .memoryUe
    | none => s
  | .registerFile cid wx bank => (s.crewUe cid (some wx)).mapOut cid 0 bank
  | .scratchpad cid bank => (s.crewUe cid none).mapOut cid 1 bank
  | .accumulator cid bank => (s.crewUe cid none).mapOut cid 3 bank
  | .emptyCore k kind bank => s.mapOutAt k kind bank
  | .tableRam cid th bank =>
    -- an `LKA` already queued on the set gives the sum of its operands all the same (R217)
    (s.modCrew cid fun c => { c with tables := modNth c.tables th fun t =>
      if t.state = .valid then { t with state := .discarded } else t }).mapOut cid 2 bank
  | .l1 k n => s.l1Drop k fun l => l.line == n
  | .icache k n => s.modCore k fun x => { x with icache := x.icache.filter fun l => l.line != n }
  | .tlb k o v => s.modCore k fun x => { x with tlb := x.tlb.filter fun e => !(e.owner == o && e.page == v * 2 ^ 16) }
  | .dieTlb d o v => s.modDie d fun x => { x with tlb := x.tlb.filter fun e => !(e.owner == o && e.page == v * 2 ^ 16) }
  | .stash cid => s.modCrew cid fun c => { c with imageBad := c.core?.isNone }

/-- `MEMORY_UE`: the next error that the environment reports: its effect, then one event to the owner of the word. -/
def execMemoryUe (s : State) : Host.Outcome State Fault Refusal :=
  .next <| match s.env.sites with
  | [] => s
  | x :: xs =>
    let owner := UeSite.owner s x
    let s := { s with env := { s.env with sites := xs } }
    let s := if xs.isEmpty then s else s.postOnce .memoryUe
    (s.ueEffect x).event owner { cls := .memoryUe, cause := .memoryUe, src := UeSite.src s x }

/-! ## Module reset (R69) -/

/-- `MODULE_RESET`: every register takes its reset value; memory keeps its bytes, whose keys are gone; a staged image
becomes the running one. The boot ROM verifies the running image, or the module stays in recovery mode. -/
def execModuleReset (s : State) : Host.Outcome State Fault Refusal :=
  .next <|
    let running := match s.mgmt.staged with | some bs => some bs | none => s.mgmt.running
    let r := State.reset
    let r := { r with agenda := s.agenda, out := s.out, ids := s.ids, fresh := s.fresh, env := s.env, hbm := s.hbm,
                      keyTags := s.keyTags, ueHbm := s.ueHbm, peerIn := s.peerIn,
                      mgmt := { r.mgmt with leafIndex := s.mgmt.leafIndex, running := running } }
    if Config.imageVerifies (running.getD Config.factoryImage) then r
    else { r with mgmt := { r.mgmt with recovery := true } }.mgmtEvent 255 { cls := .security, cause := .firmwareRejected }

end Sys2Proof.Machine
end

