-- ==== Sys2Proof/Machine/Dispatch.lean ====
section
/-! DEFINITION. Machine/Dispatch.lean: the meaning of each instruction, one arm per constructor. -/

namespace Sys2Proof.Machine

def exec (i : Instr) (s : State) : Host.Outcome State Fault Refusal :=
  match i with
  | .qcmdCreate m w => Sys2Proof.Machine.execQcmdCreate m w s
  | .qcmdDestroy m w => Sys2Proof.Machine.execQcmdDestroy m w s
  | .qcmdResume m w => Sys2Proof.Machine.execQcmdResume m w s
  | .sigopAdd m ref delta => Sys2Proof.Machine.execSigopAdd m ref delta s
  | .sigopSet m ref x => Sys2Proof.Machine.execSigopSet m ref x s
  | .rmaWrite m key off data => Sys2Proof.Machine.execRmaWrite m key off data s
  | .rmaRead m key off len => Sys2Proof.Machine.execRmaRead m key off len s
  | .unsupportedOperation m => Sys2Proof.Machine.execUnsupportedOperation m s
  | .tailPointerWrite m q t => Sys2Proof.Machine.execTailPointerWrite m q t s
  | .controlPagePartialWrite m off len => Sys2Proof.Machine.execControlPagePartialWrite m off len s
  | .packetRead q => Sys2Proof.Machine.execPacketRead q s
  | .queueFetchFault q => Sys2Proof.Machine.execQueueFetchFault q s
  | .launch q idx => Sys2Proof.Machine.execLaunch q idx s
  | .waitsig q idx => Sys2Proof.Machine.execWaitsig q idx s
  | .copyPacket q idx => Sys2Proof.Machine.execCopyPacket q idx s
  | .bind q idx => Sys2Proof.Machine.execBind q idx s
  | .run q idx => Sys2Proof.Machine.execRun q idx s
  | .patch q idx => Sys2Proof.Machine.execPatch q idx s
  | .unbind q idx => Sys2Proof.Machine.execUnbind q idx s
  | .note q idx => Sys2Proof.Machine.execNote q idx s
  | .packetCompletion q idx err addr => Sys2Proof.Machine.execPacketCompletion q idx err addr s
  | .waitTableReread => Sys2Proof.Machine.execWaitTableReread s
  | .remoteSignalOperation => Sys2Proof.Machine.execRemoteSignalOperation s
  | .signalNotification => Sys2Proof.Machine.execSignalNotification s
  | .migrationRelay => Sys2Proof.Machine.execMigrationRelay s
  | .commandLinkMessage leaf toLeaf => Sys2Proof.Machine.execCommandLinkMessage leaf toLeaf s
  | .scevarRestart => Sys2Proof.Machine.execScevarRestart s
  | .checkpoint => Sys2Proof.Machine.execCheckpoint s
  | .tenantCreate m w => Sys2Proof.Machine.execTenantCreate m w s
  | .tenantDestroy m w => Sys2Proof.Machine.execTenantDestroy m w s
  | .ctxSet m w => Sys2Proof.Machine.execCtxSet m w s
  | .keySet m w => Sys2Proof.Machine.execKeySet m w s
  | .peerSet m w => Sys2Proof.Machine.execPeerSet m w s
  | .qgrant m w => Sys2Proof.Machine.execQgrant m w s
  | .migrateOut m w => Sys2Proof.Machine.execMigrateOut m w s
  | .migrateIn m w => Sys2Proof.Machine.execMigrateIn m w s
  | .attest m w => Sys2Proof.Machine.execAttest m w s
  | .fwStage m w => Sys2Proof.Machine.execFwStage m w s
  | .pwrCtlWrite m v => Sys2Proof.Machine.execPwrCtlWrite m v s
  | .diePark die => Sys2Proof.Machine.execDiePark die s
  | .diePowerDown die => Sys2Proof.Machine.execDiePowerDown die s
  | .dieUnpark die => Sys2Proof.Machine.execDieUnpark die s
  | .unparkComplete die => Sys2Proof.Machine.execUnparkComplete die s
  | .partCfgWrite m v => Sys2Proof.Machine.execPartCfgWrite m v s
  | .rruCfgWrite m v => Sys2Proof.Machine.execRruCfgWrite m v s
  | .portConfigWrite m port split => Sys2Proof.Machine.execPortConfigWrite m port split s
  | .registerWrite m off v => Sys2Proof.Machine.execRegisterWrite m off v s
  | .eclrWrite owner => Sys2Proof.Machine.execEclrWrite owner s
  | .tenantSwitch => Sys2Proof.Machine.execTenantSwitch s
  | .pageRequestAnswer m owner slot => Sys2Proof.Machine.execPageRequestAnswer m owner slot s
  | .rqconsWrite m owner => Sys2Proof.Machine.execRqconsWrite m owner s
  | .givenWrite m owner => Sys2Proof.Machine.execGivenWrite m owner s
  | .dlconsWrite m owner => Sys2Proof.Machine.execDlconsWrite m owner s
  | .dlctlWrite m owner => Sys2Proof.Machine.execDlctlWrite m owner s
  | .tlbgenWrite m owner => Sys2Proof.Machine.execTlbgenWrite m owner s
  | .dirtyLogFull owner => Sys2Proof.Machine.execDirtyLogFull owner s
  | .powerSample => Sys2Proof.Machine.execPowerSample s
  | .pstateTransitionDone die => Sys2Proof.Machine.execPstateTransitionDone die s
  | .thermalLimit => Sys2Proof.Machine.execThermalLimit s
  | .thermalShutdown => Sys2Proof.Machine.execThermalShutdown s
  | .flitCrcFail => Sys2Proof.Machine.execFlitCrcFail s
  | .linkRetrain link => Sys2Proof.Machine.execLinkRetrain link s
  | .linkFatal link => Sys2Proof.Machine.execLinkFatal link s
  | .portLinkUp port => Sys2Proof.Machine.execPortLinkUp port s
  | .patrolScrub => Sys2Proof.Machine.execPatrolScrub s
  | .memoryUe => Sys2Proof.Machine.execMemoryUe s
  | .unitPlacement die => Sys2Proof.Machine.execUnitPlacement die s
  | .gangPlacement die => Sys2Proof.Machine.execGangPlacement die s
  | .continuationRelease lid die bin => Sys2Proof.Machine.execContinuationRelease lid die bin s
  | .bdirArrive rec cid mine => Sys2Proof.Machine.execBdirArrive rec cid mine s
  | .bdirExit rec mine => Sys2Proof.Machine.execBdirExit rec mine s
  | .generationNotice rec gen die => Sys2Proof.Machine.execGenerationNotice rec gen die s
  | .slotNeeded => Sys2Proof.Machine.execSlotNeeded s
  | .saveComplete die => Sys2Proof.Machine.execSaveComplete die s
  | .restoreComplete die => Sys2Proof.Machine.execRestoreComplete die s
  | .preemptionRequest req => Sys2Proof.Machine.execPreemptionRequest req s
  | .drainExpiry id => Sys2Proof.Machine.execDrainExpiry id s
  | .armingEnd cid widx => Sys2Proof.Machine.execArmingEnd cid widx s
  | .armedLineWrite cid widx line => Sys2Proof.Machine.execArmedLineWrite cid widx line s
  | .quantExpiry cid widx stamp => Sys2Proof.Machine.execQuantExpiry cid widx stamp s
  | .watchedTimeout cid widx stamp => Sys2Proof.Machine.execWatchedTimeout cid widx stamp s
  | .waitaTimeout cid widx stamp => Sys2Proof.Machine.execWaitaTimeout cid widx stamp s
  | .loadComplete id => Sys2Proof.Machine.execLoadComplete id s
  | .idivComplete id => Sys2Proof.Machine.execIdivComplete id s
  | .deferredTrap cid widx => Sys2Proof.Machine.execDeferredTrap cid widx s
  | .pageWalkComplete die owner vpn => Sys2Proof.Machine.execPageWalkComplete die owner vpn s
  | .copyComplete id => Sys2Proof.Machine.execCopyComplete id s
  | .copyFail id => Sys2Proof.Machine.execCopyFail id s
  | .publCommit id => Sys2Proof.Machine.execPublCommit id s
  | .unLineExpiry core line => Sys2Proof.Machine.execUnLineExpiry core line s
  | .firingRelease gid inst => Sys2Proof.Machine.execFiringRelease gid inst s
  | .feederMove gid inst ch => Sys2Proof.Machine.execFeederMove gid inst ch s
  | .instanceFail gid inst c => Sys2Proof.Machine.execInstanceFail gid inst c s
  | .lkaRetire core => Sys2Proof.Machine.execLkaRetire core s
  | .tableBuildComplete core => Sys2Proof.Machine.execTableBuildComplete core s
  | .debugResume cid widx => Sys2Proof.Machine.execDebugResume cid widx s
  | .bra f => Sys2Proof.Machine.execBra f s
  | .brx f => Sys2Proof.Machine.execBrx f s
  | .call f => Sys2Proof.Machine.execCall f s
  | .ret f => Sys2Proof.Machine.execRet f s
  | .exit_ f => Sys2Proof.Machine.execExit f s
  | .ifb f => Sys2Proof.Machine.execIfb f s
  | .elsb f => Sys2Proof.Machine.execElsb f s
  | .join f => Sys2Proof.Machine.execJoin f s
  | .loop f => Sys2Proof.Machine.execLoop f s
  | .brkl f => Sys2Proof.Machine.execBrkl f s
  | .contl f => Sys2Proof.Machine.execContl f s
  | .lend f => Sys2Proof.Machine.execLend f s
  | .nop f => Sys2Proof.Machine.execNop f s
  | .yld f => Sys2Proof.Machine.execYld f s
  | .bkpt f => Sys2Proof.Machine.execBkpt f s
  | .trap f => Sys2Proof.Machine.execTrap f s
  | .iadd f => Sys2Proof.Machine.execIadd f s
  | .isub f => Sys2Proof.Machine.execIsub f s
  | .iadc f => Sys2Proof.Machine.execIadc f s
  | .isbb f => Sys2Proof.Machine.execIsbb f s
  | .imul f => Sys2Proof.Machine.execImul f s
  | .imulh f => Sys2Proof.Machine.execImulh f s
  | .imad f => Sys2Proof.Machine.execImad f s
  | .idiv f => Sys2Proof.Machine.execIdiv f s
  | .irem f => Sys2Proof.Machine.execIrem f s
  | .imin f => Sys2Proof.Machine.execImin f s
  | .imax f => Sys2Proof.Machine.execImax f s
  | .iabs f => Sys2Proof.Machine.execIabs f s
  | .ineg f => Sys2Proof.Machine.execIneg f s
  | .and_ f => Sys2Proof.Machine.execAnd f s
  | .or_ f => Sys2Proof.Machine.execOr f s
  | .xor_ f => Sys2Proof.Machine.execXor f s
  | .not_ f => Sys2Proof.Machine.execNot f s
  | .andn f => Sys2Proof.Machine.execAndn f s
  | .shl f => Sys2Proof.Machine.execShl f s
  | .shr f => Sys2Proof.Machine.execShr f s
  | .sar f => Sys2Proof.Machine.execSar f s
  | .rotl f => Sys2Proof.Machine.execRotl f s
  | .bfx f => Sys2Proof.Machine.execBfx f s
  | .bfi f => Sys2Proof.Machine.execBfi f s
  | .popc f => Sys2Proof.Machine.execPopc f s
  | .clz f => Sys2Proof.Machine.execClz f s
  | .ctz f => Sys2Proof.Machine.execCtz f s
  | .brev f => Sys2Proof.Machine.execBrev f s
  | .sel f => Sys2Proof.Machine.execSel f s
  | .mov f => Sys2Proof.Machine.execMov f s
  | .movi f => Sys2Proof.Machine.execMovi f s
  | .movh f => Sys2Proof.Machine.execMovh f s
  | .lea f => Sys2Proof.Machine.execLea f s
  | .shape f => Sys2Proof.Machine.execShape f s
  | .icmp sel f => Sys2Proof.Machine.execIcmp sel f s
  | .pand f => Sys2Proof.Machine.execPand f s
  | .por f => Sys2Proof.Machine.execPor f s
  | .pxor f => Sys2Proof.Machine.execPxor f s
  | .pnot f => Sys2Proof.Machine.execPnot f s
  | .pmov f => Sys2Proof.Machine.execPmov f s
  | .qswz f => Sys2Proof.Machine.execQswz f s
  | .qbc f => Sys2Proof.Machine.execQbc f s
  | .qred sel f => Sys2Proof.Machine.execQred sel f s
  | .shfl sel f => Sys2Proof.Machine.execShfl sel f s
  | .ball f => Sys2Proof.Machine.execBall f s
  | .match_ f => Sys2Proof.Machine.execMatch f s
  | .vote sel f => Sys2Proof.Machine.execVote sel f s
  | .redw sel f => Sys2Proof.Machine.execRedw sel f s
  | .scanw sel f => Sys2Proof.Machine.execScanw sel f s
  | .exmr f => Sys2Proof.Machine.execExmr f s
  | .exmw f => Sys2Proof.Machine.execExmw f s
  | .hlpr f => Sys2Proof.Machine.execHlpr f s
  | .sreg f => Sys2Proof.Machine.execSreg f s
  | .sregw f => Sys2Proof.Machine.execSregw f s
  | .fadd f => Sys2Proof.Machine.execFadd f s
  | .fsub f => Sys2Proof.Machine.execFsub f s
  | .fmul f => Sys2Proof.Machine.execFmul f s
  | .ffma f => Sys2Proof.Machine.execFfma f s
  | .fmin f => Sys2Proof.Machine.execFmin f s
  | .fmax f => Sys2Proof.Machine.execFmax f s
  | .fcls f => Sys2Proof.Machine.execFcls f s
  | .frnd f => Sys2Proof.Machine.execFrnd f s
  | .fscl f => Sys2Proof.Machine.execFscl f s
  | .fcmp sel f => Sys2Proof.Machine.execFcmp sel f s
  | .frcp f => Sys2Proof.Machine.execFrcp f s
  | .frsq f => Sys2Proof.Machine.execFrsq f s
  | .fex2 f => Sys2Proof.Machine.execFex2 f s
  | .flg2 f => Sys2Proof.Machine.execFlg2 f s
  | .fsin f => Sys2Proof.Machine.execFsin f s
  | .fcos f => Sys2Proof.Machine.execFcos f s
  | .fsqrt f => Sys2Proof.Machine.execFsqrt f s
  | .fdiv f => Sys2Proof.Machine.execFdiv f s
  | .badd2 f => Sys2Proof.Machine.execBadd2 f s
  | .bmul2 f => Sys2Proof.Machine.execBmul2 f s
  | .bfma2 f => Sys2Proof.Machine.execBfma2 f s
  | .hadd2 f => Sys2Proof.Machine.execHadd2 f s
  | .hmul2 f => Sys2Proof.Machine.execHmul2 f s
  | .hfma2 f => Sys2Proof.Machine.execHfma2 f s
  | .cvt f => Sys2Proof.Machine.execCvt f s
  | .tenc f => Sys2Proof.Machine.execTenc f s
  | .tdec f => Sys2Proof.Machine.execTdec f s
  | .gpack f => Sys2Proof.Machine.execGpack f s
  | .gunpk f => Sys2Proof.Machine.execGunpk f s
  | .gscl f => Sys2Proof.Machine.execGscl f s
  | .ld f => Sys2Proof.Machine.execLd f s
  | .st f => Sys2Proof.Machine.execSt f s
  | .atom f => Sys2Proof.Machine.execAtom f s
  | .pft f => Sys2Proof.Machine.execPft f s
  | .lds f => Sys2Proof.Machine.execLds f s
  | .sts f => Sys2Proof.Machine.execSts f s
  | .atoms f => Sys2Proof.Machine.execAtoms f s
  | .ldc f => Sys2Proof.Machine.execLdc f s
  | .stc f => Sys2Proof.Machine.execStc f s
  | .atomc f => Sys2Proof.Machine.execAtomc f s
  | .bred f => Sys2Proof.Machine.execBred f s
  | .bupd f => Sys2Proof.Machine.execBupd f s
  | .xlb f => Sys2Proof.Machine.execXlb f s
  | .cctl f => Sys2Proof.Machine.execCctl f s
  | .fence f => Sys2Proof.Machine.execFence f s
  | .ifence f => Sys2Proof.Machine.execIfence f s
  | .iflush f => Sys2Proof.Machine.execIflush f s
  | .watch f => Sys2Proof.Machine.execWatch f s
  | .unwch f => Sys2Proof.Machine.execUnwch f s
  | .waita f => Sys2Proof.Machine.execWaita f s
  | .bara f => Sys2Proof.Machine.execBara f s
  | .barw f => Sys2Proof.Machine.execBarw f s
  | .baraw f => Sys2Proof.Machine.execBaraw f s
  | .barq f => Sys2Proof.Machine.execBarq f s
  | .sigadd f => Sys2Proof.Machine.execSigadd f s
  | .sigwt f => Sys2Proof.Machine.execSigwt f s
  | .tbld f => Sys2Proof.Machine.execTbld f s
  | .tblds f => Sys2Proof.Machine.execTblds f s
  | .tinv f => Sys2Proof.Machine.execTinv f s
  | .tspill f => Sys2Proof.Machine.execTspill f s
  | .tfill f => Sys2Proof.Machine.execTfill f s
  | .tstat f => Sys2Proof.Machine.execTstat f s
  | .plnset f => Sys2Proof.Machine.execPlnset f s
  | .lka f => Sys2Proof.Machine.execLka f s
  | .ard f => Sys2Proof.Machine.execArd f s
  | .awr f => Sys2Proof.Machine.execAwr f s
  | .azro f => Sys2Proof.Machine.execAzro f s
  | .arel f => Sys2Proof.Machine.execArel f s
  | .cpy f => Sys2Proof.Machine.execCpy f s
  | .cpyg f => Sys2Proof.Machine.execCpyg f s
  | .cpys f => Sys2Proof.Machine.execCpys f s
  | .publ f => Sys2Proof.Machine.execPubl f s
  | .cstat f => Sys2Proof.Machine.execCstat f s
  | .coll f => Sys2Proof.Machine.execColl f s
  | .emit f => Sys2Proof.Machine.execEmit f s
  | .enq f => Sys2Proof.Machine.execEnq f s
  | .rtake f => Sys2Proof.Machine.execRtake f s
  | .rsplit f => Sys2Proof.Machine.execRsplit f s
  | .rpop f => Sys2Proof.Machine.execRpop f s
  | .rpush f => Sys2Proof.Machine.execRpush f s
  | .rdone f => Sys2Proof.Machine.execRdone f s
  | .tret f => Sys2Proof.Machine.execTret f s
  | .mapp f => Sys2Proof.Machine.execMapp f s
  | .tlbi f => Sys2Proof.Machine.execTlbi f s
  | .svc f => Sys2Proof.Machine.execSvc f s
  | .csrr f => Sys2Proof.Machine.execCsrr f s
  | .csrw f => Sys2Proof.Machine.execCsrw f s
  | .moduleReset => Sys2Proof.Machine.execModuleReset s
  | .portLinkDown port => Sys2Proof.Machine.execPortLinkDown port s
  | .linkRetrainComplete link => Sys2Proof.Machine.execLinkRetrainComplete link s
  | .remoteWaitRegistration => Sys2Proof.Machine.execRemoteWaitRegistration s
  | .ardComplete id => Sys2Proof.Machine.execArdComplete id s
  | .accordOpRetire core => Sys2Proof.Machine.execAccordOpRetire core s
  | .collectiveComplete id => Sys2Proof.Machine.execCollectiveComplete id s

end Sys2Proof.Machine
end

