-- ==== Sys2Proof/Machine/Stall.lean ====
section
/-! DEFINITION. Machine/Stall.lean: traffic that waits for a Welt link (R12, R14): the turns that a link which is not up holds
back. -/

namespace Sys2Proof.Machine

/-- The die that holds a place. -/
def State.locDie (s : State) : Loc → Nat
  | .hbm pa => paDie pa
  | .commons _ d _ => d
  | .scratch cid _ => match s.crew? cid with
    | some c => c.die
    | none => 0

/-- The dies that the lanes of a memory access reach. -/
def State.accessDies (s : State) (c : Crew) (w : Weave) (core : Nat) (f : MForm) (sp : Space) (a : Access) : List Nat :=
  (accessLanes f.granular (w.actors f.hd)).flatMap fun i => match s.probe c w core sp a (w.laneOffset f i) with
    | .ok ps => ps.map fun p => s.locDie p.loc
    | _ => []

/-- The die of a device access at a VA. -/
def State.vaDies (s : State) (owner va : Nat) (write : Bool) : List Nat :=
  match s.devicePa owner (va % 2 ^ 52) write with
  | .ok pa => [paDie pa]
  | .error _ => []

/-- The dies that a weave's instruction reaches beyond its own core. -/
def State.reaches (s : State) (c : Crew) (w : Weave) (core : Nat) : Instr → List Nat
  | .ld f => s.accessDies c w core f (.global f.xb.val) ⟨widBytes f.widN, true, false, false⟩
  | .st f => s.accessDies c w core f (.global f.xb.val) ⟨widBytes f.widN, false, true, false⟩
  | .atom f => s.accessDies c w core f (.global f.xb.val) ⟨widBytes f.widN, true, true, true⟩
  | .ldc f => s.accessDies c w core f .commons ⟨widBytes f.widN, true, false, false⟩
  | .stc f => s.accessDies c w core f .commons ⟨widBytes f.widN, false, true, false⟩
  | .atomc f | .bred f | .bupd f => s.accessDies c w core f .commons ⟨widBytes f.widN, true, true, true⟩
  | .sigadd f | .sigwt f =>
    let ref := w.wideG 0 false f.hd.a
    if ref.getLsbD 63 then [] else s.vaDies c.owner ref.toNat false
  | .enq f => match s.queue? (w.scalar f f.hd.b).toNat with
    | some q => s.vaDies c.owner (q.slotVa q.res) true
    | none => []
  | .barq f => if f.scp = 1 then [] else match s.bdirNum? c f.scp.toNat f.disp.toNat with
    | some r => [r / 16384]
    | none => []
  | _ => []

/-- The dies of a copy's addresses. -/
def State.copyDies (s : State) (owner : Nat) (write : Bool) (n : Nat) : CAddr → List Nat
  | .glb va => ((deviceChunks va n).flatMap fun x => s.vaDies owner (va + x.1) write).eraseDups
  | .scr cid _ => match s.crew? cid with | some c => [c.die] | none => []
  | .cmn a => [a / 2 ^ 26 % 4]
  | .kept _ => []

/-- The dies of a device's range of n bytes at a VA. -/
def State.rangeDies (s : State) (owner va n : Nat) (write : Bool) : List Nat := s.copyDies owner write n (.glb va)

/-- The dies that a feeder's next record goes between, besides its own: the channel's buffer or array, and the crews of its two
ends (R85, R86). -/
def State.feederDies (s : State) (g : Graph) (i : Inst) (c : Nat) (x : Chan) : List Nat :=
  let array (n : Nat) : Nat := (nthD i.arrays c (0, 0)).1 + n * x.bytes
  let nIn := (i.prog c).movIn
  let nOut := (i.prog c).movOut
  let crew (stg f : Nat) (away : Bool) : List Nat := match s.stageCrew g i stg f away with
    | some (k, _) => [k.die]
    | none => []
  (if x.sink then [] else s.vaDies g.owner (if x.source then array nOut else g.outVa c x) false ++ crew x.cstg (nOut / max 1 x.crate) false)
    ++ (if x.source then [] else s.vaDies g.owner (if x.sink then array nIn else g.inVa c x) true ++ crew x.pstg (nIn / max 1 x.prate) false)

/-- The dies of the memory that a host's RMA reaches through a key (R10, R31). -/
def State.hostDies (s : State) (m : Msg) (key off n : Nat) (write : Bool) : List Nat :=
  match s.ctx? m.ctx with
  | some c => match c.keyOf key with
    | some k => if key = 0 || (c.id = 0 && key = 1) then [] else s.rangeDies c.owner (k.va + off) n write
    | none => []
  | none => []

/-- The dies of some references and records of a packet, from its owner's die (R41). -/
def State.packetDies (s : State) (qn idx : Nat) (vas : Packet → List Nat) : List (Nat × Nat) :=
  match s.queue? qn with
  | some q => match q.started.find? fun p => p.pkt.idx == idx with
    | some p => ((vas p.pkt).flatMap fun va => s.vaDies q.owner va false).map fun d => (s.ownerDie q.owner, d)
    | none => []
  | none => []

/-- Pairs of dies that an event's traffic joins. -/
def State.joins (s : State) : Instr → List (Nat × Nat)
  | .pageWalkComplete d owner vpn => match s.tenant? owner with
    | some t => (walkReads s owner t.part (vpn * 2 ^ 16) 4 0 t.root).map fun a => (d, paDie a)
    | none => []
  | .copyComplete id => match s.copies.find? fun c => c.id == id with
    | some c => c.segs.flatMap fun g =>
      ((s.copyDies c.owner false g.len g.src) ++ (s.copyDies c.owner true g.len g.dst)).map fun d => (c.die, d)
    | none => []
  | .bdirArrive num cid _ => match s.crew? cid with
    | some c => [(c.die, num / 16384)]
    | none => []
  | .bdirExit num x => [(x.die, num / 16384)]
  | .generationNotice num _ d => [(num / 16384, d)]
  | .feederMove gid id ch => match s.graph? gid with
    | some g => match g.insts.find? fun i => i.id == id, g.chans[ch]? with
      | some i, some x => (s.feederDies g i ch x).map fun d => (i.feedDie ch, d)
      | _, _ => []
    | none => []
  | .collectiveComplete id => match s.colls.find? fun c => c.id == id with
    | some c => match s.launch? c.lid with
      | some l => c.parts.flatMap fun p => ((c.parts.map Part.die) ++ s.rangeDies l.owner p.src (p.reads * p.block) false
          ++ s.rangeDies l.owner p.dst (p.writes * p.block) true).map fun d => (p.die, d)
      | none => []
    | none => []
  | .rmaRead m key off n => (s.hostDies m key off n false).map fun d => (m.port / 2, d)
  | .rmaWrite m key off bs => (s.hostDies m key off bs.length true).map fun d => (m.port / 2, d)
  | .launch q i => s.packetDies q i fun p => [p.word 2]
  | .bind q i | .patch q i => s.packetDies q i fun p => [p.word 3, p.word 4]
  | .unbind q i | .run q i => s.packetDies q i fun p => [p.word 3]
  | .packetCompletion q i _ _ => s.packetDies q i fun p => if p.csig = 0 then [] else [p.csig.toNat]
  | .sigopAdd m ref _ | .sigopSet m ref _ => match s.ctx? m.ctx with
    | some c => (s.vaDies c.owner ref.toNat false).map fun d => (m.port / 2, d)
    | none => []
  | .packetRead qn => match s.queue? qn with
    | some q => (s.vaDies q.owner (q.slotVa q.head) false).map fun d => (s.ownerDie q.owner, d)
    | none => []
  | .armedLineWrite cid _ line => match line, s.crew? cid with
    | .hbm n, some c => [(paDie (n * 64), c.die)]
    | .commons _ d _, some c => [(d, c.die)]
    | _, _ => []
  | .publCommit id => match s.publs.find? fun p => p.id == id with
    | some p => match s.crew? p.cid with
      | some c =>
        let part := s.partOfOwner c.owner
        (c.die, s.firstDie part) :: (s.partDies part).map fun d => (s.firstDie part, d)
      | none => []
    | none => []
  | .commandLinkMessage leaf _ => [(0, leaf / 8)]
  | _ => []

/-- The traffic of the turn's instruction stalls on a link (R14). -/
def State.stalls (s : State) (i : Instr) : Bool :=
  !(s.welt.all fun l => l.state == .up) && (match s.cur with
    | none => (s.joins i).any fun x => s.stalled x.1 x.2
    | some (cid, wx) => match s.crew? cid, s.weave? cid wx with
      | some c, some w => match c.core? with
        | some k => (s.reaches c w k i).any fun d => s.stalled (dieOfCore k) d
        | none => false
      | _, _ => false)

/-- An event that stalls stays pending, for 1 ns at least; a weave stays at its instruction. -/
def State.putBack (s : State) (i : Instr) : State := if s.cur.isNone then (s.post i).elapse 1 else s

end Sys2Proof.Machine
end

