-- ==== Sys2Proof/Machine/Step.lean ====
section
/-! DEFINITION. Machine/Step.lean: one step, and a machine set up to fetch a given instruction next. -/

namespace Sys2Proof.Machine

/-- One turn of one agent, unless its traffic stalls on a link (R14). A weave's instruction is then noted in the order of issue (R123). -/
def step (s : State) : Host.Outcome State Fault Refusal :=
  match s.turn State.handlerStep with
  | .idle s => .next s
  | .run i s =>
    if s.stalls i then .next (s.putBack i)
    else match exec i s with
      | .next t => .next (s.afterIssue (s.logStep i t))
      | .fault f => .fault f
      | .refused r => .refused r

/-- The instruction whose bits are `w`, as the table numbers them, where the next step fetches. -/
def State.withFetchWord (s : State) (_nbits w : Nat) : State := s.harness (bytesLE 16 w)

end Sys2Proof.Machine
end

