-- ==== Sys2Proof/Safety.lean ====
section
/-! DEFINITION. Safety.lean: the vocabulary in which claims about the machine are stated: when a weave issues an
instruction, what an instruction leaves alone, how a register receives its lanes, and the invariant of every step. -/

namespace Sys2Proof.Machine

/-! ## The invariant of every step -/

/-- A weave has the registers that every weave has (R124): p0 to p15 with p0 all ones, q0 set, b0 to b7, h0 to h15, hg0 to
hg15. -/
structure WeaveFormed (w : Weave) : Prop where
  p : w.p.length = 16
  p0 : nthD w.p 0 0 = BitVec.allOnes 32
  q0 : w.q.getLsbD 0 = true
  b : w.b.length = 8
  h : w.h.length = 16
  hg : w.hg.length = 16

/-- What every step keeps: every memory is in its canonical form, the module has the dies, cores, links and ports it is
built with (R10, R12, R19, R53), every weave has its registers with p0 and q0 as they are wired (R124), and an identifier
in flight has been given out. -/
structure Inv (s : State) : Prop where
  hbm : Memory.wf s.hbm
  mailbox : Memory.wf s.mgmt.mailbox
  scratch : ∀ c ∈ s.crews, Memory.wf c.scratch
  commons : ∀ t ∈ s.tenants, t.commons.length = 4 ∧ ∀ m ∈ t.commons, Memory.wf m
  dies : s.dies.length = 4
  cores : s.cores.length = 256
  welt : s.welt.length = 4
  ports : s.ports.length = 8
  links : s.links.length = 32
  weaves : ∀ c ∈ s.crews, ∀ w ∈ c.weaves, WeaveFormed w
  flights : ∀ f ∈ s.flights, f.id ≤ s.ids

/-! ## Issue (R226, R139) -/

/-- Weave `wx` of crew `cid`, which is `w`, issues `i`: it is the issuing weave, its mode may name the fields and use the
mnemonic, no run of h registers passes h15 (R310), it has no more registers than R124 allows, every register is within the allotment, the table handle within TBLQ, and no register is empty. -/
structure Issues (s : State) (i : Instr) (cid wx : Nat) (w : Weave) : Prop where
  issuing : s.cur = some (cid, wx)
  weave : s.weave? cid wx = some w
  formed : WeaveFormed w
  size : w.v.length ≤ 640 ∧ w.g.length ≤ 128
  operand : w.mode = .user → ∀ x ∈ fieldRuns i, kindOf x.1 ≠ .h ∧ kindOf x.1 ≠ .hg
  run : ∀ x ∈ fieldRuns i, kindOf x.1 = .h → regNo x.1 + x.2 ≤ 16
  opcode : w.mode = .user → supervisorOnly i = false
  allotted : ∀ x ∈ fieldRuns i, w.outOfRange x.1 x.2 = false
  handle : handleBeyond (s.tblqOf cid) i = false
  full : ∀ x ∈ fieldRuns i, w.anyEmpty x.1 x.2 = false

/-- `exec` answers a next state in which the weave has become one that `P` describes. -/
def Completes (s : State) (i : Instr) (cid wx : Nat) (P : Weave → Prop) : Prop :=
  ∃ t w', exec i s = .next t ∧ t.weave? cid wx = some w' ∧ P w'

/-! ## Registers -/

/-- A vector register, with full/empty bit (v) or without (h). -/
def isVector (o : Operand) : Bool :=
  match o with
  | .v _ | .h _ => true
  | _ => false

/-- A group register. -/
def isGroup (o : Operand) : Bool :=
  match o with
  | .g _ | .hg _ => true
  | _ => false

/-- A lane of an operand's register, and its VALUE. -/
def Weave.laneOf (w : Weave) (o : Operand) (l : Nat) : Lane := (w.read 0 o).lane l
def Weave.valueOf (w : Weave) (imm : Word) (o : Operand) (l : Nat) : Word := ((w.read imm o).lane l).val

/-- Register `o` receives `f` under the masks of `w`: in a lane form each writing lane takes its value and every other
present lane keeps what it holds (R126, R137); in a group form the register takes `f 0` when q passes, and else keeps what
it holds (R286). -/
structure Receives (w w' : Weave) (h : Head) (o : Operand) (f : Nat → Lane) : Prop where
  writes : h.grp = false → isVector o = true → ∀ l < 32, (w.writers h).getLsbD l = true → w'.laneOf o l = f l
  keeps : h.grp = false → isVector o = true → ∀ l < 32, (w.writers h).getLsbD l = false → w.absent.getLsbD l = false →
    w'.laneOf o l = w.laneOf o l
  group : h.grp = true → isGroup o = true → w'.readG 0 o = if w.qPass h then (f 0).val else w.readG 0 o

/-- D receives words, side bits 0. -/
def ReceivesWords (w w' : Weave) (h : Head) (o : Operand) (f : Nat → Word) : Prop :=
  Receives w w' h o fun l => Lane.ofWord (f l)

/-- Predicate `o` receives bits: in a lane form a p register in the writing lanes, the others kept; in a group form a q
register when q[GRD] passes. p0 and q0 keep their constants (R124, R286). -/
structure ReceivesBits (w w' : Weave) (h : Head) (o : Operand) (f : Nat → Bool) : Prop where
  lane : h.grp = false → ∀ n, o = .p n → n.val ≠ 0 → ∀ l < 32,
    (nthD w'.p n.val 0).getLsbD l = if (w.writers h).getLsbD l then f l else (nthD w.p n.val 0).getLsbD l
  group : h.grp = true → ∀ n, o = .q n → n.val ≠ 0 →
    w'.q.getLsbD n.val = if w.qPass h then f 0 else w.q.getLsbD n.val

/-! ## What an instruction leaves alone -/

/-- An instruction whose whole effect is on registers of its own weave: a V-format one, but for division, whose result
comes later, and `EXMW`. -/
def isAlu (i : Instr) : Bool :=
  match formOf i with
  | .v _ => match i with
    | .idiv _ | .irem _ | .exmw _ => false
    | _ => true
  | _ => false

/-- The registers that an instruction may write: D's run, and the carry of `IADC` and `ISBB`. -/
def destinations (i : Instr) : List Operand := destRun i ++ carryOut i

/-- The state differs at most in one weave, and in table sets of its crew that were built from registers of the weave,
which may become STALE (R213). -/
structure OnlyWeave (s t : State) (cid wx : Nat) : Prop where
  rest : t = { s with crews := t.crews }
  others : ∀ x, x ≠ cid → t.crew? x = s.crew? x
  mine : ∀ c, s.crew? cid = some c → ∃ c', t.crew? cid = some c' ∧
    c' = { c with weaves := c'.weaves, tables := c'.tables } ∧ (∀ j, j ≠ wx → c'.weaves[j]? = c.weaves[j]?)
  tables : ∀ (c c' : Crew), s.crew? cid = some c → t.crew? cid = some c' → ∀ (k : Nat) (x : Tbl), c.tables[k]? = some x →
    ∃ x', c'.tables[k]? = some x' ∧ x' = { x with state := x'.state } ∧
      (x'.state = x.state ∨ (x'.state = .stale ∧ ∃ base, x.src = .regs wx base))

/-- Every byte of scratch, of commons and of HBM reads as before, for every owner. -/
def SameMemory (s t : State) : Prop := ∀ owner l, t.locRead owner l = s.locRead owner l

/-- The weave differs only in the registers of `os`, in PC, and in the records of its waits and of its spin iteration. -/
structure OnlyRegs (os : List Operand) (w w' : Weave) : Prop where
  rest : w' = { w with pc := w'.pc, v := w'.v, g := w'.g, h := w'.h, hg := w'.hg, p := w'.p, q := w'.q, spin := w'.spin,
                       wait := w'.wait, walked := w'.walked, wakeRes := w'.wakeRes, asks := w'.asks }
  v : ∀ k, (∀ n, Operand.v n ∈ os → n.val ≠ k) → w'.v[k]? = w.v[k]?
  g : ∀ k, (∀ n, Operand.g n ∈ os → n.val ≠ k) → w'.g[k]? = w.g[k]?
  h : ∀ k, (∀ n, Operand.h n ∈ os → n.val ≠ k) → w'.h[k]? = w.h[k]?
  hg : ∀ k, (∀ n, Operand.hg n ∈ os → n.val ≠ k) → w'.hg[k]? = w.hg[k]?
  p : ∀ k, (∀ n, Operand.p n ∈ os → n.val ≠ k) → w'.p[k]? = w.p[k]?
  q : ∀ k, (∀ n, Operand.q n ∈ os → n.val ≠ k) → w'.q.getLsbD k = w.q.getLsbD k
  lengths : w'.v.length = w.v.length ∧ w'.g.length = w.g.length

/-- The state and the weave after an instruction whose whole effect is on registers of its own weave. -/
structure OwnEffect (s t : State) (i : Instr) (cid wx : Nat) (w w' : Weave) : Prop where
  weave : t.weave? cid wx = some w'
  only : OnlyWeave s t cid wx
  memory : SameMemory s t
  regs : OnlyRegs (destinations i) w w'
  pc : w'.pc = w.pc + 16
  nospin : (∀ f, i ≠ .sregw f) → w'.spin.nospin = w.spin.nospin

/-- The state differs in one weave, which has become `w'`. -/
structure Replaces (s t : State) (cid wx : Nat) (w' : Weave) : Prop where
  rest : t = { s with crews := t.crews }
  others : ∀ x, x ≠ cid → t.crew? x = s.crew? x
  mine : ∀ c, s.crew? cid = some c → t.crew? cid = some { c with weaves := modNth c.weaves wx fun _ => w' }

/-! ## Traps (R227) -/

/-- The registers, predicates, translation registers and tokens of a weave that a trap leaves unchanged, and the fact
that it is still where it is in its crew. -/
structure SameContext (w w' : Weave) : Prop where
  toks : w'.toks = w.toks
  v : w'.v = w.v
  g : w'.g = w.g
  p : w'.p = w.p
  q : w'.q = w.q
  b : w'.b = w.b
  empty : w'.empty = w.empty
  absent : w'.absent = w.absent
  exited : w'.exited = w.exited

/-- Trap entry from user mode, as R227 has it, with the cause, the PC saved, the lanes that raised the cause and each
lane's faulting VA. -/
structure TrapEntered (w w' : Weave) (c : Cause) (defer : Bool) (pc : Pc) (lanes : Mask) (va : Nat → DWord) : Prop where
  hcause : w'.hcause = BitVec.ofNat 32 (c.code + if defer then 128 else 0)
  hpc : w'.hpc = pc.setWidth 64
  hxm : w'.hxm = w.exec
  hhm : w'.hhm = w.helper
  hfm : w'.hfm = lanes
  h0 : ∀ l < 32, w'.laneOf (.h 0) l = Lane.ofWord ((va l).setWidth 32)
  h1 : ∀ l < 32, w'.laneOf (.h 1) l = Lane.ofWord ((va l >>> 32).setWidth 32)
  exec : w'.exec = ~~~ w.absent
  helper : w'.helper = 0
  mode : w'.mode = .super
  pcEntry : w'.pc = Config.handlerEntry c.code
  same : SameContext w w'

/-- `exec` takes a precise trap on a weave in user mode: nothing but the weave changes (R225, R227). -/
def Traps (s : State) (i : Instr) (cid wx : Nat) (w : Weave) (c : Cause) (pc : Pc) (lanes : Mask) (va : Nat → DWord) : Prop :=
  ∃ t w', exec i s = .next t ∧ Replaces s t cid wx w' ∧ TrapEntered w w' c false pc lanes va

/-- No faulting VA. -/
def noVa (_ : Nat) : DWord := 0

/-- The address that every exec lane of a group instruction has. -/
def everyLane (w : Weave) (x : Nat) (l : Nat) : DWord := if w.exec.getLsbD l then BitVec.ofNat 64 x else 0

/-- A group instruction traps on one address, in every exec lane. -/
def GroupTraps (s : State) (i : Instr) (cid wx : Nat) (w : Weave) (c : Cause) (x : Nat) : Prop :=
  Traps s i cid wx w c w.pc w.exec (everyLane w x)

/-- A trap of a weave in supervisor mode: nothing changes but `hcause`, whose CAUSE is `DOUBLE_TRAP` with SUP set, and what the
weave waited for (R234). -/
def DoubleTraps (s : State) (i : Instr) (cid wx : Nat) (w : Weave) : Prop :=
  ∃ t w', exec i s = .next t ∧ Replaces s t cid wx w' ∧ w'.hcause = 0x163 ∧
    w' = { w with hcause := w'.hcause, handler := some .entered, wait := .none, walked := [], wakeRes := none, pend := none,
                  spin := w'.spin }

/-- The instruction has no effect but that PC advances. -/
def Passes (s : State) (i : Instr) (cid wx : Nat) (w : Weave) : Prop :=
  ∃ t w', exec i s = .next t ∧ Replaces s t cid wx w' ∧ OnlyRegs [] w w' ∧ w'.pc = w.pc + 16

/-- The instruction stands and its weave waits: its registers and every byte of memory are as they were. -/
def StandsAndWaits (s : State) (i : Instr) (cid wx : Nat) (w : Weave) (k : Wait → Prop) : Prop :=
  ∃ t w', exec i s = .next t ∧ t.weave? cid wx = some w' ∧ k w'.wait ∧ w'.pc = w.pc ∧
    OnlyRegs [] { w with stamp := w'.stamp, parked := w'.parked } w' ∧ SameMemory s t

/-- The instruction completes, leaves every register but those of `os` as it was, and moves on; `P` says what else holds
of the state and the weave after it. -/
def Effects (s : State) (i : Instr) (cid wx : Nat) (w : Weave) (os : List Operand) (P : State → Weave → Prop) : Prop :=
  ∃ t w', exec i s = .next t ∧ t.weave? cid wx = some w' ∧ w'.pc = w.pc + 16 ∧ w'.v.length = w.v.length ∧
    w'.g.length = w.g.length ∧ (∀ k, (∀ n, Operand.v n ∈ os → n.val ≠ k) → w'.v[k]? = w.v[k]?) ∧
    (∀ k, (∀ n, Operand.g n ∈ os → n.val ≠ k) → w'.g[k]? = w.g[k]?) ∧
    (∀ k, (∀ n, Operand.p n ∈ os → n.val ≠ k) → w'.p[k]? = w.p[k]?) ∧ w'.q = w.q ∧ w'.exec = w.exec ∧ w'.toks = w.toks ∧
    w'.helper = w.helper ∧ w'.exited = w.exited ∧ w'.mode = w.mode ∧ P t w'

/-! ## Results of register instructions -/

/-- Every `mk f` with `ok f` completes, and D receives `op` of the 32-bit values of A, B and C. -/
def Computes32 (mk : VForm → Instr) (ok : VForm → Prop) (op : VForm → Word → Word → Word → Word) : Prop :=
  ∀ s cid wx w f, ok f → Issues s (mk f) cid wx w → Completes s (mk f) cid wx fun w' =>
    ReceivesWords w w' f.hd f.hd.d fun l =>
      op f (w.valueOf f.imm f.hd.a l) (w.valueOf f.imm f.hd.b l) (w.valueOf f.imm f.hd.c l)

/-- Registers D and D + 1 receive the low and the high half of 64-bit values (R132). -/
def ReceivesPair (w w' : Weave) (h : Head) (x : Nat → DWord) : Prop :=
  (ReceivesWords w w' h h.d fun l => (x l).setWidth 32) ∧ ReceivesWords w w' h (h.d.plus 1) fun l => (x l >>> 32).setWidth 32

/-- Every `mk f` with `ok f` completes, and the pair at D receives `op` of the 64-bit values of A, B and C. -/
def Computes64 (mk : VForm → Instr) (ok : VForm → Prop) (op : VForm → DWord → DWord → DWord → DWord) : Prop :=
  ∀ s cid wx w f, ok f → Issues s (mk f) cid wx w → Completes s (mk f) cid wx fun w' =>
    ReceivesPair w w' f.hd fun l => op f (w.wideLane f.imm (f.ty1 == .i64) f.hd.a l) (w.wideLane f.imm (f.ty1 == .i64) f.hd.b l)
      (w.wideLane f.imm (f.ty1 == .i64) f.hd.c l)

/-- Every `mk f` with `ok f` completes, and the predicate D receives a bit of each lane. -/
def ComputesBits (mk : VForm → Instr) (ok : VForm → Prop) (bit : Weave → VForm → Nat → Bool) : Prop :=
  ∀ s cid wx w f, ok f → Issues s (mk f) cid wx w → Completes s (mk f) cid wx fun w' =>
    ReceivesBits w w' f.hd f.hd.d (bit w f)

/-- Every `mk f` completes, and D receives a lane, value and side bit, that depends on the weave. -/
def ComputesLanes (mk : VForm → Instr) (ok : VForm → Prop) (lane : Weave → VForm → Nat → Lane) : Prop :=
  ∀ s cid wx w f, ok f → Issues s (mk f) cid wx w → Completes s (mk f) cid wx fun w' =>
    Receives w w' f.hd f.hd.d (lane w f)

end Sys2Proof.Machine
end

