-- ==== Sys2Proof/Certificates/Slice0/Obligations.lean ====
section
/-! DEFINITION. Certificates/Slice0/Obligations.lean: the statements for the provers. -/

open Sys2Proof Sys2Proof.Machine

/-! ## Encoding -/

/-- Decoding what the encoder writes gives the instruction back, for every well-formed weave instruction and every value
of its fields (R259 to R270, R278, R279). -/
def Obligations.DecodeEncode : Prop := ∀ i, WeaveForm i → decode (encode i) = .ok i

/-- Every word that decodes is the encoding of the well-formed instruction it decodes to, so no two words share a
meaning and no bit is without one (R263, R280). -/
def Obligations.EncodeDecode : Prop := ∀ w i, decode w = .ok i → WeaveForm i ∧ encode i = w

/-- The 46 assigned majors of R278. -/
def assignedMajors : List Nat :=
  [0x00, 0x01, 0x02, 0x04, 0x05, 0x20, 0x21, 0x22, 0x23, 0x24, 0x25, 0x26, 0x27, 0x40, 0x42, 0x44, 0x46, 0x48, 0x60, 0x62,
   0x65, 0x66, 0x67, 0x80, 0x82, 0x84, 0x87, 0xA0, 0xA1, 0xA2, 0xA3, 0xA4, 0xA5, 0xA7, 0xC0, 0xC1, 0xC2, 0xC3, 0xC4, 0xC5,
   0xC6, 0xC7, 0xC8, 0xC9, 0xE0, 0xE1]

/-- A word whose MAJ is not one of the 46 assigned majors is an illegal opcode, whatever its other bits; under every
assigned major some word decodes; an even major holds lane forms and an odd one group forms (R278). -/
def Obligations.UnassignedMajor : Prop :=
  (∀ w, (fld w 120 8).toNat ∉ assignedMajors → decode w = .error .illegalOpcode) ∧
  (∀ m ∈ assignedMajors, ∃ w i, (fld w 120 8).toNat = m ∧ decode w = .ok i) ∧
  (∀ w i h, decode w = .ok i → (formOf i).head? = some h → h.grp = decide ((fld w 120 8).toNat % 2 = 1))

/-- A common upper half (R260). -/
def headOf (grp : Bool) (grd : Fin 16) (neg : Bool) (d a b c : Operand) (em : BitVec 3) : Head := ⟨grp, grd, neg, d, a, b, c, em⟩

/-- Words of the worked encodings of the spec, one or more of each format, decode to the instructions they stand for. -/
def Obligations.DecodeWords : Prop :=
  decode 0x0400_07FF_FFFF_FFF8_0000_0000_0000_0000 = .ok (.nop ⟨headOf false 0 false .none .none .none .none 0, 0, 0⟩) ∧
  decode 0x2000_3806_00FF_9FF8_0000_0000_0000_0040 =
    .ok (.iadd ⟨headOf false 3 true (.v 3) (.v 1) .imm .none 0, 0, .named, .named, 0x40⟩) ∧
  decode 0x4003_000E_0200_C019_1000_0000_0000_0000 =
    .ok (.ffma ⟨headOf false 0 false (.v 7) (.v 4) (.v 6) (.v 3) 1, 1, .named, .named, 0⟩) ∧
  decode 0x8002_0008_0080_5FF8_09C0_2000_0000_0000 =
    .ok (.atom ⟨headOf false 0 false (.v 4) (.v 1) (.v 2) .none 0, 0, 2, 3, 4, 0, 1, 0⟩) ∧
  decode 0xC200_07FF_4405_1FF8_0620_0002_0000_0000 =
    .ok (.lka ⟨headOf false 0 false .none (.g 8) (.v 40) .none 0, 3, 1, 2, 0⟩) ∧
  decode 0xE104_0505_FFFF_FFF8_0800_0000_0000_0000 =
    .ok (.csrr ⟨headOf true 0 false (.g 2) .none .none .none 0, 0x0800, 0⟩)

/-! ## Steps -/

/-- The state in which the turn of a weave of a crew begins: the turn is taken off the agenda and the weave is marked as
the last to have had one. -/
def turnBegins (s : State) (ts : List Turn) (cid wx : Nat) : State :=
  let s : State := { s with agenda := ts, cur := none }
  s.newId.modWeave cid wx fun w => { w with tried := s.ids + 1 }

/-- `exec`, and what a step adds to a next state: Scevar's log of what changed (R56, R57), and the issuing weave's place in
the order of issue (R123). -/
def ranIn (s : State) (i : Instr) : Host.Outcome State Fault Refusal :=
  match exec i s with
  | .next t => .next (s.afterIssue (s.logStep i t))
  | .fault f => .fault f
  | .refused r => .refused r

/-- At the turn of a ready weave in user mode that has no trap pending and that its slot comes to (R123), the step is `exec` of the instruction that the
fetched word decodes to, with the weave issuing; at the turn of an event whose agent works, it is `exec` of the event. A step
adds the log and the order of issue, and leaves the instruction where it is when a Welt link that is not up holds its traffic
(R14). -/
def stepRunsDecodedRules : Prop :=
  (∀ (s : State) ts cid wx (c : Crew) (w : Weave) k (s' : State) x i, s.agenda = .weave cid wx :: ts → s.mgmt.shutdown = false →
    s.crew? cid = some c → s.weave? cid wx = some w → c.core? = some k →
    ({ s with agenda := ts, cur := none } : State).ready k cid wx w = true → w.pendReady = false → w.handler = none →
    ({ s with agenda := ts, cur := none } : State).slotTurn k cid wx w = true →
    (turnBegins s ts cid wx).fetch cid wx k c.owner { w with tried := s.ids + 1 } = (s', .word x) → decode x = .ok i →
    ((∀ l ∈ s'.welt, l.state = .up) → step s = ranIn { s' with cur := some (cid, wx) } i) ∧
    (({ s' with cur := some (cid, wx) } : State).stalls i = true → step s = .next { s' with cur := some (cid, wx) })) ∧
  (∀ (s : State) ts k i, s.agenda = .event k :: ts → s.pending[k]? = some i → isEvent i = true →
    ({ s with agenda := ts } : State).works i = true → (s.scv.hung = false ∨ scevarEvent i = false ∨ i = .scevarRestart) →
    (let s0 : State := { s with agenda := ts, pending := s.pending.eraseIdx k, cur := none }
     (s0.stalls i = false → step s = ranIn s0 i) ∧
     (s0.stalls i = true → step s = .next ((s0.post i).elapse 1))))

/-- The word fetched at a PC whose line is neither in the fetch buffer nor in the instruction cache, while every Welt link is up, is
the 16 bytes at the frame of its page, lowest first (R156, R169, R259). -/
def fetchReadsMemoryRules : Prop :=
  ∀ (s : State) cid wx k owner (w : Weave) (l : Leaf) (t : Tenant), w.fline ≠ some (w.pc.toNat / 64) → w.pc.toNat % 16 = 0 →
    (s.core k).icache.find? (fun y => y.owner == owner && y.line == w.pc.toNat / 64) = none →
    s.tenant? owner = some t → s.xlate w k owner (w.pc.toNat / 64 * 64) = .hit l → l.x = true → (∀ x ∈ s.welt, x.state = .up) →
    paBacked (leafPa l t.shadow (w.pc.toNat / 64 * 64) false) = true →
    ∃ s', s.fetch cid wx k owner w = (s', .word (BitVec.ofNat 128 (natLE
      (s.hbmBytes owner (leafPa l t.shadow (w.pc.toNat / 64 * 64) false + w.pc.toNat % 64) 16)))) ∧
      s'.hbm = s.hbm ∧ s'.tenants = s.tenants

/-- A step runs what its word decodes to, and the word is what memory holds (R9, R156, R169, R259). -/
def Obligations.StepRunsDecoded : Prop := stepRunsDecodedRules ∧ fetchReadsMemoryRules


/-- The reset values that the spec gives: performance state P0 of four dies (R25), an average power, a PMAX and power
requests of 0 and a ceiling of 250 (R25), partition numbers 0 (R61), a drain window of 20 µs, a spin policy that is on and
a quantum of 100 µs (R120), no restarts (R58), 256 cores, 8 ports and 4 Welt links that are up (R10, R12, R19), full
permits on 32 command links (R54), and no tenant, queue, launch or crew. -/
def Obligations.ResetValues : Prop :=
  State.reset.dies.length = 4 ∧ (∀ d ∈ State.reset.dies, d.power = .on 0 ∧ d.gate = 0) ∧
  State.reset.mgmt.ceil = 250 ∧ State.reset.mgmt.avg = 0 ∧ State.reset.mgmt.pmax = 0 ∧ State.reset.mgmt.preq = 0 ∧
  State.reset.mgmt.pids = [0, 0, 0, 0] ∧ State.reset.firewall = 0 ∧
  State.reset.mgmt.drain = 20 ∧ State.reset.mgmt.spen = true ∧ State.reset.mgmt.quant = 100 ∧
  State.reset.mgmt.restarts = 0 ∧ State.reset.mgmt.ftl = false ∧ State.reset.mgmt.ecb = Ecb.zero ∧
  State.reset.cores.length = 256 ∧ State.reset.ports.length = 8 ∧ State.reset.welt.length = 4 ∧
  (∀ x ∈ State.reset.welt, x.state = .up) ∧ State.reset.links.length = 32 ∧
  (∀ x ∈ State.reset.links, x.down.permits = 8 ∧ x.up.permits = 16) ∧ State.reset.tenants = [] ∧
  State.reset.queues = [] ∧ State.reset.launches = [] ∧ State.reset.crews = []

/-! ## Register instructions: frame -/

/-- The element number of a `TDEC`, where its B is an immediate, is at most 3 (R310). -/
def elementInRange (f : VForm) : Prop := f.hd.b = .imm → f.imm.toNat ≤ 3

/-- Every V-format instruction other than `IDIV`, `IREM` and `EXMW` completes when it issues. It changes registers of its
own weave only, and of these only its destinations: no byte of scratch, of commons or of HBM, no other weave, no mask,
token, mode, handler register or translation register, and no predicate but D (and C of `IADC` and `ISBB`). PC advances by
16. Table sets built from registers of the weave may become STALE (R126, R213, R286). A `TDEC` whose element number is above 3
traps (R310, R323). -/
def Obligations.RegisterFrame : Prop :=
  (∀ s i cid wx w, isAlu i = true → (∀ f, i = .tdec f → elementInRange f) → Issues s i cid wx w →
    ∃ t w', exec i s = .next t ∧ OwnEffect s t i cid wx w w') ∧
  (∀ s cid wx w f, ¬ elementInRange f → Issues s (.tdec f) cid wx w → w.mode = .user →
    Traps s (.tdec f) cid wx w .reservedField w.pc w.exec noVa)

/-! ## Integer results -/

/-- A type of 32 bits, no saturation. -/
def wraps32 (f : VForm) : Prop := (f.ty1 = .named ∨ f.ty1 = .ui32) ∧ f.mod.getLsbD 3 = false

/-- A type of 64 bits, no saturation. -/
def wraps64 (f : VForm) : Prop := (f.ty1 = .i64 ∨ f.ty1 = .ui64) ∧ f.mod.getLsbD 3 = false

def signed32 (f : VForm) : Prop := f.ty1 = .named ∧ f.mod.getLsbD 3 = false
def unsigned32 (f : VForm) : Prop := f.ty1 = .ui32 ∧ f.mod.getLsbD 3 = false
def signed64 (f : VForm) : Prop := f.ty1 = .i64 ∧ f.mod.getLsbD 3 = false
def unsigned64 (f : VForm) : Prop := f.ty1 = .ui64 ∧ f.mod.getLsbD 3 = false

/-- Under a 32-bit type, sums, differences and products wrap to 32 bits; absolute value and negation of the least number
give it back; minimum and maximum are by the type's order; `IMULH` gives the upper half of the 64-bit product (R297). -/
def integerResults32Rules : Prop :=
  Computes32 .iadd wraps32 (fun _ x y _ => x + y) ∧
  Computes32 .isub wraps32 (fun _ x y _ => x - y) ∧
  Computes32 .imul wraps32 (fun _ x y _ => x * y) ∧
  Computes32 .imad wraps32 (fun _ x y z => x * y + z) ∧
  Computes32 .ineg wraps32 (fun _ x _ _ => -x) ∧
  Computes32 .iabs signed32 (fun _ x _ _ => if x.slt 0 then -x else x) ∧
  Computes32 .iabs unsigned32 (fun _ x _ _ => x) ∧
  Computes32 .imin signed32 (fun _ x y _ => if y.slt x then y else x) ∧
  Computes32 .imin unsigned32 (fun _ x y _ => if y.ult x then y else x) ∧
  Computes32 .imax signed32 (fun _ x y _ => if x.slt y then y else x) ∧
  Computes32 .imax unsigned32 (fun _ x y _ => if x.ult y then y else x) ∧
  Computes32 .imulh signed32 (fun _ x y _ => (x.signExtend 64 * y.signExtend 64).extractLsb' 32 32) ∧
  Computes32 .imulh unsigned32 (fun _ x y _ => (x.setWidth 64 * y.setWidth 64).extractLsb' 32 32)

/-- Under a 64-bit type, the same on register pairs, low word first (R132, R297). -/
def integerResults64Rules : Prop :=
  Computes64 .iadd wraps64 (fun _ x y _ => x + y) ∧
  Computes64 .isub wraps64 (fun _ x y _ => x - y) ∧
  Computes64 .imul wraps64 (fun _ x y _ => x * y) ∧
  Computes64 .imad wraps64 (fun _ x y z => x * y + z) ∧
  Computes64 .ineg wraps64 (fun _ x _ _ => -x) ∧
  Computes64 .iabs signed64 (fun _ x _ _ => if x.slt 0 then -x else x) ∧
  Computes64 .iabs unsigned64 (fun _ x _ _ => x) ∧
  Computes64 .imin signed64 (fun _ x y _ => if y.slt x then y else x) ∧
  Computes64 .imin unsigned64 (fun _ x y _ => if y.ult x then y else x) ∧
  Computes64 .imax signed64 (fun _ x y _ => if x.slt y then y else x) ∧
  Computes64 .imax unsigned64 (fun _ x y _ => if x.ult y then y else x) ∧
  Computes64 .imulh signed64 (fun _ x y _ => (x.signExtend 128 * y.signExtend 128).extractLsb' 64 64) ∧
  Computes64 .imulh unsigned64 (fun _ x y _ => (x.setWidth 128 * y.setWidth 128).extractLsb' 64 64)

/-- The results of the 32-bit and 64-bit integer instructions (R296 to R298). -/
def Obligations.IntegerResults : Prop := integerResults32Rules ∧ integerResults64Rules


/-- Saturated, in a type. -/
def saturates (t : Ty) (f : VForm) : Prop := f.ty1 = t ∧ f.mod.getLsbD 3 = true

/-- The nearest signed 32-bit number. -/
def clampS32 (x : Int) : Word := BitVec.ofInt 32 (max (-2147483648) (min 2147483647 x))
/-- The nearest unsigned 32-bit number. -/
def clampU32 (x : Int) : Word := BitVec.ofInt 32 (max 0 (min 4294967295 x))
/-- The nearest signed 64-bit number. -/
def clampS64 (x : Int) : DWord := BitVec.ofInt 64 (max (-9223372036854775808) (min 9223372036854775807 x))
/-- The nearest unsigned 64-bit number. -/
def clampU64 (x : Int) : DWord := BitVec.ofInt 64 (max 0 (min 18446744073709551615 x))

/-- With MOD[63] = 1, an integer result that lies outside its type is the type's nearest number (R194, R297). -/
def integerSaturationRules : Prop :=
  Computes32 .iadd (saturates .named) (fun _ x y _ => clampS32 (x.toInt + y.toInt)) ∧
  Computes32 .iadd (saturates .ui32) (fun _ x y _ => clampU32 (x.toNat + y.toNat)) ∧
  Computes32 .isub (saturates .named) (fun _ x y _ => clampS32 (x.toInt - y.toInt)) ∧
  Computes32 .isub (saturates .ui32) (fun _ x y _ => clampU32 (x.toNat - y.toNat)) ∧
  Computes32 .imul (saturates .named) (fun _ x y _ => clampS32 (x.toInt * y.toInt)) ∧
  Computes32 .imul (saturates .ui32) (fun _ x y _ => clampU32 (x.toNat * y.toNat)) ∧
  Computes32 .imad (saturates .named) (fun _ x y z => clampS32 (x.toInt * y.toInt + z.toInt)) ∧
  Computes32 .imad (saturates .ui32) (fun _ x y z => clampU32 (x.toNat * y.toNat + z.toNat)) ∧
  Computes32 .iabs (saturates .named) (fun _ x _ _ => clampS32 x.toInt.natAbs) ∧
  Computes32 .ineg (saturates .named) (fun _ x _ _ => clampS32 (-x.toInt)) ∧
  Computes32 .ineg (saturates .ui32) (fun _ _ _ _ => 0) ∧
  Computes64 .iadd (saturates .i64) (fun _ x y _ => clampS64 (x.toInt + y.toInt)) ∧
  Computes64 .iadd (saturates .ui64) (fun _ x y _ => clampU64 (x.toNat + y.toNat)) ∧
  Computes64 .isub (saturates .i64) (fun _ x y _ => clampS64 (x.toInt - y.toInt)) ∧
  Computes64 .isub (saturates .ui64) (fun _ x y _ => clampU64 (x.toNat - y.toNat)) ∧
  Computes64 .imul (saturates .i64) (fun _ x y _ => clampS64 (x.toInt * y.toInt)) ∧
  Computes64 .imul (saturates .ui64) (fun _ x y _ => clampU64 (x.toNat * y.toNat)) ∧
  Computes64 .imad (saturates .i64) (fun _ x y z => clampS64 (x.toInt * y.toInt + z.toInt)) ∧
  Computes64 .imad (saturates .ui64) (fun _ x y z => clampU64 (x.toNat * y.toNat + z.toNat)) ∧
  Computes64 .iabs (saturates .i64) (fun _ x _ _ => clampS64 x.toInt.natAbs) ∧
  Computes64 .ineg (saturates .i64) (fun _ x _ _ => clampS64 (-x.toInt)) ∧
  Computes64 .ineg (saturates .ui64) (fun _ _ _ _ => 0) ∧
  Computes32 .iabs (saturates .ui32) (fun _ x _ _ => x) ∧
  Computes64 .iabs (saturates .ui64) (fun _ x _ _ => x)

/-- `IADC` and `ISBB` add or subtract A, B and the predicate in C as unsigned numbers, wrap D, and leave the carry or the
borrow in the predicate (R298). -/
def carryAndBorrowRules : Prop :=
  (∀ s cid wx w f, Issues s (.iadc f) cid wx w → Completes s (.iadc f) cid wx fun w' =>
    (let sum (l : Nat) : Nat := (w.valueOf f.imm f.hd.a l).toNat + (w.valueOf f.imm f.hd.b l).toNat
       + ((w.predBits f.hd.c).getLsbD l).toNat
     (ReceivesWords w w' f.hd f.hd.d fun l => BitVec.ofNat 32 (sum l)) ∧
     ReceivesBits w w' f.hd f.hd.c fun l => decide (2 ^ 32 ≤ sum l))) ∧
  (∀ s cid wx w f, Issues s (.isbb f) cid wx w → Completes s (.isbb f) cid wx fun w' =>
    (let diff (l : Nat) : Int := (w.valueOf f.imm f.hd.a l).toNat - (w.valueOf f.imm f.hd.b l).toNat
       - ((w.predBits f.hd.c).getLsbD l).toNat
     (ReceivesWords w w' f.hd f.hd.d fun l => BitVec.ofInt 32 (diff l)) ∧
     ReceivesBits w w' f.hd f.hd.c fun l => decide (diff l < 0)))

/-- Saturation, and carries and borrows. -/
def Obligations.IntegerCorners : Prop := integerSaturationRules ∧ carryAndBorrowRules

/-! ## Division -/

/-- The value of an integer operand of 32 bits in the type of TY1. -/
def int32 (f : VForm) (x : Word) : Int := if f.ty1 = .ui32 then x.toNat else x.toInt

/-- Quotients are truncated toward zero and remainders have the sign of A; the results come with the instruction's own
completion (`IDIV_COMPLETE`), and until then D is empty (R138, R297). Ids in flight are below the next one, which every
step keeps (`Inv`). -/
def divisionResultsRules : Prop :=
  ∀ (s : State) cid wx (w : Weave) (f : VForm) (rem : Bool) (i : Instr), i = (if rem then .irem f else .idiv f) →
    Issues s i cid wx w → (f.ty1 = .named ∨ f.ty1 = .ui32) → (∀ fl ∈ s.flights, fl.id ≤ s.ids) →
    (if f.hd.grp then w.qPass f.hd = true ∧ w.readG f.imm f.hd.b ≠ 0
     else w.writers f.hd ≠ 0 ∧ ∀ l < 32, (w.actors f.hd).getLsbD l = true → w.valueOf f.imm f.hd.b l ≠ 0) →
    ∃ t w1 t' w2, exec i s = .next t ∧ t.weave? cid wx = some w1 ∧ w1.pc = w.pc + 16 ∧ w1.v = w.v ∧ w1.g = w.g ∧
      (∀ k ∈ regKeys f.hd.d 1, k ∈ w1.empty) ∧ t.pending = s.pending ++ [.idivComplete (s.ids + 1)] ∧ t.hbm = s.hbm ∧
      exec (.idivComplete (s.ids + 1)) t = .next t' ∧ t'.weave? cid wx = some w2 ∧ (∀ k ∈ regKeys f.hd.d 1, k ∉ w2.empty) ∧
      t'.hbm = s.hbm ∧
      ReceivesWords w w2 f.hd f.hd.d fun l =>
        (let a := int32 f (w.valueOf f.imm f.hd.a l)
         let b := int32 f (w.valueOf f.imm f.hd.b l)
         BitVec.ofInt 32 (if rem then (if b = 0 then a else Int.tmod a b) else (if b = 0 then -1 else Int.tdiv a b)))

/-- A 64-bit integer operand in the type of TY1, in a lane. -/
def int64 (w : Weave) (f : VForm) (o : Operand) (l : Nat) : Int :=
  if f.ty1 = .ui64 then (w.wideLane f.imm false o l).toNat else (w.wideLane f.imm true o l).toInt

/-- The same for INT64 and UINT64, on register pairs, low word first (R132). -/
def divisionWideRules : Prop :=
  ∀ (s : State) cid wx (w : Weave) (f : VForm) (rem : Bool) (i : Instr), i = (if rem then .irem f else .idiv f) →
    Issues s i cid wx w → (f.ty1 = .i64 ∨ f.ty1 = .ui64) → (∀ fl ∈ s.flights, fl.id ≤ s.ids) →
    (if f.hd.grp then w.qPass f.hd = true ∧ int64 w f f.hd.b 0 ≠ 0
     else w.writers f.hd ≠ 0 ∧ ∀ l < 32, (w.actors f.hd).getLsbD l = true → int64 w f f.hd.b l ≠ 0) →
    ∃ t w1 t' w2, exec i s = .next t ∧ t.weave? cid wx = some w1 ∧ w1.pc = w.pc + 16 ∧ w1.v = w.v ∧ w1.g = w.g ∧
      (∀ k ∈ regKeys f.hd.d 2, k ∈ w1.empty) ∧ t.pending = s.pending ++ [.idivComplete (s.ids + 1)] ∧ t.hbm = s.hbm ∧
      exec (.idivComplete (s.ids + 1)) t = .next t' ∧ t'.weave? cid wx = some w2 ∧ (∀ k ∈ regKeys f.hd.d 2, k ∉ w2.empty) ∧
      t'.hbm = s.hbm ∧
      ReceivesPair w w2 f.hd fun l =>
        (let a := int64 w f f.hd.a l
         let b := int64 w f f.hd.b l
         BitVec.ofInt 64 (if rem then (if b = 0 then a else Int.tmod a b) else (if b = 0 then -1 else Int.tdiv a b)))

/-- A divisor of 0 in a lane that acts traps `INT_DIV_ZERO` with those lanes, in the group form with the exec mask, and
nothing is divided (R297). -/
def divisionByZeroRules : Prop :=
  ∀ (s : State) cid wx (w : Weave) (f : VForm) (rem : Bool) (i : Instr), i = (if rem then .irem f else .idiv f) →
    Issues s i cid wx w → w.mode = .user →
    (let zero (l : Nat) : Bool :=
       if f.ty1 = .i64 ∨ f.ty1 = .ui64 then int64 w f f.hd.b l == 0 else w.valueOf f.imm f.hd.b l == 0
     (f.ty1 = .named ∨ f.ty1 = .ui32 ∨ f.ty1 = .i64 ∨ f.ty1 = .ui64) →
     (f.hd.grp = true → w.qPass f.hd = true → zero 0 = true → Traps s i cid wx w .intDivZero w.pc w.exec noVa) ∧
     (f.hd.grp = false → ∀ m : Mask, m ≠ 0 → (∀ l < 32, m.getLsbD l = ((w.actors f.hd).getLsbD l && zero l)) →
       Traps s i cid wx w .intDivZero w.pc m noVa))

/-- `IDIV` and `IREM`: quotients and remainders, and division by zero. -/
def Obligations.Division : Prop := divisionResultsRules ∧ divisionWideRules ∧ divisionByZeroRules


/-! ## Logic and bits -/

/-- Every V-format instruction of no type and no modifier. -/
def anyForm (_ : VForm) : Prop := True

/-- Bitwise results, and shifts by an unsigned amount: 0, or copies of the sign, from 32 on; a rotation takes the amount
modulo 32 (R299). -/
def logicResultsRules : Prop :=
  Computes32 .and_ anyForm (fun _ x y _ => x &&& y) ∧
  Computes32 .or_ anyForm (fun _ x y _ => x ||| y) ∧
  Computes32 .xor_ anyForm (fun _ x y _ => x ^^^ y) ∧
  Computes32 .not_ anyForm (fun _ x _ _ => ~~~ x) ∧
  Computes32 .andn anyForm (fun _ x y _ => x &&& ~~~ y) ∧
  Computes32 .shl anyForm (fun _ x y _ => x <<< y) ∧
  Computes32 .shr anyForm (fun _ x y _ => x >>> y) ∧
  Computes32 .sar anyForm (fun _ x y _ => x.sshiftRight y.toNat) ∧
  Computes32 .rotl anyForm (fun _ x y _ => (x <<< (y.toNat % 32)) ||| (x >>> ((32 - y.toNat % 32) % 32)))

/-- POPC counts the ones; CLZ and CTZ count the zeros above the highest and below the lowest one, 32 for no one at all;
BREV turns bit i into bit 31 − i (R299). -/
def bitCountsRules : Prop :=
  Computes32 .popc anyForm (fun _ x _ _ => BitVec.ofNat 32 ((List.range 32).countP fun i => x.getLsbD i)) ∧
  (∃ clz : Word → Nat, Computes32 .clz anyForm (fun _ x _ _ => BitVec.ofNat 32 (clz x)) ∧
    ∀ x, clz x ≤ 32 ∧ (∀ k < clz x, x.getLsbD (31 - k) = false) ∧ (clz x < 32 → x.getLsbD (31 - clz x) = true)) ∧
  (∃ ctz : Word → Nat, Computes32 .ctz anyForm (fun _ x _ _ => BitVec.ofNat 32 (ctz x)) ∧
    ∀ x, ctz x ≤ 32 ∧ (∀ k < ctz x, x.getLsbD k = false) ∧ (ctz x < 32 → x.getLsbD (ctz x) = true)) ∧
  (∃ rev : Word → Word, Computes32 .brev anyForm (fun _ x _ _ => rev x) ∧ ∀ x i, i < 32 → (rev x).getLsbD i = x.getLsbD (31 - i))

/-- `BFX` and `BFI`, with the control word of R300: pos := bits [7:0], len := min(bits [15:8], 32), bits [31:16] ignored;
positions at 32 or above read as 0 and are never written. -/
def Obligations.BitFields : Prop :=
  (∃ bfx : Bool → Word → Word → Word, Computes32 .bfx anyForm (fun f x c _ => bfx (f.ty1 == .named) x c) ∧
    ∀ sg x c i, i < 32 → (bfx sg x c).getLsbD i =
      (let pos := c.toNat % 256
       let len := min (c.toNat / 256 % 256) 32
       if i < len then x.getLsbD (pos + i) else sg && decide (0 < len) && x.getLsbD (pos + len - 1))) ∧
  (∃ bfi : Word → Word → Word → Word, Computes32 .bfi anyForm (fun _ x y c => bfi x y c) ∧
    ∀ x y c i, i < 32 → (bfi x y c).getLsbD i =
      (let pos := c.toNat % 256
       let len := min (c.toNat / 256 % 256) 32
       if pos ≤ i ∧ i < pos + len then y.getLsbD (i - pos) else x.getLsbD i))

/-! ## Select, move, compare, predicates -/

/-- `SEL` and `MOV` move a lane with its side bit; `MOVI` writes the sign-extended immediate to a pair and `MOVH` the
immediate to its high register; `LEA` adds the scaled index; `SHAPE` gives the shape code (R301). -/
def moveResultsRules : Prop :=
  (∀ s cid wx w f, f.hd.grp = false → Issues s (.sel f) cid wx w → Completes s (.sel f) cid wx fun w' =>
    Receives w w' f.hd f.hd.d fun l =>
      if (w.predBits f.hd.c).getLsbD l then (w.read f.imm f.hd.a).lane l else (w.read f.imm f.hd.b).lane l) ∧
  (∀ s cid wx w f, f.hd.grp = true → Issues s (.sel f) cid wx w → Completes s (.sel f) cid wx fun w' =>
    ReceivesWords w w' f.hd f.hd.d fun _ =>
      if (w.predBits f.hd.c).getLsbD 0 then w.readG f.imm f.hd.a else w.readG f.imm f.hd.b) ∧
  (∀ s cid wx w f, f.hd.grp = false → Issues s (.mov f) cid wx w → Completes s (.mov f) cid wx fun w' =>
    Receives w w' f.hd f.hd.d fun l => (w.read f.imm f.hd.a).lane l) ∧
  (∀ s cid wx w f, f.hd.grp = true → Issues s (.mov f) cid wx w → Completes s (.mov f) cid wx fun w' =>
    ReceivesWords w w' f.hd f.hd.d fun _ => w.readG f.imm f.hd.a) ∧
  (∀ s cid wx w f, Issues s (.movi f) cid wx w → Completes s (.movi f) cid wx fun w' =>
    ReceivesPair w w' f.hd fun _ => (w.readG f.imm f.hd.a).signExtend 64) ∧
  (∀ s cid wx w f, Issues s (.movh f) cid wx w → Completes s (.movh f) cid wx fun w' =>
    ReceivesWords w w' f.hd (f.hd.d.plus 1) fun _ => w.readG f.imm f.hd.a) ∧
  Computes32 .lea (fun f => f.hd.c = .imm) (fun f x y _ => x + (y <<< f.imm)) ∧
  Computes32 .lea (fun f => f.hd.c = .zero) (fun _ x y _ => x + y) ∧
  ComputesLanes .shape (fun f => f.hd.grp = false) (fun w f _ => Lane.ofWord (match w.read f.imm f.hd.a with
    | .uni _ => 0 | .aff _ _ => 1 | .gen _ => 2))

/-- Logic, bit counts and moves. -/
def Obligations.LogicAndMoves : Prop := logicResultsRules ∧ bitCountsRules ∧ moveResultsRules


/-- The outcome of a comparison by an order on a type's values (R302). -/
def compares {α : Type} [DecidableEq α] [LT α] [DecidableLT α] (c : CmpSel) (x y : α) : Bool :=
  match c with
  | .eq => x = y
  | .ne => x ≠ y
  | .lt => x < y
  | .le => ¬ y < x
  | .gt => y < x
  | .ge => ¬ x < y

/-- `ICMP.cc` compares A with B in the type given by TY, signed for INT32 and INT64 and unsigned for UINT32 and UINT64. The
lane form sets the bit of each writing lane of pD to the outcome, the group form sets qD (R302). -/
def integerCompareRules : Prop :=
  ∀ c, ComputesBits (.icmp c) (fun f => f.ty1 = .named) (fun w f l =>
      compares c (w.valueOf f.imm f.hd.a l).toInt (w.valueOf f.imm f.hd.b l).toInt) ∧
    ComputesBits (.icmp c) (fun f => f.ty1 = .ui32) (fun w f l =>
      compares c (w.valueOf f.imm f.hd.a l).toNat (w.valueOf f.imm f.hd.b l).toNat) ∧
    ComputesBits (.icmp c) (fun f => f.ty1 = .i64) (fun w f l =>
      compares c (w.wideLane f.imm true f.hd.a l).toInt (w.wideLane f.imm true f.hd.b l).toInt) ∧
    ComputesBits (.icmp c) (fun f => f.ty1 = .ui64) (fun w f l =>
      compares c (w.wideLane f.imm false f.hd.a l).toNat (w.wideLane f.imm false f.hd.b l).toNat)

/-- Predicates combine bit by bit, and `PMOV` converts between predicates and values (R303, R304). -/
def predicateResultsRules : Prop :=
  ComputesBits .pand anyForm (fun w f l => (w.predBits f.hd.a).getLsbD l && (w.predBits f.hd.b).getLsbD l) ∧
  ComputesBits .por anyForm (fun w f l => (w.predBits f.hd.a).getLsbD l || (w.predBits f.hd.b).getLsbD l) ∧
  ComputesBits .pxor anyForm (fun w f l => (w.predBits f.hd.a).getLsbD l != (w.predBits f.hd.b).getLsbD l) ∧
  ComputesBits .pnot anyForm (fun w f l => !(w.predBits f.hd.a).getLsbD l) ∧
  ComputesBits .pmov (fun f => isPredOperand f.hd.d = true ∧ isPredOperand f.hd.a = true)
    (fun w f l => (w.predBits f.hd.a).getLsbD l) ∧
  ComputesBits .pmov (fun f => isPredOperand f.hd.d = true ∧ isPredOperand f.hd.a = false)
    (fun w f l => w.valueOf f.imm f.hd.a l != 0) ∧
  ComputesLanes .pmov (fun f => isPredOperand f.hd.d = false ∧ isPredOperand f.hd.a = true)
    (fun w f l => Lane.ofWord (if (w.predBits f.hd.a).getLsbD l then 1 else 0))

/-- `ICMP`, the predicate instructions and `PMOV`. -/
def Obligations.CompareAndPredicates : Prop := integerCompareRules ∧ predicateResultsRules

/-! ## Exchanges, votes and reductions -/

/-- The lane form, which is the only form of these instructions (R279). -/
def laneForm (f : VForm) : Prop := f.hd.grp = false

/-- `QSWZ`, `QBC` and `SHFL` give each writing lane the named lane of A with its side bit; a `SHFL` whose source lane is
out of range keeps the lane's own A (R305, R306). -/
def exchangesRules : Prop :=
  ComputesLanes .qswz laneForm (fun w f l =>
    (w.read f.imm f.hd.a).lane (4 * (l / 4) + (w.readG f.imm f.hd.b).toNat / 4 ^ (l % 4) % 4)) ∧
  ComputesLanes .qbc laneForm (fun w f l => (w.read f.imm f.hd.a).lane (4 * (l / 4) + (w.readG f.imm f.hd.b).toNat % 4)) ∧
  ComputesLanes (.shfl .idx) laneForm (fun w f l => (w.read f.imm f.hd.a).lane ((w.valueOf f.imm f.hd.b l).toNat % 32)) ∧
  ComputesLanes (.shfl .up) laneForm (fun w f l => (w.read f.imm f.hd.a).lane
    (if l < (w.valueOf f.imm f.hd.b l).toNat then l else l - (w.valueOf f.imm f.hd.b l).toNat)) ∧
  ComputesLanes (.shfl .down) laneForm (fun w f l => (w.read f.imm f.hd.a).lane
    (if 31 < l + (w.valueOf f.imm f.hd.b l).toNat then l else l + (w.valueOf f.imm f.hd.b l).toNat)) ∧
  ComputesLanes (.shfl .xor) laneForm (fun w f l => (w.read f.imm f.hd.a).lane
    (l ^^^ ((w.valueOf f.imm f.hd.b l).toNat % 32)))

/-- Lane i contributes: its exec bit is 1, it has not exited and its guard passes (R127, R307). -/
def contributes (w : Weave) (f : VForm) (i : Nat) : Bool := (w.actors f.hd).getLsbD i

/-- `BALL`, `MATCH` and `VOTE` over the contributing lanes (R307). -/
def votesRules : Prop :=
  ComputesLanes .ball laneForm (fun w f _ => Lane.ofWord (maskOf fun i => contributes w f i && (w.predBits f.hd.a).getLsbD i)) ∧
  ComputesLanes .match_ laneForm (fun w f l => Lane.ofWord (maskOf fun i =>
    contributes w f i && w.valueOf f.imm f.hd.a i == w.valueOf f.imm f.hd.a l)) ∧
  ComputesBits (.vote .all) anyForm (fun w f _ =>
    laneList.all fun i => !contributes w f i || (w.predBits f.hd.a).getLsbD i) ∧
  ComputesBits (.vote .any) anyForm (fun w f _ =>
    laneList.any fun i => contributes w f i && (w.predBits f.hd.a).getLsbD i) ∧
  ComputesBits (.vote .uni) anyForm (fun w f _ =>
    (laneList.all fun i => !contributes w f i || (w.predBits f.hd.a).getLsbD i) ||
    (laneList.all fun i => !contributes w f i || !(w.predBits f.hd.a).getLsbD i))

/-- The tree of R203 over lanes j to j + 2^n − 1: neighbours first, an absent operand passing its partner through. -/
def reduceTree (op : Word → Word → Word) (c : Nat → Option Word) : Nat → Nat → Option Word
  | 0, j => c j
  | n + 1, j =>
    match reduceTree op c n j, reduceTree op c n (j + 2 ^ n) with
    | some x, some y => some (op x y)
    | some x, none => some x
    | none, y => y

/-- The operation of a reduction in its type (R305). -/
def reduceOp (sel : RedSel) (f : VForm) (x y : Word) : Word :=
  match sel, f.ty1 with
  | .add, .f32 => BitVec.ofNat 32 (fp32.round (VForm.rnd f) false ((fp32.decode x.toNat).add (VForm.rnd f) (fp32.decode y.toNat)))
  | .min, .f32 => BitVec.ofNat 32 (fp32.minmax false x.toNat y.toNat)
  | .max, .f32 => BitVec.ofNat 32 (fp32.minmax true x.toNat y.toNat)
  | .add, _ => x + y
  | .min, .ui32 => if x.ult y then x else y
  | .max, .ui32 => if x.ult y then y else x
  | .min, _ => if x.slt y then x else y
  | .max, _ => if x.slt y then y else x
  | .and, _ => x &&& y
  | .or, _ => x ||| y
  | .xor, _ => x ^^^ y

/-- The result when no lane contributes (R307). -/
def reduceNone (sel : RedSel) (t : Ty) : Word :=
  match sel, t with
  | .min, .f32 => 0x7F800000
  | .max, .f32 => 0xFF800000
  | .min, .ui32 => 0xFFFFFFFF
  | .max, .ui32 => 0
  | .min, _ => 0x7FFFFFFF
  | .max, _ => 0x80000000
  | .and, _ => 0xFFFFFFFF
  | .add, _ | .or, _ | .xor, _ => 0

/-- `QRED` is the tree over the four lanes of the quad, `REDW` over the contributing lanes, `SCANW` over those up to the
lane's own (R203, R305, R307). -/
def reductionsRules : Prop :=
  (∀ sel, ComputesLanes (.qred sel) laneForm (fun w f l => Lane.ofWord
    ((reduceTree (reduceOp sel f) (fun i => some (w.valueOf f.imm f.hd.a i)) 2 (4 * (l / 4))).getD 0))) ∧
  (∀ sel, ComputesLanes (.redw sel) laneForm (fun w f _ => Lane.ofWord
    ((reduceTree (reduceOp sel f) (fun i => if contributes w f i then some (w.valueOf f.imm f.hd.a i) else none) 5 0).getD
      (reduceNone sel f.ty1)))) ∧
  (∀ sel, ComputesLanes (.scanw sel) laneForm (fun w f l => Lane.ofWord
    ((reduceTree (reduceOp sel f) (fun i => if contributes w f i && decide (i ≤ l) then some (w.valueOf f.imm f.hd.a i) else none)
      5 0).getD (reduceNone sel f.ty1))))

/-- Exchanges between lanes, votes and reductions. -/
def Obligations.ExchangesAndVotes : Prop := exchangesRules ∧ votesRules ∧ reductionsRules


/-! ## Masks and special values -/

/-- `EXMR` and `HLPR` read the masks; `EXMW` writes the exec mask, less absent, helper and exited lanes, and pushes and
pops no token; one that leaves no lane, in the mask or in a record, makes the weave exit (R128, R295). -/
def maskRegistersRules : Prop :=
  (∀ s cid wx w f, f.hd.grp = true → Issues s (.exmr f) cid wx w → Completes s (.exmr f) cid wx fun w' =>
    ReceivesWords w w' f.hd f.hd.d fun _ => w.exec) ∧
  (∀ s cid wx w f, f.hd.grp = true → Issues s (.hlpr f) cid wx w → Completes s (.hlpr f) cid wx fun w' =>
    ReceivesWords w w' f.hd f.hd.d fun _ => w.helper) ∧
  (∀ (s : State) cid wx (w : Weave) (f : VForm) (m : Mask), m = w.readG f.imm f.hd.a &&& ~~~ w.absent &&& ~~~ w.helper &&& ~~~ w.exited →
    (m ≠ 0 ∨ ∃ t ∈ w.toks, t.rmask ≠ 0 ∨ t.pmask ≠ 0) → w.done = false → Issues s (.exmw f) cid wx w →
    ∃ t w', exec (.exmw f) s = .next t ∧ Replaces s t cid wx w' ∧
      w'.exec = (if w.qPass f.hd then m else w.exec) ∧ w'.toks = w.toks ∧ w'.helper = w.helper ∧ w'.exited = w.exited ∧
      w'.pc = w.pc + 16 ∧ OnlyRegs [] { w with exec := w'.exec } w') ∧
  (∀ (s : State) cid wx (w : Weave) (f : VForm), w.readG f.imm f.hd.a &&& ~~~ w.absent &&& ~~~ w.helper &&& ~~~ w.exited = 0 →
    (∀ t ∈ w.toks, t.rmask = 0 ∧ t.pmask = 0) → w.done = false → Issues s (.exmw f) cid wx w → w.qPass f.hd = true →
    ∃ t, exec (.exmw f) s = .next t ∧ ∀ w', t.weave? cid wx = some w' → w'.done = true ∧ w'.exec = 0 ∧ w'.toks = [])

/-- The values that `SREG` reads, and the flag that `SREGW` writes (R296). -/
def specialValuesRules : Prop :=
  (∀ (s : State) cid wx (w : Weave) (f : VForm) (c : Crew) (l : Launch) k, s.crew? cid = some c → s.launch? c.lid = some l →
    c.place = .resident k → Issues s (.sreg f) cid wx w → VForm.rnd f < 7 → Completes s (.sreg f) cid wx fun w' =>
    match VForm.rnd f with
    | 0 => ReceivesPair w w' f.hd fun _ =>
        if c.cont then BitVec.allOnes 64
        else if c.inGang then BitVec.ofNat 64 (c.unit * (l.lrec.gcrews + 1) + c.member) else BitVec.ofNat 64 c.unit
    | 1 => ReceivesWords w w' f.hd f.hd.d fun _ => BitVec.ofNat 32 wx
    | 2 => ReceivesPair w w' f.hd fun _ => if c.inGang then BitVec.ofNat 64 c.unit else BitVec.allOnes 64
    | 3 => ReceivesPair w w' f.hd fun _ => BitVec.ofNat 64 c.lid
    | 4 => ReceivesWords w w' f.hd f.hd.d fun _ => BitVec.ofNat 32 c.vcore
    | 5 => ReceivesWords w w' f.hd f.hd.d fun _ => BitVec.ofNat 32 c.homeDie
    | _ => ReceivesPair w w' f.hd fun _ => BitVec.ofNat 64 ((s.die (k / 64)).clkM / 1000)) ∧
  (∀ (s : State) cid wx (w : Weave) (f : VForm), Issues s (.sregw f) cid wx w → Completes s (.sregw f) cid wx fun w' =>
    w'.spin.nospin = if w.qPass f.hd then (w.readG f.imm f.hd.a).getLsbD 0 else w.spin.nospin)

/-- `EXMR`, `EXMW`, `SREGW` and what `SREGR` reads. -/
def Obligations.SpecialRegisters : Prop := maskRegistersRules ∧ specialValuesRules


/-! ## Numbers -/

/-- 2^e. -/
def pow2 (e : Int) : Rat := (2 : Rat) ^ e

/-- The value of a finite exact value; 0 for the others. -/
def ratOf (x : Fp) : Rat :=
  match x with
  | .fin s m e => (if s then -1 else 1) * (m : Rat) * pow2 e
  | _ => 0

/-- The magnitudes of an IEEE format, its exponent range unbounded above: the n-th in increasing order, which is the
magnitude of code n when n is below the code of infinity (R188). -/
def ieeeGrid (f : Fmt) (n : Nat) : Rat :=
  if n / 2 ^ f.fbits = 0 then (n : Rat) * pow2 f.emin
  else ((2 ^ f.fbits + n % 2 ^ f.fbits : Nat) : Rat) * pow2 (f.emin + (n / 2 ^ f.fbits : Nat) - 1)

/-- The n-th magnitude of a grid is what a real magnitude rounds to in a mode, for a number of a sign (R190). The real is
given by the rationals below it and the rational that it is, if any. -/
def RoundsTo (grid : Nat → Rat) (mode : Nat) (neg : Bool) (below is : Rat → Prop) (n : Nat) : Prop :=
  let mid (k : Nat) : Rat := (grid k + grid (k + 1)) / 2
  let down : Prop := (below (grid n) ∨ is (grid n)) ∧ ¬ below (grid (n + 1)) ∧ ¬ is (grid (n + 1))
  let up : Prop := (n = 0 ∨ below (grid (n - 1))) ∧ ¬ below (grid n)
  let near (away : Nat → Prop) : Prop :=
    (n = 0 ∨ below (mid (n - 1)) ∨ (is (mid (n - 1)) ∧ away n)) ∧ ¬ below (mid n) ∧ (is (mid n) → ¬ away (n + 1))
  match mode with
  | 1 => down
  | 2 => if neg then up else down
  | 3 => if neg then down else up
  | 4 => near fun _ => True
  | _ => near fun k => k % 2 = 0

/-- What takes the place of a magnitude beyond the largest finite one (R191). -/
def overflowCode (f : Fmt) (mode : Nat) (sat neg : Bool) : Nat :=
  (if neg then f.signBit else 0) +
    (if sat || mode == 1 || (mode == 2 && !neg) || (mode == 3 && neg) then f.maxCode else f.infCode)

/-- A code is the one rounding of a real magnitude with a sign to a format (R190, R191). -/
def RoundedCode (f : Fmt) (mode : Nat) (sat neg : Bool) (below is : Rat → Prop) (code : Nat) : Prop :=
  ∃ n, RoundsTo (ieeeGrid f) mode neg below is n ∧
    code = if n < f.infCode then (if neg then f.signBit else 0) + n else overflowCode f mode sat neg

/-- The three IEEE formats (R188). -/
def ieeeFormats : List Fmt := [fp32, bf16, fp16]

/-- What each code of an IEEE format stands for (R188). -/
def formatValuesRules : Prop :=
  (fp32.fbits = 23 ∧ fp32.signBit = 2 ^ 31 ∧ fp32.infCode = 0x7F800000 ∧ fp32.maxCode = 0x7F7FFFFF ∧ fp32.emin = -149) ∧
  (bf16.fbits = 7 ∧ bf16.signBit = 2 ^ 15 ∧ bf16.infCode = 0x7F80 ∧ bf16.maxCode = 0x7F7F ∧ bf16.emin = -133) ∧
  (fp16.fbits = 10 ∧ fp16.signBit = 2 ^ 15 ∧ fp16.infCode = 0x7C00 ∧ fp16.maxCode = 0x7BFF ∧ fp16.emin = -24) ∧
  ∀ f ∈ ieeeFormats, ∀ x < 2 * f.signBit, ∀ neg : Bool, neg = decide (f.signBit ≤ x) →
    (x % f.signBit < f.infCode → ∃ (m : Nat) (e : Int), f.decode x = .fin neg m e ∧ (m : Rat) * pow2 e = ieeeGrid f (x % f.signBit)) ∧
    (x % f.signBit = f.infCode → f.decode x = .inf neg) ∧
    (f.infCode < x % f.signBit → f.decode x = .nan)

/-- Sums, products and scalings of exact values are exact; a zero sum of operands that are not zeros of one sign is −0
under RDN and else +0; NaN comes through, and ∞ − ∞ and 0 × ∞ are NaN (R189, R190, R312). -/
def exactArithmeticRules : Prop :=
  (∀ (mode : Nat) (s : Bool) (m : Nat) (e : Int) (t : Bool) (n : Nat) (g : Int), ∃ (u : Bool) (k : Nat) (d : Int), Fp.add mode (.fin s m e) (.fin t n g) = .fin u k d ∧
    ratOf (.fin u k d) = ratOf (.fin s m e) + ratOf (.fin t n g) ∧
    (k = 0 → u = if m = 0 ∧ n = 0 ∧ s = t then s else decide (mode = 2))) ∧
  (∀ (s : Bool) (m : Nat) (e : Int) (t : Bool) (n : Nat) (g : Int), ∃ (k : Nat) (d : Int), Fp.mul (.fin s m e) (.fin t n g) = .fin (s != t) k d ∧
    ratOf (.fin (s != t) k d) = ratOf (.fin s m e) * ratOf (.fin t n g)) ∧
  (∀ (s : Bool) (m : Nat) (e k : Int), ∃ d : Int, Fp.scale k (.fin s m e) = .fin s m d ∧ ratOf (.fin s m d) = ratOf (.fin s m e) * pow2 k) ∧
  (∀ (mode : Nat) (s : Bool) (m : Nat) (e : Int), ∃ (k : Nat) (d : Int), Fp.integral mode (.fin s m e) = .fin s k d ∧ ∃ n : Nat, (k : Rat) * pow2 d = n ∧
    RoundsTo (fun i => (i : Rat)) mode s (· < (m : Rat) * pow2 e) (· = (m : Rat) * pow2 e) n) ∧
  (∀ mode x, Fp.add mode .nan x = .nan ∧ Fp.add mode x .nan = .nan ∧ Fp.mul .nan x = .nan ∧ Fp.mul x .nan = .nan) ∧
  (∀ (mode : Nat) (s t : Bool) (m : Nat) (e : Int), Fp.add mode (.inf s) (.inf t) = (if s = t then .inf s else .nan) ∧
    Fp.add mode (.inf s) (.fin t m e) = .inf s ∧ Fp.add mode (.fin t m e) (.inf s) = .inf s ∧
    Fp.mul (.inf s) (.inf t) = .inf (s != t) ∧
    Fp.mul (.inf s) (.fin t m e) = (if m = 0 then .nan else .inf (s != t)) ∧
    Fp.mul (.fin t m e) (.inf s) = (if m = 0 then .nan else .inf (t != s)))

/-- What the encodings of a format mean, and exact arithmetic on values. -/
def Obligations.FormatsExact : Prop := formatValuesRules ∧ exactArithmeticRules


/-- ROUNDING IS CORRECT. In every format, mode and saturation, the code that an exact value rounds to is the nearest one
in the direction of the mode, with R191's result beyond the largest finite magnitude; NaN gives the canonical NaN
(R189 to R191). -/
def Obligations.RoundingCorrect : Prop :=
  ∀ f ∈ ieeeFormats, ∀ mode < 5, ∀ sat : Bool,
    (∀ (neg : Bool) (m : Nat) (e : Int), RoundedCode f mode sat neg (· < (m : Rat) * pow2 e) (· = (m : Rat) * pow2 e) (f.round mode sat (.fin neg m e))) ∧
    (∀ neg, f.round mode sat (.inf neg) = (if neg then f.signBit else 0) + if sat then f.maxCode else f.infCode) ∧
    f.round mode sat .nan = f.infCode + 2 ^ (f.fbits - 1)

/-- An FP32 result of exact values of the operands, rounded once. -/
def once32 (op : VForm → Fp → Fp → Fp → Fp) (f : VForm) (x y z : Word) : Word :=
  BitVec.ofNat 32 (fp32.round (VForm.rnd f) (VForm.sat f)
    (op f (fp32.decode x.toNat) (fp32.decode y.toNat) (fp32.decode z.toNat)))

/-- The FA block rounds the exact sum, difference, product, fused product and sum, integral value or scaled value once
(R190, R312). -/
def floatArithmeticRules : Prop :=
  Computes32 .fadd anyForm (once32 fun f a b _ => a.add (VForm.rnd f) b) ∧
  Computes32 .fsub anyForm (once32 fun f a b _ => a.add (VForm.rnd f) b.neg) ∧
  Computes32 .fmul anyForm (once32 fun _ a b _ => a.mul b) ∧
  Computes32 .ffma anyForm (once32 fun f a b c => (a.mul b).add (VForm.rnd f) c) ∧
  Computes32 .frnd anyForm (once32 fun f a _ _ => a.integral (VForm.rnd f)) ∧
  Computes32 .fscl anyForm (fun f x y _ =>
    BitVec.ofNat 32 (fp32.round (VForm.rnd f) (VForm.sat f) ((fp32.decode x.toNat).scale y.toInt)))

/-- An FP32 code that is a number as an element of an ordered line; the infinities lie at ±2^128. -/
def rank32 (x : Word) : Rat :=
  match fp32.decode x.toNat with
  | .inf s => if s then -pow2 128 else pow2 128
  | y => ratOf y

/-- An FP32 code is NaN. -/
def nan32 (x : Word) : Bool := fp32.decode x.toNat == .nan

/-- `FMIN` and `FMAX` return an operand, −0 counting below +0, a number before a NaN; `FCMP` compares numbers, −0 equal to
+0, and NaN is unordered; `FCLS` sets the bit of the class (R313 to R315). -/
def floatOrderRules : Prop :=
  Computes32 .fmin anyForm (fun _ x y _ =>
    if nan32 x then (if nan32 y then 0x7FC00000 else y) else if nan32 y then x
    else if rank32 x < rank32 y then x else if rank32 y < rank32 x then y else x ||| y) ∧
  Computes32 .fmax anyForm (fun _ x y _ =>
    if nan32 x then (if nan32 y then 0x7FC00000 else y) else if nan32 y then x
    else if rank32 x < rank32 y then y else if rank32 y < rank32 x then x else x &&& y) ∧
  (∀ sel, ComputesBits (.fcmp sel) anyForm (fun w f l =>
    (let x := w.valueOf f.imm f.hd.a l
     let y := w.valueOf f.imm f.hd.b l
     let un := nan32 x || nan32 y
     match sel with
     | .eq => !un && decide (rank32 x = rank32 y)
     | .ne => un || decide (rank32 x ≠ rank32 y)
     | .lt => !un && decide (rank32 x < rank32 y)
     | .le => !un && decide (rank32 x ≤ rank32 y)
     | .gt => !un && decide (rank32 y < rank32 x)
     | .ge => !un && decide (rank32 y ≤ rank32 x)
     | .un => un
     | .or => !un))) ∧
  Computes32 .fcls anyForm (fun _ x _ _ =>
    match fp32.decode x.toNat with
    | .nan => if x.getLsbD 22 then 2 else 1
    | .inf s => if s then 4 else 512
    | .fin s m _ =>
      if m = 0 then (if s then 32 else 64) else if m < 2 ^ 23 then (if s then 16 else 128) else if s then 8 else 256)

/-- An infinity as a result: the largest finite value under saturation (R191). -/
def infOr (sat s : Bool) : Word := if s then (if sat then 0xFF7FFFFF else 0xFF800000) else if sat then 0x7F7FFFFF else 0x7F800000
/-- A zero with a sign. -/
def zero32 (s : Bool) : Word := if s then 0x80000000 else 0

/-- DIVISION AND ROOTS ARE CORRECTLY ROUNDED: `FDIV`, `FRCP`, `FSQRT` and `FRSQ` of finite operands give the one rounding
of the exact real quotient or root, and the special results of R316 for the others (R190, R191, R316). -/
def Obligations.DivisionAndRoots : Prop :=
  (∃ div : Nat → Bool → Word → Word → Word, Computes32 .fdiv anyForm (fun f x y _ => div (VForm.rnd f) (VForm.sat f) x y) ∧
    ∀ mode < 5, ∀ (sat : Bool) (x y : Word), match fp32.decode x.toNat, fp32.decode y.toNat with
      | .nan, _ | _, .nan | .inf _, .inf _ => div mode sat x y = 0x7FC00000
      | .inf s, .fin t _ _ => div mode sat x y = infOr sat (s != t)
      | .fin s _ _, .inf t => div mode sat x y = zero32 (s != t)
      | .fin s m e, .fin t n g =>
        (n ≠ 0 → RoundedCode fp32 mode sat (s != t) (· < (m : Rat) * pow2 e / ((n : Rat) * pow2 g))
          (· = (m : Rat) * pow2 e / ((n : Rat) * pow2 g)) (div mode sat x y).toNat) ∧
        (n = 0 → div mode sat x y = if m = 0 then 0x7FC00000 else infOr sat (s != t))) ∧
  (∃ rcp : Nat → Bool → Word → Word, Computes32 .frcp anyForm (fun f x _ _ => rcp (VForm.rnd f) (VForm.sat f) x) ∧
    ∀ mode < 5, ∀ (sat : Bool) (x : Word), match fp32.decode x.toNat with
      | .nan => rcp mode sat x = 0x7FC00000
      | .inf s => rcp mode sat x = zero32 s
      | .fin s m e =>
        (m ≠ 0 → RoundedCode fp32 mode sat s (· < 1 / ((m : Rat) * pow2 e)) (· = 1 / ((m : Rat) * pow2 e)) (rcp mode sat x).toNat) ∧
        (m = 0 → rcp mode sat x = infOr sat s)) ∧
  (∃ root : Nat → Bool → Word → Word, Computes32 .fsqrt anyForm (fun f x _ _ => root (VForm.rnd f) (VForm.sat f) x) ∧
    ∀ mode < 5, ∀ (sat : Bool) (x : Word), match fp32.decode x.toNat with
      | .nan => root mode sat x = 0x7FC00000
      | .inf s => root mode sat x = if s then 0x7FC00000 else infOr sat false
      | .fin s m e =>
        (m ≠ 0 → s = false → RoundedCode fp32 mode sat false (fun t => t < 0 ∨ t * t < (m : Rat) * pow2 e)
          (fun t => 0 ≤ t ∧ t * t = (m : Rat) * pow2 e) (root mode sat x).toNat) ∧
        (m ≠ 0 → s = true → root mode sat x = 0x7FC00000) ∧ (m = 0 → root mode sat x = zero32 s)) ∧
  (∃ rsq : Nat → Bool → Word → Word, Computes32 .frsq anyForm (fun f x _ _ => rsq (VForm.rnd f) (VForm.sat f) x) ∧
    ∀ mode < 5, ∀ (sat : Bool) (x : Word), match fp32.decode x.toNat with
      | .nan => rsq mode sat x = 0x7FC00000
      | .inf s => rsq mode sat x = if s then 0x7FC00000 else 0
      | .fin s m e =>
        (m ≠ 0 → s = false → RoundedCode fp32 mode sat false (fun t => t < 0 ∨ t * t * ((m : Rat) * pow2 e) < 1)
          (fun t => 0 ≤ t ∧ t * t * ((m : Rat) * pow2 e) = 1) (rsq mode sat x).toNat) ∧
        (m ≠ 0 → s = true → rsq mode sat x = 0x7FC00000) ∧ (m = 0 → rsq mode sat x = infOr sat s))

/-- The special operands and the exact results of `FEX2`, `FLG2`, `FSIN` and `FCOS`: NaN, ±∞, zeros and negative numbers,
2^A for an integer A, log2 of a power of two, sin and cos of π times a multiple of a half (R316). -/
def specialOperandsRules : Prop :=
  (∃ ex2 : Nat → Bool → Word → Word, Computes32 .fex2 anyForm (fun f x _ _ => ex2 (VForm.rnd f) (VForm.sat f) x) ∧
    ∀ mode < 5, ∀ (sat : Bool) (x : Word), (nan32 x = true → ex2 mode sat x = 0x7FC00000) ∧
      ex2 mode sat 0xFF800000 = 0 ∧ ex2 mode sat 0x7F800000 = (if sat then 0x7F7FFFFF else 0x7F800000) ∧
      (∀ (s : Bool) (m : Nat) (e k : Int), fp32.decode x.toNat = .fin s m e → ratOf (.fin s m e) = k →
        RoundedCode fp32 mode sat false (· < pow2 k) (· = pow2 k) (ex2 mode sat x).toNat)) ∧
  (∃ lg2 : Nat → Bool → Word → Word, Computes32 .flg2 anyForm (fun f x _ _ => lg2 (VForm.rnd f) (VForm.sat f) x) ∧
    ∀ mode < 5, ∀ (sat : Bool) (x : Word), (nan32 x = true → lg2 mode sat x = 0x7FC00000) ∧ lg2 mode sat 0xFF800000 = 0x7FC00000 ∧
      lg2 mode sat 0x7F800000 = (if sat then 0x7F7FFFFF else 0x7F800000) ∧
      (∀ (s : Bool) (m : Nat) (e : Int), fp32.decode x.toNat = .fin s m e →
        (m = 0 → lg2 mode sat x = if sat then 0xFF7FFFFF else 0xFF800000) ∧
        (m ≠ 0 → s = true → lg2 mode sat x = 0x7FC00000) ∧
        (∀ k : Int, s = false → (m : Rat) * pow2 e = pow2 k → RoundedCode fp32 mode sat (decide (k < 0))
          (· < (k.natAbs : Rat)) (· = (k.natAbs : Rat)) (lg2 mode sat x).toNat))) ∧
  (∃ sin cos : Nat → Bool → Word → Word, Computes32 .fsin anyForm (fun f x _ _ => sin (VForm.rnd f) (VForm.sat f) x) ∧
    Computes32 .fcos anyForm (fun f x _ _ => cos (VForm.rnd f) (VForm.sat f) x) ∧
    ∀ mode < 5, ∀ (sat : Bool) (x : Word),
      (nan32 x = true ∨ x = 0x7F800000 ∨ x = 0xFF800000 → sin mode sat x = 0x7FC00000 ∧ cos mode sat x = 0x7FC00000) ∧
      (∀ (s : Bool) (m : Nat) (e k : Int), fp32.decode x.toNat = .fin s m e → ratOf (.fin s m e) = (k : Rat) / 2 →
        sin mode sat x = (if k % 4 = 1 then 0x3F800000 else if k % 4 = 3 then 0xBF800000 else if s then 0x80000000 else 0) ∧
        cos mode sat x = (if k % 4 = 0 then 0x3F800000 else if k % 4 = 2 then 0xBF800000 else 0)))

/-- The order of floating values, minima and maxima, NaN, infinities and zeros. -/
def Obligations.FloatSpecial : Prop := floatOrderRules ∧ specialOperandsRules


/-- A pair whose elements are each a function of the sources' elements. -/
def eachHalf (op : Nat → Nat → Nat → Nat) (x y z : Word) : Word :=
  BitVec.ofNat 16 (op (x.toNat / 65536) (y.toNat / 65536) (z.toNat / 65536)) ++
    BitVec.ofNat 16 (op (x.toNat % 65536) (y.toNat % 65536) (z.toNat % 65536))

/-- The FP block rounds each element of the pair once, on its own (R193, R318). -/
def pairArithmeticRules : Prop :=
  (let el (m : Fmt) (op : VForm → Fp → Fp → Fp → Fp) (f : VForm) : Word → Word → Word → Word :=
     eachHalf fun x y z => m.round (VForm.rnd f) (VForm.sat f) (op f (m.decode x) (m.decode y) (m.decode z))
   Computes32 .badd2 anyForm (el bf16 fun f a b _ => a.add (VForm.rnd f) b) ∧
   Computes32 .bmul2 anyForm (el bf16 fun _ a b _ => a.mul b) ∧
   Computes32 .bfma2 anyForm (el bf16 fun f a b c => (a.mul b).add (VForm.rnd f) c) ∧
   Computes32 .hadd2 anyForm (el fp16 fun f a b _ => a.add (VForm.rnd f) b) ∧
   Computes32 .hmul2 anyForm (el fp16 fun _ a b _ => a.mul b) ∧
   Computes32 .hfma2 anyForm (el fp16 fun f a b c => (a.mul b).add (VForm.rnd f) c))

/-- Floating arithmetic, on single values and on pairs. -/
def Obligations.FloatArithmetic : Prop := floatArithmeticRules ∧ pairArithmeticRules


/-! ## Tapered formats and conversions -/

/-- VAL of R196, as the spec computes it. -/
def valTapered (m c : Nat) : Rat :=
  if c = 0 then 0
  else
    let b := c.testBit (m - 1)
    let k := ((List.range m).takeWhile fun i => c.testBit (m - 1 - i) == b).length
    let r : Int := if b then (k : Int) - 1 else -(k : Int)
    let l := m - k - 1
    if l = 0 then pow2 (2 * r)
    else
      let e : Int := if c.testBit (l - 1) then 1 else 0
      let fb := l - 1
      pow2 (2 * r + e) * (1 + ((c % 2 ^ fb : Nat) : Rat) / 2 ^ fb)

/-- The magnitudes of T8 (m = 7) and T6 (m = 5), and one beyond the greatest. -/
def taperGrid (m c : Nat) : Rat := if c < 2 ^ m then valTapered m c else pow2 13

/-- T8 and T6 codes mean what R196 says, and TAPER takes the nearest magnitude, an even one on a tie, saturates, drops the
sign of zero, and gives NaR for NaN only (R196, R198). -/
def Obligations.TaperedFormats : Prop :=
  ∀ m, m = 7 ∨ m = 5 →
    (∀ c < 2 ^ (m + 1), (c = 2 ^ m → tDecode m c = .nan) ∧
      (c ≠ 2 ^ m → ∃ (s : Bool) (n : Nat) (e : Int), tDecode m c = .fin s n e ∧ s = decide (2 ^ m ≤ c) ∧ (n : Rat) * pow2 e = valTapered m (c % 2 ^ m))) ∧
    taper m .nan = 2 ^ m ∧ (∀ s, taper m (.inf s) = (if s then 2 ^ m else 0) + (2 ^ m - 1)) ∧
    (∀ (s : Bool) (n : Nat) (e : Int), (valTapered m (2 ^ m - 1) ≤ (n : Rat) * pow2 e → taper m (.fin s n e) = (if s then 2 ^ m else 0) + (2 ^ m - 1)) ∧
      ((n : Rat) * pow2 e < valTapered m (2 ^ m - 1) → ∃ c < 2 ^ m,
        RoundsTo (taperGrid m) 0 s (· < (n : Rat) * pow2 e) (· = (n : Rat) * pow2 e) c ∧
        taper m (.fin s n e) = if c = 0 then 0 else (if s then 2 ^ m else 0) + c))

/-- Width and signedness of the integer types of `CVT` (R187, R265). -/
def integerTypes : List (Ty × Nat × Bool) :=
  [(.i8, 8, true), (.ui8, 8, false), (.i16, 16, true), (.ui16, 16, false), (.i32, 32, true), (.ui32, 32, false),
   (.i64, 64, true), (.ui64, 64, false)]

/-- The number that the low n bits are. -/
def numberOf (n : Nat) (signed : Bool) (x : DWord) : Int :=
  if signed then Int.bmod x.toNat (2 ^ n) else ((x.toNat % 2 ^ n : Nat) : Int)

/-- A number in its place: its low n bits, extended by its own sign (R187). -/
def placed (n : Nat) (signed : Bool) (v : Int) : DWord :=
  BitVec.ofInt 64 (if signed then Int.bmod v (2 ^ n) else v % 2 ^ n)

/-- The nearest number of a type. -/
def nearestIn (n : Nat) (signed : Bool) (v : Int) : Int :=
  if signed then max (-2 ^ (n - 1)) (min (2 ^ (n - 1) - 1) v) else max 0 (min (2 ^ n - 1) v)

/-- `CVT` completes and gives each lane the conversion of its value; 64-bit types are pairs (R319). -/
def convertCompletesRules : Prop :=
  ∀ s cid wx w f, Issues s (.cvt f) cid wx w → Completes s (.cvt f) cid wx fun w' =>
    (let src (l : Nat) : DWord := if f.ty2 = .i64 ∨ f.ty2 = .ui64 then w.wideLane f.imm (f.ty2 == .i64) f.hd.a l
       else (w.valueOf f.imm f.hd.a l).setWidth 64
     let res (l : Nat) : DWord := cvtValue f.ty1 f.ty2 (VForm.rnd f) (VForm.sat f) (src l)
     f.hd.grp = false →
      if f.ty1 = .i64 ∨ f.ty1 = .ui64 then ReceivesPair w w' f.hd res
      else ReceivesWords w w' f.hd f.hd.d fun l => (res l).setWidth 32)

/-- The exact value of a source that is no integer. -/
def floatSource (t : Ty) (x : DWord) : Fp :=
  match t with
  | .bf16 => bf16.decode (x.toNat % 2 ^ 16)
  | .f16 => fp16.decode (x.toNat % 2 ^ 16)
  | .t8 => tDecode 7 (x.toNat % 2 ^ 8)
  | .t6 => tDecode 5 (x.toNat % 2 ^ 6)
  | .e8m0 => if x.toNat % 2 ^ 8 = 255 then .nan else .fin false 1 ((x.toNat % 2 ^ 8 : Nat) - 127)
  | _ => fp32.decode (x.toNat % 2 ^ 32)

/-- The IEEE types and their formats. -/
def ieeeTypes : List (Ty × Fmt) := [(.f32, fp32), (.bf16, bf16), (.f16, fp16)]

/-- The entries of R202: integers wrap or saturate; floats round to integers and are clamped, NaN to 0; integers and floats
round once to a float; tapered values and E8M0 are exact in a float; TAPER; the exponent. -/
def conversionValues : Prop :=
  (∀ p ∈ integerTypes, ∀ q ∈ integerTypes, ∀ (mode : Nat) (x : DWord),
    cvtValue p.1 q.1 mode false x = placed p.2.1 p.2.2 (numberOf q.2.1 q.2.2 x) ∧
    cvtValue p.1 q.1 mode true x = placed p.2.1 p.2.2 (nearestIn p.2.1 p.2.2 (numberOf q.2.1 q.2.2 x))) ∧
  (∀ p ∈ integerTypes, ∀ q ∈ ieeeTypes, ∀ mode < 5, ∀ (sat : Bool) (x : DWord), match floatSource q.1 x with
    | .nan => cvtValue p.1 q.1 mode sat x = 0
    | .inf s => cvtValue p.1 q.1 mode sat x = placed p.2.1 p.2.2 (nearestIn p.2.1 p.2.2 (if s then -2 ^ 70 else 2 ^ 70))
    | .fin s m e => ∃ k : Nat, RoundsTo (fun i => (i : Rat)) mode s (· < (m : Rat) * pow2 e) (· = (m : Rat) * pow2 e) k ∧
        cvtValue p.1 q.1 mode sat x = placed p.2.1 p.2.2 (nearestIn p.2.1 p.2.2 (if s then -(k : Int) else k))) ∧
  (∀ p ∈ ieeeTypes, ∀ q ∈ integerTypes, ∀ mode < 5, ∀ (sat : Bool) (x : DWord) (v : Int), v = numberOf q.2.1 q.2.2 x →
    RoundedCode p.2 mode sat (decide (v < 0)) (· < (v.natAbs : Rat)) (· = (v.natAbs : Rat)) (cvtValue p.1 q.1 mode sat x).toNat) ∧
  (∀ p ∈ ieeeTypes, ∀ q ∈ ieeeTypes, p.1 ≠ .f32 → p.1 ≠ q.1 → ∀ mode < 5, ∀ (sat : Bool) (x : DWord),
    (cvtValue p.1 q.1 mode sat x).toNat = p.2.round mode sat (floatSource q.1 x)) ∧
  (∀ p ∈ ieeeTypes, ∀ q : Ty, (p.1 = .f32 ∧ (q = .bf16 ∨ q = .f16)) ∨ q = .t8 ∨ q = .t6 ∨ (q = .e8m0 ∧ p.1 ≠ .f16) → ∀ (mode : Nat) (sat : Bool) (x : DWord),
    match floatSource q x with
    | .nan => (cvtValue p.1 q mode sat x).toNat = p.2.nanCode
    | .inf s => (cvtValue p.1 q mode sat x).toNat = (if s then p.2.signBit else 0) + p.2.infCode
    | .fin s m e => ∃ n < p.2.infCode, (cvtValue p.1 q mode sat x).toNat = (if s then p.2.signBit else 0) + n ∧
        ieeeGrid p.2 n = (m : Rat) * pow2 e) ∧
  (∀ q ∈ ieeeTypes, ∀ (mode : Nat) (sat : Bool) (x : DWord), (cvtValue .t8 q.1 mode sat x).toNat = taper 7 (floatSource q.1 x) ∧
    (cvtValue .t6 q.1 mode sat x).toNat = taper 5 (floatSource q.1 x)) ∧
  (∀ (mode : Nat) (sat : Bool) (x : DWord), (cvtValue .t6 .t8 mode sat x).toNat = taper 5 (floatSource .t8 x) ∧
    (cvtValue .t8 .t6 mode sat x).toNat = taper 7 (floatSource .t6 x)) ∧
  (∀ q ∈ ieeeTypes, ∀ (mode : Nat) (sat : Bool) (x : DWord), match floatSource q.1 x with
    | .nan | .inf _ => cvtValue .e8m0 q.1 mode sat x = 255
    | .fin _ m e => (m = 0 ∨ (m : Rat) * pow2 e < pow2 (-127) → cvtValue .e8m0 q.1 mode sat x = 0) ∧
        (∀ k : Nat, k ≤ 254 → pow2 ((k : Int) - 127) ≤ (m : Rat) * pow2 e → (m : Rat) * pow2 e < pow2 ((k : Int) - 126) →
          cvtValue .e8m0 q.1 mode sat x = BitVec.ofNat 64 k))

/-- Conversions between formats. -/
def Obligations.Conversions : Prop := convertCompletesRules ∧ conversionValues


/-! ## Granules -/

/-- A granule register is written: values in the writing lanes, and the scale in the side bits of all eight lanes of a
granule that has a writing lane (R321). -/
structure ReceivesGranules (w w' : Weave) (h : Head) (o : Operand) (val : Nat → Word) (scale : Nat → Nat) : Prop where
  writes : ∀ l < 32, (w.writers h).getLsbD l = true → (w'.laneOf o l).val = val l
  keeps : ∀ l < 32, (w.writers h).getLsbD l = false → w.absent.getLsbD l = false → (w'.laneOf o l).val = (w.laneOf o l).val
  hit : ∀ l < 32, (∃ j < 8, (w.writers h).getLsbD (8 * (l / 8) + j) = true) → (w'.laneOf o l).sb = (scale (l / 8)).testBit (l % 8)
  miss : ∀ l < 32, (∀ j < 8, (w.writers h).getLsbD (8 * (l / 8) + j) = false) → w.absent.getLsbD l = false →
    w'.laneOf o l = w.laneOf o l

/-- The scale of granule k of a register (R133, R199). -/
def scaleOf (w : Weave) (o : Operand) (k : Nat) : Nat :=
  ((List.range 8).map fun i => if (w.laneOf o (8 * k + i)).sb then 2 ^ i else 0).sum

/-- The four bytes of an element word. -/
def byteIn (x : Word) (i : Nat) : Nat := x.toNat / 256 ^ i % 256

/-- A word of four element bytes. -/
def wordOf (e : Nat → Nat) : Word := BitVec.ofNat 32 (e 0 + 256 * e 1 + 65536 * e 2 + 16777216 * e 3)

/-- An element's exact value without its scale, and the element that stands for nothing (R199, R322). -/
def plainElem (kind : Ty) (c : Nat) : Fp :=
  match kind with
  | .i8g => .fin (decide (128 ≤ c)) (if 128 ≤ c then 256 - c else c) 0
  | .t6 => tDecode 5 (c % 64)
  | _ => tDecode 7 c
def noElem (kind : Ty) : Nat := match kind with | .i8g => 0 | .t6 => 32 | _ => 128

/-- The scalar formats of the granule instructions. -/
def scalarFmt (t : Ty) : Fmt := match t with | .bf16 => bf16 | .f16 => fp16 | _ => fp32

/-- The kinds of granule. -/
def granuleKinds : List Ty := [.t8, .t6, .i8g]

/-- `TENC` divides by the given scale and tapers, `GSCL` re-scales, `TDEC` and `GUNPK` multiply by the scale and round once
under RNE; a scale of 0xFF stands for no value; elements taper, or round and are clamped to −128 to 127 (R320 to R324,
R326, R327). -/
def granuleResultsRules : Prop :=
  (∀ s cid wx w f, f.hd.grp = false → (f.ty1 = .t8 ∨ f.ty1 = .t6) → isVector f.hd.d = true → Issues s (.tenc f) cid wx w →
    Completes s (.tenc f) cid wx fun w' =>
      (let sc (k : Nat) : Nat := (w.valueOf f.imm f.hd.b (8 * k)).toNat % 256
       ReceivesGranules w w' f.hd f.hd.d (fun l => wordOf fun i =>
        if sc (l / 8) = 255 then noElem f.ty1
        else taper (if f.ty1 = .t8 then 7 else 5) (Fp.scale (127 - (sc (l / 8) : Int))
          ((scalarFmt f.ty2).decode ((w.valueOf 0 (f.hd.a.plus i) l).toNat % (2 * (scalarFmt f.ty2).signBit))))) sc)) ∧
  (∀ s cid wx w f, f.hd.grp = false → f.ty1 ∈ granuleKinds → isVector f.hd.d = true → Issues s (.gscl f) cid wx w →
    Completes s (.gscl f) cid wx fun w' =>
      (let old (k : Nat) : Nat := scaleOf w f.hd.a k
       let new (k : Nat) : Nat := (w.valueOf f.imm f.hd.b (8 * k)).toNat % 256
       ReceivesGranules w w' f.hd f.hd.d (fun l => wordOf fun i =>
        (let x := plainElem f.ty1 (byteIn (w.valueOf 0 f.hd.a l) i)
         if old (l / 8) = 255 ∨ new (l / 8) = 255 ∨ x = .nan then noElem f.ty1
         else elemEncode f.ty1 0 (Fp.scale ((old (l / 8) : Int) - new (l / 8)) x))) new)) ∧
  ComputesLanes .tdec (fun f => f.hd.grp = false ∧ (f.ty2 = .t8 ∨ f.ty2 = .t6) ∧ elementInRange f) (fun w f l => Lane.ofWord (BitVec.ofNat 32
    (if scaleOf w f.hd.a (l / 8) = 255 then (scalarFmt f.ty1).nanCode
     else (scalarFmt f.ty1).round 0 false (Fp.scale ((scaleOf w f.hd.a (l / 8) : Int) - 127)
       (plainElem f.ty2 (byteIn (w.valueOf 0 f.hd.a l) ((w.readG f.imm f.hd.b).toNat % 4))))))) ∧
  (∀ s cid wx w f, f.hd.grp = false → f.ty2 ∈ granuleKinds → Issues s (.gunpk f) cid wx w →
    Completes s (.gunpk f) cid wx fun w' => ∀ k < 4, ReceivesWords w w' f.hd (f.hd.d.plus k) fun l => BitVec.ofNat 32
      (if scaleOf w f.hd.a (l / 8) = 255 then (scalarFmt f.ty1).nanCode
       else (scalarFmt f.ty1).round 0 false (Fp.scale ((scaleOf w f.hd.a (l / 8) : Int) - 127)
         (plainElem f.ty2 (byteIn (w.valueOf 0 f.hd.a l) k))))) ∧
  (∀ (mode : Nat) (x : Fp), elemEncode .t8 mode x = taper 7 x ∧ elemEncode .t6 mode x = taper 5 x) ∧
  (∀ mode < 5, ∀ (s : Bool) (m : Nat) (e : Int), elemEncode .i8g mode (.inf s) = (if s then 128 else 127) ∧ ∃ k : Nat,
    RoundsTo (fun i => (i : Rat)) mode s (· < (m : Rat) * pow2 e) (· = (m : Rat) * pow2 e) k ∧
    elemEncode .i8g mode (.fin s m e) = (nearestIn 8 true (if s then -(k : Int) else k) % 256).toNat)

/-- The magnitude that an element counts with in `GPACK` (R325). -/
def packMagnitude (m : Fmt) (x : Fp) : Rat :=
  match x with
  | .fin _ n e => (n : Rat) * pow2 e
  | .inf _ => ieeeGrid m m.maxCode
  | .nan => 0

/-- `GPACK` chooses for each granule the scale that brings its largest element into [1, 2), or for I8G into [64, 128),
clamped; 0x7F when all are zero and 0xFF when one is NaN; and encodes under it (R325). -/
def granulePackRules : Prop :=
  ∀ s cid wx w f, f.hd.grp = false → f.ty1 ∈ granuleKinds → isVector f.hd.d = true → Issues s (.gpack f) cid wx w →
    Completes s (.gpack f) cid wx fun w' =>
      (let m := scalarFmt f.ty2
       let take (l : Nat) : Bool := (w.writers f.hd).getLsbD l ||
         (w.absent.getLsbD l && decide (w.writers f.hd ||| w.absent = BitVec.allOnes 32))
       let el (l i : Nat) : Fp := m.decode ((w.valueOf 0 (f.hd.a.plus i) l).toNat % (2 * m.signBit))
       let xs (k : Nat) : List Fp := ((List.range 8).filter fun j => take (8 * k + j)).flatMap fun j =>
         (List.range 4).map fun i => el (8 * k + j) i
       ∃ sc : Nat → Nat, ReceivesGranules w w' f.hd f.hd.d (fun l => wordOf fun i =>
           if sc (l / 8) = 255 then noElem f.ty1
           else elemEncode f.ty1 (VForm.rnd f) (Fp.scale (127 - (sc (l / 8) : Int)) (el l i))) sc ∧
         ∀ k < 4, (Fp.nan ∈ xs k → sc k = 255) ∧
           (Fp.nan ∉ xs k → (∀ x ∈ xs k, packMagnitude m x = 0) → sc k = 127) ∧
           (∀ e : Int, Fp.nan ∉ xs k → (∀ x ∈ xs k, packMagnitude m x < pow2 (e + 1)) →
             (∃ x ∈ xs k, pow2 e ≤ packMagnitude m x) →
             (sc k : Int) = max 0 (min 254 (e + 127 - if f.ty1 = .i8g then 6 else 0))))

/-- Granule instructions on registers. -/
def Obligations.Granules : Prop := granuleResultsRules ∧ granulePackRules

/-! ## Traps -/

/-- A source field whose EM bit is 1 names an empty register (R139). -/
def emptySource (w : Weave) (i : Instr) : Prop :=
  ∃ h k x, (formOf i).head? = some h ∧ k < 3 ∧ h.em.getLsbD k = true ∧ (fieldRuns i)[k + 1]? = some x ∧ w.anyEmpty x.1 x.2 = true

/-- A field names a register beyond the allotment, or a table handle at or beyond TBLQ (R134, R211). -/
def beyondAllotment (s : State) (cid : Nat) (w : Weave) (i : Instr) : Prop :=
  (∃ x ∈ fieldRuns i, w.outOfRange x.1 x.2 = true) ∨ handleBeyond (s.tblqOf cid) i = true

/-- A run of h registers passes h15 (R310). -/
def pastH15 (i : Instr) : Prop := ∃ x ∈ fieldRuns i, kindOf x.1 = .h ∧ 16 < regNo x.1 + x.2

/-- The checks that every weave instruction makes at issue, in the order of R226: `PRIVILEGED_OPERAND`,
`PRIVILEGED_OPCODE`, `REG_RANGE`, `FE_EMPTY`, each a precise trap with the exec mask in `hfm` that leaves every register as
it was (R225, R227); then an empty register holds the instruction, which changes nothing (R139). That `hfm` is the exec mask
for these causes is the model's reading (log entry 70), and that a table handle at or beyond TBLQ is `REG_RANGE` in step 3
(log entry 26). -/
def Obligations.IssueChecks : Prop :=
  ∀ (s : State) (i : Instr) (cid wx : Nat) (w : Weave), isEvent i = false → s.cur = some (cid, wx) → s.weave? cid wx = some w →
    (let privOperand : Prop := w.mode = .user ∧ ∃ x ∈ fieldRuns i, kindOf x.1 = .h ∨ kindOf x.1 = .hg
     let privOpcode : Prop := w.mode = .user ∧ supervisorOnly i = true
     (privOperand → Traps s i cid wx w .privilegedOperand w.pc w.exec noVa) ∧
     (privOpcode → ¬ privOperand → Traps s i cid wx w .privilegedOpcode w.pc w.exec noVa) ∧
     (beyondAllotment s cid w i → ¬ privOperand → ¬ privOpcode → w.mode = .user →
       Traps s i cid wx w .regRange w.pc w.exec noVa) ∧
     (emptySource w i → ¬ beyondAllotment s cid w i → ¬ privOperand → ¬ privOpcode → w.mode = .user →
       Traps s i cid wx w .feEmpty w.pc w.exec noVa) ∧
     ((∃ x ∈ fieldRuns i, w.anyEmpty x.1 x.2 = true) → ¬ emptySource w i → ¬ beyondAllotment s cid w i →
       ¬ privOperand → ¬ privOpcode → ¬ pastH15 i → exec i s = .next s))

/-- TRAP ENTRY. From user mode a trap makes the changes of R227 in one step, with its cause, PC, lanes and faulting VAs; it
abandons what the weave waits for (R225). -/
def Obligations.TrapEntry : Prop :=
  ∀ (w : Weave) (t : Pending), w.mode = .user →
    TrapEntered w (w.enterTrap t) t.cause t.defer t.pc t.lanes (fun l => nthD t.vas l 0) ∧
    (w.enterTrap t).wait = .none ∧ (w.enterTrap t).pend = none ∧ (w.enterTrap t).handler = some .entered ∧
    (w.enterTrap t).hg = w.hg ∧ (∀ k, 2 ≤ k → k < w.h.length → (w.enterTrap t).h[k]? = w.h[k]?)

/-- In supervisor mode only `hcause` changes: CAUSE is `DOUBLE_TRAP`, SUP is 1 and DEFER is the second trap's; the values of
the first entry stay (R234). -/
def doubleTrapRules : Prop :=
  (∀ (w : Weave) (t : Pending), w.mode = .super →
    (w.enterTrap t).hcause = (if t.defer then 0x1E3 else 0x163) ∧
    w.enterTrap t = { w with hcause := (w.enterTrap t).hcause, handler := some .entered, wait := .none, walked := [],
                             wakeRes := none, pend := none }) ∧
  (∀ (s : State) (i : Instr) (cid wx : Nat) (w : Weave), isEvent i = false → s.cur = some (cid, wx) → s.weave? cid wx = some w →
    w.mode = .super → beyondAllotment s cid w i ∨ pastH15 i → ∃ t w', exec i s = .next t ∧ Replaces s t cid wx w' ∧ w'.hcause = 0x163 ∧
      w'.hpc = w.hpc ∧ w'.hxm = w.hxm ∧ w'.hfm = w.hfm ∧ w'.hhm = w.hhm ∧ w'.h = w.h ∧ w'.pc = w.pc ∧ w'.mode = .super)

/-- `TRET` gives back the masks and the PC of the trap and user mode; absent lanes stay absent; v, g, p, q and b registers,
full/empty bits, tokens and memory are as they were. Registers h and hg are not preserved (R233); what they hold then is a
free value (log entry 3). -/
def Obligations.ReturnFromTrap : Prop :=
  ∀ (s : State) (cid wx : Nat) (w : Weave) (f : SForm), Issues s (.tret f) cid wx w → w.kept = .none → w.acts f.hd = true →
    ∃ t w', exec (.tret f) s = .next t ∧ t.weave? cid wx = some w' ∧ w'.exec = w.hxm &&& ~~~ w.absent ∧
      w'.helper = w.hhm &&& ~~~ w.absent ∧ w'.pc = w.hpc.setWidth 52 ∧ w'.mode = .user ∧ w'.handler = none ∧ w'.wait = .none ∧
      SameContext w w' ∧ SameMemory s t ∧ t = { s with crews := t.crews, fresh := t.fresh } ∧
      (∀ x, x ≠ cid → t.crew? x = s.crew? x)

/-- `BKPT`, `TRAP` and `SVC` trap after their own execution: `hpc` is their PC + 16 and `hfm` holds the lanes whose guard
passes, in the group form the exec mask. A guard that passes in no lane makes them NOPs (R227, R294, R363). -/
def Obligations.SoftwareTraps : Prop :=
  ∀ (s : State) (cid wx : Nat) (w : Weave) (i : Instr) (h : Head) (c : Cause),
    (∃ f, (i = .bkpt f ∧ c = .breakpoint ∧ h = f.hd) ∨ (i = .trap f ∧ c = .softwareTrap ∧ h = f.hd)) ∨
      (∃ f, i = .svc f ∧ c = .service ∧ h = f.hd) →
    Issues s i cid wx w → w.mode = .user →
    (let acts : Bool := if h.grp then w.qPass h else w.actors h != 0
     (acts = true → Traps s i cid wx w c (w.pc + 16) (if h.grp then w.exec else w.actors h) noVa) ∧
     (acts = false → ∃ t w', exec i s = .next t ∧ Replaces s t cid wx w' ∧ w'.pc = w.pc + 16 ∧ OnlyRegs [] w w'))

/-- The value of a CSR; one of the supervisor's reads 0 in user mode (R228, R244, R365). -/
def csrValue (c : Crew) (w : Weave) (n : Nat) : DWord :=
  if n = 0x0010 then (c.hscope.setWidth 64) ||| (if c.attach then 4 else 0)
  else if n = 0x0011 then c.dbgsig
  else if w.mode = .user then 0
  else if n = 0x0800 then w.hcause.setWidth 64
  else if n = 0x0801 then w.hpc
  else if n = 0x0802 then w.hxm.setWidth 64
  else if n = 0x0803 then w.hfm.setWidth 64
  else w.hhm.setWidth 64

/-- The value that `CSRW` writes: a scalar, or a pair for the two 64-bit CSRs. -/
def csrOperand (w : Weave) (f : SForm) : DWord :=
  if f.csr.toNat = 0x0011 ∨ f.csr.toNat = 0x0801 then w.wideG f.imm false f.hd.a else (w.readG f.imm f.hd.a).setWidth 64

/-- A value that sets a reserved bit, or HSCOPE to 3 (R365). -/
def csrReserved (n : Nat) (x : DWord) : Prop :=
  (n = 0x0010 ∧ (x.toNat % 4 = 3 ∨ 8 ≤ x.toNat)) ∨ (n = 0x0800 ∧ 512 ≤ x.toNat) ∨ (n = 0x0801 ∧ 2 ^ 52 ≤ x.toNat)

/-- `CSRR` and `CSRW` on every CSR: values, the supervisor's own, the pair of a 64-bit CSR, and `RESERVED_FIELD` on a
reserved bit, which changes nothing (R228, R229, R244, R365). -/
def Obligations.SystemRegisters : Prop :=
  (∀ (s : State) cid wx (w : Weave) (f : SForm) (c : Crew), s.crew? cid = some c → f.csr.toNat ∈ csrNumbers → f.hd.grp = true →
    Issues s (.csrr f) cid wx w → Completes s (.csrr f) cid wx fun w' =>
      (let x := csrValue c w f.csr.toNat
       if f.csr.toNat = 0x0011 ∨ f.csr.toNat = 0x0801 then ReceivesPair w w' f.hd fun _ => x
       else ReceivesWords w w' f.hd f.hd.d fun _ => x.setWidth 32)) ∧
  (∀ (s : State) cid wx (w : Weave) (f : SForm) (c : Crew) (x : DWord), s.crew? cid = some c → f.csr.toNat ∈ csrNumbers →
    x = csrOperand w f → w.qPass f.hd = true → Issues s (.csrw f) cid wx w →
    (csrReserved f.csr.toNat x → w.mode = .user → Traps s (.csrw f) cid wx w .reservedField w.pc w.exec noVa) ∧
    (¬ csrReserved f.csr.toNat x → ∃ t w' c', exec (.csrw f) s = .next t ∧ t.weave? cid wx = some w' ∧ t.crew? cid = some c' ∧
      SameMemory s t ∧ w'.pc = w.pc + 16 ∧
      OnlyRegs [] { w with hcause := w'.hcause, hpc := w'.hpc, hxm := w'.hxm, hfm := w'.hfm, hhm := w'.hhm } w' ∧
      c' = { c with weaves := c'.weaves, hscope := c'.hscope, attach := c'.attach, dbgsig := c'.dbgsig } ∧
      c'.hscope = (if f.csr.toNat = 0x0010 then x.setWidth 2 else c.hscope) ∧
      c'.attach = (if f.csr.toNat = 0x0010 then x.getLsbD 2 else c.attach) ∧
      c'.dbgsig = (if f.csr.toNat = 0x0011 then x else c.dbgsig) ∧
      w'.hcause = (if f.csr.toNat = 0x0800 then x.setWidth 32 else w.hcause) ∧
      w'.hpc = (if f.csr.toNat = 0x0801 then x else w.hpc) ∧
      w'.hxm = (if f.csr.toNat = 0x0802 then x.setWidth 32 else w.hxm) ∧
      w'.hfm = (if f.csr.toNat = 0x0803 then x.setWidth 32 else w.hfm) ∧
      w'.hhm = (if f.csr.toNat = 0x0804 then x.setWidth 32 else w.hhm)))

/-! ## Flow -/

/-- After a control instruction: no register, predicate, translation register or byte of memory has changed. -/
structure Flows (s t : State) (cid wx : Nat) (w w' : Weave) : Prop where
  weave : t.weave? cid wx = some w'
  regs : w' = { w with pc := w'.pc, exec := w'.exec, toks := w'.toks, exited := w'.exited, spin := w'.spin, wait := w'.wait,
                       walked := w'.walked, wakeRes := w'.wakeRes, stamp := w'.stamp, parked := w'.parked, yld := w'.yld,
                       yldUntil := w'.yldUntil }
  memory : SameMemory s t

/-- The instruction completes and leaves the weave at a PC with an exec mask and a token stack. -/
def FlowsTo (s : State) (i : Instr) (cid wx : Nat) (w : Weave) (pc : Pc) (exec : Mask) (toks : List Token) : Prop :=
  ∃ t w', Sys2Proof.Machine.exec i s = .next t ∧ Flows s t cid wx w w' ∧ w'.pc = pc ∧ w'.exec = exec ∧ w'.toks = toks ∧
    w'.exited = w.exited

/-- A token record holds a lane: in RMASK, or in the PMASK of an IF or LOOP; the PMASK of an ELSE or CALL is 0 (R130). -/
def holdsLane (t : Token) : Prop := t.rmask ≠ 0 ∨ ((t.kind = .ifk ∨ t.kind = .loopk) ∧ t.pmask ≠ 0)

/-- The instruction completes as a weave with an exec mask, a token stack and a PC does after RESUME: it goes on from there,
or, when no record holds a lane, it exits. -/
def Resumes (s : State) (i : Instr) (cid wx : Nat) (w : Weave) (pc : Pc) (m exited : Mask) (toks : List Token) : Prop :=
  (let x : Weave := ({ w with pc := pc, exec := m, exited := exited, toks := toks } : Weave).resume
   ∃ t, exec i s = .next t ∧
    (m ≠ 0 ∨ (∃ r ∈ toks, holdsLane r) → ∃ w', Flows s t cid wx w w' ∧ w'.pc = x.pc ∧ w'.exec = x.exec ∧ w'.toks = x.toks ∧
      w'.exited = exited ∧ w'.exec ≠ 0) ∧
    (m = 0 → (∀ r ∈ toks, ¬ holdsLane r) → ∀ w', t.weave? cid wx = some w' → w'.done = true ∧ w'.exec = 0))

/-- What R123 calls ready: the weave neither waits nor is done and its handler, if it is in one, has something to do; else
its next instruction has been fetched, none of its registers is empty, and it neither waits in a `FENCE` for its loads nor at a
load for room to count one more. -/
def readyRules : Prop :=
  ∀ (w : Weave) tblq, w.isReady tblq = true ↔ w.done = false ∧ w.wait = .none ∧
    (match w.handler with
     | some .entered | some (.resolve _) => True
     | some _ => False
     | none => ∃ r, w.nextInstr = some r ∧ ∀ i, r = .ok i → w.stop tblq i ≠ .hold ∧
        ¬ ((∃ f, i = .fence f ∧ w.acts f.hd = true ∧ w.outst ≠ 0) ∨
          (∃ f, i ∈ [Instr.ld f, .lds f, .ldc f] ∧ 255 ≤ w.outst ∧ w.actors f.hd ≠ 0)))

/-- `BRA`, `BRX`, `CALL`, `RET`, `NOP` and `YLD`: where the weave goes on and what becomes of masks and tokens; one whose
guard does not pass uniformly is a NOP, and `CALL` lets the lanes whose guard passes go; a `RET` to a record without lanes
resumes; a `YLD` waits for the weaves of its slot that are ready as R123 says (R123, R286 to R288, R294). -/
def Obligations.Flow : Prop :=
  (∀ s cid wx w (f : BForm), Issues s (.bra f) cid wx w → FlowsTo s (.bra f) cid wx w
    (if w.uniform f.hd then w.pc + 16 * f.off.signExtend 52 else w.pc + 16) w.exec w.toks) ∧
  (∀ s cid wx w (f : BForm) (x : Pc), Issues s (.brx f) cid wx w →
    x = (w.wideLane 0 false f.hd.a ((lowestLane w.exec).getD 0)).setWidth 52 →
    (w.uniform f.hd = true → x.toNat % 16 = 0 → FlowsTo s (.brx f) cid wx w x w.exec w.toks) ∧
    (w.uniform f.hd = true → x.toNat % 16 ≠ 0 → w.mode = .user → Traps s (.brx f) cid wx w .pcMisaligned w.pc w.exec noVa) ∧
    (w.uniform f.hd = false → FlowsTo s (.brx f) cid wx w (w.pc + 16) w.exec w.toks)) ∧
  (∀ s cid wx w (f : BForm) (m : Mask), Issues s (.call f) cid wx w →
    m = (if f.hd.grp then (if w.qPass f.hd then w.exec else 0) else w.actors f.hd) →
    (m = 0 → FlowsTo s (.call f) cid wx w (w.pc + 16) w.exec w.toks) ∧
    (m ≠ 0 → w.toks.length < 48 → FlowsTo s (.call f) cid wx w (w.pc + 16 * f.off.signExtend 52) m
      (⟨.callk, w.exec, 0, w.pc + 16, 0⟩ :: w.toks)) ∧
    (m ≠ 0 → 48 ≤ w.toks.length → w.mode = .user → Traps s (.call f) cid wx w .tokenOverflow w.pc w.exec noVa)) ∧
  (∀ s cid wx w (f : BForm), Issues s (.ret f) cid wx w →
    (w.uniform f.hd = false → FlowsTo s (.ret f) cid wx w (w.pc + 16) w.exec w.toks) ∧
    (w.uniform f.hd = true → w.done = false → ∀ t ts, w.toks = t :: ts → t.kind = .callk → t.rmask ≠ 0 →
      FlowsTo s (.ret f) cid wx w t.pca t.rmask ts) ∧
    (w.uniform f.hd = true → w.done = false → ∀ t ts, w.toks = t :: ts → t.kind = .callk →
      Resumes s (.ret f) cid wx w t.pca t.rmask w.exited ts) ∧
    (w.uniform f.hd = true → w.toks = [] → w.mode = .user → Traps s (.ret f) cid wx w .tokenUnderflow w.pc w.exec noVa) ∧
    (w.uniform f.hd = true → ∀ t ts, w.toks = t :: ts → t.kind ≠ .callk → w.mode = .user →
      Traps s (.ret f) cid wx w .tokenMismatch w.pc w.exec noVa)) ∧
  (∀ s cid wx w (f : BForm), Issues s (.nop f) cid wx w → FlowsTo s (.nop f) cid wx w (w.pc + 16) w.exec w.toks) ∧
  (∀ (s : State) cid wx (w : Weave) (f : BForm) (c : Crew) k, Issues s (.yld f) cid wx w → s.crew? cid = some c →
    c.place = .resident k → FlowsTo s (.yld f) cid wx w (w.pc + 16) w.exec w.toks ∧
    (w.uniform f.hd = true → Completes s (.yld f) cid wx fun w' =>
      w'.yldUntil = (s.die (k / 64)).clkM / 1000 + 16 ∧
      ∀ x j y, s.crew? x.cid = some x → x ∈ s.crews → x.place = .resident k → x.weaves[j]? = some y → y.slot = w.slot →
        y.isReady x.shape.tblq = true → (x.cid, j) ≠ (cid, wx) → (x.cid, j, y.lastIssue) ∈ w'.yld)) ∧
  readyRules

/-! ## Divergence -/

/-- RESUME (R290): while the exec mask is 0, the top record gives the next path that holds lanes: an IF its false lanes, at
the instruction after the else target, and becomes an ELSE, whose PCA is 0 (R130); an IF or ELSE is popped and its lanes go on past the `JOIN`; a
LOOP gives its parked lanes, at its `LEND`, then its own, at the loop exit; a CALL its own, at the return PC. A record
without lanes is passed over, and with no record left the weave exits. -/
def Obligations.Resume : Prop :=
  ∀ (w : Weave), (w.exec ≠ 0 → w.resume = w) ∧ (w.exec = 0 →
    (w.toks = [] → w.resume.done = true ∧ w.resume.exec = 0 ∧ w.resume.helper = 0 ∧ w.resume.toks = []) ∧
    ∀ t ts, w.toks = t :: ts →
      (t.kind = .ifk → t.pmask ≠ 0 →
        w.resume = { w with exec := t.pmask, pc := t.pca + 16, toks := { t with pmask := 0, kind := .elsek, pca := 0 } :: ts }) ∧
      ((t.kind = .ifk ∧ t.pmask = 0) ∨ t.kind = .elsek → t.rmask ≠ 0 →
        w.resume = { w with exec := t.rmask, pc := t.pcj + 16, toks := ts }) ∧
      (t.kind = .loopk → t.pmask ≠ 0 → w.resume = { w with exec := t.pmask, pc := t.pcj - 16, toks := { t with pmask := 0 } :: ts }) ∧
      (t.kind = .loopk → t.pmask = 0 → t.rmask ≠ 0 → w.resume = { w with exec := t.rmask, pc := t.pcj, toks := ts }) ∧
      (t.kind = .callk → t.rmask ≠ 0 → w.resume = { w with exec := t.rmask, pc := t.pca, toks := ts }) ∧
      (t.rmask = 0 → (t.kind = .ifk ∨ t.kind = .loopk → t.pmask = 0) → w.resume = ({ w with toks := ts } : Weave).resume))

/-- The lanes whose guard passes and whose predicate bit is 1. -/
def takenLanes (w : Weave) (f : BForm) : Mask := w.actors f.hd &&& w.predBits f.hd.a

/-- `IFB`, `ELSB` and `JOIN`, with the causes of a full stack, an empty one and a record of another kind (R129, R130, R292); a token
instruction or an `EXIT` under a guard that never passes changes nothing but PC (R251). -/
def Obligations.Conditionals : Prop :=
  (∀ s cid wx w (f : BForm) (i : Instr), i ∈ [Instr.ifb f, .brkl f, .contl f, .lend f, .exit_ f] → neverPasses f.hd = true →
    Issues s i cid wx w → FlowsTo s i cid wx w (w.pc + 16) w.exec w.toks) ∧
  (∀ s cid wx w (f : BForm), Issues s (.ifb f) cid wx w → w.done = false → neverPasses f.hd = false →
    (w.toks.length < 48 → Resumes s (.ifb f) cid wx w (w.pc + 16) (takenLanes w f) w.exited
      (⟨.ifk, w.exec, w.exec &&& ~~~ takenLanes w f, w.pc + 16 * f.off.signExtend 52,
        w.pc + 16 * f.off.signExtend 52 + 16 * f.tok.setWidth 52⟩ :: w.toks)) ∧
    (48 ≤ w.toks.length → w.mode = .user → Traps s (.ifb f) cid wx w .tokenOverflow w.pc w.exec noVa)) ∧
  (∀ s cid wx w (f : BForm), Issues s (.elsb f) cid wx w → w.done = false →
    (∀ t ts, w.toks = t :: ts → t.kind = .ifk →
      Resumes s (.elsb f) cid wx w (w.pc + 16) t.pmask w.exited ({ t with pmask := 0, kind := .elsek, pca := 0 } :: ts)) ∧
    (w.mode = .user → w.toks = [] → Traps s (.elsb f) cid wx w .tokenUnderflow w.pc w.exec noVa) ∧
    (w.mode = .user → ∀ t ts, w.toks = t :: ts → t.kind ≠ .ifk → Traps s (.elsb f) cid wx w .tokenMismatch w.pc w.exec noVa)) ∧
  (∀ s cid wx w (f : BForm), Issues s (.join f) cid wx w → w.done = false →
    (∀ t ts, w.toks = t :: ts → t.kind = .elsek → Resumes s (.join f) cid wx w (w.pc + 16) t.rmask w.exited ts) ∧
    (w.mode = .user → w.toks = [] → Traps s (.join f) cid wx w .tokenUnderflow w.pc w.exec noVa) ∧
    (w.mode = .user → ∀ t ts, w.toks = t :: ts → t.kind ≠ .elsek → Traps s (.join f) cid wx w .tokenMismatch w.pc w.exec noVa))

/-- Lanes leave a record. -/
def lessLanes (x : Mask) (t : Token) : Token := { t with rmask := t.rmask &&& ~~~ x, pmask := t.pmask &&& ~~~ x }

/-- `LOOP`, `BRKL`, `CONTL` and `LEND` (R293), and `EXIT`, whose lanes leave the exec mask and every record (R128, R289). -/
def Obligations.Loops : Prop :=
  (∀ s cid wx w (f : BForm), Issues s (.loop f) cid wx w → w.done = false →
    (w.toks.length < 48 → Resumes s (.loop f) cid wx w (w.pc + 16) w.exec w.exited
      (⟨.loopk, w.exec, 0, w.pc + 16, w.pc + 16 * f.off.signExtend 52⟩ :: w.toks)) ∧
    (48 ≤ w.toks.length → w.mode = .user → Traps s (.loop f) cid wx w .tokenOverflow w.pc w.exec noVa)) ∧
  (∀ s cid wx w (f : BForm) (park : Bool) (i : Instr), i = (if park then Instr.contl f else Instr.brkl f) → Issues s i cid wx w →
    w.done = false → neverPasses f.hd = false →
    (∀ (above : List Token) (t : Token) (rest : List Token), w.toks = above ++ t :: rest → (∀ r ∈ above, r.kind = .ifk ∨ r.kind = .elsek) → t.kind = .loopk →
      Resumes s i cid wx w (w.pc + 16) (w.exec &&& ~~~ takenLanes w f) w.exited
        (above.map (lessLanes (takenLanes w f)) ++
          ({ t with pmask := if park then t.pmask ||| takenLanes w f else t.pmask } : Token) :: rest)) ∧
    (w.mode = .user → w.toks = [] → Traps s i cid wx w .tokenUnderflow w.pc w.exec noVa) ∧
    (w.mode = .user → w.toks ≠ [] → (∀ r ∈ w.toks, r.kind = .ifk ∨ r.kind = .elsek) →
      Traps s i cid wx w .tokenMismatch w.pc w.exec noVa) ∧
    (w.mode = .user → ∀ (above : List Token) (t : Token) (rest : List Token), w.toks = above ++ t :: rest → (∀ r ∈ above, r.kind = .ifk ∨ r.kind = .elsek) →
      t.kind = .callk → Traps s i cid wx w .tokenMismatch w.pc w.exec noVa)) ∧
  (∀ s cid wx w (f : BForm), Issues s (.lend f) cid wx w → w.done = false → neverPasses f.hd = false →
    (∀ t ts (c : Mask), w.toks = t :: ts → t.kind = .loopk → t.pcj = w.pc + 16 →
      c = (w.exec ||| t.pmask) &&& ~~~ w.exited &&& w.guardMask f.hd &&& w.predBits f.hd.a →
      (c ≠ 0 → FlowsTo s (.lend f) cid wx w (w.pc + 16 * f.off.signExtend 52) c ({ t with pmask := 0 } :: ts)) ∧
      (c = 0 → Resumes s (.lend f) cid wx w (w.pc + 16) t.rmask w.exited ts)) ∧
    (w.mode = .user → w.toks = [] → Traps s (.lend f) cid wx w .tokenUnderflow w.pc w.exec noVa) ∧
    (w.mode = .user → ∀ t ts, w.toks = t :: ts → (t.kind ≠ .loopk ∨ t.pcj ≠ w.pc + 16) →
      Traps s (.lend f) cid wx w .tokenMismatch w.pc w.exec noVa)) ∧
  (∀ s cid wx w (f : BForm) (m : Mask), Issues s (.exit_ f) cid wx w → w.done = false → neverPasses f.hd = false →
    m = (if f.hd.grp then (if w.qPass f.hd then w.exec else 0) else w.actors f.hd) →
    Resumes s (.exit_ f) cid wx w (w.pc + 16) (w.exec &&& ~~~ m) (w.exited ||| m) (w.toks.map (lessLanes m)))

/-! ## Addresses -/

/-- A range crosses a 64-byte line. -/
def crossesLine (a n : Nat) : Prop := a / 64 ≠ (a + n - 1) / 64

/-- A lane's scratch offset runs through the crew's window, a commons offset names a die and an offset of the owner's slice;
outside they are `SCRATCH_RANGE` and `COMMONS_RANGE`; an atomic that crosses a line is `ATOMIC_SPLIT`; a slice on a die of
another partition is blocked after issue (R145 to R147, R225). The faulting VA of the local causes is 0 by the model's choice
(log entry 25). -/
def localAddressesRules : Prop :=
  (∀ (s : State) (c : Crew) (a : Access) (e : Int), c.inGang = false → 0 < a.size →
    (e < 0 ∨ c.shape.scrkb * 1024 + c.shape.ringBytes < e + a.size → s.probeScratch c a e = .bad .scratchRange 0) ∧
    (0 ≤ e → e + a.size ≤ c.shape.scrkb * 1024 + c.shape.ringBytes →
      (a.atomic = true ∧ crossesLine e.toNat a.size → s.probeScratch c a e = .bad .atomicSplit 0) ∧
      (¬ (a.atomic = true ∧ crossesLine e.toNat a.size) →
        s.probeScratch c a e = .ok [Piece.mk (.scratch c.cid e.toNat) a.size 0 true false none]))) ∧
  (∀ (s : State) (owner : Nat) (t : Tenant) (a : Access) (e : Int) (d off : Nat), s.tenant? owner = some t →
    d = e.toNat / 2 ^ 26 → off = e.toNat % 2 ^ 26 →
    (e < 0 ∨ 4 ≤ d ∨ t.commonsMib * 2 ^ 20 < off + a.size → s.probeCommons owner a e = .bad .commonsRange 0) ∧
    (0 ≤ e → d < 4 → off + a.size ≤ t.commonsMib * 2 ^ 20 →
      (a.atomic = true ∧ crossesLine off a.size → s.probeCommons owner a e = .bad .atomicSplit 0) ∧
      (¬ (a.atomic = true ∧ crossesLine off a.size) → s.partOf d ≠ t.part → s.probeCommons owner a e = .late .firewallBlocked) ∧
      (¬ (a.atomic = true ∧ crossesLine off a.size) → s.partOf d = t.part →
        s.probeCommons owner a e = .ok [Piece.mk (.commons owner d off) a.size 0 true false none])))

/-- The place of an offset in windows that follow one another (R146). -/
def windowPlace : List Crew → Nat → Option Loc
  | [], _ => none
  | c :: cs, x => if x < c.window then some (.scratch c.cid x) else windowPlace cs (x - c.window)

/-- The scratch addresses of a crew in a gang run through the windows of the gang's members in member order, and an access may
run from one into the next; the causes are those of a single window (R146). -/
def gangAddressesRules : Prop :=
  ∀ (s : State) (c : Crew) (a : Access) (e : Int) (ws : List Crew), c.inGang = true → ws = s.windows c → 0 < a.size →
    (∀ x ∈ ws, x ∈ s.crews ∧ x.lid = c.lid ∧ x.unit = c.unit ∧ x.inGang = true) ∧ ws.Pairwise (fun x y => x.member < y.member) ∧
    (∀ x ∈ s.crews, x.lid = c.lid → x.unit = c.unit → x.inGang = true → x.member < 16 → ∃ y ∈ ws, y.member = x.member) ∧
    (e < 0 ∨ (ws.map Crew.window).sum < e + a.size → s.probeScratch c a e = .bad .scratchRange 0) ∧
    (0 ≤ e → e + a.size ≤ (ws.map Crew.window).sum →
      (a.atomic = true ∧ crossesLine e.toNat a.size → s.probeScratch c a e = .bad .atomicSplit 0) ∧
      (¬ (a.atomic = true ∧ crossesLine e.toNat a.size) → ∃ ps, s.probeScratch c a e = .ok ps ∧
        (ps.flatMap fun p => (List.range p.len).map fun j => some (p.loc.plus j)) =
          (List.range a.size).map fun j => windowPlace ws (e.toNat + j)))

/-- A physical range is backed by HBM of the owner's partition (R17, R61). -/
def paOpen (s : State) (t : Tenant) (pa n : Nat) : Prop :=
  paBacked pa = true ∧ paBacked (pa + n - 1) = true ∧ s.partOf (paDie pa) = t.part

/-- A global access: VA = VABASE + offset modulo 2^52. A translation register that is valid, of the current generation and
long enough, with the permission, gives PABASE + offset. Any other access translates its page: a page that is absent or
forbids the access is the cause, in the order of R226, and a leaf gives its frame (R144, R145, R153, R155, R158). -/
def globalAddressesRules : Prop :=
  ∀ (s : State) (w : Weave) (core owner xb : Nat) (b : TReg) (t : Tenant) (a : Access) (e : Int) (va : Nat),
    w.b[xb]? = some b → s.tenant? owner = some t → 0 < a.size → va = (((b.vabase.toNat : Int) + e).emod (2 ^ 52)).toNat →
    (let fast : Prop := b.bv = true ∧ b.tgen.toNat = nthD t.gens (core / 64) 0 % 2 ^ 16 ∧ 0 ≤ e ∧ e + a.size ≤ b.limit.toNat ∧
       (a.read = true → b.br = true) ∧ (a.write = true → b.bw = true)
     let split : Prop := a.atomic = true ∧ crossesLine va a.size
     (fast → split → s.probeGlobal w core owner xb a e = .bad .atomicSplit va) ∧
     (fast → ¬ split → paOpen s t (b.pabase.toNat + e.toNat) a.size → s.probeGlobal w core owner xb a e =
       .ok [Piece.mk (.hbm (b.pabase.toNat + e.toNat)) a.size b.kind.toNat b.watch false none]) ∧
     (fast → ¬ split → paBacked (b.pabase.toNat + e.toNat) = false → s.probeGlobal w core owner xb a e = .late .paUnbacked) ∧
     (¬ fast → va % 2 ^ 16 + a.size ≤ 2 ^ 16 →
       (s.xlate w core owner va = .walk → s.probeGlobal w core owner xb a e = .walk [va / 2 ^ 16]) ∧
       (s.xlate w core owner va ≠ .walk → split → s.probeGlobal w core owner xb a e = .bad .atomicSplit va) ∧
       (s.xlate w core owner va = .miss → ¬ split → s.probeGlobal w core owner xb a e = .bad .pageNotPresent va) ∧
       (∀ l, s.xlate w core owner va = .hit l → ¬ split →
         ((a.read = true ∧ l.r = false) ∨ (a.write = true ∧ l.w = false) →
           s.probeGlobal w core owner xb a e = .bad .pageProtection va) ∧
         ((a.read = true → l.r = true) → (a.write = true → l.w = true) → paOpen s t (leafPa l t.shadow va false) a.size →
           s.probeGlobal w core owner xb a e = .ok [Piece.mk (.hbm (leafPa l t.shadow va false)) a.size l.kind l.watch l.sh
             (some (va / pageBytes l.size * pageBytes l.size, l.size))]))))

/-- Two pages differ in KIND, in SHADOW, or as SHADOW pages in their group (R145). -/
def differ (l m : Leaf) : Prop := l.kind ≠ m.kind ∨ l.sh ≠ m.sh ∨ (l.sh = true ∧ l.sgrp ≠ m.sgrp)

/-- A page forbids an access. -/
def forbids (a : Access) (l : Leaf) : Prop := (a.read = true ∧ l.r = false) ∨ (a.write = true ∧ l.w = false)

/-- A global access that crosses into the next page, no translation register serving it: both pages are translated; pages that
differ are `KIND_STRADDLE` before any byte is accessed; then protection before absence, the lower page first; pages that agree
give one piece each (R145, R153, R158, R226). -/
def crossingAddressesRules : Prop :=
  ∀ (s : State) (w : Weave) (core owner xb : Nat) (b : TReg) (t : Tenant) (a : Access) (e : Int) (va va2 k : Nat),
    w.b[xb]? = some b → s.tenant? owner = some t → b.bv = false → a.size ≤ 2 ^ 16 →
    va = (((b.vabase.toNat : Int) + e).emod (2 ^ 52)).toNat → k = 2 ^ 16 - va % 2 ^ 16 → k < a.size → va2 = (va + k) % 2 ^ 52 →
    (let r1 := s.xlate w core owner va
     let r2 := s.xlate w core owner va2
     let split : Prop := a.atomic = true ∧ crossesLine va a.size
     (r1 = .walk ∨ r2 = .walk → s.probeGlobal w core owner xb a e =
       .walk ((if r1 = .walk then [va / 2 ^ 16] else []) ++ (if r2 = .walk then [va2 / 2 ^ 16] else []))) ∧
     (r1 ≠ .walk → r2 ≠ .walk → split → s.probeGlobal w core owner xb a e = .bad .atomicSplit va) ∧
     (∀ l m, r1 = .hit l → r2 = .hit m → ¬ split →
       (differ l m → s.probeGlobal w core owner xb a e = .bad .kindStraddle va) ∧
       (¬ differ l m → forbids a l → s.probeGlobal w core owner xb a e = .bad .pageProtection va) ∧
       (¬ differ l m → ¬ forbids a l → forbids a m → s.probeGlobal w core owner xb a e = .bad .pageProtection va2) ∧
       (¬ differ l m → ¬ forbids a l → ¬ forbids a m → paOpen s t (leafPa l t.shadow va false) k →
         paOpen s t (leafPa m t.shadow va2 false) (a.size - k) → s.probeGlobal w core owner xb a e =
           .ok [Piece.mk (.hbm (leafPa l t.shadow va false)) k l.kind l.watch l.sh (some (va / pageBytes l.size * pageBytes l.size, l.size)),
             Piece.mk (.hbm (leafPa m t.shadow va2 false)) (a.size - k) m.kind m.watch m.sh
               (some (va2 / pageBytes m.size * pageBytes m.size, m.size))])) ∧
     (∀ m, r1 = .miss → r2 = .hit m → ¬ split →
       (forbids a m → s.probeGlobal w core owner xb a e = .bad .pageProtection va2) ∧
       (¬ forbids a m → s.probeGlobal w core owner xb a e = .bad .pageNotPresent va)) ∧
     (∀ l, r1 = .hit l → r2 = .miss → ¬ split →
       (forbids a l → s.probeGlobal w core owner xb a e = .bad .pageProtection va) ∧
       (¬ forbids a l → s.probeGlobal w core owner xb a e = .bad .pageNotPresent va2)) ∧
     (r1 = .miss → r2 = .miss → ¬ split → s.probeGlobal w core owner xb a e = .bad .pageNotPresent va))

/-- The instructions that access memory lane by lane, with their space and what they do there (R331, R334). -/
def accessOf (i : Instr) (f : MForm) (sp : Space) (rd wr at_ : Bool) : Prop :=
  (i = .ld f ∧ sp = .global f.xb.val ∧ rd = true ∧ wr = false ∧ at_ = false) ∨
  (i = .lds f ∧ sp = .scratch ∧ rd = true ∧ wr = false ∧ at_ = false) ∨
  (i = .ldc f ∧ sp = .commons ∧ rd = true ∧ wr = false ∧ at_ = false) ∨
  (i = .st f ∧ sp = .global f.xb.val ∧ rd = false ∧ wr = true ∧ at_ = false) ∨
  (i = .sts f ∧ sp = .scratch ∧ rd = false ∧ wr = true ∧ at_ = false) ∨
  (i = .stc f ∧ sp = .commons ∧ rd = false ∧ wr = true ∧ at_ = false) ∨
  (i = .atom f ∧ sp = .global f.xb.val ∧ rd = true ∧ wr = true ∧ at_ = true) ∨
  (i = .atoms f ∧ sp = .scratch ∧ rd = true ∧ wr = true ∧ at_ = true) ∨
  ((i = .atomc f ∨ i = .bred f ∨ i = .bupd f) ∧ sp = .commons ∧ rd = true ∧ wr = true ∧ at_ = true)

/-- Steps 5 and 6 of R226, in order. -/
def accessOrder : List Cause :=
  [.scratchRange, .commonsRange, .atomicSplit, .kindStraddle, .addrNoncanon, .pageProtection, .pageNotPresent]

/-- What lane l's address comes to. -/
def laneProbe (s : State) (c : Crew) (w : Weave) (k : Nat) (f : MForm) (sp : Space) (rd wr at_ : Bool) (l : Nat) : Probe :=
  s.probe c w k sp ⟨2 ^ f.wid.toNat, rd, wr, at_⟩ ((w.valueOf 0 f.hd.a l).toNat + f.disp.toInt)

/-- Every lane is checked before any accesses memory. A lane that needs a walk lets the weave wait at the instruction; else
the first cause in the order of R226 is taken, with the lanes that have it and their addresses, and no lane has an effect
(R225, R226, R331). -/
def accessTrapsRules : Prop :=
  ∀ (s : State) cid wx (w : Weave) (i : Instr) (f : MForm) (sp : Space) (rd wr at_ : Bool) (c : Crew) (k : Nat),
    accessOf i f sp rd wr at_ → Issues s i cid wx w → s.crew? cid = some c → c.place = .resident k → f.hd.grp = false →
    f.wid.toNat ≤ 4 → w.outst < 255 → w.mode = .user →
    ((∃ l < 32, (w.actors f.hd).getLsbD l = true ∧ ∃ vpns, laneProbe s c w k f sp rd wr at_ l = .walk vpns) →
      ∃ t w', exec i s = .next t ∧ t.weave? cid wx = some w' ∧ SameMemory s t ∧ OnlyRegs [] w w' ∧ w'.pc = w.pc) ∧
    (∀ (cause : Cause) (m : Mask) (va : Nat → DWord),
      (∀ l < 32, (w.actors f.hd).getLsbD l = true → ∀ vpns, laneProbe s c w k f sp rd wr at_ l ≠ .walk vpns) →
      (∀ l < 32, (w.actors f.hd).getLsbD l = true → ∀ x v, laneProbe s c w k f sp rd wr at_ l = .bad x v →
        x ∈ accessOrder ∧ accessOrder.idxOf cause ≤ accessOrder.idxOf x) →
      (∀ l < 32, m.getLsbD l = ((w.actors f.hd).getLsbD l && match laneProbe s c w k f sp rd wr at_ l with
        | .bad x _ => x == cause
        | _ => false)) →
      (∀ l < 32, va l = if m.getLsbD l then (match laneProbe s c w k f sp rd wr at_ l with
        | .bad _ v => BitVec.ofNat 64 v
        | _ => 0) else 0) → m ≠ 0 →
      Traps s i cid wx w cause w.pc m va)

/-- Addresses of memory accesses and the traps that they raise. -/
def Obligations.Addresses : Prop :=
  localAddressesRules ∧ gangAddressesRules ∧ globalAddressesRules ∧ crossingAddressesRules ∧ accessTrapsRules


/-! ## Loads and stores -/

/-- The bytes of pieces at their homes. -/
def homeBytes (s : State) (owner : Nat) (ps : List Piece) : List Byte :=
  ps.flatMap fun p => (List.range p.len).map fun j => s.locRead owner (p.loc.plus j)

/-- Registers that hold an access of a width (R330). -/
def accessRegs (f : MForm) : Nat := if f.wid.toNat = 3 then 2 else if f.wid.toNat = 4 then 4 else 1

/-- Word j of bytes. -/
def wordAt (bs : List Byte) (j : Nat) : Word := BitVec.ofNat 32 (natLE ((bs.drop (4 * j)).take 4))

/-- A walker of the die is free for the walk that a global access may need to refresh its translation register (R155, R156). -/
def walkerFree (s : State) (k : Nat) (sp : Space) : Prop := ∀ xb, sp = .global xb → (s.die (k / 64)).walks.length < 128

/-- No word of memory is in error (R235). -/
def noErrors (s : State) : Prop := s.ueHbm = [] ∧ s.ueCommons = []

/-- `LD`, `LDS` and `LDC` issue with D empty and counted, change no memory, and with `LOAD_COMPLETE` give each lane that
acts the bytes at its address, zero-extended, and each helper lane that writes 0. The bytes are those at their home when the
access bypasses L1 or the core holds no copy of the owner's lines. One of which helper lanes alone write accesses nothing and
completes at once; one under which no lane writes passes (R138, R140, R144, R150, R330, R331). -/
def Obligations.LoadResults : Prop :=
  (∀ (s : State) cid wx (w : Weave) (i : Instr) (f : MForm) (sp : Space), accessOf i f sp true false false →
    Issues s i cid wx w → f.hd.grp = false → w.actors f.hd = 0 →
    (w.writers f.hd = 0 → Passes s i cid wx w) ∧
    (w.writers f.hd ≠ 0 → f.wid.toNat ≤ 4 → ∃ t w', exec i s = .next t ∧ t.weave? cid wx = some w' ∧ w'.pc = w.pc + 16 ∧
      w'.outst = w.outst ∧ w'.empty = w.empty ∧ SameMemory s t ∧ t.flights = s.flights ∧
      ∀ j < accessRegs f, ReceivesWords w w' f.hd (f.hd.d.plus j) fun _ => 0)) ∧
  ∀ (s : State) cid wx (w : Weave) (i : Instr) (f : MForm) (sp : Space) (c : Crew) (k : Nat) (ps : Nat → List Piece),
    accessOf i f sp true false false → Issues s i cid wx w → Inv s → s.crew? cid = some c → c.place = .resident k →
    f.hd.grp = false → f.wid.toNat ≤ 4 → w.writers f.hd ≠ 0 → w.actors f.hd ≠ 0 → w.outst < 255 → noErrors s → walkerFree s k sp →
    (∀ l < 32, (w.actors f.hd).getLsbD l = true → laneProbe s c w k f sp true false false l = .ok (ps l)) →
    (sp ≠ .global f.xb.val ∨ f.ord = 4 ∨ f.ch = 2 ∨ ∀ x ∈ (s.core k).l1, x.owner ≠ c.owner) →
    ∃ t w1 t' w2 id, exec i s = .next t ∧ t.weave? cid wx = some w1 ∧ w1.pc = w.pc + 16 ∧ w1.v = w.v ∧
      (∀ x ∈ regKeys f.hd.d (accessRegs f), x ∈ w1.empty) ∧ w1.outst = w.outst + 1 ∧ SameMemory s t ∧
      .loadComplete id ∈ t.pending ∧ exec (.loadComplete id) t = .next t' ∧ t'.weave? cid wx = some w2 ∧
      (∀ x ∈ regKeys f.hd.d (accessRegs f), x ∉ w2.empty) ∧ w2.outst = w.outst ∧ SameMemory s t' ∧
      ∀ j < accessRegs f, ReceivesWords w w2 f.hd (f.hd.d.plus j) fun l =>
        if (w.actors f.hd).getLsbD l then wordAt (homeBytes s c.owner (ps l)) j else 0

/-- The bytes that lane l stores: the low bytes of its register run (R330, R331). -/
def laneStores (w : Weave) (f : MForm) (l : Nat) : List Byte :=
  ((List.range 4).flatMap fun j => bytesLE 4 (w.valueOf 0 (f.hd.b.plus j) l).toNat).take (2 ^ f.wid.toNat)

/-- The places of pieces, byte by byte. -/
def placesOf (ps : List Piece) : List Loc := ps.flatMap fun p => (List.range p.len).map p.loc.plus

/-- The byte that bytes put at places leave at a place: the last one put there. -/
def lastPut (xs : List (Loc × Byte)) (l : Loc) : Option Byte := (xs.reverse.find? fun x => x.1 == l).map (·.2)

/-- The lanes that act, in increasing order. -/
def actingLanes (w : Weave) (f : MForm) : List Nat := laneList.filter fun l => (w.actors f.hd).getLsbD l

/-- The state after an instruction that stores: the weave's registers are as before but for translation registers, and
what lies at each place is what `mem` says. A place of another owner's reading, outside the granules that are written, reads
as before (R65). -/
structure StoresOnly (s t : State) (cid wx owner : Nat) (w w' : Weave) (mem : Loc → Byte) (places : List Loc) : Prop where
  weave : t.weave? cid wx = some w'
  pc : w'.pc = w.pc + 16
  regs : OnlyRegs [] { w with b := w'.b, woken := w'.woken } w'
  bytes : ∀ l, t.locRead owner l = mem l
  others : ∀ o l, (∀ x ∈ places, match x, l with
    | .hbm a, .hbm b => a / 256 ≠ b / 256
    | x, l => x ≠ l) → t.locRead o l = s.locRead o l

/-- The pages that lanes' writes log (R163). -/
def pagesOf (w : Weave) (f : MForm) (ps : Nat → List Piece) : List (Nat × Nat) := logsOf ((actingLanes w f).map fun l => (l, ps l))

/-- The state in which the write log has no room for a page of a write: the weave waits, and the host is told (R164). -/
def WaitsForLog (s : State) (i : Instr) (cid wx owner : Nat) (w : Weave) : Prop :=
  ∃ t w', exec i s = .next t ∧ t.weave? cid wx = some w' ∧ w'.wait = .dirtyLog ∧ w'.pc = w.pc ∧
    w' = { w with wait := .dirtyLog, tried := w'.tried } ∧ SameMemory s t ∧ .dirtyLogFull owner ∈ t.pending

/-- A page is logged on a die before it is written, once an epoch, while the log is on: an entry in the ring, PROD, and the
mark; a full log takes none (R163, R164). With the log off nothing is logged. -/
def dirtyLogRules : Prop :=
  (∀ (s : State) owner d pgs, s.dlen owner = false → s.logPages owner d pgs = (s, true)) ∧
  ∀ (s : State) (t : Tenant) owner d pg, s.tenant? owner = some t → s.dlen owner = true → d < t.logged.length →
    (pg ∈ nthD t.logged d [] → s.logPages owner d [pg] = (s, true)) ∧
    (pg ∉ nthD t.logged d [] → (s.dlcons owner).toNat + 2 ^ s.dlLog2 owner ≤ (s.psb owner 8).toNat →
      s.logPages owner d [pg] = (s, false)) ∧
    (pg ∉ nthD t.logged d [] → (s.dlcons owner).toNat ≤ (s.psb owner 8).toNat →
      (s.psb owner 8).toNat < (s.dlcons owner).toNat + 2 ^ s.dlLog2 owner →
      ∃ s1 t1, s.logPages owner d [pg] = (s1, true) ∧ s1.tenant? owner = some t1 ∧ pg ∈ nthD t1.logged d [] ∧
        (∀ e, e ≠ d → t1.logged[e]? = t.logged[e]?) ∧
        SameMemory ((s.deviceWriteWords owner
            (((s.psb owner 7).toNat + 8 * ((s.psb owner 8).toNat % 2 ^ s.dlLog2 owner)) % 2 ^ 52)
            [BitVec.ofNat 64 (pg.1 / 2 ^ 16 * 2 ^ 16 + pg.2)]).putPsb owner 8 (s.psb owner 8 + 1)) s1)

/-- `ST`, `STS` and `STC`: the bytes at the lanes' addresses become the lanes', the higher lane's where two meet, and every
other byte reads as before; no register changes (R144, R174, R331). With the dirty-page log on, the pages are logged first, and
a full log makes the weave wait (R163, R164). A store to bytes that a queued `LKA` has yet to read waits (R221). -/
def storeResultsRules : Prop :=
  ∀ (s : State) cid wx (w : Weave) (i : Instr) (f : MForm) (sp : Space) (c : Crew) (k : Nat) (ps : Nat → List Piece),
    accessOf i f sp false true false → Issues s i cid wx w → Inv s → s.crew? cid = some c → c.place = .resident k →
    f.hd.grp = false → f.wid.toNat ≤ 4 → w.actors f.hd ≠ 0 → noErrors s → walkerFree s k sp →
    (∀ l < 32, (w.actors f.hd).getLsbD l = true → laneProbe s c w k f sp false true false l = .ok (ps l)) →
    (let puts : List (Loc × Byte) := (actingLanes w f).flatMap fun l => (placesOf (ps l)).zip (laneStores w f l)
     (s.heldByLka c ((actingLanes w f).flatMap ps) = false → ∀ s1,
       (s.logPages c.owner (k / 64) (pagesOf w f ps) = (s1, true) →
         ∃ t w', exec i s = .next t ∧ StoresOnly s1 t cid wx c.owner w w'
           (fun l => (lastPut puts l).getD (s1.locRead c.owner l)) (puts.map (·.1))) ∧
       (s.logPages c.owner (k / 64) (pagesOf w f ps) = (s, false) → WaitsForLog s i cid wx c.owner w)) ∧
     (s.heldByLka c ((actingLanes w f).flatMap ps) = true → ∃ t, exec i s = .next t ∧ t.weave? cid wx = some w ∧ SameMemory s t))

/-- NEW(old, b, c) of R333 on numbers of n bits. -/
def atomicValue (code n old b c : Nat) : Nat :=
  let sg (x : Nat) : Int := Int.bmod x (2 ^ n)
  let num (x : Nat) : Fp := fp32.decode x
  let both (m : Fmt) : Nat :=
    m.round 0 false ((m.decode (old % 65536)).add 0 (m.decode (b % 65536))) +
      65536 * m.round 0 false ((m.decode (old / 65536)).add 0 (m.decode (b / 65536)))
  match code with
  | 1 => (old + b) % 2 ^ n
  | 2 => old &&& b
  | 3 => old ||| b
  | 4 => old ^^^ b
  | 5 => if sg b < sg old then b else old
  | 6 => if sg old < sg b then b else old
  | 7 => min old b
  | 8 => max old b
  | 9 => b
  | 10 => if old = b then c else old
  | 11 => fp32.round 0 false ((num old).add 0 (num b))
  | 12 => fp32.minmax false old b
  | 13 => fp32.minmax true old b
  | 14 => both bf16
  | 15 => both fp16
  | 16 => fp32.round 0 false (((num b).mul (num c)).add 0 (num old))
  | 17 => fp32.round 0 false (((num old).mul (num b)).add 0 (num c))
  | _ => fp32.minmax false (fp32.minmax true old b) c

/-- The new bytes of a lane's location: one operation, or four on the 32-bit elements of WID 4 (R333). -/
def atomicBytes (w : Weave) (f : MForm) (l : Nat) (old : List Byte) : List Byte :=
  let arg (o : Operand) (j : Nat) : Nat := (w.valueOf 0 (o.plus j) l).toNat
  if f.wid = 3 then bytesLE 8 (atomicValue f.atop.toNat 64 (natLE old) (arg f.hd.b 0 + 2 ^ 32 * arg f.hd.b 1)
    (arg f.hd.c 0 + 2 ^ 32 * arg f.hd.c 1))
  else (List.range (if f.wid = 4 then 4 else 1)).flatMap fun j =>
    bytesLE 4 (atomicValue f.atop.toNat 32 (natLE ((old.drop (4 * j)).take 4)) (arg f.hd.b j) (arg f.hd.c j))

/-- Atomic lanes one after the other: what lies at each place then, and each lane's old bytes (R334). -/
def atomicRun (w : Weave) (f : MForm) (places : Nat → List Loc) : List Nat → (Loc → Byte) → (Loc → Byte) × List (Nat × List Byte)
  | [], mem => (mem, [])
  | l :: ls, mem =>
    let old := (places l).map mem
    let puts := (places l).zip (atomicBytes w f l old)
    let r := atomicRun w f places ls fun x => (lastPut puts x).getD (mem x)
    (r.1, (l, old) :: r.2)

/-- `ATOM`, `ATOMS`, `ATOMC`, `BRED` and `BUPD`: each acting lane reads and writes its location in turn, in increasing lane
order, and nothing else of memory changes. A returning form gives each lane its old value with `LOAD_COMPLETE`, and 0 to a
helper lane; one of which helper lanes alone write performs nothing. With the dirty-page log on the pages are logged first, and a full
log makes the weave wait; so does a queued `LKA` that has yet to read a byte of the access (R163, R164, R221, R333, R334). -/
def Obligations.AtomicResults : Prop :=
  (∀ (s : State) cid wx (w : Weave) (i : Instr) (f : MForm) (sp : Space), accessOf i f sp true true true →
    Issues s i cid wx w → f.hd.grp = false → w.actors f.hd = 0 →
    (w.writers f.hd = 0 ∨ f.hd.d = .none → Passes s i cid wx w) ∧
    (w.writers f.hd ≠ 0 → isVector f.hd.d = true → (f.wid = 2 ∨ f.wid = 3 ∨ f.wid = 4) → ∃ t w', exec i s = .next t ∧
      t.weave? cid wx = some w' ∧ w'.pc = w.pc + 16 ∧ w'.outst = w.outst ∧ w'.empty = w.empty ∧ SameMemory s t ∧
      ∀ j < accessRegs f, ReceivesWords w w' f.hd (f.hd.d.plus j) fun _ => 0)) ∧
  ∀ (s : State) cid wx (w : Weave) (i : Instr) (f : MForm) (sp : Space) (c : Crew) (k : Nat) (ps : Nat → List Piece),
    accessOf i f sp true true true → Issues s i cid wx w → Inv s → s.crew? cid = some c → c.place = .resident k →
    f.hd.grp = false → (f.wid = 2 ∨ f.wid = 3 ∨ f.wid = 4) → (1 ≤ f.atop.toNat ∧ f.atop.toNat ≤ 18) →
    (f.wid = 3 → f.atop.toNat ≤ 10) → w.actors f.hd ≠ 0 → w.outst < 255 →
    noErrors s → walkerFree s k sp →
    (∀ l < 32, (w.actors f.hd).getLsbD l = true → laneProbe s c w k f sp true true true l = .ok (ps l)) →
    (s.heldByLka c ((actingLanes w f).flatMap ps) = true → ∃ t, exec i s = .next t ∧ t.weave? cid wx = some w ∧ SameMemory s t) ∧
    (s.heldByLka c ((actingLanes w f).flatMap ps) = false → s.logPages c.owner (k / 64) (pagesOf w f ps) = (s, false) →
      WaitsForLog s i cid wx c.owner w) ∧
    (s.heldByLka c ((actingLanes w f).flatMap ps) = false → ∀ s1, s.logPages c.owner (k / 64) (pagesOf w f ps) = (s1, true) →
    (let r := atomicRun w f (fun l => placesOf (ps l)) (actingLanes w f) (s1.locRead c.owner)
     let places : List Loc := (actingLanes w f).flatMap fun l => placesOf (ps l)
     (f.hd.d = .none → ∃ t w', exec i s = .next t ∧ StoresOnly s1 t cid wx c.owner w w' r.1 places) ∧
     (isVector f.hd.d = true → ∃ t w1 t' w2 id, exec i s = .next t ∧ t.weave? cid wx = some w1 ∧ w1.pc = w.pc + 16 ∧
       (∀ x ∈ regKeys f.hd.d (accessRegs f), x ∈ w1.empty) ∧ w1.outst = w.outst + 1 ∧
       (∀ l, t.locRead c.owner l = r.1 l) ∧ .loadComplete id ∈ t.pending ∧ exec (.loadComplete id) t = .next t' ∧
       t'.weave? cid wx = some w2 ∧ (∀ x ∈ regKeys f.hd.d (accessRegs f), x ∉ w2.empty) ∧ w2.outst = w.outst ∧
       (∀ l, t'.locRead c.owner l = r.1 l) ∧
       ∀ j < accessRegs f, ReceivesWords w w2 f.hd (f.hd.d.plus j) fun l =>
         match r.2.find? fun x => x.1 == l with
         | some x => wordAt x.2 j
         | none => 0)))

/-- The elements and the scale of a granule of 32 elements in memory (R200). -/
def granuleElem (t6 : Bool) (bs : List Byte) (j : Nat) : Nat :=
  if t6 then natLE (bs.take 24) / 64 ^ j % 64 else (nthD bs j 0).toNat
def granuleScale (t6 : Bool) (bs : List Byte) : Nat := (nthD bs (if t6 then 24 else 32) 0).toNat

/-- The lane whose address a granule's access takes: its lowest acting one (R332). -/
def granuleLane (w : Weave) (f : MForm) (g : Nat) : Option Nat :=
  ((List.range 8).map (8 * g + ·)).find? fun l => (w.actors f.hd).getLsbD l

/-- A granule access moves each granule that has an acting lane whole, 33 bytes or 25, to or from the address of its lowest
acting lane, with all its elements and side bits; a granule without one is not moved (R200, R332). -/
def granuleAccessRules : Prop :=
  ∀ (s : State) cid wx (w : Weave) (i : Instr) (f : MForm) (sp : Space) (rd wr : Bool) (c : Crew) (k : Nat) (ps : Nat → List Piece)
    (t6 : Bool), accessOf i f sp rd wr false → Issues s i cid wx w → Inv s → s.crew? cid = some c → c.place = .resident k →
    f.hd.grp = false → f.wid = (if t6 then 6 else 5) → w.actors f.hd ≠ 0 → w.helper = 0 → w.outst < 255 → noErrors s → walkerFree s k sp →
    s.dlen c.owner = false → s.cores.all (fun x => x.accq.isEmpty) = true →
    (∀ g < 4, ∀ l, granuleLane w f g = some l →
      s.probe c w k sp ⟨if t6 then 25 else 33, rd, wr, false⟩ ((w.valueOf 0 f.hd.a l).toNat + f.disp.toInt) = .ok (ps l)) →
    (sp ≠ .global f.xb.val ∨ f.ord = 4 ∨ f.ch = 2 ∨ ∀ x ∈ (s.core k).l1, x.owner ≠ c.owner) →
    (rd = true → isVector f.hd.d = true → ∃ t t' w2 id, exec i s = .next t ∧ .loadComplete id ∈ t.pending ∧ exec (.loadComplete id) t = .next t' ∧
      t'.weave? cid wx = some w2 ∧ SameMemory s t' ∧
      (∀ g < 4, ∀ l, granuleLane w f g = some l → ∀ n < 8,
        (w2.laneOf f.hd.d (8 * g + n)).val = wordOf (fun m => granuleElem t6 (homeBytes s c.owner (ps l)) (4 * n + m)) ∧
        (w2.laneOf f.hd.d (8 * g + n)).sb = (granuleScale t6 (homeBytes s c.owner (ps l))).testBit n) ∧
      (∀ g < 4, granuleLane w f g = none → ∀ n < 8, w.absent.getLsbD (8 * g + n) = false →
        w2.laneOf f.hd.d (8 * g + n) = w.laneOf f.hd.d (8 * g + n))) ∧
    (wr = true → ∃ t w', exec i s = .next t ∧
      (let bytes (l : Nat) : List Byte :=
         let el (j : Nat) : Nat := byteIn (w.valueOf 0 f.hd.b (8 * (l / 8) + j / 4)) (j % 4)
         (if t6 then bytesLE 24 (((List.range 32).map fun j => el j % 64 * 64 ^ j).sum)
          else (List.range 32).map fun j => BitVec.ofNat 8 (el j)) ++ [BitVec.ofNat 8 (scaleOf w f.hd.b (l / 8))]
       let puts : List (Loc × Byte) := ((List.range 4).filterMap (granuleLane w f)).flatMap fun l => (placesOf (ps l)).zip (bytes l)
       StoresOnly s t cid wx c.owner w w' (fun l => (lastPut puts l).getD (s.locRead c.owner l)) (puts.map (·.1))))

/-- What stores and granule accesses do. -/
def Obligations.Stores : Prop := dirtyLogRules ∧ storeResultsRules ∧ granuleAccessRules

/-! ## Page tables and translation -/

/-- The page-table entry of a VA in a table of a level (R151). -/
def pageEntry (s : State) (owner table level va : Nat) : DWord :=
  let index := match level with
    | 0 => va / 2 ^ 39 % 8192
    | 1 => va / 2 ^ 30 % 512
    | 2 => va / 2 ^ 21 % 512
    | _ => va / 2 ^ 16 % 32
  BitVec.ofNat 64 (natLE (s.hbmBytes owner (table + 8 * index) 8))

/-- ADDR of an entry as a physical address (R152). -/
def pageAddr (e : DWord) : Nat := (e.extractLsb' 8 40).toNat * 256

/-- What ADDR must be a multiple of at a level (R151, R152). -/
def pageAlign (level : Nat) (e : DWord) : Nat :=
  if e.getLsbD 1 then (match level with | 1 => 2 ^ 30 | 2 => 2 ^ 21 | _ => 2 ^ 16) * (if e.getLsbD 56 then 2 else 1)
  else if level = 2 then 256 else 2 ^ 12

/-- A malformed entry (R152): reserved bits and KIND, and of a valid one LF, ADDR's alignment and its partition. -/
def badEntry (s : State) (part level : Nat) (e : DWord) : Prop :=
  e.extractLsb' 59 5 ≠ 0 ∨ e.extractLsb' 5 2 = 3 ∨
    (e.getLsbD 0 = true ∧ ((level = 0 ∧ e.getLsbD 1 = true) ∨ (level = 3 ∧ e.getLsbD 1 = false) ∨
      pageAddr e % pageAlign level e ≠ 0 ∨ ¬ (pageAddr e < 2 ^ 40 ∧ s.partOf (pageAddr e / 2 ^ 38 % 4) = part)))

/-- A walk of the four levels: through valid table entries to a leaf, a first-touch entry, a malformed one, or another
that is not valid (R151, R152, R158). -/
def Obligations.PageWalk : Prop :=
  ∀ (s : State) owner va (t : Tenant) (n : Nat) (table : Nat → Nat) (e : DWord), s.tenant? owner = some t → n ≤ 3 →
    table 0 = t.root →
    (∀ k < n, (let x := pageEntry s owner (table k) k va
      x.getLsbD 0 = true ∧ x.getLsbD 1 = false ∧ ¬ badEntry s t.part k x ∧ table (k + 1) = pageAddr x)) →
    e = pageEntry s owner (table n) n va →
    (e.getLsbD 0 = false → e.getLsbD 57 = false → s.walk owner va = .missing) ∧
    ((e.getLsbD 0 = true ∨ e.getLsbD 57 = true) → badEntry s t.part n e → s.walk owner va = .malformed) ∧
    (e.getLsbD 0 = false → e.getLsbD 57 = true → ¬ badEntry s t.part n e → ∃ pa, s.walk owner va = .firstTouch pa n e) ∧
    (e.getLsbD 0 = true → e.getLsbD 1 = true → ¬ badEntry s t.part n e → ∃ l pa, s.walk owner va = .leaf l pa ∧
      l.addr = pageAddr e ∧ pageBytes l.size = (if n = 1 then 2 ^ 30 else if n = 2 then 2 ^ 21 else 2 ^ 16) ∧
      l.r = e.getLsbD 2 ∧ l.w = e.getLsbD 3 ∧ l.x = e.getLsbD 4 ∧ l.kind = (e.extractLsb' 5 2).toNat ∧
      l.watch = e.getLsbD 7 ∧ l.sh = e.getLsbD 56 ∧ l.sgrp = (e.extractLsb' 48 8).toNat)

/-- The die has logged the page of a leaf that maps a VA in the current epoch (R154, R163). -/
def loggedOn (s : State) (owner d va : Nat) (l : Leaf) : Prop :=
  ∃ t, s.tenant? owner = some t ∧ (va / pageBytes l.size * pageBytes l.size, l.size) ∈ nthD t.logged d []

/-- `XLB` (R154, R336): the trap on bits [63:52], the wait for a walk, and the register it writes. -/
def xlbRules : Prop :=
  ∀ (s : State) cid wx (w : Weave) (f : MForm) (c : Crew) k x, Issues s (.xlb f) cid wx w → s.crew? cid = some c →
    c.place = .resident k → x = (w.wideG 0 false f.hd.a).toNat →
    (w.qPass f.hd = false → Passes s (.xlb f) cid wx w) ∧
    (w.qPass f.hd = true → 2 ^ 52 ≤ x → w.mode = .user → GroupTraps s (.xlb f) cid wx w .addrNoncanon x) ∧
    (w.qPass f.hd = true → x < 2 ^ 52 → s.xlate w k c.owner x ≠ .walk → ∃ t w' b, exec (.xlb f) s = .next t ∧
      Replaces s t cid wx w' ∧ w'.pc = w.pc + 16 ∧ OnlyRegs [] { w with b := w'.b } w' ∧ w'.b[f.xb.val]? = some b ∧
      (∀ j, j ≠ f.xb.val → w'.b[j]? = w.b[j]?) ∧ b.vabase = BitVec.ofNat 52 x ∧ b.tgen = BitVec.ofNat 16 (s.gen c.owner (k / 64)) ∧
      (b.bv = true ↔ ∃ l, s.xlate w k c.owner x = .hit l ∧ l.r = true ∧ l.sh = false) ∧
      (∀ l, s.xlate w k c.owner x = .hit l → l.r = true → l.sh = false →
        b.pabase = BitVec.ofNat 48 (l.addr + x % pageBytes l.size) ∧
        b.limit = BitVec.ofNat 32 (min (pageBytes l.size - x % pageBytes l.size) (2 ^ 32 - 1)) ∧ b.br = true ∧
        b.kind = BitVec.ofNat 2 l.kind ∧ b.watch = l.watch ∧
        (b.bw = true ↔ l.w = true ∧ (s.dlen c.owner = false ∨ loggedOn s c.owner (k / 64) x l)))) ∧
    (w.qPass f.hd = true → x < 2 ^ 52 → s.xlate w k c.owner x = .walk → StandsAndWaits s (.xlb f) cid wx w fun _ => True)

/-- An entry of a TLB covers a VA. -/
def tlbHolds (e : TlbEntry) (x : Nat) : Prop := e.page ≤ x ∧ x < e.page + pageBytes e.leaf.size

/-- `TLBI` (R157, R364): the owner's entries for the page, or all of them, leave every TLB of the partition, no other entry
does, and the owner's generation advances on each of its dies; a VA above 52 bits is a double trap, since the mnemonic is a
supervisor's (R234). -/
def tlbiRules : Prop :=
  ∀ (s : State) cid wx (w : Weave) (f : SForm) (c : Crew) (t : Tenant) x, Issues s (.tlbi f) cid wx w → Inv s →
    s.crew? cid = some c → s.tenant? c.owner = some t → t.gens.length = 4 → x = (w.wideG f.imm false f.hd.a).toNat →
    (w.qPass f.hd = false → Passes s (.tlbi f) cid wx w) ∧
    (w.qPass f.hd = true → f.hd.a ≠ .ones → 2 ^ 52 ≤ x → DoubleTraps s (.tlbi f) cid wx w) ∧
    (w.qPass f.hd = true → (f.hd.a = .ones ∨ x < 2 ^ 52) → Effects s (.tlbi f) cid wx w [] fun s' _ => SameMemory s s' ∧
      (let gone (e : TlbEntry) : Prop := e.owner = c.owner ∧ (f.hd.a = .ones ∨ tlbHolds e x)
       ∀ d < 4, s.partOf d = t.part → s'.gen c.owner d = s.gen c.owner d + 1 ∧
        (∀ e, e ∈ (s'.die d).tlb ↔ e ∈ (s.die d).tlb ∧ ¬ gone e) ∧
        ∀ k, k / 64 = d → ∀ e, e ∈ (s'.core k).tlb ↔ e ∈ (s.core k).tlb ∧ ¬ gone e))

/-- `MAPP` (R158, R364): the codes 1 to 3 with no byte of memory changed; under code 0 memory is as first touch leaves it: a
zeroed frame and the level-3 leaf that takes the attributes of the first-touch entry. `MAPP` is a supervisor's, so a VA above
52 bits is a double trap (R234, R364). -/
def mappRules : Prop :=
  (∀ (s : State) cid wx (w : Weave) (f : SForm) (c : Crew) k x, Issues s (.mapp f) cid wx w → s.crew? cid = some c →
    c.place = .resident k → x = (w.wideG f.imm false f.hd.a).toNat → f.hd.grp = true →
    (w.qPass f.hd = false → Passes s (.mapp f) cid wx w) ∧
    (w.qPass f.hd = true → 2 ^ 52 ≤ x → DoubleTraps s (.mapp f) cid wx w) ∧
    (w.qPass f.hd = true → x < 2 ^ 52 → (s.firstTouch c.owner (k / 64) x).2 = .mapped →
      ((s.firstTouch c.owner (k / 64) x).1.weave? cid wx).isSome = true →
      Effects s (.mapp f) cid wx w [f.hd.d] fun s' w' => SameMemory (s.firstTouch c.owner (k / 64) x).1 s' ∧
        ReceivesWords w w' f.hd f.hd.d fun _ => 0) ∧
    (w.qPass f.hd = true → x < 2 ^ 52 → ∀ code : Word,
      ((∃ l pa, s.walk c.owner x = .leaf l pa) ∧ code = 1) ∨
        ((∃ pa e t, s.walk c.owner x = .firstTouch pa 3 e ∧ s.tenant? c.owner = some t ∧
          dieCount t.given (k / 64) = dieCount (s.psb c.owner 6) (k / 64)) ∧ code = 2) ∨
        ((s.walk c.owner x = .missing ∨ s.walk c.owner x = .malformed) ∧ code = 3) →
      Effects s (.mapp f) cid wx w [f.hd.d] fun s' w' => SameMemory s s' ∧ ReceivesWords w w' f.hd f.hd.d fun _ => code)) ∧
  (∀ (s : State) owner d va pa (e : DWord) (t : Tenant) (g : Nat), s.walk owner va = .firstTouch pa 3 e →
    s.tenant? owner = some t → dieCount t.given d ≠ dieCount (s.psb owner 6) d → dieCount t.given d < 2 ^ 16 →
    s.deviceWord owner (((s.psb owner 4).toNat + d * 8 * 2 ^ s.poolLog2 owner
      + 8 * (dieCount (s.psb owner 6) d % 2 ^ s.poolLog2 owner)) % 2 ^ 52) = .ok (BitVec.ofNat 64 g) → g < 2 ^ 52 →
    (s.putPsb owner 6 (takeOne (s.psb owner 6) d)).poolEntryOk owner d g = true →
    s.firstTouch owner d va = (((s.putPsb owner 6 (takeOne (s.psb owner 6) d)).zeroFrame owner g).putEntry owner pa
      ((e &&& 0x01FF_0000_0000_00FC) ||| BitVec.ofNat 64 g ||| 3), .mapped)) ∧
  (∀ (s : State) owner g a, g % 2 ^ 16 = 0 → g ≤ a → a < g + 2 ^ 16 → (s.zeroFrame owner g).hbmByte owner a = 0)

/-- A walk that has ended: what it found is with each weave that waited for it, which goes on; a translation register that is
behind may be refreshed (R155, R156). A walk that nobody asked for changes nothing. -/
def walkRules : Prop :=
  (∀ (s : State) d owner vpn, (s.die d).walks.find? (fun k => k.owner == owner && k.vpn == vpn) = none →
    exec (.pageWalkComplete d owner vpn) s = .next s) ∧
  ∀ (s : State) d owner vpn (k : Walk) cid wx (w : Weave),
    (s.die d).walks.find? (fun k => k.owner == owner && k.vpn == vpn) = some k → s.walkFault owner (vpn * 2 ^ 16) = none →
    (cid, wx) ∈ k.waiters → s.weave? cid wx = some w → w.wait = .walk [vpn] →
    ∃ t w', exec (.pageWalkComplete d owner vpn) s = .next t ∧ t.weave? cid wx = some w' ∧ w'.wait = .none ∧
      w'.walked = w.walked ++ [(vpn, match s.walk owner (vpn * 2 ^ 16) with
        | .leaf l _ => some l
        | _ => none)] ∧ w' = { w with wait := w'.wait, walked := w'.walked, woken := w'.woken, b := w'.b }

/-- The translation instructions and the end of a walk (R154, R156 to R158, R336, R364). -/
def translationInstructionsRules : Prop := xlbRules ∧ tlbiRules ∧ mappRules ∧ walkRules

/-! ## Caches, fences and code -/

/-- The lines of the L1 of core k that `p` picks are gone, every other line of every L1 is as it was. -/
def L1Loses (s t : State) (k : Nat) (p : L1Line → Bool) : Prop :=
  (t.core k).l1 = (s.core k).l1.filter (fun l => !p l) ∧ ∀ j, j ≠ k → (t.core j).l1 = (s.core j).l1

/-- `FENCE`, `IFENCE`, `IFLUSH`, `CCTL` and `PFT` change no register and no byte of memory; a fence waits for the weave's
loads; the lines that leave the L1 and the instruction caches; a prefetched line holds what its home holds; a UN line leaves
after 4 µs (R150, R179, R335, R337 to R339). -/
def cachesAndFencesRules : Prop :=
  (∀ (s : State) cid wx (w : Weave) (f : MForm) (c : Crew) k, Issues s (.fence f) cid wx w → s.crew? cid = some c →
    c.place = .resident k →
    (w.acts f.hd = false → Passes s (.fence f) cid wx w) ∧
    (w.acts f.hd = true → w.outst ≠ 0 → exec (.fence f) s = .next s) ∧
    (w.acts f.hd = true → w.outst = 0 → Effects s (.fence f) cid wx w [] fun t _ => SameMemory s t ∧
      L1Loses s t k fun l => (decide (2 ≤ f.scp.toNat) && l.kind == 0) || (f.wid == 1 && l.kind == 2))) ∧
  (∀ s cid wx w (f : MForm), Issues s (.ifence f) cid wx w →
    (w.acts f.hd = false → Passes s (.ifence f) cid wx w) ∧
    (w.acts f.hd = true → Effects s (.ifence f) cid wx w [] fun t w' => SameMemory s t ∧ w'.fline = none)) ∧
  (∀ (s : State) cid wx (w : Weave) (f : MForm) (c : Crew) (t : Tenant), Issues s (.iflush f) cid wx w → Inv s →
    s.crew? cid = some c → s.tenant? c.owner = some t →
    (w.qPass f.hd = false → Passes s (.iflush f) cid wx w) ∧
    (w.qPass f.hd = true → Effects s (.iflush f) cid wx w [] fun s' _ => SameMemory s s' ∧
      ∀ k < 256, s.partOf (k / 64) = t.part → ∀ l : ILine, l.line < 2 ^ 46 →
        (l ∈ (s'.core k).icache ↔ l ∈ (s.core k).icache ∧ ¬ (l.owner = c.owner ∧
          ∃ j < (w.readG 0 f.hd.b).toNat, (w.groupVa f + j) % 2 ^ 52 / 64 = l.line)))) ∧
  (∀ (s : State) cid wx (w : Weave) (f : MForm) (c : Crew) k, Issues s (.cctl f) cid wx w → s.crew? cid = some c →
    c.place = .resident k →
    (w.qPass f.hd = false → Passes s (.cctl f) cid wx w) ∧
    (w.qPass f.hd = true → (f.ch = 1 ∨ f.ch = 2 ∨ s.xlate w k c.owner (w.groupVa f) ≠ .walk) →
      Effects s (.cctl f) cid wx w [] fun t _ => SameMemory s t ∧
      (f.ch = 2 → (t.core k).l1 = []) ∧ (f.ch = 1 → L1Loses s t k fun l => l.kind == 0) ∧
      (f.ch = 0 → s.xlate w k c.owner (w.groupVa f) = .miss → L1Loses s t k fun _ => false) ∧
      (f.ch = 0 → ∀ l x, s.tenant? c.owner = some x → s.xlate w k c.owner (w.groupVa f) = .hit l →
        L1Loses s t k fun y => y.owner == c.owner && y.line == leafPa l x.shadow (w.groupVa f) false / 64)) ∧
    (w.qPass f.hd = true → f.ch = 0 → (∃ x, s.tenant? c.owner = some x) → s.xlate w k c.owner (w.groupVa f) = .walk →
      StandsAndWaits s (.cctl f) cid wx w fun _ => True)) ∧
  (∀ (s : State) cid wx (w : Weave) (f : MForm) (c : Crew) k, Issues s (.pft f) cid wx w → s.crew? cid = some c →
    c.place = .resident k →
    (w.actors f.hd = 0 → Passes s (.pft f) cid wx w) ∧
    (let fetches : Prop := Effects s (.pft f) cid wx w [] fun t w' => SameMemory s t ∧ w'.empty = w.empty ∧
      w'.outst = w.outst ∧ (∀ j, j ≠ k → (t.core j).l1 = (s.core j).l1) ∧
      ∀ l ∈ (t.core k).l1, (∃ l0 ∈ (s.core k).l1, l = { l0 with retain := l.retain }) ∨ (l.owner = c.owner ∧ l.kind ≠ 1 ∧
        l.data = (List.range 64).map fun j => s.locRead c.owner (.hbm (l.line * 64 + j)))
     -- misses wait while the die has no walkers for them (R156)
     ((s.die (k / 64)).walks.length ≤ 95 → fetches) ∧ (fetches ∨ exec (.pft f) s = .next s))) ∧
  (∀ (s : State) k line, ∃ t, exec (.unLineExpiry k line) s = .next t ∧ SameMemory s t ∧
    L1Loses s t k fun l => l.line == line && l.kind == 2 && decide (l.filled + 4000 ≤ s.now))

/-- Translation registers, TLBs, caches and fences. -/
def Obligations.Translation : Prop := translationInstructionsRules ∧ cachesAndFencesRules


/-! ## Watching and waiting -/

/-- The state differs in one weave's watch set and flag, in what is armed, and in PC and records of waits. -/
def watchOnly (w w' : Weave) : Prop :=
  w' = { w with pc := w'.pc, p := w'.p, b := w'.b, watch := w'.watch, unwatched := w'.unwatched, woken := w'.woken, spin := w'.spin,
                wait := w'.wait, walked := w'.walked, wakeRes := w'.wakeRes, stamp := w'.stamp, parked := w'.parked }

/-- No line is armed for a weave. -/
def noneArmed (t : State) (cid wx : Nat) : Prop := ∀ a ∈ t.armed, ¬ (a.cid = cid ∧ a.widx = wx)

/-- `WATCH` (R340): lines join the set and are armed, or the set becomes unwatched and its lines are released. -/
def watchRules : Prop :=
  ∀ (s : State) cid wx (w : Weave) (f : MForm) (c : Crew) k (ps : Nat → Piece) (lines : List WLine),
    Issues s (.watch f) cid wx w → s.crew? cid = some c → c.place = .resident k → f.hd.grp = false → f.wid.toNat ≤ 2 →
    w.actors f.hd ≠ 0 → s.armed.length < 60 → w.watch.length ≤ 4 → (f.wid = 0 → (s.die (k / 64)).walks.length < 128) →
    (∀ l < 32, (w.actors f.hd).getLsbD l = true →
      s.probe c w k (if f.wid = 0 then .global f.xb.val else if f.wid = 1 then .scratch else .commons) ⟨1, true, false, false⟩
        ((w.valueOf 0 f.hd.a l).toNat + f.disp.toInt) = .ok [ps l]) →
    lines = ((actingLanes w f).map fun l => (ps l).loc.line).eraseDups →
    (let open_ : Prop := ∀ l ∈ actingLanes w f, (ps l).watch = true ∧ (ps l).shadow = false
     let all : List WLine := w.watch ++ lines.filter fun x => !w.watch.contains x
     ∃ t w', exec (.watch f) s = .next t ∧ t.weave? cid wx = some w' ∧ w'.pc = w.pc + 16 ∧ watchOnly w w' ∧ w'.p = w.p ∧
      w'.woken = w.woken ∧ SameMemory s t ∧
      (w.unwatched = true → w'.watch = w.watch ∧ w'.unwatched = true) ∧
      (w.unwatched = false → ¬ (open_ ∧ all.length ≤ 4) → w'.watch = [] ∧ w'.unwatched = true ∧ noneArmed t cid wx) ∧
      (w.unwatched = false → open_ → all.length ≤ 4 → w'.watch = all ∧ w'.unwatched = false ∧
        ∀ x ∈ all, x ∉ w.watch → Armed.mk x cid wx ∈ t.armed))

/-- `UNWCH` and `WAITA` (R341). -/
def waitaRules : Prop :=
  (∀ (s : State) cid wx (w : Weave) (f : MForm), Issues s (.unwch f) cid wx w →
    (w.acts f.hd = false → Passes s (.unwch f) cid wx w) ∧
    (w.acts f.hd = true → ∃ t w', exec (.unwch f) s = .next t ∧ t.weave? cid wx = some w' ∧ w'.pc = w.pc + 16 ∧
      watchOnly w w' ∧ w'.p = w.p ∧ w'.watch = [] ∧ w'.unwatched = false ∧ w'.woken = false ∧ noneArmed t cid wx ∧ SameMemory s t)) ∧
  (∀ (s : State) cid wx (w : Weave) (f : MForm), Issues s (.waita f) cid wx w → f.hd.grp = false →
    (w.uniform f.hd = false → Passes s (.waita f) cid wx w) ∧
    (∀ r : Bool, w.uniform f.hd = true →
      (w.watch = [] ∧ w.unwatched = false ∧ r = false) ∨
        (¬ (w.watch = [] ∧ w.unwatched = false) ∧ ((w.woken = true ∧ r = true) ∨ (w.woken = false ∧ w.wakeRes = some r))) →
      ∃ t w', exec (.waita f) s = .next t ∧ t.weave? cid wx = some w' ∧ w'.pc = w.pc + 16 ∧ watchOnly w w' ∧
        ReceivesBits w w' f.hd f.hd.d (fun _ => r) ∧ w'.watch = [] ∧ w'.unwatched = false ∧ w'.woken = false ∧
        noneArmed t cid wx ∧ SameMemory s t) ∧
    (w.uniform f.hd = true → ¬ (w.watch = [] ∧ w.unwatched = false) → w.woken = false → w.wakeRes = none →
      StandsAndWaits s (.waita f) cid wx w (· = .waita) ∧
      ∃ t, exec (.waita f) s = .next t ∧
        (f.disp ≠ 0 → (s.now + f.disp.toNat * 1000, .waitaTimeout cid wx (s.ids + 1)) ∈ t.timers) ∧
        (w.unwatched = true → (s.now + s.mgmt.quant * 1000, .quantExpiry cid wx (s.ids + 1)) ∈ t.timers) ∧
        (w.unwatched = false → (s.now + 64 * (s.mgmt.quant * 1000), .watchedTimeout cid wx (s.ids + 1)) ∈ t.timers)))

/-- The weave's wait is over; nothing else of it but the recognizer's record has changed. -/
def Woken (s : State) (i : Instr) (cid wx : Nat) (w : Weave) (r : Option Bool) : Prop :=
  ∃ t w', exec i s = .next t ∧ t.weave? cid wx = some w' ∧ w'.wait = .none ∧ w'.wakeRes = r ∧
    w' = { w with wait := w'.wait, wakeRes := w'.wakeRes, spin := w'.spin } ∧ SameMemory s t

/-- What wakes a weave that waits in `WAITA` or spins: a write to an armed line, the times of R110 and R341, and at the end
of arming a loaded word that has changed (R109, R110, R341, R377). The times of a spinner count from its parking, with the
QUANT that held then (R121, R379). A stale stamp wakes nothing. -/
def wakeRules : Prop :=
  (∀ (s : State) cid wx (w : Weave) (line : WLine), s.weave? cid wx = some w →
    (w.wait = .waita → w.woken = true → Woken s (.armedLineWrite cid wx line) cid wx w (some true)) ∧
    (w.wait = .spin → Woken s (.armedLineWrite cid wx line) cid wx w none)) ∧
  (∀ (s : State) cid wx (w : Weave) stamp (i : Instr), s.weave? cid wx = some w →
    i = .quantExpiry cid wx stamp ∨ i = .watchedTimeout cid wx stamp →
    (w.stamp = stamp → w.wait = .waita → Woken s i cid wx w (some false)) ∧
    (w.stamp = stamp → w.wait = .spin → Woken s i cid wx w none) ∧ (w.stamp ≠ stamp → exec i s = .next s)) ∧
  (∀ (s : State) cid wx (w : Weave) stamp, s.weave? cid wx = some w →
    (w.stamp = stamp → w.wait = .waita → Woken s (.waitaTimeout cid wx stamp) cid wx w (some false)) ∧
    (w.stamp ≠ stamp → exec (.waitaTimeout cid wx stamp) s = .next s)) ∧
  (∀ (s : State) cid wx (w : Weave) (c : Crew), s.crew? cid = some c → s.weave? cid wx = some w → w.wait = .spin →
    w.spin.armed = false →
    (w.spin.watched = true → (∃ l ∈ w.spin.last, ∃ p, l.loc = some p ∧ s.locReadN c.owner p l.bytes.length ≠ l.bytes) →
      Woken s (.armingEnd cid wx) cid wx w none) ∧
    ((w.spin.watched = false ∨ ∀ l ∈ w.spin.last, ∀ p, l.loc = some p → s.locReadN c.owner p l.bytes.length = l.bytes) →
      ∃ t w', exec (.armingEnd cid wx) s = .next t ∧ t.weave? cid wx = some w' ∧ w'.wait = .spin ∧ w'.spin.armed = true ∧
        (if w.spin.watched then (max s.now (w.parked + 64 * (w.spin.quant * 1000)), .watchedTimeout cid wx w.stamp)
         else (max s.now (w.parked + w.spin.quant * 1000), .quantExpiry cid wx w.stamp)) ∈ t.timers))

/-- Watch sets, `WAITA`, and what ends a wait (R109, R110, R340, R341, R377). -/
def watchAndWaitRules : Prop := watchRules ∧ waitaRules ∧ wakeRules

/-! ## Barriers -/

/-- `BARA`, `BARW` or `BARAW`, with whether it arrives and whether it waits. -/
def barrierOf (i : Instr) (f : MForm) (arrives waits : Bool) : Prop :=
  (i = .bara f ∧ arrives = true ∧ waits = false) ∨ (i = .barw f ∧ arrives = false ∧ waits = true) ∨
    (i = .baraw f ∧ arrives = true ∧ waits = true)

/-- COMPLETE at a crew's barrier, and in a record (R104). -/
def cbarOver (b : CBar) : CBar := { gen := b.gen + 1, expect := b.expect - b.left, arrived := 0, left := 0 }
def recordOver (r : BdirRec) : BdirRec := { r with gen := r.gen + 1, expect := r.expect - r.left, arrived := 0, left := 0 }

/-- Guards, scopes, second arrivals, arriving, waiting and reading at a crew barrier, and the arrival of a crew at a gang or
launch barrier (R101, R104, R342 to R344). -/
def barrierRules : Prop :=
  (∀ (s : State) cid wx (w : Weave) (i : Instr) (f : MForm) (a x : Bool) (c : Crew), barrierOf i f a x → Issues s i cid wx w →
    s.crew? cid = some c →
    (w.uniform f.hd = false → Passes s i cid wx w) ∧
    (w.uniform f.hd = true → w.mode = .user →
      ((f.scp = 2 ∧ (c.cont = true ∨ c.inGang = false)) ∨ (f.scp = 4 ∧ c.cont = true)) →
      Traps s i cid wx w .barrierScope w.pc w.exec noVa)) ∧
  (∀ (s : State) cid wx (w : Weave) (i : Instr) (f : MForm) (a x : Bool) (c : Crew) (b : CBar) n, barrierOf i f a x →
    Issues s i cid wx w → s.crew? cid = some c → f.scp = 1 → w.uniform f.hd = true → f.disp.toNat = n → c.cbars[n]? = some b →
    n < w.carr.length →
    (a = true → w.mode = .user → nthD w.carr n none = some b.gen → Traps s i cid wx w .barrierRearrive w.pc w.exec noVa) ∧
    (a = true → nthD w.carr n none ≠ some b.gen →
      ∃ t w' c', exec i s = .next t ∧ t.weave? cid wx = some w' ∧ t.crew? cid = some c' ∧ w'.pc = w.pc + 16 ∧
        nthD w'.carr n none = some b.gen ∧ SameMemory s t ∧
        c'.cbars[n]? = some (if b.arrived + 1 = b.expect then cbarOver { b with arrived := b.arrived + 1 }
          else { b with arrived := b.arrived + 1 }) ∧
        w'.wait = (if x = true ∧ b.arrived + 1 ≠ b.expect then .barrier 1 n b.gen else .none) ∧
        (b.arrived + 1 = b.expect → ∀ j y g, j ≠ wx → s.weave? cid j = some y → y.wait = .barrier 1 n g →
          ∃ y', t.weave? cid j = some y' ∧ y'.wait = .none)) ∧
    (a = false → ∃ t w', exec i s = .next t ∧ t.weave? cid wx = some w' ∧ w'.pc = w.pc + 16 ∧ SameMemory s t ∧
      w'.wait = (if nthD w.carr n none = some b.gen then .barrier 1 n b.gen else .none))) ∧
  (∀ (s : State) cid wx (w : Weave) (i : Instr) (f : MForm) (x : Bool) (c : Crew) n m, barrierOf i f true x →
    Issues s i cid wx w → s.crew? cid = some c → (f.scp = 2 ∨ f.scp = 4) → c.cont = false → (f.scp = 2 → c.inGang = true) →
    w.uniform f.hd = true → w.mode = .user → f.disp.toNat = n → m = c.pendOf f.scp.toNat n →
    (m.getLsbD wx = true → Traps s i cid wx w .barrierRearrive w.pc w.exec noVa) ∧
    (m.getLsbD wx = false → c.mOf f.scp.toNat n ≠ some (c.kOf f.scp.toNat n) →
      (c.live &&& ~~~ (m ||| BitVec.twoPow 32 wx)) ≠ 0 → wx < 32 → n < 16 → c.gpend.length = 16 → c.lpend.length = 16 →
      ∃ t w' c', exec i s = .next t ∧ t.weave? cid wx = some w' ∧ t.crew? cid = some c' ∧ w'.pc = w.pc + 16 ∧
        c'.pendOf f.scp.toNat n = m ||| BitVec.twoPow 32 wx ∧ SameMemory s t ∧
        w'.wait = (if x then .barrier f.scp.toNat n (c.kOf f.scp.toNat n) else .none)) ∧
    (m.getLsbD wx = false → c.mOf f.scp.toNat n ≠ some (c.kOf f.scp.toNat n) →
      (f.scp = 2 ∨ (c.inGang = false ∧ (s.crews.map Crew.cid).Nodup)) →
      (c.live &&& ~~~ (m ||| BitVec.twoPow 32 wx)) = 0 → wx < 32 → n < 16 → c.gpend.length = 16 → c.gm.length = 16 →
      c.lpend.length = 16 → c.lm.length = 16 → ∀ r, s.bdirNum? c f.scp.toNat n = some r →
      ∃ t w' c', exec i s = .next t ∧ t.weave? cid wx = some w' ∧ t.crew? cid = some c' ∧ w'.pc = w.pc + 16 ∧
        c'.pendOf f.scp.toNat n = 0 ∧ c'.mOf f.scp.toNat n = some (c.kOf f.scp.toNat n) ∧
        w'.wait = (if x then .barrier f.scp.toNat n (c.kOf f.scp.toNat n) else .none) ∧
        .bdirArrive r cid (c.mOf f.scp.toNat n) ∈ t.pending)) ∧
  (∀ (s : State) cid wx (w : Weave) (f : MForm) (c : Crew) n, Issues s (.barw f) cid wx w → s.crew? cid = some c →
    (f.scp = 2 ∨ f.scp = 4) → c.cont = false → (f.scp = 2 → c.inGang = true) → w.uniform f.hd = true → f.disp.toNat = n →
    ∃ t w', exec (.barw f) s = .next t ∧ t.weave? cid wx = some w' ∧ w'.pc = w.pc + 16 ∧ SameMemory s t ∧
      w'.wait = (if (c.pendOf f.scp.toNat n).getLsbD wx = true ∨ c.mOf f.scp.toNat n = some (c.kOf f.scp.toNat n)
        then .barrier f.scp.toNat n (c.kOf f.scp.toNat n) else .none)) ∧
  (∀ (s : State) cid wx (w : Weave) (f : MForm) (c : Crew), Issues s (.barq f) cid wx w → s.crew? cid = some c → f.hd.grp = true →
    (w.qPass f.hd = false → Passes s (.barq f) cid wx w) ∧
    (w.qPass f.hd = true → f.scp = 1 → ∀ b, c.cbars[f.disp.toNat]? = some b →
      Effects s (.barq f) cid wx w [f.hd.d, f.hd.d.plus 1] fun t w' => SameMemory s t ∧
        ReceivesWords w w' f.hd f.hd.d (fun _ => b.gen) ∧
        ReceivesWords w w' f.hd (f.hd.d.plus 1) fun _ => BitVec.ofNat 32 (min b.arrived (2 ^ 32 - 1))) ∧
    (w.qPass f.hd = true → f.scp = 4 → c.cont = false → w.outst < 255 → isGroup f.hd.d = true → Inv s → w.mode = .user →
      ∀ num r, s.bdirNum? c 4 f.disp.toNat = some num → s.bdir? num = some r →
      ∃ t w1 id t' w2, exec (.barq f) s = .next t ∧ t.weave? cid wx = some w1 ∧ w1.pc = w.pc + 16 ∧ w1.outst = w.outst + 1 ∧
        .loadComplete id ∈ t.pending ∧ exec (.loadComplete id) t = .next t' ∧ t'.weave? cid wx = some w2 ∧
        w2.outst = w.outst ∧ SameMemory s t' ∧ ReceivesWords w w2 f.hd f.hd.d (fun _ => r.gen) ∧
        ReceivesWords w w2 f.hd (f.hd.d.plus 1) fun _ => BitVec.ofNat 32 (min r.arrived (2 ^ 32 - 1))))

/-- ARRIVE, EXIT and COMPLETE in a Barrier Directory record, and the notice that frees its waiters (R104, R105). -/
def directoryRules : Prop :=
  (∀ (s : State) num cid mine (r : BdirRec), s.bdir? num = some r →
    ∃ t, exec (.bdirArrive num cid mine) s = .next t ∧ SameMemory s t ∧
      (mine ≠ some r.gen → t.bdir? num = some (if r.arrived + 1 = r.expect then recordOver { r with arrived := r.arrived + 1 }
        else { r with arrived := r.arrived + 1 })) ∧
      (mine ≠ some r.gen → r.arrived + 1 = r.expect → ∀ d < 4, s.partOf d = r.own / 16 →
        .generationNotice num (r.gen + 1) d ∈ t.pending) ∧
      (mine = some r.gen → t.bdir? num = some r ∧ ∀ j w, s.weave? cid j = some w → w.done = false → w.mode = .user →
        ∃ w', t.weave? cid j = some w' ∧ TrapEntered w w' .barrierRearrive false w.pc w.exec noVa)) ∧
  (∀ (s : State) num die mine (r : BdirRec), s.bdir? num = some r → 0 < r.expect →
    ∃ t, exec (.bdirExit num ⟨die, mine⟩) s = .next t ∧ SameMemory s t ∧
      (mine = some r.gen → t.bdir? num = some { r with left := r.left + 1 }) ∧
      (mine ≠ some r.gen → t.bdir? num = some (if 0 < r.arrived ∧ r.arrived = r.expect - 1
        then recordOver { r with expect := r.expect - 1 } else { r with expect := r.expect - 1 }))) ∧
  (∀ (s : State) num gen d (r : BdirRec) (c : Crew) wx (w : Weave) g k, s.bdir? num = some r → r.scope = 1 → s.crew? c.cid = some c →
    c.place = .resident k → k / 64 = d → s.bdirNum? c 2 r.index = some num → c.kOf 2 r.index = g → gen = g + 1 →
    s.weave? c.cid wx = some w → w.wait = .barrier 2 r.index g → (∀ x ∈ s.crews, x.cid = c.cid → x = c) →
    (s.crews.map Crew.cid).Nodup →
    ∃ t w', exec (.generationNotice num gen d) s = .next t ∧ t.weave? c.cid wx = some w' ∧ w'.wait = .none ∧ SameMemory s t)

/-- A barrier wait that a trap interrupts is kept: `TRET` takes it up again, and it is over when its generation is. That is the
model's reading (log entry 24). -/
def keptWaitRules : Prop :=
  (∀ (w : Weave) (t : Pending), w.mode = .user → (w.enterTrap t).kept = (match w.wait with
    | .barrier scp n g => .barrier scp n g
    | _ => .none)) ∧
  (∀ (s : State) cid wx (w : Weave) (f : SForm) (c : Crew) scp n (g : Word), Issues s (.tret f) cid wx w → s.crew? cid = some c →
    w.acts f.hd = true → w.kept = .barrier scp n g →
    ∃ t w', exec (.tret f) s = .next t ∧ t.weave? cid wx = some w' ∧ w'.mode = .user ∧ w'.kept = .none ∧ SameMemory s t ∧
      w'.wait = (if c.known scp n = g then .barrier scp n g else .none))

/-- Barrier instructions and the directory's events (R101, R104, R105, R342 to R344). -/
def barriersRules : Prop := barrierRules ∧ directoryRules ∧ keptWaitRules

/-- Watched lines, waits and barriers. -/
def Obligations.WaitsAndBarriers : Prop := watchAndWaitRules ∧ barriersRules


/-! ## Signals -/

/-- VALUE and UFL after an operation (R44). -/
def signalAfter (op : SigOp) (v : Int) (ufl : Bool) : Int × Bool :=
  match op with
  | .add d => if v < 0 then (v, ufl) else if v + d.toInt < 0 then (0, true) else (min (v + d.toInt) (2 ^ 63 - 1), ufl)
  | .set x => (x.toInt, ufl && decide (x ≠ 0))
  | .abort => (if 0 ≤ v then -1 else v, ufl)

/-- VALUE of the signal at a physical address, as an owner reads it. -/
def signalValue (s : State) (owner pa : Nat) : Int := (BitVec.ofNat 64 (natLE (s.hbmBytes owner pa 8))).toInt

/-- An operation on a local signal in plain conditions: memory readable, no error words, no logging, and none of the owner's
that waits. -/
structure PlainSignal (s : State) (owner : Nat) (ref : DWord) (pa : Nat) : Prop where
  inv : Inv s
  errors : noErrors s
  form : refOk ref = true ∧ ref.getLsbD 63 = false
  page : s.devicePa owner ref.toNat true = .ok pa
  log : s.dlen owner = false
  queue : ∀ x ∈ s.sigWait, x.owner ≠ owner

/-- The signal's VALUE has become that of R44, and every byte outside its first 9 reads as before. -/
def SignalChanges (s t : State) (owner pa : Nat) (op : SigOp) : Prop :=
  signalValue t owner pa = (signalAfter op (signalValue s owner pa) ((s.hbmByte owner (pa + 8)).getLsbD 0)).1 ∧
  (t.hbmByte owner (pa + 8)).getLsbD 0 = (signalAfter op (signalValue s owner pa) ((s.hbmByte owner (pa + 8)).getLsbD 0)).2 ∧
  ∀ a, (a < pa ∨ pa + 9 ≤ a) → t.hbmByte owner a = s.hbmByte owner a

/-- An ADD that underflows (R44). -/
def underflows (s : State) (owner pa : Nat) : SigOp → Prop
  | .add d => 0 ≤ signalValue s owner pa ∧ signalValue s owner pa + d.toInt < 0
  | _ => False

/-- A signal operation's next state: when an ADD underflows, the value and UFL change, then its SIGNAL event is written, then the
waiters are looked at, and `rest` follows; else `P` holds (R44). -/
def operatesOn (s : State) (i : Instr) (owner : Nat) (ref : DWord) (pa : Nat) (op : SigOp) (rest : State → State)
    (P : State → Prop) : Prop :=
  (¬ underflows s owner pa op → ∃ t, exec i s = .next t ∧ SignalChanges s t owner pa op ∧ P t) ∧
  (underflows s owner pa op → ∃ u, SignalChanges s u owner pa op ∧ P u ∧
    exec i s = .next (rest ((u.event owner { cls := .signal, cause := .signalUnderflow, src := paDie pa, addr := ref.toNat }).examine
      owner ref true)))

/-- The wait tables are read again 10 µs from now, or before when that was due (R44). -/
def rereadDue (s t : State) : Prop :=
  (∀ x ∈ s.timers, x ∈ t.timers) ∧
    ((∀ x ∈ s.timers, x.2 ≠ .waitTableReread) → (s.now + 10000, .waitTableReread) ∈ t.timers)

/-- Signal operations of kernels, hosts and peers, with what waits on them (R33, R43 to R45, R50, R51, R345). -/
def Obligations.Signals : Prop :=
  (∀ (s : State) cid wx (w : Weave) (f : MForm) (c : Crew) k ref delta, Issues s (.sigadd f) cid wx w → s.crew? cid = some c →
    c.place = .resident k → ref = w.wideG 0 false f.hd.a → delta = w.wideG 0 true f.hd.b →
    (w.qPass f.hd = false → Passes s (.sigadd f) cid wx w) ∧
    (w.qPass f.hd = true → refOk ref = false → w.mode = .user → GroupTraps s (.sigadd f) cid wx w .addrNoncanon ref.toNat) ∧
    (w.qPass f.hd = true → ref.getLsbD 63 = true → s.peerKnown c.owner ref = true →
      ∃ t w', exec (.sigadd f) s = .next t ∧ t.weave? cid wx = some w' ∧ w'.pc = w.pc + 16 ∧ OnlyRegs [] w w' ∧
        t.out = s.out ++ [.peerOp c.owner (.add delta) ref] ∧ SameMemory s t) ∧
    (w.qPass f.hd = true → ref.getLsbD 63 = true → s.peerKnown c.owner ref = false →
      ∃ w', w'.pc = w.pc + 16 ∧ OnlyRegs [] w w' ∧ exec (.sigadd f) s =
        .next ((s.putWeave cid wx w').event c.owner { cls := .signal, cause := .peerUnset, addr := ref.toNat })) ∧
    (w.qPass f.hd = true → ∀ pa p, Inv s → noErrors s → refOk ref = true → ref.getLsbD 63 = false → s.dlen c.owner = false →
      s.probeVa w k c.owner ⟨8, false, true, false⟩ ref.toNat = .ok [p] → p.loc = .hbm pa →
      operatesOn s (.sigadd f) c.owner ref pa (.add delta) (fun u => u.dropPiece k c.owner p) fun t =>
        ∃ w', t.weave? cid wx = some w' ∧ w'.pc = w.pc + 16)) ∧
  (∀ (s : State) cid wx (w : Weave) (f : MForm) (c : Crew) k ref, Issues s (.sigwt f) cid wx w → s.crew? cid = some c →
    c.place = .resident k → ref = w.wideG 0 false f.hd.a →
    (w.qPass f.hd = false → Passes s (.sigwt f) cid wx w) ∧
    (w.qPass f.hd = true → w.wakeRes = some true → Effects s (.sigwt f) cid wx w [] fun t _ => SameMemory s t) ∧
    (w.qPass f.hd = true → w.mode = .user → (w.wakeRes = some false ∨
        (w.wakeRes = none ∧ refOk ref = true ∧ ref.getLsbD 63 = true ∧ s.peerKnown c.owner ref = false)) →
      Traps s (.sigwt f) cid wx w .signalAborted w.pc w.exec noVa) ∧
    (w.qPass f.hd = true → w.wakeRes = none → w.mode = .user → refOk ref = false →
      GroupTraps s (.sigwt f) cid wx w .addrNoncanon ref.toNat) ∧
    (w.qPass f.hd = true → w.wakeRes = none → refOk ref = true → ref.getLsbD 63 = false → ∀ pa p,
      s.probeVa w k c.owner ⟨8, true, false, false⟩ ref.toNat = .ok [p] → p.loc = .hbm pa → p.len = 8 →
      (signalValue s c.owner pa = 0 → Effects s (.sigwt f) cid wx w [] fun t _ => SameMemory s t) ∧
      (signalValue s c.owner pa < 0 → w.mode = .user → Traps s (.sigwt f) cid wx w .signalAborted w.pc w.exec noVa) ∧
      (0 < signalValue s c.owner pa → StandsAndWaits s (.sigwt f) cid wx w (· = .signal ref) ∧
        ∃ t, exec (.sigwt f) s = .next t ∧ WaitReg.mk c.owner ref (.weave cid wx) 0 ∈ t.waits ∧ rereadDue s t)) ∧
    (w.qPass f.hd = true → w.wakeRes = none → ref.getLsbD 63 = true → s.peerKnown c.owner ref = true →
      StandsAndWaits s (.sigwt f) cid wx w (· = .signal ref) ∧
        ∃ t, exec (.sigwt f) s = .next t ∧ t.remoteWaits = s.remoteWaits ++ [WaitReg.mk c.owner ref (.weave cid wx) 0] ∧
          t.out = s.out ++ [.peerRegister c.owner ref])) ∧
  (∀ (s : State) (m : Msg) ref x pa (op : SigOp) (i : Instr), (op = .add x ∧ i = .sigopAdd m ref x) ∨ (op = .set x ∧ i = .sigopSet m ref x) →
    PlainSignal s (s.ctxOwner m.ctx) ref pa →
    operatesOn s i (s.ctxOwner m.ctx) ref pa op (fun u => u.perform m) fun _ => True) ∧
  (∀ (s : State) (m : Msg) ref x (i : Instr), (i = .sigopAdd m ref x) ∨ (i = .sigopSet m ref x) →
    (ref.getLsbD 63 = true ∨ refOk ref = false) → exec i s = .next (s.perform m)) ∧
  (∀ (s : State) owner ref pa op rest, s.peerIn = .sigop owner op ref :: rest → s.migratedAway owner = false →
    PlainSignal { s with peerIn := rest } owner ref pa →
    operatesOn s .remoteSignalOperation owner ref pa op (fun u => u) fun t => t.peerIn = rest) ∧
  (∀ (s : State) cid wx (w : Weave) owner ref v rest n, s.peerIn = .notify owner ref v false :: rest → s.migratedAway owner = false →
    s.weave? cid wx = some w → w.wait = .signal ref → w.handler = none → w.pend = none →
    s.remoteWaits = [WaitReg.mk owner ref (.weave cid wx) n] →
    ∃ t w', exec .signalNotification s = .next t ∧ t.peerIn = rest ∧ t.weave? cid wx = some w' ∧
      (0 < v.toInt → w' = w ∧ t.remoteWaits = s.remoteWaits) ∧
      (v.toInt ≤ 0 → w'.wait = .none ∧ w'.wakeRes = some (decide (v = 0)) ∧ t.remoteWaits = [])) ∧
  -- a notification that a migration's source forwards: it waits for the tenant, then only causes a re-read
  (∀ (s : State) owner ref v rest, s.peerIn = .notify owner ref v true :: rest → s.migratedAway owner = false →
    ∃ t, exec .signalNotification s = .next t ∧ SameMemory s t ∧ t.crews = s.crews ∧ t.remoteWaits = s.remoteWaits ∧
      (s.tenantRuns owner = false → t.peerIn = rest ++ [.notify owner ref v true] ∧ .signalNotification ∈ t.pending ∧ t.out = s.out) ∧
      (s.tenantRuns owner = true → t.peerIn = rest ∧
        t.out = s.out ++ (if s.remoteWaits.any (fun r => r.owner == owner && r.ref == ref) then [.peerRegister owner ref] else []))) ∧
  -- the wait tables' own reading: a weave's registration, and a peer's, which is told of a value it was not told
  (∀ (s : State) owner ref pa v, s.waits = [WaitReg.mk owner ref .peer v] → s.devicePa owner ref.toNat false = .ok pa →
    ∃ t x, exec .waitTableReread s = .next t ∧ SameMemory s t ∧ x = BitVec.ofNat 64 (natLE (s.hbmBytes owner pa 8)) ∧
      t.waits = [WaitReg.mk owner ref .peer x] ∧
      t.out = s.out ++ (if x = v then [] else [.peerNotify owner ref x]) ∧ rereadDue s t) ∧
  (∀ (s : State) cid wx (w : Weave) owner ref pa n, s.weave? cid wx = some w → w.wait = .signal ref → w.handler = none →
    w.pend = none → s.waits = [WaitReg.mk owner ref (.weave cid wx) n] → s.devicePa owner ref.toNat false = .ok pa →
    ∃ t w', exec .waitTableReread s = .next t ∧ SameMemory s t ∧ t.weave? cid wx = some w' ∧
      (0 < signalValue s owner pa → w' = w ∧ t.waits = s.waits ∧ rereadDue s t) ∧
      (signalValue s owner pa ≤ 0 → w'.wait = .none ∧ w'.wakeRes = some (decide (signalValue s owner pa = 0)) ∧ t.waits = [])) ∧
  (∀ (s : State) owner ref rest, s.peerIn = .register owner ref :: rest → ∃ t v, exec .remoteWaitRegistration s = .next t ∧
    t.peerIn = rest ∧ t.waits = s.waits ++ [WaitReg.mk owner ref .peer v] ∧ SameMemory s t ∧
    t.out = s.out ++ [.peerValue owner ref v] ∧ rereadDue s t ∧
    (∀ pa, s.devicePa owner ref.toNat false = .ok pa → v = BitVec.ofNat 64 (natLE (s.hbmBytes owner pa 8)))) ∧
  (∀ (s : State) m rest, s.peerIn = m :: rest → s.migratedAway (PeerMsg.owner m) = true → ∃ t, exec .migrationRelay s = .next t ∧
    t.peerIn = rest ∧ t.out = s.out ++ [.relay (PeerMsg.owner m) (match m with | .notify o r v _ => .notify o r v true | m => m)] ∧
    SameMemory s t)

/-! ## The Accord Engine -/

/-- An Accord instruction of a lane form that acts, for a resident crew that is in no gang and whose core's queue is
empty. -/
structure AccordReady (s : State) (i : Instr) (cid wx : Nat) (w : Weave) (f : EForm) (c : Crew) (k : Nat) : Prop where
  issues : Issues s i cid wx w
  inv : Inv s
  crew : s.crew? cid = some c
  alone : c.inGang = false
  place : c.place = .resident k
  core : k < 256
  queue : (s.core k).accq = []
  flights : s.flights = []
  acts : w.acts f.hd = true
  tables : c.tables.length = 16
  tiles : c.tiles.length = 128
  pds : c.pds.length = 4

/-- The voting lanes hold one format word (R209). -/
def votesFor (w : Weave) (f : EForm) (fw : Word) : Prop :=
  ∀ l < 32, (w.actors f.hd).getLsbD l = true → w.valueOf f.imm f.hd.b l = fw

/-- A format word that is none: AFMT 3 or a reserved bit (R208, R209). -/
def badWord (fw : Word) : Prop := fw.toNat % 4 = 3 ∨ 512 ≤ fw.toNat

/-- The kind of granule of AFMT (R208). -/
def afmtKind (fw : Word) : Ty := if fw.toNat % 4 = 1 then .i8g else if fw.toNat % 4 = 2 then .t6 else .t8

/-- Columns of K in granules, less 1 (R208). -/
def kgOf (fw : Word) : Nat := fw.toNat / 16 % 32

/-- Size of a set in KiB (R206, R207). -/
def kibOf (fw : Word) : Nat :=
  let g := if fw.getLsbD 3 then 2 else 4
  let e := if fw.getLsbD 2 then 2 ^ (g - 1) else 2 ^ g - 1
  (16 * (32 * (kgOf fw + 1) / g) * e * 4 + 16 * (kgOf fw + 1) + 1023) / 1024

/-- A set holds the fixed values and scales of granules given by their elements and scale (R206). -/
structure Holds (t : Tbl) (kind : Ty) (kg : Nat) (el : Nat → Nat → Nat) (sc : Nat → Nat) : Prop where
  scale : ∀ m < 16, ∀ kb ≤ kg, nthD (nthD t.scales m []) kb 0 =
    if sc (16 * kb + m) = 255 ∨ ∃ i < 32, plainElem kind (el (16 * kb + m) i) = .nan then 255 else sc (16 * kb + m)
  value : ∀ m < 16, ∀ kb ≤ kg, ∀ i < 32, plainElem kind (el (16 * kb + m) i) ≠ .nan →
    ((nthD (nthD t.rows m []) (32 * kb + i) 0 : Int) : Rat) = ratOf (plainElem kind (el (16 * kb + m) i)) * 4096

/-- The fields that a build records (R208, R210). -/
def recorded (t : Tbl) (fw : Word) (src : Binding) : Prop :=
  t.state = .valid ∧ t.afmt = fw.toNat % 4 ∧ t.tkind = fw.getLsbD 2 ∧ t.gsz = fw.getLsbD 3 ∧ t.kg = kgOf fw ∧ t.src = src ∧
    t.size = kibOf fw

/-- KiB of the crew's other sets that count (R207, R213). -/
def otherSets (c : Crew) (th : Nat) : Nat :=
  ((List.range 16).map fun i => if i = th then 0 else match (nthD c.tables i Tbl.unbound).state with
    | .valid | .stale | .discarded => (nthD c.tables i Tbl.unbound).size
    | _ => 0).sum

/-- A crew's own scratch bytes. -/
def scratchBytes (s : State) (cid off n : Nat) : List Byte := (List.range n).map fun j => s.locRead 0 (.scratch cid (off + j))

/-- Bytes of the crew's window (R146). -/
def windowBytes (c : Crew) : Nat := c.shape.scrkb * 1024 + c.shape.ringBytes

/-- The crew after an instruction has a table, and its weave has moved on with every register as it was. -/
def TableBecomes (s : State) (i : Instr) (cid wx : Nat) (w : Weave) (th : Nat) (P : State → Tbl → Prop) : Prop :=
  Effects s i cid wx w [] fun t _ => ∃ c' x, t.crew? cid = some c' ∧ c'.tables[th]? = some x ∧ P t x

/-- A scalar operand: in a lane form the value in the leading lane (R347); and the lanes that act. -/
def scalarOf (w : Weave) (f : EForm) (o : Operand) : Word :=
  if f.hd.grp then w.readG f.imm o else w.valueOf f.imm o ((lowestLane (w.actors f.hd)).getD 0)
def actingOf (w : Weave) (h : Head) : Mask := if h.grp then w.exec else w.actors h

/-- `TBLD` and `TBLDS`: the checks of R211, `TABLE_RAM_FULL` before `SCRATCH_RANGE`, which is a check of step 5 of R226 (log entry
26, DEDUCED), and what is built (R206 to R210, R348). -/
def buildRules : Prop :=
  (∀ (s : State) cid wx (w : Weave) (f : EForm) (c : Crew) k (i : Instr), (i = .tbld f ∨ i = .tblds f) →
    AccordReady s i cid wx w f c k → f.hd.grp = false → w.mode = .user →
    ((∀ fw, ¬ votesFor w f fw) → Traps s i cid wx w .formatDivergence w.pc (w.actors f.hd) noVa)) ∧
  (∀ (s : State) cid wx (w : Weave) (f : EForm) (c : Crew) k fw (n : Fin 640), AccordReady s (.tbld f) cid wx w f c k →
    f.hd.grp = false → votesFor w f fw → f.hd.a = .v n →
    (let fits : Prop := n.val + 4 * (kgOf fw + 1) ≤ w.v.length
     let full : Prop := ∀ x ∈ regKeys f.hd.a (4 * (kgOf fw + 1)), x ∉ w.empty
     (w.mode = .user → ¬ fits → Traps s (.tbld f) cid wx w .regRange w.pc (w.actors f.hd) noVa) ∧
     (w.mode = .user → fits → full → badWord fw → Traps s (.tbld f) cid wx w .formatInvalid w.pc (w.actors f.hd) noVa) ∧
     (w.mode = .user → fits → full → ¬ badWord fw → c.shape.tblkb < otherSets c f.th.val + kibOf fw →
       Traps s (.tbld f) cid wx w .tableRamFull w.pc (w.actors f.hd) noVa) ∧
     (fits → full → ¬ badWord fw → otherSets c f.th.val + kibOf fw ≤ c.shape.tblkb →
       TableBecomes s (.tbld f) cid wx w f.th.val fun t x => SameMemory s t ∧ recorded x fw (.regs wx n.val) ∧
         .tableBuildComplete k ∈ t.pending ∧
         Holds x (afmtKind fw) (kgOf fw)
           (fun g j => byteIn (((nthD w.v (n.val + g / 4) (.uni Lane.zero)).lane (8 * (g % 4) + j / 4)).val) (j % 4))
           (fun g => ((List.range 8).map fun j =>
             if ((nthD w.v (n.val + g / 4) (.uni Lane.zero)).lane (8 * (g % 4) + j)).sb then 2 ^ j else 0).sum)))) ∧
  (∀ (s : State) cid wx (w : Weave) (f : EForm) (c : Crew) k fw off len, AccordReady s (.tblds f) cid wx w f c k →
    f.hd.grp = false → votesFor w f fw → off = (scalarOf w f f.hd.a).toNat → len = (if fw.toNat % 4 = 2 then 25 else 33) →
    (w.mode = .user → badWord fw → Traps s (.tblds f) cid wx w .formatInvalid w.pc (w.actors f.hd) noVa) ∧
    (w.mode = .user → ¬ badWord fw → c.shape.tblkb < otherSets c f.th.val + kibOf fw →
      Traps s (.tblds f) cid wx w .tableRamFull w.pc (w.actors f.hd) noVa) ∧
    (w.mode = .user → ¬ badWord fw → otherSets c f.th.val + kibOf fw ≤ c.shape.tblkb →
      windowBytes c < off + 16 * (kgOf fw + 1) * len → Traps s (.tblds f) cid wx w .scratchRange w.pc (w.actors f.hd) noVa) ∧
    (¬ badWord fw → otherSets c f.th.val + kibOf fw ≤ c.shape.tblkb → off + 16 * (kgOf fw + 1) * len ≤ windowBytes c →
      TableBecomes s (.tblds f) cid wx w f.th.val fun t x => SameMemory s t ∧ recorded x fw (.scratch off) ∧
        Holds x (afmtKind fw) (kgOf fw) (fun g j => granuleElem (len == 25) (scratchBytes s cid (off + g * len) len) j)
          (fun g => granuleScale (len == 25) (scratchBytes s cid (off + g * len) len))))

/-- `TINV`, `TSPILL`, `TFILL`, `TSTAT` and `PLNSET`, with their traps, and the end of a table operation (R212 to R215,
R348). That `TSTAT` of an UNBOUND handle is the word 0 whole is the model's choice (log entry 46). -/
def tableRules : Prop :=
  (∀ (s : State) cid wx (w : Weave) (f : EForm) (c : Crew) k, AccordReady s (.tinv f) cid wx w f c k →
    TableBecomes s (.tinv f) cid wx w f.th.val fun t x => SameMemory s t ∧ x.state = .unbound ∧ .accordOpRetire k ∈ t.pending) ∧
  (∀ (s : State) cid wx (w : Weave) (f : EForm) (c : Crew) k (x : Tbl) off, AccordReady s (.tspill f) cid wx w f c k →
    c.tables[f.th.val]? = some x → off = (scalarOf w f f.hd.a).toNat →
    (w.mode = .user → x.state ≠ .valid → Traps s (.tspill f) cid wx w .tableStale w.pc (actingOf w f.hd) noVa) ∧
    (w.mode = .user → x.state = .valid → windowBytes c < off + x.size * 1024 →
      Traps s (.tspill f) cid wx w .scratchRange w.pc (actingOf w f.hd) noVa) ∧
    (x.state = .valid → off + x.size * 1024 ≤ windowBytes c → x.spillBytes.length = x.size * 1024 → 0 < x.size →
      (∃ wz base, x.src = .regs wz base) →
      TableBecomes s (.tspill f) cid wx w f.th.val fun t y => y = { x with state := .spilled, spill := off } ∧
        scratchBytes t cid off (x.size * 1024) = x.spillBytes ∧
        ∀ j, (j < off ∨ off + x.size * 1024 ≤ j) → t.locRead 0 (.scratch cid j) = s.locRead 0 (.scratch cid j))) ∧
  (∀ (s : State) cid wx (w : Weave) (f : EForm) (c : Crew) k (x : Tbl), AccordReady s (.tfill f) cid wx w f c k →
    c.tables[f.th.val]? = some x →
    (w.mode = .user → x.state ≠ .spilled → Traps s (.tfill f) cid wx w .tableStale w.pc (actingOf w f.hd) noVa) ∧
    (w.mode = .user → x.state = .spilled → c.shape.tblkb < otherSets c f.th.val + x.size →
      Traps s (.tfill f) cid wx w .tableRamFull w.pc (actingOf w f.hd) noVa) ∧
    (x.state = .spilled → otherSets c f.th.val + x.size ≤ c.shape.tblkb → x.spill + x.size * 1024 ≤ windowBytes c →
      TableBecomes s (.tfill f) cid wx w f.th.val fun t y => SameMemory s t ∧ y = { x with state := .valid })) ∧
  (∀ (s : State) cid wx (w : Weave) (f : EForm) (c : Crew) k (x : Tbl), AccordReady s (.tstat f) cid wx w f c k →
    f.hd.grp = true → c.tables[f.th.val]? = some x →
    Effects s (.tstat f) cid wx w [f.hd.d] fun t w' => SameMemory s t ∧ ReceivesWords w w' f.hd f.hd.d fun _ =>
      (let code (n : Nat) : Word := BitVec.ofNat 32 (n + 8 * x.afmt + (if x.tkind then 32 else 0) + (if x.gsz then 64 else 0)
         + 128 * x.kg + (match x.src with | .regs .. => 0 | .scratch _ => 4096) + 16384 * x.size)
       match x.state with
       | .unbound => 0
       | .valid => code 1
       | .stale => code 2
       | .discarded => code 3
       | .spilled => code 4)) ∧
  (∀ (s : State) cid wx (w : Weave) (f : EForm) (c : Crew) k off, AccordReady s (.plnset f) cid wx w f c k →
    off = (scalarOf w f f.hd.a).toNat →
    (let bs := scratchBytes s cid off 260
     let ctl : Word := BitVec.ofNat 32 (natLE (bs.take 4))
     let good : Prop := ctl.getLsbD 0 = false ∨ ∀ p ≤ ctl.toNat / 4 % 8, ∀ n < 32,
       0x70 ≤ (nthD bs (4 + 32 * p + n) 0).toNat ∧ (nthD bs (4 + 32 * p + n) 0).toNat ≤ 0x8F
     (w.mode = .user → windowBytes c < off + 260 → Traps s (.plnset f) cid wx w .scratchRange w.pc (actingOf w f.hd) noVa) ∧
     (w.mode = .user → off + 260 ≤ windowBytes c → 32 ≤ ctl.toNat → Traps s (.plnset f) cid wx w .formatInvalid w.pc (actingOf w f.hd) noVa) ∧
     (w.mode = .user → off + 260 ≤ windowBytes c → ctl.toNat < 32 → ¬ good →
       Traps s (.plnset f) cid wx w .planeRange w.pc (actingOf w f.hd) noVa) ∧
     (off + 260 ≤ windowBytes c → ctl.toNat < 32 → good → Effects s (.plnset f) cid wx w [] fun t _ => SameMemory s t ∧
       ∃ c', t.crew? cid = some c' ∧ c'.pds[f.ctl.toNat % 4]? = some (PlaneD.mk ctl (bs.drop 4)) ∧
         ∀ j, j ≠ f.ctl.toNat % 4 → c'.pds[j]? = c.pds[j]?))) ∧
  (∀ (s : State) k op rest, (s.core k).accq = op :: rest → k < s.cores.length →
    ((∃ cid th, op = .tspill cid th ∨ op = .tfill cid th ∨ op = .tinv cid th) →
      ∃ t, exec (.accordOpRetire k) s = .next t ∧ SameMemory s t ∧ (t.core k).accq = rest) ∧
    ((∃ cid th, op = .build cid th) →
      ∃ t, exec (.tableBuildComplete k) s = .next t ∧ SameMemory s t ∧ (t.core k).accq = rest))

/-- Instructions on table sets and plane descriptors (R206 to R215, R348, R349). -/
def Obligations.TableSets : Prop := buildRules ∧ tableRules

/-- Bit t of the code of group j of plane p, column n, granule kb, in the bytes of a B block (R216). -/
def codeBit (g2 : Bool) (npl : Nat) (bs : List Byte) (kb p n j t : Nat) : Bool :=
  let cw := if g2 then 8 else 4
  (natLE ((bs.drop (kb * (32 + (npl + 1) * 32 * cw) + p * 32 * cw + n * cw)).take cw)).testBit (4 * j + t)

/-- The exact sum of a granule, element by element: planes' multipliers times the elements that the codes add, or whose sign
they choose (R206, R215, R217). -/
def granuleDot (t : Tbl) (d : PlaneD) (bs : List Byte) (m n kb : Nat) : Rat :=
  let g := if t.gsz then 2 else 4
  let npl := d.ctl.toNat / 4 % 8
  let mult (p : Nat) : Rat :=
    if d.ctl.getLsbD 0 then pow2 (((nthD d.arr (32 * p + n) 0).toNat : Int) - 0x7F)
    else if p = npl ∧ d.ctl.getLsbD 1 = false then -pow2 p else pow2 p
  ((List.range (npl + 1)).map fun p => mult p * ((List.range 32).map fun e =>
    (let a : Rat := ((nthD (nthD t.rows m []) (32 * kb + e) 0 : Int) : Rat)
     if codeBit t.gsz npl bs kb p n (e / g) (e % g) then a else if t.tkind then -a else 0)).sum).sum

/-- Every multiplier of BCQ mode is in its range, as PLNSET leaves it (R215). -/
def multipliersFit (d : PlaneD) : Prop :=
  d.ctl.getLsbD 0 = true → ∀ p ≤ d.ctl.toNat / 4 % 8, ∀ n < 32, 0x70 ≤ (nthD d.arr (32 * p + n) 0).toNat ∧ (nthD d.arr (32 * p + n) 0).toNat ≤ 0x8F

/-- LKA'S SUM. Each element of the tile takes, granule by granule in increasing K, the exact dot product of its row and
column times the scales, rounded once, added with one rounding; a granule marked NaN makes it NaN (R216, R217). -/
def Obligations.LookupSum : Prop :=
  ∀ (t : Tbl) (d : PlaneD) (bs : List Byte) (m n : Nat) (start : Word), m < 16 → n < 32 → multipliersFit d → d.bcq = t.tkind →
    (let npl := d.ctl.toNat / 4 % 8
     let sa (kb : Nat) : Nat := nthD (nthD t.scales m []) kb 0
     let sb (kb : Nat) : Nat := (nthD bs (kb * (32 + (npl + 1) * 32 * (if t.gsz then 8 else 4))
       + (npl + 1) * 32 * (if t.gsz then 8 else 4) + n) 0).toNat
     let x (kb : Nat) : Rat := granuleDot t d bs m n kb * pow2 ((sa kb : Int) + sb kb - 254 - 12)
     ∃ acc : Nat → Word, acc 0 = start ∧ lkaElement t d bs m n start = acc (t.kg + 1) ∧ ∀ kb ≤ t.kg,
       (sa kb = 255 ∨ sb kb = 255 → acc (kb + 1) = 0x7FC00000) ∧
       (sa kb ≠ 255 → sb kb ≠ 255 → ∃ r : Nat,
         RoundedCode fp32 0 false (decide (x kb < 0)) (· < |x kb|) (· = |x kb|) r ∧
         acc (kb + 1) = BitVec.ofNat 32 (fp32.round 0 false ((fp32.decode (acc kb).toNat).add 0 (fp32.decode r)))))

/-- A tile's elements: +0.0 where nothing is bound (R219, R352). -/
def tileElem (c : Crew) (a m n : Nat) : Word := nthD (nthD c.tiles a ⟨false, []⟩).data (32 * m + n) 0

/-- The tile handle may be bound: it is, or the crew holds fewer than ACCQ (R219). -/
def mayBind (c : Crew) (a : Nat) : Prop :=
  (nthD c.tiles a ⟨false, []⟩).bound = true ∨ (c.tiles.filter Tile.bound).length < c.shape.accq

/-- A set holds the granules of its binding, as a build would read them now (R206, R214). -/
def HoldsBinding (s : State) (cid : Nat) (c : Crew) (t : Tbl) : Prop :=
  let kind : Ty := if t.afmt = 1 then .i8g else if t.afmt = 2 then .t6 else .t8
  match t.src with
  | .regs wx base => ∀ w, c.weaves[wx]? = some w → Holds t kind t.kg
      (fun g j => byteIn (((nthD w.v (base + g / 4) (.uni Lane.zero)).lane (8 * (g % 4) + j / 4)).val) (j % 4))
      (fun g => ((List.range 8).map fun j =>
        if ((nthD w.v (base + g / 4) (.uni Lane.zero)).lane (8 * (g % 4) + j)).sb then 2 ^ j else 0).sum)
  | .scratch off =>
    let len := if t.afmt = 2 then 25 else 33
    off + 16 * (t.kg + 1) * len ≤ windowBytes c → Holds t kind t.kg
      (fun g j => granuleElem (len == 25) (scratchBytes s cid (off + g * len) len) j)
      (fun g => granuleScale (len == 25) (scratchBytes s cid (off + g * len) len))

/-- `LKA`: the vote and the checks of R218 in order; a DISCARDED set rebuilt from its binding; and the tile after it has retired:
each element its sum, or, when a code is illegal, as it was, with a deferred `INDEX_RANGE` (R209, R214, R217 to R219, R350). -/
def lkaRules : Prop :=
  (∀ (s : State) cid wx (w : Weave) (f : EForm) (c : Crew) k, AccordReady s (.lka f) cid wx w f c k → f.hd.grp = false →
    w.mode = .user → (∀ fw, ¬ votesFor w f fw) → Traps s (.lka f) cid wx w .formatDivergence w.pc (w.actors f.hd) noVa) ∧
  ∀ (s : State) cid wx (w : Weave) (f : EForm) (c : Crew) k fw (x : Tbl) (d : PlaneD) off len, AccordReady s (.lka f) cid wx w f c k →
    f.hd.grp = false → votesFor w f fw → c.tables[f.th.val]? = some x → c.pds[f.ctl.toNat % 4]? = some d →
    off = (w.valueOf f.imm f.hd.a ((lowestLane (w.actors f.hd)).getD 0)).toNat →
    len = (kgOf fw + 1) * (32 + (d.ctl.toNat / 4 % 8 + 1) * 32 * (if fw.getLsbD 3 then 8 else 4)) →
    (let trap (cause : Cause) : Prop := Traps s (.lka f) cid wx w cause w.pc (w.actors f.hd) noVa
     let live : Prop := x.state = .valid ∨ x.state = .discarded
     let fits : Prop := x.afmt = fw.toNat % 4 ∧ x.tkind = fw.getLsbD 2 ∧ x.gsz = fw.getLsbD 3 ∧ x.kg = kgOf fw ∧
       d.ctl.getLsbD 0 = x.tkind
     let inside : Prop := off % 32 = 0 ∧ off + len ≤ windowBytes c
     (w.mode = .user →
       (badWord fw → trap .formatInvalid) ∧ (¬ badWord fw → x.state = .unbound → trap .tableUnbound) ∧
       (¬ badWord fw → x.state = .stale → trap .tableStale) ∧ (¬ badWord fw → x.state = .spilled → trap .tableSpilled) ∧
       (¬ badWord fw → live → ¬ fits → trap .formatMismatch) ∧
       (¬ badWord fw → live → fits → ¬ mayBind c f.ah.val → trap .accQuota) ∧
       (¬ badWord fw → live → fits → mayBind c f.ah.val → ¬ inside → trap .scratchRange)) ∧
     (¬ badWord fw → live → fits → mayBind c f.ah.val → inside →
       ((nthD c.tiles f.ah.val ⟨false, []⟩).data = [] ∨ (nthD c.tiles f.ah.val ⟨false, []⟩).data.length = 512) →
       Effects s (.lka f) cid wx w [] fun t w1 => SameMemory s t ∧ .lkaRetire k ∈ t.pending ∧
         ∃ x1 c1 t' c' w', t.crew? cid = some c1 ∧ c1.tables[f.th.val]? = some x1 ∧ (x.state = .valid → x1 = x) ∧
           x1 = { x with state := .valid, rows := x1.rows, scales := x1.scales } ∧ (x.state = .discarded → HoldsBinding s cid c x1) ∧
           exec (.lkaRetire k) t = .next t' ∧ t'.crew? cid = some c' ∧ t'.weave? cid wx = some w' ∧
           (t'.core k).accq = [] ∧ SameMemory s t' ∧ w'.v = w.v ∧ (nthD c'.tiles f.ah.val ⟨false, []⟩).bound = true ∧
           (let bs := scratchBytes s cid off len
            let illegal : Prop := fw.getLsbD 3 = true ∧ ∃ kb ≤ kgOf fw, ∃ p ≤ d.ctl.toNat / 4 % 8, ∃ n < 32, ∃ j < 16,
              codeBit true (d.ctl.toNat / 4 % 8) bs kb p n j 2 = true ∨ codeBit true (d.ctl.toNat / 4 % 8) bs kb p n j 3 = true
            (illegal → (∀ m < 16, ∀ n < 32, tileElem c' f.ah.val m n = tileElem c f.ah.val m n) ∧
              (w.pend = none → ∃ p, w'.pend = some p ∧ p.cause = .indexRange ∧ p.defer = true ∧ p.pc = w.pc ∧
                p.lanes = w.actors f.hd)) ∧
            (¬ illegal → w'.pend = w1.pend ∧ ∀ m < 16, ∀ n < 32,
              tileElem c' f.ah.val m n = lkaElement x1 d bs m n (tileElem c f.ah.val m n)))))

/-- Two `LKA`s at the head of a core's queue, of weaves of one crew and on two tiles, with groups of four: those that name one B
block fuse and retire together, each with its own table and tile; of others the first retires alone (R220, R222). -/
def fusionRules : Prop :=
  ∀ (s : State) k cid wx wx' pc pc' m m' a a' th th' off off' fw (d : PlaneD) (c : Crew) (x x' : Tbl) len, Inv s →
    (s.core k).accq = [.lka cid wx pc m a th off fw d, .lka cid wx' pc' m' a' th' off' fw d] → k < 256 → s.crew? cid = some c →
    c.inGang = false → c.tiles.length = 128 → a < 128 → a' < 128 → a ≠ a' → c.tables[th]? = some x → c.tables[th']? = some x' →
    fw.getLsbD 3 = false → x.gsz = false → x'.gsz = false → x.kg = kgOf fw → x'.kg = kgOf fw →
    len = (kgOf fw + 1) * (32 + (d.ctl.toNat / 4 % 8 + 1) * 32 * 4) → off + len ≤ windowBytes c →
    (∀ b ∈ [a, a'], (nthD c.tiles b ⟨false, []⟩).data = [] ∨ (nthD c.tiles b ⟨false, []⟩).data.length = 512) →
    (let sum (y : Tbl) (b i j : Nat) : Word := lkaElement y d (scratchBytes s cid off len) i j (tileElem c b i j)
     ∃ t c', exec (.lkaRetire k) s = .next t ∧ SameMemory s t ∧ t.crew? cid = some c' ∧
       (∀ i < 16, ∀ j < 32, tileElem c' a i j = sum x a i j) ∧
       (off' = off → (t.core k).accq = [] ∧ ∀ i < 16, ∀ j < 32, tileElem c' a' i j = sum x' a' i j) ∧
       (off' ≠ off → (t.core k).accq = [.lka cid wx' pc' m' a' th' off' fw d] ∧
         ∀ i < 16, ∀ j < 32, tileElem c' a' i j = tileElem c a' i j))

/-- `ARD`, `AWR`, `AZRO` and `AREL`, and what their ends do (R219, R220, R351, R352). -/
def tileRules : Prop :=
  (∀ (s : State) cid wx (w : Weave) (f : EForm) (c : Crew) k (n : Fin 640), AccordReady s (.ard f) cid wx w f c k →
    f.hd.grp = false → f.hd.d = .v n →
    ∃ t w1 t' w2, exec (.ard f) s = .next t ∧ t.weave? cid wx = some w1 ∧ w1.pc = w.pc + 16 ∧ w1.v = w.v ∧
      (∀ x ∈ regKeys f.hd.d 16, x ∈ w1.empty) ∧ .ardComplete (s.ids + 1) ∈ t.pending ∧
      exec (.ardComplete (s.ids + 1)) t = .next t' ∧ t'.weave? cid wx = some w2 ∧ SameMemory s t' ∧ w2.g = w.g ∧
      (∀ x ∈ regKeys f.hd.d 16, x ∉ w2.empty) ∧
      ∀ m < 16, ReceivesWords w w2 f.hd (f.hd.d.plus m) fun l => tileElem c f.ah.val m l) ∧
  (∀ (s : State) cid wx (w : Weave) (f : EForm) (c : Crew) k (i : Instr) (el : Nat → Nat → Word), AccordReady s i cid wx w f c k →
    ((i = .awr f ∧ f.hd.grp = false ∧ ∀ m n, el m n = if (w.writers f.hd).getLsbD n then w.valueOf f.imm (f.hd.a.plus m) n else 0) ∨
      (i = .azro f ∧ ∀ m n, el m n = 0)) →
    (¬ mayBind c f.ah.val → w.mode = .user →
      Traps s i cid wx w .accQuota w.pc (if f.hd.grp then w.exec else w.actors f.hd) noVa) ∧
    (mayBind c f.ah.val → Effects s i cid wx w [] fun t _ => SameMemory s t ∧ .accordOpRetire k ∈ t.pending ∧
      ∃ t' c', exec (.accordOpRetire k) t = .next t' ∧ t'.crew? cid = some c' ∧ SameMemory s t' ∧ (t'.core k).accq = [] ∧
        (nthD c'.tiles f.ah.val ⟨false, []⟩).bound = true ∧ ∀ m < 16, ∀ n < 32, tileElem c' f.ah.val m n = el m n)) ∧
  (∀ (s : State) cid wx (w : Weave) (f : EForm) (c : Crew) k, AccordReady s (.arel f) cid wx w f c k →
    Effects s (.arel f) cid wx w [] fun t _ => SameMemory s t ∧ .accordOpRetire k ∈ t.pending ∧
      ∃ t' c', exec (.accordOpRetire k) t = .next t' ∧ t'.crew? cid = some c' ∧ SameMemory s t' ∧ (t'.core k).accq = [] ∧
        (nthD c'.tiles f.ah.val ⟨false, []⟩).bound = false ∧ ∀ m n, tileElem c' f.ah.val m n = 0)

/-- `LKA` and the tile instructions, to the end of their operations, alone and fused (R209, R214, R217 to R220, R222, R350 to
R352). -/
def Obligations.LookupAndTiles : Prop := lkaRules ∧ fusionRules ∧ tileRules

/-! ## Copies, publish and collectives -/

/-- Instructions of the crew's engines, dynamic work and channels, which a failing guard makes pass (R347). -/
def guarded (i : Instr) (f : EForm) : Prop :=
  i ∈ [.tbld f, .tblds f, .tinv f, .tspill f, .tfill f, .tstat f, .plnset f, .lka f, .ard f, .awr f, .azro f, .arel f, .publ f,
    .cstat f, .coll f, .emit f, .enq f, .rtake f, .rsplit f, .rpop f, .rpush f, .rdone f] ∨
  (f.hd.grp = true ∧ (i = .cpy f ∨ i = .cpyg f ∨ i = .cpys f))

/-- One that does not act has no effect (R347); nor has a lane copy under `!p0`, which no lane passes (R251). -/
def guardRules : Prop :=
  (∀ (s : State) cid wx (w : Weave) (i : Instr) (f : EForm), guarded i f → Issues s i cid wx w → w.acts f.hd = false →
    Passes s i cid wx w) ∧
  (∀ (s : State) cid wx (w : Weave) (i : Instr) (f : EForm), (i = .cpyg f ∨ i = .cpys f) → Issues s i cid wx w →
    f.hd.grp = false → f.hd.grd = 0 → f.hd.neg = true → Passes s i cid wx w)

/-- The next ticket: 0 is never issued (R353). -/
def nextTicket (t : Word) : Word := if t = 0xFFFFFFFF then 1 else t + 1

/-- The 64-bit field that starts at register k of a descriptor run (R353). -/
def descField (w : Weave) (o : Operand) (k : Nat) : Nat := (w.readG 0 (o.plus k)).toNat + 2 ^ 32 * (w.readG 0 (o.plus (k + 1))).toNat

/-- A copy instruction of a crew alone in its window: its ready state. -/
structure CopyReady (s : State) (i : Instr) (cid wx : Nat) (w : Weave) (f : EForm) (c : Crew) (k : Nat) : Prop where
  issues : Issues s i cid wx w
  inv : Inv s
  crew : s.crew? cid = some c
  unique : ∀ x ∈ s.crews, x.cid = cid → x = c
  alone : c.inGang = false
  place : c.place = .resident k
  runs : s.tenantRuns c.owner = true
  copies : s.copies = []
  room : c.inflight < 64
  log : c.tickets.length < 256
  errors : noErrors s

/-- An address in a space, as a crew's copy names it (R353). -/
def copyAddr (sp cid a : Nat) : CAddr := if sp = 0 then .glb a else if sp = 1 then .scr cid a else .cmn a

/-- A range runs past its space: 2^52 bytes of memory, the crew's window, the tenant's commons (R354); and its cause. -/
def pastSpace (c : Crew) (mib sp a n : Nat) : Prop :=
  if sp = 0 then 2 ^ 52 < a + n else if sp = 1 then windowBytes c < a + n else 2 ^ 28 ≤ a ∨ mib * 2 ^ 20 < a % 2 ^ 26 + n
def spaceCause (sp : Nat) : Cause := if sp = 0 then .addrNoncanon else if sp = 1 then .scratchRange else .commonsRange

/-- `CPY` traps on a range that starts at an address of a space: only memory has a faulting VA (R227; log entry 25, DEDUCED). -/
def RangeTraps (s : State) (i : Instr) (cid wx : Nat) (w : Weave) (sp a : Nat) : Prop :=
  if sp = 0 then GroupTraps s i cid wx w .addrNoncanon a else Traps s i cid wx w (spaceCause sp) w.pc w.exec noVa

/-- What a scratch copy of runs (from, to, length) leaves at an offset: a copied byte of the last run there, else the old
one; over it the completion word at W, when there is one (R165, R166). -/
def copiedByte (s : State) (cid : Nat) (runs : List (Nat × Nat × Nat)) (cw : Option (Nat × Word)) (j : Nat) : Byte :=
  match cw with
  | some (off, v) => if off ≤ j ∧ j < off + 4 then BitVec.ofNat 8 (v.toNat / 256 ^ (j - off))
      else match runs.reverse.find? fun r => decide (r.2.1 ≤ j) && decide (j < r.2.1 + r.2.2) with
        | some r => s.locRead 0 (.scratch cid (r.1 + (j - r.2.1)))
        | none => s.locRead 0 (.scratch cid j)
  | none => match runs.reverse.find? fun r => decide (r.2.1 ≤ j) && decide (j < r.2.1 + r.2.2) with
    | some r => s.locRead 0 (.scratch cid (r.1 + (j - r.2.1)))
    | none => s.locRead 0 (.scratch cid j)

/-- The copy has issued with its ticket, and COPY_COMPLETE moves its bytes, then writes its completion word, then gives
its ticket status 1 (R165, R166, R353, R355). -/
def CopyRuns (s : State) (i : Instr) (cid wx : Nat) (w : Weave) (f : EForm) (c : Crew) (runs : List (Nat × Nat × Nat))
    (cw : Option (Nat × Word)) : Prop :=
  Effects s i cid wx w [f.hd.d] fun t w1 => SameMemory s t ∧ (ReceivesWords w w1 f.hd f.hd.d fun _ => c.ticket) ∧
    ∃ c1, t.crew? cid = some c1 ∧ c1.ticket = nextTicket c.ticket ∧ c1.inflight = c.inflight + 1 ∧
      assocGet c1.tickets c.ticket.toNat = some 0 ∧ .copyComplete (s.ids + 1) ∈ t.pending ∧
      ∃ t' c2, exec (.copyComplete (s.ids + 1)) t = .next t' ∧ t'.crew? cid = some c2 ∧ c2.inflight = c.inflight ∧
        assocGet c2.tickets c.ticket.toNat = some 1 ∧ t'.copies = [] ∧
        (∀ j, t'.locRead 0 (.scratch cid j) = copiedByte s cid runs cw j) ∧ t'.hbm = s.hbm

/-- The completion word of a copy with CW = 1 at W (R353). -/
def copyWord (w : Weave) (f : EForm) (o : Operand) : Option (Nat × Word) :=
  if f.ctl.getLsbD 4 then some ((w.readG 0 (o.plus 7)).toNat, w.readG 0 (o.plus 6)) else none

/-- A run of a scratch copy lies in the window; its completion word does, aligned; and every one of both (R354). -/
def runFits (c : Crew) (r : Nat × Nat × Nat) : Prop := r.1 + r.2.2 ≤ windowBytes c ∧ r.2.1 + r.2.2 ≤ windowBytes c
def wordFits (c : Crew) (cw : Option (Nat × Word)) : Prop := ∀ x, cw = some x → x.1 % 4 = 0 ∧ x.1 + 4 ≤ windowBytes c
def copyFits (c : Crew) (runs : List (Nat × Nat × Nat)) (cw : Option (Nat × Word)) : Prop :=
  (∀ r ∈ runs, runFits c r) ∧ wordFits c cw

/-- A copy without a byte to move takes its ticket, writes its completion word and is complete at once (R354). -/
def CopyDone (s : State) (i : Instr) (cid wx : Nat) (w : Weave) (f : EForm) (c : Crew) (cw : Option (Nat × Word)) : Prop :=
  Effects s i cid wx w [f.hd.d] fun t w1 => (ReceivesWords w w1 f.hd f.hd.d fun _ => c.ticket) ∧ t.copies = [] ∧ t.hbm = s.hbm ∧
    ∃ c1, t.crew? cid = some c1 ∧ c1.ticket = nextTicket c.ticket ∧ c1.inflight = c.inflight ∧
      assocGet c1.tickets c.ticket.toNat = some 1 ∧ ∀ j, t.locRead 0 (.scratch cid j) = copiedByte s cid [] cw j

/-- The instruction and the run of a lane of `CPYG` or `CPYS` (R354). -/
def laneCopy (gather : Bool) (f : EForm) : Instr := if gather then .cpyg f else .cpys f
def laneRun (gather : Bool) (w : Weave) (f : EForm) (l : Nat) : Nat × Nat × Nat :=
  let off := (w.valueOf f.imm f.hd.a l).toNat
  let src := descField w f.hd.b 0
  let dst := descField w f.hd.b 2
  let len := descField w f.hd.b 4
  if gather then (src + off, dst + l * len, len) else (src + l * len, dst + off, len)

/-- `CPY` between any two spaces: its ranges, and the copy that it starts; and what a copy leaves when its engine comes to it
and its pages are there (R165, R166, R353, R354). Each byte is read before any is written, which log entry 12 says for ranges
that meet. That an offset in scratch or commons is no faulting VA is log entry 25 (DEDUCED). -/
def spaceCopyRules : Prop :=
  (∀ (s : State) cid wx (w : Weave) (f : EForm) (c : Crew) k (te : Tenant) src dst len (sp dp : Nat),
    CopyReady s (.cpy f) cid wx w f c k → f.hd.grp = true → w.qPass f.hd = true → s.tenant? c.owner = some te →
    sp = f.ctl.toNat % 4 → dp = f.ctl.toNat / 4 % 4 → sp < 3 → dp < 3 → f.ctl.getLsbD 4 = false →
    src = descField w f.hd.a 0 → dst = descField w f.hd.a 2 → len = descField w f.hd.a 4 → 0 < len → len ≤ 2 ^ 40 →
    (w.mode = .user → pastSpace c te.commonsMib sp src len → ¬ pastSpace c te.commonsMib dp dst len →
      RangeTraps s (.cpy f) cid wx w sp src) ∧
    (w.mode = .user → ¬ pastSpace c te.commonsMib sp src len → pastSpace c te.commonsMib dp dst len →
      RangeTraps s (.cpy f) cid wx w dp dst) ∧
    (¬ pastSpace c te.commonsMib sp src len → ¬ pastSpace c te.commonsMib dp dst len →
      Effects s (.cpy f) cid wx w [f.hd.d] fun t w1 => SameMemory s t ∧ (ReceivesWords w w1 f.hd f.hd.d fun _ => c.ticket) ∧
        .copyComplete (s.ids + 1) ∈ t.pending ∧ ∃ x, t.copies = [x] ∧ x.id = s.ids + 1 ∧ x.owner = c.owner ∧ x.lid = some c.lid ∧
          x.segs = [⟨copyAddr sp cid src, copyAddr dp cid dst, len⟩] ∧ x.fin = .ticket cid c.ticket.toNat none)) ∧
  (∀ (s s1 : State) (x : Copy) (g : Seg) cid tk va (c : Crew) (srcs dsts : List Loc), s.copies = [x] → x.segs = [g] →
    x.fin = .ticket cid tk none → s.tenantRuns x.owner = true → s.resolveCopy x x.segs = (s1, .go, va) → s1.dlen x.owner = false →
    Inv s1 → noErrors s1 → s1.copies = [x] → s1.env.soft = [] → s1.crew? cid = some c → assocGet c.tickets tk = some 0 →
    c.tickets.length ≤ 256 → s1.enginePlaces x.owner false g.src g.len = .ok srcs →
    s1.enginePlaces x.owner true g.dst g.len = .ok dsts → dsts.Nodup →
    ∃ t c', exec (.copyComplete x.id) s = .next t ∧ t.copies = [] ∧ t.crew? cid = some c' ∧ assocGet c'.tickets tk = some 1 ∧
      c'.inflight = c.inflight - 1 ∧
      (∀ (j : Nat) (a b : Loc), srcs[j]? = some a → dsts[j]? = some b → t.locRead x.owner b = s1.locRead x.owner a) ∧
      ∀ b, b ∉ dsts → t.locRead x.owner b = s1.locRead x.owner b)

/-- `CPYG` and `CPYS` from scratch to scratch, to their end; one without a writing lane (log entry 29, DEDUCED, has it take its
ticket); the limits of LEN; and the lanes whose ranges trap, in scratch and, on the side that the offsets address, in memory
(R353, R354; log entry 25 for the VA). -/
def laneCopyRules : Prop :=
  ∀ (s : State) cid wx (w : Weave) (f : EForm) (c : Crew) k (gather : Bool) len cw, CopyReady s (laneCopy gather f) cid wx w f c k →
    f.hd.grp = false → len = descField w f.hd.b 4 → cw = copyWord w f f.hd.b →
    (let i := laneCopy gather f
     let runs := ((List.range 32).filter fun l => (w.actors f.hd).getLsbD l).map (laneRun gather w f)
     (w.mode = .user → w.actors f.hd ≠ 0 → (len = 0 ∨ 65536 < len) → Traps s i cid wx w .reservedField w.pc (w.actors f.hd) noVa) ∧
     (0 < len → len ≤ 65536 →
       ((f.hd.grd = 0 → f.hd.neg = false) → w.actors f.hd = 0 → wordFits c cw → CopyDone s i cid wx w f c cw) ∧
       (f.ctl.toNat % 16 = 5 → w.actors f.hd ≠ 0 → copyFits c runs cw → CopyRuns s i cid wx w f c runs cw) ∧
       (f.ctl.toNat % 16 = 5 → w.mode = .user → ∀ m : Mask, m ≠ 0 →
         (∀ l < 32, m.getLsbD l = true ↔ (w.actors f.hd).getLsbD l = true ∧ ¬ (runFits c (laneRun gather w f l) ∧ wordFits c cw)) →
         Traps s i cid wx w .scratchRange w.pc m noVa) ∧
       (f.ctl.toNat % 32 = (if gather then 4 else 1) → w.mode = .user → ∀ (m : Mask) (va : Nat → Nat), m ≠ 0 →
         (∀ l, va l = if gather then (laneRun gather w f l).1 else (laneRun gather w f l).2.1) →
         (∀ l < 32, (w.actors f.hd).getLsbD l = true →
           (if gather then (laneRun gather w f l).2.1 else (laneRun gather w f l).1) + len ≤ windowBytes c) →
         (∀ l < 32, m.getLsbD l = true ↔ (w.actors f.hd).getLsbD l = true ∧ 2 ^ 52 < va l + len) →
         Traps s i cid wx w .addrNoncanon w.pc m fun l => if m.getLsbD l then BitVec.ofNat 64 (va l) else 0)))

/-- `CPY` from scratch to scratch, to its end, or, without a byte, complete at once; the limits of LEN and the ranges; a failed
copy (R165, R166, R353, R354; log entry 25 for the faulting VA of a range). -/
def copyRules : Prop :=
  (∀ (s : State) cid wx (w : Weave) (f : EForm) (c : Crew) k src dst len cw, CopyReady s (.cpy f) cid wx w f c k → f.hd.grp = true →
    w.qPass f.hd = true → src = descField w f.hd.a 0 → dst = descField w f.hd.a 2 → len = descField w f.hd.a 4 →
    cw = copyWord w f f.hd.a →
    (w.mode = .user → 2 ^ 40 < len → Traps s (.cpy f) cid wx w .reservedField w.pc w.exec noVa) ∧
    (len = 0 → wordFits c cw → CopyDone s (.cpy f) cid wx w f c cw) ∧
    (w.mode = .user → len = 0 → ¬ wordFits c cw → Traps s (.cpy f) cid wx w .scratchRange w.pc w.exec noVa) ∧
    (f.ctl.toNat % 16 = 5 → w.mode = .user → 0 < len → len ≤ 2 ^ 40 → ¬ copyFits c [(src, dst, len)] cw →
      Traps s (.cpy f) cid wx w .scratchRange w.pc w.exec noVa) ∧
    (f.ctl.toNat % 16 = 5 → 0 < len → len ≤ 2 ^ 40 → copyFits c [(src, dst, len)] cw →
      CopyRuns s (.cpy f) cid wx w f c [(src, dst, len)] cw)) ∧
  (∀ (s : State) (x : Copy) (c : Crew) cid tk off (v : Word), s.copies = [x] → x.fin = .ticket cid tk (some (off, v)) → Inv s →
    s.crew? cid = some c → c.inGang = false → (∀ y ∈ s.crews, y.cid = cid → y = c) → off + 4 ≤ windowBytes c →
    c.tickets.length ≤ 256 → (∃ st, assocGet c.tickets tk = some st) → (s.severity x.owner).getLsbD 3 = false → x.lid = none →
    ∃ t c', exec (.copyFail x.id) s = .next t ∧ t.copies = [] ∧ t.crew? cid = some c' ∧ assocGet c'.tickets tk = some 2 ∧
      c'.inflight = c.inflight - 1 ∧ ∀ j < 4, t.locRead 0 (.scratch cid (off + j)) = BitVec.ofNat 8 ((~~~ v).toNat / 256 ^ j))

/-- `CSTAT` (R355). -/
def cstatRules : Prop :=
  ∀ (s : State) cid wx (w : Weave) (f : EForm) (c : Crew) k tk, Issues s (.cstat f) cid wx w → s.crew? cid = some c →
    c.place = .resident k → f.hd.grp = true → w.qPass f.hd = true → tk = w.readG f.imm f.hd.a →
    Effects s (.cstat f) cid wx w [f.hd.d] fun t w' => SameMemory s t ∧ ReceivesWords w w' f.hd f.hd.d fun _ =>
      if tk = 0 then (if c.inflight ≠ 0 then 0 else if ∃ x ∈ c.tickets, x.2 = 2 then 2 else 1)
      else match assocGet c.tickets tk.toNat with
        | some st => BitVec.ofNat 32 st
        | none => 3

/-- `PUBL` flips one selector once the crew's copies into the group are over, and only then does the weave go on (R168,
R356). That every L1 line of the owner goes, not the group's alone, is the model's choice (log entry 48). -/
def publishRules : Prop :=
  (∀ (s : State) cid wx (w : Weave) (f : EForm) (c : Crew) k grp, Issues s (.publ f) cid wx w → s.crew? cid = some c →
    c.place = .resident k → f.hd.grp = true → w.qPass f.hd = true → grp = (w.readG f.imm f.hd.a).toNat →
    (w.mode = .user → 256 ≤ grp → Traps s (.publ f) cid wx w .reservedField w.pc w.exec noVa) ∧
    (grp < 256 → Effects s (.publ f) cid wx w [] fun t w' => SameMemory s t ∧ w'.wait = .publ (s.ids + 1) ∧
      Publ.mk (s.ids + 1) cid wx grp ∈ t.publs ∧ .publCommit (s.ids + 1) ∈ t.pending)) ∧
  (∀ (s : State) (p : Publ) (c : Crew) (w : Weave) (t : Tenant), s.publs = [p] → s.crew? p.cid = some c → s.weave? p.cid p.widx = some w →
    w.wait = .publ p.id → s.tenant? c.owner = some t →
    (s.copyInGroup p.id p.cid c.owner p.grp = true → ∃ s', exec (.publCommit p.id) s = .next s' ∧ s'.tenants = s.tenants ∧
      s'.crews = s.crews ∧ .publCommit p.id ∈ s'.pending) ∧
    (s.copyInGroup p.id p.cid c.owner p.grp = false → p.grp < 256 → ∃ s' t' w', exec (.publCommit p.id) s = .next s' ∧
      s'.tenant? c.owner = some t' ∧ (∀ g < 256, t'.shadow.getLsbD g = (t.shadow.getLsbD g != (g == p.grp))) ∧
      s'.weave? p.cid p.widx = some w' ∧ w'.wait = .none ∧ s'.hbm = s.hbm ∧
      ∀ d < 4, s.partOf d = t.part → ∀ k, k / 64 = d → k < s.cores.length → ∀ l ∈ (s'.core k).l1, l.owner ≠ c.owner))

/-- A rank's result of an element, combined by the tree over ranks in the wire format FP32 or BF16 (R205, R357). -/
def combined (wire op : Nat) (d : Nat) (x : Nat → Option Nat) : Word :=
  let m : Fmt := if wire = 2 then bf16 else fp32
  let two (a b : Word) : Word := BitVec.ofNat 32 (
    if op = 0 then m.round 0 false ((m.decode a.toNat).add 0 (m.decode b.toNat)) else m.minmax (op == 2) a.toNat b.toNat)
  let leaf (r : Nat) : Option Word := (x r).map fun v => BitVec.ofNat 32 (if wire = 2 then bf16.round 0 false (fp32.decode v) else v)
  let r : Word := (reduceTree two leaf d 0).getD 0
  if wire = 2 then r <<< 16 else r

/-- `COLL` joins with its ticket, or traps; what each rank of a collective receives; the end of one (R205, R357). -/
def collectiveRules : Prop :=
  (∀ (s : State) cid wx (w : Weave) (f : EForm) (c : Crew) k (n rank root : Nat), Issues s (.coll f) cid wx w → s.crew? cid = some c →
    c.place = .resident k → f.hd.grp = true → w.qPass f.hd = true → n = (w.readG 0 (f.hd.a.plus 6)).toNat →
    rank = (w.readG 0 (f.hd.a.plus 5)).toNat → root = (w.readG f.imm f.hd.c).toNat →
    (let kind := f.ctl.toNat % 8
     let rooted : Prop := kind = 1 ∨ kind = 3 ∨ kind = 4 ∨ kind = 6
     (w.mode = .user → (n = 0 ∨ 65536 < n ∨ n ≤ rank ∨ (rooted ∧ n ≤ root)) →
       Traps s (.coll f) cid wx w .reservedField w.pc w.exec noVa) ∧
     (n ≠ 0 → n ≤ 65536 → rank < n → (rooted → root < n) → c.inflight < 64 → w.readG 0 (f.hd.a.plus 4) = 0 → c.tickets.length < 256 →
       Effects s (.coll f) cid wx w [f.hd.d] fun t w' => SameMemory s t ∧ (ReceivesWords w w' f.hd f.hd.d fun _ => c.ticket) ∧
         ∃ c', t.crew? cid = some c' ∧ c'.ticket = nextTicket c.ticket ∧ c'.inflight = c.inflight ∧
           assocGet c'.tickets c.ticket.toNat = some 1) ∧
     (n ≠ 0 → n ≤ 65536 → rank < n → (rooted → root < n) → c.inflight < 64 → w.readG 0 (f.hd.a.plus 4) ≠ 0 → s.colls = [] →
       descField w f.hd.a 0 < 2 ^ 51 → descField w f.hd.a 2 < 2 ^ 51 → (w.readG 0 (f.hd.a.plus 4)).toNat < 2 ^ 28 → n < 2 ^ 16 →
       Effects s (.coll f) cid wx w [f.hd.d] fun t w' => SameMemory s t ∧ (ReceivesWords w w' f.hd f.hd.d fun _ => c.ticket) ∧
         ∃ x p, t.colls = [x] ∧ x.lid = c.lid ∧ x.tag = w.readG 0 (f.hd.a.plus 7) ∧ x.parts = [p] ∧ x.posted = decide (n = 1) ∧
           p.cid = cid ∧ p.rank = rank ∧ p.n = n ∧ p.kind = kind ∧ p.wire = f.ctl.toNat / 8 % 16 ∧ p.op = f.ctl.toNat / 128 % 4 ∧
           p.src = descField w f.hd.a 0 ∧ p.dst = descField w f.hd.a 2 ∧ p.count = (w.readG 0 (f.hd.a.plus 4)).toNat ∧
           (n = 1 → .collectiveComplete x.id ∈ t.pending)))) ∧
  (∀ (p : Part) (src : List (List Byte)), src.length = p.n → p.rank < p.n → p.root < p.n → p.op < 3 →
    (∀ bs ∈ src, bs.length = p.reads * p.block ∨ p.kind = 3 ∨ p.kind = 6) →
    (let word (r i : Nat) : Nat := natLE (((nthD src r []).drop (4 * i)).take 4)
     let reduction (base : Nat) : Prop := ∀ i < p.count, ∀ d, p.n ≤ 2 ^ d →
       natLE (((collResult p src).drop (4 * i)).take 4) =
         (combined p.wire p.op d fun r => if r < p.n then some (word r (base + i)) else none).toNat
     (p.kind = 0 → reduction 0) ∧ (p.kind = 1 → p.rank = p.root → reduction 0) ∧ (p.kind = 2 → reduction (p.rank * p.count)) ∧
     (p.kind = 3 → collResult p src = nthD src p.root []) ∧ (p.kind = 4 → p.rank = p.root → collResult p src = src.flatten) ∧
     (p.kind = 5 → collResult p src = src.flatten) ∧
     (p.kind = 6 → collResult p src = ((nthD src p.root []).drop (p.rank * p.block)).take p.block) ∧
     (p.kind = 7 → collResult p src = src.flatMap fun bs => (bs.drop (p.rank * p.block)).take p.block))) ∧
  (∀ (s s1 : State) (x : Coll) (l : Launch) va src ws, s.colls = [x] → s.launch? x.lid = some l → s.tenantRuns l.owner = true →
    s.resolveColl l.owner x = (s1, .go, va) → s1.dlen l.owner = false → s1.collSources l.owner x.ranks = .ok src →
    s1.collWrites l.owner src x.ranks = .ok ws → Inv s1 → noErrors s1 →
    ∃ t, exec (.collectiveComplete x.id) s = .next t ∧ t.colls = [] ∧
      ∀ a, t.locRead l.owner a = (lastPut ws a).getD (s1.locRead l.owner a))

/-- A `COLL` that disagrees with a participant of its TAG, or names its RANK, fails it: every participant so far completes with
status 2, and an INFO event follows; the TAG is free again when N participants have come (R357). -/
def disagreeRules : Prop :=
  ∀ (s : State) cid wx (w : Weave) (f : EForm) (c : Crew) k (n rank root count : Nat) (x : Coll), Issues s (.coll f) cid wx w →
    s.crew? cid = some c → c.place = .resident k → f.hd.grp = true → w.qPass f.hd = true → n = (w.readG 0 (f.hd.a.plus 6)).toNat →
    rank = (w.readG 0 (f.hd.a.plus 5)).toNat → root = (w.readG f.imm f.hd.c).toNat → count = (w.readG 0 (f.hd.a.plus 4)).toNat →
    n ≠ 0 → n ≤ 65536 → rank < n → root < n → c.inflight < 64 → c.tickets.length < 256 → count ≠ 0 → count < 2 ^ 28 → n < 2 ^ 16 →
    descField w f.hd.a 0 < 2 ^ 51 → descField w f.hd.a 2 < 2 ^ 51 → s.colls = [x] → x.lid = c.lid →
    x.tag = w.readG 0 (f.hd.a.plus 7) → x.posted = false → x.failed = false →
    (∃ y ∈ x.parts, y.kind ≠ f.ctl.toNat % 8 ∨ y.wire ≠ f.ctl.toNat / 8 % 16 ∨ y.op ≠ f.ctl.toNat / 128 % 4 ∨ y.count ≠ count ∨
      y.n ≠ n ∨ y.root ≠ root ∨ y.rank = rank) →
    (let ev : Event := { cls := .info, cause := .noCause, src := k / 64 }
     let full : Prop := ∃ y, x.parts.head? = some y ∧ x.parts.length + 1 = y.n
     ∃ u w', u.weave? cid wx = some w' ∧ w'.pc = w.pc + 16 ∧ (ReceivesWords w w' f.hd f.hd.d fun _ => c.ticket) ∧ SameMemory s u ∧
       (¬ full → exec (.coll f) s = .next (u.event c.owner ev)) ∧
       (full → ∃ t, exec (.coll f) s = .next t ∧ t.colls = [] ∧ t.crews = (u.event c.owner ev).crews) ∧
       (∃ x', u.colls = [x'] ∧ x'.failed = true ∧ x'.parts.length = x.parts.length + 1) ∧
       (∃ c', u.crew? cid = some c' ∧ c'.ticket = nextTicket c.ticket ∧ assocGet c'.tickets c.ticket.toNat = some 2) ∧
       ∀ y ∈ x.parts, ∀ b, y.cid ≠ cid → s.crew? y.cid = some b → b.tickets.length ≤ 256 → (∃ st, assocGet b.tickets y.ticket = some st) →
         ∃ b', u.crew? y.cid = some b' ∧ assocGet b'.tickets y.ticket = some 2)

/-- Copies, tickets, publish and collectives (R165 to R168, R205, R347, R353 to R357). -/
def Obligations.Engines : Prop := guardRules ∧ spaceCopyRules ∧ laneCopyRules ∧ copyRules ∧ cstatRules ∧ publishRules ∧ collectiveRules ∧
  disagreeRules

/-! ## Dynamic work and channels -/

/-- The record that a lane emits (R358). -/
def emitted (w : Weave) (f : EForm) (l : Nat) : Pc × List DWord :=
  ((w.wideLane f.imm false f.hd.b l).setWidth 52, (List.range 6).map fun j =>
    (w.valueOf f.imm (f.hd.a.plus (2 * j + 1)) l) ++ (w.valueOf f.imm (f.hd.a.plus (2 * j)) l))

/-- The lanes that emit, in order. -/
def emitters (w : Weave) (f : EForm) : List Nat := (List.range 32).filter fun l => (w.actors f.hd).getLsbD l

/-- `EMIT`: its traps, all records or none, and what a buffer holds (R97, R358). How a buffer's 4,096 records lie in bins is log
entry 30 (DEDUCED). -/
def emitRules : Prop :=
  (∀ (s : State) cid wx (w : Weave) (f : EForm) (c : Crew) k (l : Launch) (odd far : Mask), Issues s (.emit f) cid wx w →
    s.crew? cid = some c → c.place = .resident k → s.launch? c.lid = some l → f.hd.grp = false → w.actors f.hd ≠ 0 →
    isVector f.hd.a = true →
    (∀ i < 32, odd.getLsbD i = ((w.actors f.hd).getLsbD i && decide ((w.wideLane f.imm false f.hd.b i).toNat % 16 ≠ 0))) →
    (∀ i < 32, far.getLsbD i = ((w.actors f.hd).getLsbD i && decide (2 ^ 52 ≤ (w.wideLane f.imm false f.hd.b i).toNat))) →
    (w.mode = .user → odd ≠ 0 → Traps s (.emit f) cid wx w .pcMisaligned w.pc odd noVa) ∧
    (w.mode = .user → odd = 0 → far ≠ 0 → Traps s (.emit f) cid wx w .addrNoncanon w.pc far fun i =>
      if far.getLsbD i then w.wideLane f.imm false f.hd.b i else 0) ∧
    (odd = 0 → far = 0 → ∀ l', l.putRecords (k / 64) s.now ((emitters w f).map (emitted w f)) = some l' →
      Effects s (.emit f) cid wx w [] fun t _ => SameMemory s t ∧ t.launch? c.lid = some l') ∧
    (odd = 0 → far = 0 → l.putRecords (k / 64) s.now ((emitters w f).map (emitted w f)) = none →
      StandsAndWaits s (.emit f) cid wx w (· = .emit ((emitters w f).map fun j => (emitted w f j).1)))) ∧
  (∀ (l l' : Launch) d now entry args, (l.bins.map fun b => (b.die, b.entry)).Nodup → l.putRecord d now entry args = some l' →
    l.buffered d < 4096 ∧ l'.buffered d = l.buffered d + 1 ∧ (l'.bins.map fun b => (b.die, b.entry)).Nodup ∧
    ∃ b ∈ l'.bins, b.die = d ∧ b.entry = entry ∧ args ∈ b.recs)

/-- A released bin is a crew of one weave whose lane k holds record k in v0 to v11 (R97): when it is the unit that waits on its
die (R95), its core is the one that R94 gives. -/
def releaseRules : Prop :=
  ∀ (s : State) (l : Launch) d bin (b : Bin) k, s.launch? l.lid = some l → (s.die d).accepts = true →
    s.limitReached l = false → l.bins.find? (fun x => x.die == d && x.bin == bin) = some b → b.recs ≠ [] → s.binDue l b = true →
    s.waiting d = [⟨l, l.lrec.prio, l.startSeq, 2 ^ 64, .bin bin⟩] → s.gangRes = [] → d < 4 →
    s.bestCore [] d (s.itemNeed ⟨l, l.lrec.prio, l.startSeq, 2 ^ 64, .bin bin⟩) = some k →
    ∃ t c w l', exec (.continuationRelease l.lid d bin) s = .next t ∧ c ∈ t.crews ∧ c.lid = l.lid ∧ c.cont = true ∧
      c.place = .resident k ∧ c.weaves = [w] ∧ w.pc = b.entry ∧ w.helper = 0 ∧ w.v.length = max l.lrec.regs0 12 ∧
      (∀ i < 32, w.exec.getLsbD i = decide (i < b.recs.length) ∧ w.absent.getLsbD i = decide (b.recs.length ≤ i)) ∧
      (∀ i < min 32 b.recs.length, ∀ j < 6, ∀ (lo hi : Fin 640), lo.val = 2 * j → hi.val = 2 * j + 1 →
        w.laneOf (.v lo) i = Lane.ofWord ((nthD (nthD b.recs i []) j 0).setWidth 32) ∧
        w.laneOf (.v hi) i = Lane.ofWord ((nthD (nthD b.recs i []) j 0 >>> 32).setWidth 32)) ∧
      t.launch? l.lid = some l' ∧ l'.outstanding = l.outstanding + 1 ∧ SameMemory s { t with crews := s.crews }

/-- `ENQ` is refused, waits for room in the ring or in the dirty-page log, or writes its packet in the slot of RES and advances
TAIL (R98, R163, R164, R359). That the issuing core then holds no copy of the slot's line is log entry 22 (DEDUCED). -/
def enqRules : Prop :=
  ∀ (s : State) cid wx (w : Weave) (f : EForm) (c : Crew) k n (bytes : List Byte), Issues s (.enq f) cid wx w → s.crew? cid = some c →
    c.place = .resident k → f.hd.grp = true → w.qPass f.hd = true → n = (w.readG f.imm f.hd.b).toNat →
    bytes = (List.range 16).flatMap (fun j => bytesLE 4 (w.readG f.imm (f.hd.a.plus j)).toNat) →
    (w.mode = .user → (s.queue? n = none ∨ ∃ q, s.queue? n = some q ∧ (q.owner ≠ c.owner ∨ q.state ≠ .active ∨
        (q.res < q.head + 2 ^ q.log2n ∧ s.deviceRange c.owner ((q.ring + 64 * (q.res % 2 ^ q.log2n)) % 2 ^ 52) 64 true ≠ none))) →
      Traps s (.enq f) cid wx w .enqRefused w.pc w.exec noVa) ∧
    (∀ q, s.queue? n = some q → q.owner = c.owner → q.state = .active →
      (q.head + 2 ^ q.log2n ≤ q.res → StandsAndWaits s (.enq f) cid wx w (· = .enq n)) ∧
      (∀ va, va = (q.ring + 64 * (q.res % 2 ^ q.log2n)) % 2 ^ 52 → q.res < q.head + 2 ^ q.log2n →
        s.deviceRange c.owner va 64 true = none → noErrors s →
        (s.logPages c.owner 0 (s.rangePages c.owner (.glb va) 64) = (s, false) → WaitsForLog s (.enq f) cid wx c.owner w) ∧
        (s.dlen c.owner = false → Effects s (.enq f) cid wx w [] fun t _ => ∃ q' x s1, t.queue? n = some q' ∧ q'.tail = q.res + 1 ∧
          q'.res = q.res + 1 ∧ q'.head = q.head ∧ State.deviceWrite (s.putWeave cid wx x) c.owner va bytes = .ok s1 ∧
          t = ((((s1.dropVa k c.owner va).modQueue n fun y => { y with res := q.res + 1, tail := q.res + 1 }).syncQueue n).pokeQueue n))))

/-- `RTAKE` takes from the crew's range or first steals the upper half of the first victim's, and `RSPLIT` sets the range
(R99, R360). -/
def rangeRules : Prop :=
  (∀ (s : State) cid wx (w : Weave) (f : EForm) (c : Crew) k (n m : Nat), Issues s (.rtake f) cid wx w → s.crew? cid = some c →
    c.place = .resident k → f.hd.grp = true → w.qPass f.hd = true → n = (w.readG f.imm f.hd.b).toNat → m = min n (c.hi.toNat - c.lo.toNat) →
    isGroup f.hd.d = true → (n = 0 ∨ c.lo ≠ c.hi ∨ ∀ v ∈ s.crews, v.hi.toNat < v.lo.toNat + 2) →
    Effects s (.rtake f) cid wx w [f.hd.d, f.hd.d.plus 1, f.hd.d.plus 2] fun t w' => SameMemory s t ∧
      (ReceivesWords w w' f.hd f.hd.d fun _ => c.lo.setWidth 32) ∧
      (ReceivesWords w w' f.hd (f.hd.d.plus 1) fun _ => (c.lo >>> 32).setWidth 32) ∧
      (ReceivesWords w w' f.hd (f.hd.d.plus 2) fun _ => BitVec.ofNat 32 m) ∧
      ∃ c', t.crew? cid = some c' ∧ c'.lo = c.lo + BitVec.ofNat 64 m ∧ c'.hi = c.hi) ∧
  (∀ (s : State) cid wx (w : Weave) (f : EForm) (c v : Crew) k n, Issues s (.rtake f) cid wx w → s.crew? cid = some c →
    c.place = .resident k → f.hd.grp = true → w.qPass f.hd = true → n = (w.readG f.imm f.hd.b).toNat → n ≠ 0 → c.lo = c.hi →
    s.crews = [c, v] → v.cid ≠ cid → v.lid = c.lid → (∃ j, v.place = .resident j ∧ j / 64 = k / 64) →
    v.lo.toNat + 2 ≤ v.hi.toNat → k < 256 →
    (let mid : Nat := v.lo.toNat + (v.hi.toNat - v.lo.toNat + 1) / 2
     let m := min n (v.hi.toNat - mid)
     Effects s (.rtake f) cid wx w [f.hd.d, f.hd.d.plus 1, f.hd.d.plus 2] fun t w' => SameMemory s t ∧
       (ReceivesWords w w' f.hd f.hd.d fun _ => BitVec.ofNat 32 mid) ∧
       (ReceivesWords w w' f.hd (f.hd.d.plus 1) fun _ => BitVec.ofNat 32 (mid / 2 ^ 32)) ∧
       (ReceivesWords w w' f.hd (f.hd.d.plus 2) fun _ => BitVec.ofNat 32 m) ∧ ∃ c' v', t.crew? cid = some c' ∧
       t.crew? v.cid = some v' ∧ v'.lo = v.lo ∧ v'.hi.toNat = mid ∧ c'.lo.toNat = mid + m ∧ c'.hi = v.hi)) ∧
  (∀ (s : State) cid wx (w : Weave) (f : EForm) (c : Crew) k (lo hi : DWord), Issues s (.rsplit f) cid wx w → s.crew? cid = some c →
    c.place = .resident k → f.hd.grp = true → w.qPass f.hd = true → lo = w.wideG f.imm false f.hd.a → hi = w.wideG f.imm false f.hd.b →
    Effects s (.rsplit f) cid wx w [] fun t _ => SameMemory s t ∧ ∃ c', t.crew? cid = some c' ∧ c'.lo = lo ∧
      c'.hi = if hi.toNat < lo.toNat then lo else hi)

/-- `RPOP`, `RPUSH` and `RDONE` in a stage crew, and outside one (R361, R362). -/
def channelRules : Prop :=
  (∀ (s : State) cid wx (w : Weave) (f : EForm) (c : Crew) k (input : Bool) (i : Instr), i = (if input then .rpop f else .rpush f) →
    Issues s i cid wx w → s.crew? cid = some c → c.place = .resident k → c.inGang = false → f.hd.grp = true → w.qPass f.hd = true →
    (w.mode = .user → (c.stage = none ∨ ∀ r ∈ c.rings, ¬ (r.chan = (w.readG f.imm f.hd.b).toNat ∧ r.input = input)) →
      Traps s i cid wx w .channelRange w.pc w.exec noVa) ∧
    (∀ st r, c.stage = some st → c.rings = [r] → r.chan = (w.readG f.imm f.hd.b).toNat → r.input = input →
      (let x : Half := if c.f % 2 = 0 then r.h0 else r.h1
       let ready : Prop := if input then x.firing = c.f ∧ r.cnt < x.recs else x.busy = false
       let off := r.base + (c.f % 2 * r.rate + r.cnt) * 2 ^ r.rlog2
       (w.mode = .user → r.cnt = r.rate → Traps s i cid wx w .rateMismatch w.pc w.exec noVa) ∧
       (r.cnt ≠ r.rate → ready → Effects s i cid wx w [f.hd.d] fun t w' => SameMemory s t ∧
         (ReceivesWords w w' f.hd f.hd.d fun _ => BitVec.ofNat 32 off) ∧ ∃ c', t.crew? cid = some c' ∧
           c'.rings = [{ r with cnt := r.cnt + 1 }]) ∧
       (r.cnt ≠ r.rate → ¬ ready → Effects s i cid wx w [f.hd.d] fun t w' => SameMemory s t ∧
         (ReceivesWords w w' f.hd f.hd.d fun _ => BitVec.ofNat 32 (2 ^ 31 + off)) ∧ ∃ c', t.crew? cid = some c' ∧
           c'.rings = [r])))) ∧
  (∀ (s : State) cid wx (w : Weave) (f : EForm) (c : Crew) k, Issues s (.rdone f) cid wx w → s.crew? cid = some c →
    c.place = .resident k → w.acts f.hd = true →
    (w.mode = .user → c.stage = none →
      Traps s (.rdone f) cid wx w .channelRange w.pc (if f.hd.grp then w.exec else w.actors f.hd) noVa) ∧
    (w.mode = .user → c.stage ≠ none → (∃ r ∈ c.rings, r.input = false ∧ r.cnt ≠ r.rate) →
      Traps s (.rdone f) cid wx w .rateMismatch w.pc (if f.hd.grp then w.exec else w.actors f.hd) noVa) ∧
    (c.stage ≠ none → (∀ r ∈ c.rings, r.input = false → r.cnt = r.rate) →
      Effects s (.rdone f) cid wx w [] fun t _ => SameMemory s t ∧ ∃ c', t.crew? cid = some c' ∧ c'.f = c.f + 1 ∧
        ∀ (j : Nat) (r : Ring), c.rings[j]? = some r → ∃ r', c'.rings[j]? = some r' ∧ r'.cnt = 0 ∧ r'.chan = r.chan ∧ r'.base = r.base ∧
          (let h : Half := if c.f % 2 = 0 then r.h0 else r.h1
           let h' : Half := if c.f % 2 = 0 then r'.h0 else r'.h1
           (r.input = false → h' = ⟨c.f, r.rate, true⟩) ∧
           (r.input = true → h' = if h.recs = r.rate ∧ h.firing < c.f + 1 then ⟨h.firing + 2, 0, false⟩ else h))))

/-- Dynamic work and channels (R97 to R99, R358 to R362). -/
def Obligations.DynamicWork : Prop := emitRules ∧ releaseRules ∧ enqRules ∧ rangeRules ∧ channelRules

/-! ## Hosts, queues and packets -/

/-- The last part of a message has acted: its number is below the watermark or among those performed ahead of it, and the
watermark has not gone back (R32). -/
def Performed (s t : State) (m : Msg) : Prop :=
  ∀ c, s.ctx? m.ctx = some c → ∃ c', t.ctx? m.ctx = some c' ∧ c.wm ≤ c'.wm ∧ (m.fin = true → m.msn < c'.wm ∨ m.msn ∈ c'.ahead)

/-- The host's writes that take effect only after every earlier message of their context (R32, R34, R47, R60, R160). -/
def ordered (m : Msg) (i : Instr) : Prop :=
  ∃ (w x : DWord) (n : Nat), i ∈ [.qcmdCreate m w, .qcmdDestroy m w, .qcmdResume m w, .tailPointerWrite m n x, .tenantCreate m w,
    .tenantDestroy m w, .ctxSet m w, .keySet m w, .peerSet m w, .qgrant m w, .migrateOut m w, .migrateIn m w, .attest m w,
    .fwStage m w, .pageRequestAnswer m n (w.toNat), .rqconsWrite m n, .givenWrite m n, .dlconsWrite m n, .dlctlWrite m n,
    .tlbgenWrite m n]

/-- Before its turn such a write only waits (R32, R47). -/
def messageOrder : Prop :=
  ∀ (s : State) (m : Msg) (i : Instr) (c : Ctx), ordered m i → s.ctx? m.ctx = some c → c.wm < m.msn → exec i s = .next (s.post i)

/-- A message that a context may send now: it is bound, the message is authentic, and the mode serves the context
(R31, R66, R69). -/
structure FromHost (s : State) (m : Msg) (c : Ctx) : Prop where
  bound : s.ctx? m.ctx = some c
  auth : m.auth = c.tss ∧ c.tss ≠ .bad
  served : s.mgmt.recovery = false ∨ (c.id = 0 ∧ m.port = 0)

/-- A message that does not verify under the key of its context changes nothing but for its SECURITY event (R66; log entry 93 says
what verifies); one of a context that is not bound changes nothing (log entry 59, DEDUCED). -/
def unverifiedRules : Prop :=
  ∀ (s : State) (m : Msg) (i : Instr), (∃ key off len data, i = .rmaWrite m key off data ∨ i = .rmaRead m key off len ∨ i = .unsupportedOperation m) →
    (∀ c, s.ctx? m.ctx = some c → (m.auth ≠ c.tss ∨ c.tss = .bad) →
      exec i s = .next (s.event c.owner { cls := .security, cause := .tssAuthFail, src := 4 })) ∧
    (s.ctx? m.ctx = none → exec i s = .next s)

/-- An `RMA_WRITE` or `RMA_READ` is refused, acts on memory, or on registers; an operation that the device does not support is
refused (R30 to R33). That a refused message counts as performed is log entry 45, that a host's accesses set A bits log entry 15
(DEDUCED). -/
def rmaRules : Prop :=
  (∀ (s : State) (m : Msg) (c : Ctx) key off data, FromHost s m c → (c.keyOf key = none ∨ ∃ k, c.keyOf key = some k ∧ k.admits off data.length true = false) →
    ∃ t why, exec (.rmaWrite m key off data) s = .next t ∧ t.out = s.out ++ [.nack m.ctx m.msn why] ∧ SameMemory s t ∧
      Performed s t m) ∧
  (∀ (s : State) (m : Msg) (c : Ctx) (k : Key) (te : Tenant) key off (data : List Byte) va pa, FromHost s m c → c.keyOf key = some k →
    k.admits off data.length true = true → key ≠ 0 → (c.id = 0 → key ≠ 1) → s.tenant? c.owner = some te → va = k.va + off →
    data ≠ [] → va % 65536 + data.length ≤ 65536 → Inv s → noErrors s →
    (s.deviceRange c.owner va data.length true ≠ none → ∃ t why, exec (.rmaWrite m key off data) s = .next t ∧
      t.out = s.out ++ [.nack m.ctx m.msn why] ∧ SameMemory s t) ∧
    (s.deviceRange c.owner va data.length true = none → (s.markUsed c.owner va data.length).devicePa c.owner (va % 2 ^ 52) true = .ok pa →
      ∃ t, exec (.rmaWrite m key off data) s = .next t ∧ .ack m.ctx m.msn ∈ t.out ∧ Performed s t m ∧
        (∀ i < data.length, t.locRead c.owner (.hbm (pa + i)) = nthD data i 0) ∧
        (∀ a, (a < pa ∨ pa + data.length ≤ a) →
          t.locRead c.owner (.hbm a) = (s.markUsed c.owner va data.length).locRead c.owner (.hbm a)) ∧
        (touches va data.length (te.ecb + 8) = true → .eclrWrite te.tag ∈ t.pending) ∧
        (touches va data.length (te.ecb + 8 * 11) = true → .rqconsWrite m te.tag ∈ t.pending))) ∧
  (∀ (s : State) (m : Msg) (c : Ctx) n (x : DWord), FromHost s m c → s.mgmt.recovery = false → n < 1024 →
    ∃ t, exec (.rmaWrite m 0 (0x2000 + 8 * n) (bytesLE 8 x.toNat)) s = .next t ∧ .ack m.ctx m.msn ∈ t.out ∧
      t.pending = .tailPointerWrite m n x :: s.pending ∧ SameMemory s t) ∧
  (∀ (s : State) (m : Msg) (c : Ctx) (w : DWord), FromHost s m c → s.mgmt.recovery = false →
    ∃ t i, exec (.rmaWrite m 0 0 (bytesLE 8 w.toNat)) s = .next t ∧ t.pending = i :: s.pending ∧ SameMemory s t ∧
      i = if bitsOf w.toNat 12 4 = 2 then .qcmdDestroy m w else if bitsOf w.toNat 12 4 = 3 then .qcmdResume m w else .qcmdCreate m w) ∧
  (∀ (s : State) (m : Msg) (c : Ctx) (k : Key) key off len (bs : List Byte), FromHost s m c → c.keyOf key = some k →
    k.admits off len false = true → key ≠ 0 → (c.id = 0 → key ≠ 1) → noErrors s → s.deviceRead c.owner (k.va + off) len = .ok bs →
    ∃ t, exec (.rmaRead m key off len) s = .next t ∧ .data m.ctx m.msn bs ∈ t.out ∧ Performed s t m) ∧
  (∀ (s : State) (m : Msg) (c : Ctx), FromHost s m c →
    (∃ t, exec (.rmaRead m 0 8 8) s = .next t ∧ .data m.ctx m.msn (bytesLE 8 (c.status.toNat + c.qstate.toNat * 2 ^ 8 + c.seq.toNat * 2 ^ 16)) ∈ t.out ∧
      SameMemory s t) ∧
    (∃ t why, exec (.unsupportedOperation m) s = .next t ∧ t.out = s.out ++ [.nack m.ctx m.msn why] ∧ SameMemory s t ∧
      (m.fin = true → t.pending = s.pending))) ∧
  (∀ (s : State) (m : Msg) off len, ∃ t, exec (.controlPagePartialWrite m off len) s = .next t ∧ t.out = s.out ++ [.ack m.ctx m.msn] ∧
    SameMemory s t ∧ t.queues = s.queues ∧ (m.fin = true → t.pending = s.pending) ∧ Performed s t m)

/-- What a host can reach, and when (R30 to R34, R47, R66, R161); the model's readings are those of the parts. -/
def Obligations.HostAccess : Prop := messageOrder ∧ unverifiedRules ∧ rmaRules

/-- A `QCMD` is answered in QRES: SEQ advances, STATUS and QSTATE are set (R34). -/
def Answers (s : State) (i : Instr) (m : Msg) (c : Ctx) (status qstate : Nat) (P : State → Prop) : Prop :=
  ∃ t c', exec i s = .next t ∧ t.ctx? m.ctx = some c' ∧ c'.seq = c.seq + 1 ∧ c'.status = BitVec.ofNat 8 status ∧
    c'.qstate = BitVec.ofNat 8 qstate ∧ P t

/-- Writing a queue's image leaves the queues as they are: no PAGE event of it is fatal (R35, R68). -/
def imageCalm (u : State) (n : Nat) : Prop := (u.syncQueue n).queues = u.queues

/-- A queue with an error of its own (R36). -/
def errored (s : State) (n : Nat) (c : Cause) (idx : Nat) : State :=
  s.modQueue n fun q => { q with state := if q.state = .active then .error else q.state, errIdx := idx, errCause := c }

/-- A started packet that DESTROY cancels: a WAITSIG that waits, or a GRAPH packet that has not begun (R48). -/
def cancelled (p : Started) : Prop := p.posted = false ∧ (p.pkt.ty = 2 ∨ p.graphWait = true)

/-- A queue as CREATE leaves it. -/
def created (s : State) (m : Msg) (q : Queue) (va n : Nat) : State :=
  (s.markUsed q.owner va 64).modQueue q.q fun x =>
    { x with state := .active, ctx := m.ctx, descVa := va, ring := bitsOf n 0 64, log2n := bitsOf n 64 8,
             dsig := BitVec.ofNat 64 (bitsOf n 256 64), tail := 0, head := 0, res := 0, errIdx := 0, errCause := .noCause, ready := [],
             started := [], reading := 0, fault := none, halted := false }

/-- A rejected command changes no queue and no memory. -/
def rejected (s t : State) : Prop := t.queues = s.queues ∧ SameMemory s t

/-- `QCMD` (R34 to R36, R48). That a malformed word gives STATUS 4 whoever owns the queue is log entry 58 (DEDUCED). -/
def queueCommands : Prop :=
  (∀ (s : State) (m : Msg) (w : DWord) (c : Ctx) (k : Nat) (i : Instr), (k, i) ∈ [(1, .qcmdCreate m w), (2, .qcmdDestroy m w), (3, .qcmdResume m w)] →
    s.covered m = true → s.ctx? m.ctx = some c →
    ((bitsOf w.toNat 62 2 ≠ 0 ∨ bitsOf w.toNat 10 2 ≠ 0 ∨ cmdCode w ≠ k) → Answers s i m c 4 0 (rejected s)) ∧
    (bitsOf w.toNat 62 2 = 0 → bitsOf w.toNat 10 2 = 0 → cmdCode w = k → (∀ q, s.queue? (cmdQueue w) = some q → q.owner ≠ c.owner) →
      Answers s i m c 1 0 (rejected s))) ∧
  (∀ (s : State) (m : Msg) (w : DWord) (c : Ctx) (q : Queue), s.covered m = true → s.ctx? m.ctx = some c → bitsOf w.toNat 62 2 = 0 →
    bitsOf w.toNat 10 2 = 0 → s.queue? (cmdQueue w) = some q → q.owner = c.owner →
    -- CREATE
    (cmdCode w = 1 → q.state ≠ .free → Answers s (.qcmdCreate m w) m c 2 q.state.code (rejected s)) ∧
    (cmdCode w = 1 → q.state = .free →
      (let va := bitsOf w.toNat 16 46 * 64
       let good (bs : List Byte) : Prop := 4 ≤ bitsOf (natLE bs) 64 8 ∧ bitsOf (natLE bs) 64 8 ≤ 16 ∧
         bitsOf (natLE bs) 0 64 % (64 * 2 ^ bitsOf (natLE bs) 64 8) = 0 ∧ bitsOf (natLE bs) 0 64 < 2 ^ 52 ∧
         (bitsOf (natLE bs) 256 64 = 0 ∨ refOk (BitVec.ofNat 64 (bitsOf (natLE bs) 256 64)) = true)
       ((∀ bs, s.deviceRead q.owner va 64 = .ok bs → ¬ good bs) → Answers s (.qcmdCreate m w) m c 3 0 (rejected s)) ∧
       (∀ bs, s.deviceRead q.owner va 64 = .ok bs → good bs → imageCalm (created s m q va (natLE bs)) q.q → Answers s (.qcmdCreate m w) m c 0 1 fun t =>
         ∃ q', t.queue? (cmdQueue w) = some q' ∧ q'.owner = q.owner ∧ q'.state = .active ∧ q'.descVa = va ∧
           q'.ring = bitsOf (natLE bs) 0 64 ∧ q'.log2n = bitsOf (natLE bs) 64 8 ∧ q'.dsig = BitVec.ofNat 64 (bitsOf (natLE bs) 256 64) ∧
           q'.tail = 0 ∧ q'.head = 0 ∧ q'.res = 0 ∧ q'.errIdx = 0 ∧ q'.errCause = .noCause ∧ q'.ready = [] ∧ q'.started = []))) ∧
    -- DESTROY
    (cmdCode w = 2 → q.state = .free ∨ q.state = .draining → Answers s (.qcmdDestroy m w) m c 2 q.state.code (rejected s)) ∧
    (cmdCode w = 2 → q.state ≠ .free → q.state ≠ .draining → q.started = [] → Answers s (.qcmdDestroy m w) m c 0 0 fun t =>
      (∃ q', t.queue? (cmdQueue w) = some q' ∧ q'.state = .free ∧ q'.ready = [] ∧ q'.reading = 0) ∧
      (q.dsig.getLsbD 63 = true → s.peerKnown q.owner q.dsig = true → .peerOp q.owner (.add (-1)) q.dsig ∈ t.out)) ∧
    (cmdCode w = 2 → q.state ≠ .free → q.state ≠ .draining → (∃ p ∈ q.started, ¬ cancelled p) →
      (q.started.map fun p => p.pkt.idx).Nodup →
      Answers s (.qcmdDestroy m w) m c 0 4 fun t => ∃ q', t.queue? (cmdQueue w) = some q' ∧ q'.state = .draining ∧ q'.ready = [] ∧
        q'.reading = 0 ∧ (∀ p ∈ q'.started, ∃ x ∈ q.started, x.pkt = p.pkt ∧ ¬ cancelled x) ∧
        ∀ x ∈ q.started, ¬ cancelled x → ∃ p ∈ q'.started, p.pkt = x.pkt) ∧
    (cmdCode w = 2 → q.state ≠ .free → q.state ≠ .draining → (∀ p ∈ q.started, cancelled p) →
      Answers s (.qcmdDestroy m w) m c 0 0 fun t => ∃ q', t.queue? (cmdQueue w) = some q' ∧ q'.state = .free ∧ q'.started = []) ∧
    -- RESUME
    (cmdCode w = 3 → q.state ≠ .aborted → q.state ≠ .error → Answers s (.qcmdResume m w) m c 2 q.state.code (rejected s)) ∧
    (cmdCode w = 3 → q.state = .aborted ∨ q.state = .error → q.ready = [] →
      imageCalm (s.modQueue q.q fun x => { x with state := .active }) q.q → Answers s (.qcmdResume m w) m c 0 1 fun t =>
      ∃ q', t.queue? (cmdQueue w) = some q' ∧ q'.state = .active ∧ q'.head = q.head ∧ q'.tail = q.tail ∧ q'.started = q.started ∧
        (q.halted = false → s.tenantRuns q.owner = true → q.reading = 0 → q.head < q.tail → .packetRead (cmdQueue w) ∈ t.pending)))

/-- A doorbell: an older or a foreign one is ignored, one past the ring is an error, any other sets TAIL (R36, R37, R98). -/
def doorbells : Prop :=
  ∀ (s : State) (m : Msg) (c : Ctx) (q : Queue) n (x : DWord), s.covered m = true → s.ctx? m.ctx = some c → s.queue? n = some q →
    ((q.owner ≠ c.owner ∨ q.state = .free ∨ x.toNat ≤ q.tail ∨ x.toNat ≤ q.res) →
      ∃ t, exec (.tailPointerWrite m n x) s = .next t ∧ t.queues = s.queues ∧ SameMemory s t ∧ Performed s t m) ∧
    (q.owner = c.owner → q.state ≠ .free → q.tail < x.toNat → q.res < x.toNat →
      (q.head + 2 ^ q.log2n < x.toNat → imageCalm (errored (s.perform m) n .queueOverrun x.toNat) n → ∃ t q', exec (.tailPointerWrite m n x) s = .next t ∧ t.queue? n = some q' ∧
        q'.tail = q.tail ∧ q'.errIdx = x.toNat ∧ q'.errCause = .queueOverrun ∧ (q.state = .active → q'.state = .error)) ∧
      (x.toNat ≤ q.head + 2 ^ q.log2n → imageCalm ((s.perform m).modQueue n fun y => { y with tail := x.toNat, res := x.toNat }) n →
        ∃ t q', exec (.tailPointerWrite m n x) s = .next t ∧ t.queue? n = some q' ∧ Performed s t m ∧
        q'.tail = x.toNat ∧ q'.res = x.toNat ∧ q'.head = q.head ∧ q'.state = q.state ∧
        (s.serves q = true → q.reading = 0 → q.head < x.toNat → .packetRead n ∈ t.pending)))

/-- What a packet read brings: the packet starts, or is invalid, or, when the queue has stopped meanwhile, is kept; or the read
returns a fault, which names its index and holds the reads after it (R37, R38, R40, R49). -/
def packetReads : Prop :=
  (∀ (s : State) (q : Queue) n, s.queue? n = some q → 0 < q.reading → q.fault = none →
    (∀ e, s.deviceRead q.owner ((q.ring + 64 * (q.head % 2 ^ q.log2n)) % 2 ^ 52) 64 = .error e →
      exec (.packetRead n) s = .next ((s.modQueue n fun y => { y with fault := some y.head }).post (.queueFetchFault n))) ∧
    (∀ bs p, s.deviceRead q.owner ((q.ring + 64 * (q.head % 2 ^ q.log2n)) % 2 ^ 52) 64 = .ok bs → q.ready = [] → q.started = [] →
      p = Packet.mk q.head (BitVec.ofNat 512 (natLE bs)) →
      imageCalm (((s.countSoft (s.softDevice q.owner (q.slotVa q.head) 64)).markUsed q.owner (q.slotVa q.head) 64).modQueue n fun y =>
        { y with head := y.head + 1, reading := y.reading - 1, ready := y.ready ++ [p] }) n →
      ∃ t q', exec (.packetRead n) s = .next t ∧ t.queue? n = some q' ∧ q'.head = q.head + 1 ∧
        (s.serves q = true → q'.ready = [] ∧
          (p.valid = true → q'.state = q.state ∧ q'.started.map (·.pkt) = [p] ∧ p.startEvent n ∈ t.pending) ∧
          (p.valid = false → q'.started = [] ∧ q'.state = .error ∧ q'.errIdx = q.head ∧ q'.errCause = .packetInvalid)) ∧
        (s.serves q = false → q'.ready = [p] ∧ q'.started = [] ∧ q'.state = q.state ∧ q'.reading = q.reading - 1))) ∧
  (∀ (s : State) (q : Queue) n, s.queue? n = some q →
    (q.reading = 0 ∨ (∃ k, q.fault = some k) → exec (.packetRead n) s = .next s) ∧
    (q.fault = none → exec (.queueFetchFault n) s = .next s) ∧
    (∀ k, q.fault = some k →
      imageCalm (errored (s.modQueue n fun y => { y with reading := 0, fault := none }) n .queueFetchFault k) n →
      ∃ t q', exec (.queueFetchFault n) s = .next t ∧ t.queue? n = some q' ∧ q'.head = q.head ∧ q'.reading = 0 ∧ q'.fault = none ∧
        q'.errIdx = k ∧ q'.errCause = .queueFetchFault ∧ (q.state = .active → q'.state = .error))) ∧
  (∀ (p : Packet), p.valid = true → 1 ≤ p.ty ∧ p.ty ≤ 5 ∧ p.field 10 22 = 0)

/-- Queue commands, doorbells and packet reads (R34 to R40, R48, R49, R98). That a RING with bits above 51 gives STATUS 3 is the
model's choice (log entry 83); that a packet is examined when its turn to start comes is its reading (log entry 51), as is the
order of a command's checks (log entry 58). -/
def Obligations.Queues : Prop := queueCommands ∧ doorbells ∧ packetReads

/-- A packet has started on a queue and is not complete. -/
structure OpensPacket (s : State) (n idx : Nat) (q : Queue) (p : Packet) : Prop where
  queue : s.queue? n = some q
  started : ∃ st, q.started.find? (fun x => x.pkt.idx == idx) = some st ∧ st.posted = false ∧ st.pkt = p

/-- The pages of a range are present and populated, permit the access and have been used. -/
def Held (s : State) (owner va n : Nat) (write : Bool) : Prop :=
  ∀ k < n, ∃ l e pa, s.walk owner ((va + k) % 2 ^ 52) = .leaf l e ∧ s.devicePa owner ((va + k) % 2 ^ 52) write = .ok pa ∧
    (s.hbmByte owner (e + 7)).getLsbD 2 = true

/-- The end of a packet: its place in STARTED is free, its CSIG receives ADD(−1) or ABORT, an error is recorded and under
AOE the queue is ABORTED (R36, R46, R102). The image of a graph object that the completion changes can be written. -/
def packetEnds : Prop :=
  ∀ (s : State) (q : Queue) (st : Started) n idx (err : Option Cause) (addr : DWord), s.queue? n = some q → q.started = [st] →
    st.pkt.idx = idx → q.ready = [] → q.state = .active →
    (∀ g ∈ s.graphs, ((g.state ≠ .unbound ∧ (n, idx) ∈ g.waiting) ∨ ∃ i ∈ g.insts, i.q = n ∧ i.idx = idx) → Held s q.owner g.gobj 64 true) →
    ∃ t q', exec (.packetCompletion n idx err addr) s = .next t ∧ t.queue? n = some q' ∧ q'.started = [] ∧ q'.head = q.head ∧
      (∀ l ∈ t.launches, l.kind ≠ .packet n idx) ∧
      (err = none → q'.errIdx = q.errIdx ∧ (st.pkt.csig = 0 → q'.state = .active ∧ q'.errCause = q.errCause)) ∧
      (∀ c, err = some c → q'.errIdx = idx ∧ (st.pkt.aoe = true → q'.state ≠ .active)) ∧
      (st.pkt.csig.getLsbD 63 = true → s.peerKnown q.owner st.pkt.csig = true →
        .peerOp q.owner (if err.isSome then .abort else .add (-1)) st.pkt.csig ∈ t.out)

/-- `LAUNCH`: its record is read once; the record's limits, its fit, and the launch that it makes (R41, R90 to R92, R102). -/
def launchRules : Prop :=
  ∀ (s : State) (q : Queue) (p : Packet) n idx (rec : Nat), OpensPacket s n idx q p → (∀ l ∈ s.launches, l.kind ≠ .packet n idx) →
    (q.recordOf idx = some rec ∨ (q.recordOf idx = none ∧ Held s q.owner (p.word 2) 64 false ∧
      ∃ bs, s.deviceRead q.owner (p.word 2) 64 = .ok bs ∧ rec = natLE bs)) →
    (lrecOk rec = false → ∃ t, exec (.launch n idx) s = .next t ∧ t.launches = s.launches ∧
      .packetCompletion n idx (some .launchInvalid) 0 ∈ t.pending) ∧
    (lrecOk rec = true → (lrecOf rec).homearg = 0xFF →
      (let r := lrecOf rec
       let fits := s.possible (Launch.start 0 q.owner 0 (.packet n idx) r (p.word 3) (p.word 4) none [])
       (fits = false → ∃ t, exec (.launch n idx) s = .next t ∧ t.launches = s.launches ∧
         .packetCompletion n idx (some .residencyImpossible) 0 ∈ t.pending) ∧
       (fits = true → ∃ t l, exec (.launch n idx) s = .next t ∧ l ∈ t.launches ∧ l.kind = .packet n idx ∧ l.owner = q.owner ∧
         l.lrec = r ∧ l.args = p.word 3 ∧ l.count = p.word 4 ∧ l.unplaced = [(0, p.word 4)] ∧ l.outstanding = 0 ∧
         l.ended = false ∧ l.homeBase = none ∧ SameMemory s t)))

/-- `WAITSIG` on one local signal, `COPY` and `NOTE` packets (R41, R45). -/
def packetRules : Prop :=
  (∀ (s : State) (q : Queue) (p : Packet) n idx (ref : DWord) (st : Started), OpensPacket s n idx q p → p.sigs.eraseDups = [ref] →
    ref.getLsbD 63 = false → q.started.find? (fun x => x.pkt.idx == idx) = some st → (∀ x ∈ st.need, x = ref) →
    (∀ v, s.sigValue q.owner ref = some v → 0 < v → ∃ t, exec (.waitsig n idx) s = .next t ∧
      ⟨q.owner, ref, .packet n idx, 0⟩ ∈ t.waits ∧ t.pending = s.pending) ∧
    (s.sigValue q.owner ref = some 0 → ∃ t, exec (.waitsig n idx) s = .next t ∧ (∀ r ∈ t.waits, r.who ≠ .packet n idx) ∧
      .packetCompletion n idx none 0 ∈ t.pending) ∧
    ((s.sigValue q.owner ref = none ∨ ∃ v, s.sigValue q.owner ref = some v ∧ v < 0) → ∃ t, exec (.waitsig n idx) s = .next t ∧
      (∀ r ∈ t.waits, r.who ≠ .packet n idx) ∧ .packetCompletion n idx (some .signalAborted) ref ∈ t.pending)) ∧
  (∀ (s : State) (q : Queue) (p : Packet) n idx, OpensPacket s n idx q p →
    (p.word 4 = 0 → ∃ t, exec (.copyPacket n idx) s = .next t ∧ SameMemory s t ∧ .packetCompletion n idx none 0 ∈ t.pending) ∧
    (p.word 4 ≠ 0 → (∀ c ∈ s.copies, c.fin ≠ .packet n idx) → ∃ t x, exec (.copyPacket n idx) s = .next t ∧ SameMemory s t ∧
      t.copies = s.copies ++ [x] ∧ x.owner = q.owner ∧ x.segs = [⟨.glb (p.word 2), .glb (p.word 3), p.word 4⟩] ∧
      x.fin = .packet n idx ∧ .copyComplete x.id ∈ t.pending)) ∧
  (∀ (s : State) (q : Queue) (p : Packet) n idx pa, OpensPacket s n idx q p → Inv s → noErrors s → p.word 2 % 16 = 0 →
    Held s q.owner (p.word 2) 16 true → s.devicePa q.owner (p.word 2 % 2 ^ 52) true = .ok pa →
    ∃ t, exec (.note n idx) s = .next t ∧ .packetCompletion n idx none 0 ∈ t.pending ∧
      (∀ i < 8, t.locRead q.owner (.hbm (pa + i)) = BitVec.ofNat 8 (p.word 3 / 256 ^ i)) ∧
      (∀ i < 8, t.locRead q.owner (.hbm (pa + 8 + i)) = BitVec.ofNat 8 (s.now / 256 ^ i)) ∧
      (∀ a, (a < pa ∨ pa + 16 ≤ a) → t.locRead q.owner (.hbm a) = s.locRead q.owner (.hbm a)) ∧
      t.out = s.out ++ if p.bits.getLsbD 256 then [.note q.ctx (bytesLE 8 (p.word 3) ++ bytesLE 8 (s.now % 2 ^ 64))] else [])

/-- Packets from start to completion (R41, R45, R46, R90 to R92, R102). Which context a NOTE is sent to is the model's choice
(log entry 85). -/
def Obligations.Packets : Prop := packetEnds ∧ launchRules ∧ packetRules

/-! ## Rate graphs -/

/-- Firings of a stage in a part of a firing table. -/
def firings (xs : List (Nat × Nat)) (st : Nat) : Nat := (xs.filter fun x => x.1 == st).length

/-- The balance solves the equations of R78 in the smallest positive integers, and RATE_INCONSISTENT means that no positive
solution exists; the firing table of R79 fires each stage q times, each firing with its inputs there, never a stage below
another that could fire, and never past half of a channel's capacity. -/
def Obligations.RateBalance : Prop :=
  (∀ (nstg : Nat) (chans : List Chan) (q : List Nat), 1 ≤ nstg → (∀ c ∈ chans, c.internal = true →
      c.pstg < nstg ∧ c.cstg < nstg ∧ 1 ≤ c.prate ∧ 1 ≤ c.crate) →
    balance nstg chans = .ok q → q.length = nstg ∧ (∀ x ∈ q, 0 < x) ∧ q.foldl Nat.gcd 0 = 1 ∧
      ∀ c ∈ chans, c.internal = true → c.prate * nthD q c.pstg 0 = c.crate * nthD q c.cstg 0) ∧
  (∀ (nstg : Nat) (chans : List Chan), 1 ≤ nstg → (∀ c ∈ chans, c.internal = true →
      c.pstg < nstg ∧ c.cstg < nstg ∧ 1 ≤ c.prate ∧ 1 ≤ c.crate) →
    balance nstg chans = .error .rateInconsistent → ¬ ∃ q : Nat → Nat, (∀ k, 0 < q k) ∧
      ∀ c ∈ chans, c.internal = true → c.prate * q c.pstg = c.crate * q c.cstg) ∧
  (∀ (chans : List Chan) (q : List Nat) (table : List (Nat × Nat)) (caps : List Nat), q.length ≤ 64 →
    schedule chans q = some (table, caps) →
    (∀ st < q.length, (table.filter fun x => x.1 == st).map (·.2) = List.range (nthD q st 0)) ∧ table.length = q.sum ∧
    ∀ k < table.length, ∀ st ord, table[k]? = some (st, ord) →
      (let before := table.take k
       let occ (c : Chan) (xs : List (Nat × Nat)) : Int := c.delay + c.prate * firings xs c.pstg - c.crate * firings xs c.cstg
       (∀ c ∈ chans, c.internal = true → c.cstg = st → (c.crate : Int) ≤ occ c before) ∧
       (∀ st' < q.length, st < st' → firings before st' = nthD q st' 0 ∨
         ∃ c ∈ chans, c.internal = true ∧ c.cstg = st' ∧ occ c before < c.crate) ∧
       (∀ (j : Nat) (c : Chan), chans[j]? = some c → c.internal = true → 2 * occ c (table.take (k + 1)) ≤ nthD caps j 0)))

/-- An operation that stands first in its object's line: its packet and its object. -/
structure OnGraph (s : State) (n idx : Nat) (q : Queue) (p : Packet) (g : Graph) : Prop where
  packet : OpensPacket s n idx q p
  named : s.graphs.find? (fun x => x.owner == q.owner && x.gobj == p.word 3) = some g
  only : s.graph? g.gid = some g
  first : g.waiting = [] ∨ g.waiting.head? = some (n, idx)

/-- The state in which an operation begins: it stands in its object's line, and DESTROY no longer cancels it. -/
def begun (s : State) (n idx : Nat) (g : Graph) : State :=
  State.beginOp (s.modGraph g.gid fun x => if x.waiting.contains (n, idx) then x else { x with waiting := x.waiting ++ [(n, idx)] }) n idx

/-- The state after some writes at VAs of an owner, in their order; one whose pages do not take it is left out. -/
def wrote (s : State) (owner : Nat) (ws : List (Nat × List Byte)) : State :=
  ws.foldl (fun s x => match s.deviceWrite owner x.1 x.2 with | .ok u => u | .error _ => s) s

/-- The start of a work area: header, repetition vector, capacities, firing entries (R80). -/
def workAreaLayout : Prop :=
  ∀ (g : Graph), g.qv.length ≤ 64 → g.caps.length ≤ 256 →
    (let word (k n : Nat) : Nat := natLE ((g.areaBytes.drop k).take n)
     word 0 8 = g.table.length % 2 ^ 64 ∧ word 8 8 = g.psoff % 2 ^ 64 ∧ word 16 8 = g.boff % 2 ^ 64 ∧ word 24 8 = g.wsuse % 2 ^ 64 ∧
     word 32 8 = g.coff % 2 ^ 64 ∧ word 40 24 = 0 ∧ (∀ k < 64, word (0x40 + 4 * k) 4 = nthD g.qv k 0 % 2 ^ 32) ∧
     (∀ k < 256, word (0x140 + 4 * k) 4 = nthD g.caps k 0 % 2 ^ 32) ∧
     ∀ (k : Nat) (x : Nat × Nat), g.table[k]? = some x → word (0x540 + 4 * k) 4 = (x.1 + 256 * x.2) % 2 ^ 32)

/-- `BIND` and `UNBIND` (R75 to R81). -/
def bindRules : Prop :=
  (∀ (s : State) n idx (q : Queue) (p : Packet) (g : Graph) (hb sb cb par : List Byte), OnGraph s n idx q p g → g.insts = [] →
    p.word 4 % 64 = 0 → p.word 3 % 64 = 0 → p.field 128 8 = 1 → p.ty = 4 → Held s q.owner (p.word 4) 64 false →
    s.deviceRead q.owner (p.word 4) 64 = .ok hb →
    (hdrOk (natLE hb) = false → g.state = .unbound → ∃ t g', exec (.bind n idx) s = .next t ∧ t.graph? g.gid = some g' ∧
      g'.state = .unbound ∧ .packetCompletion n idx (some .graphInvalid) 0 ∈ t.pending) ∧
    (hdrOk (natLE hb) = true →
      Held s q.owner (hdrStgva (natLE hb)) (16 * hdrNstg (natLE hb)) false →
      s.deviceRead q.owner (hdrStgva (natLE hb)) (16 * hdrNstg (natLE hb)) = .ok sb →
      Held s q.owner (hdrChva (natLE hb)) (32 * hdrNch (natLE hb)) false →
      s.deviceRead q.owner (hdrChva (natLE hb)) (32 * hdrNch (natLE hb)) = .ok cb →
      (let h := natLE hb
       let ss := recordsOf 16 (hdrNstg h) sb
       let cs := recordsOf 32 (hdrNch h) cb
       let d : Desc := { wsva := bitsOf h 192 64, wslen := bitsOf h 256 64, parva := bitsOf h 320 64, parlen := bitsOf h 384 16,
                         periods := bitsOf h 448 32, stages := ss.map stageOf, chans := cs.map chanOf }
       (∀ x ∈ ss, stageOk x = true) → (∀ x ∈ cs, chanOk (hdrNstg h) d.parlen x = true) → d.ok = true →
       (s.graphs.filter fun x => x.state != .unbound && x.gid != g.gid).length < 256 →
       (∀ c, solve d = .error c → g.state = .unbound → ∃ t g', exec (.bind n idx) s = .next t ∧ t.graph? g.gid = some g' ∧
         g'.state = .unbound ∧ .packetCompletion n idx (some c) 0 ∈ t.pending) ∧
       (∀ v tab caps, solve d = .ok (v, tab, caps) → (g.bindTo d v tab caps).wsuse ≤ d.wslen →
         Held s q.owner d.parva (64 * d.parlen) false → s.deviceRead q.owner d.parva (64 * d.parlen) = .ok par →
         Held s q.owner d.wsva (g.bindTo d v tab caps).wsuse true → Held s q.owner g.gobj 64 true →
         ∃ t g', exec (.bind n idx) s = .next t ∧ t.graph? g.gid = some g' ∧ g'.state = .bound ∧ g'.qv = v ∧ g'.table = tab ∧
           g'.caps = caps ∧ g'.stages = d.stages ∧ g'.chans = d.chans ∧ g'.wsva = d.wsva ∧ g'.periods = d.periods ∧ g'.next = 0 ∧
           g'.sref = 0 ∧ g'.done = 0 ∧ g'.insts = [] ∧ .packetCompletion n idx none 0 ∈ t.pending ∧
           -- the work area, the parameters in slot 0, the initial records of each buffer, the image
           t.hbm = (wrote s q.owner ([(d.wsva, (g.bindTo d v tab caps).areaBytes), (g'.slotVa 0, par)] ++
             (List.range d.chans.length).map (fun k => (g'.buffer k, List.replicate (match d.chans[k]? with
               | some x => x.delay * x.bytes
               | none => 0) 0)) ++ [(g.gobj, g'.image)])).hbm)))) ∧
  (∀ (s : State) n idx (q : Queue) (p : Packet) (g : Graph), OnGraph s n idx q p g →
    (g.insts ≠ [] → ∃ t g', exec (.unbind n idx) s = .next t ∧ t.graph? g.gid = some g' ∧ g'.state = g.state ∧
      g'.waiting.head? = some (n, idx) ∧ t.pending = s.pending) ∧
    (g.insts = [] → Held s q.owner g.gobj 64 true → ∃ t g', exec (.unbind n idx) s = .next t ∧ t.graph? g.gid = some g' ∧
      g'.state = .unbound ∧ (n, idx) ∉ g'.waiting ∧ .packetCompletion n idx none 0 ∈ t.pending))

/-- `RUN` and `PATCH` (R82, R83). -/
def runRules : Prop :=
  (∀ (s : State) n idx (q : Queue) (p : Packet) (g : Graph), OnGraph s n idx q p g → g.state ≠ .bound →
    (let c : Cause := if g.state = .faulted then .graphFaulted else .graphInvalid
     ∀ i, i = .run n idx ∨ i = .patch n idx → ∃ t g', exec i s = .next t ∧ t.graph? g.gid = some g' ∧ g'.insts = g.insts ∧
       .packetCompletion n idx (some c) 0 ∈ t.pending)) ∧
  -- while two instances live, a RUN waits, and later operations behind it
  (∀ (s : State) n idx (q : Queue) (p : Packet) (g : Graph), OnGraph s n idx q p g → g.state = .bound → 2 ≤ g.insts.length →
    ∃ t g', exec (.run n idx) s = .next t ∧ t.graph? g.gid = some g' ∧ g'.insts = g.insts ∧ g'.waiting.head? = some (n, idx) ∧
      t.pending = s.pending ∧ t.queues = s.queues ∧ SameMemory s t) ∧
  (∀ (s s1 : State) n idx (q : Queue) (p : Packet) (g g1 : Graph) (par : List Byte) (rs : List StageRun), OnGraph s n idx q p g →
    g.state = .bound → g.insts.length < 2 → (begun s n idx g).graph? g.gid = some g1 → p.ty = 4 → p.field 128 8 = 2 → s.env.soft = [] →
    Held s q.owner (g.slotVa g.next) (64 * g.parlen) false → s.deviceRead q.owner (g.slotVa g.next) (64 * g.parlen) = .ok par →
    State.readStages (begun s n idx g) (q := q) p g1 g.next par ((List.range g.stages.length).zip g.stages) = (s1, some rs) →
    s1.graph? g.gid = some g1 → Held s1 q.owner g.gobj 64 true →
    (let fit : Prop := ∀ x ∈ g.chans.zip (arraysOf g.chans par), g.arrayNeed x.1 ≤ x.2.2 ∧ x.2.1 < 2 ^ 52
     let refused (c : Cause) : Prop := ∃ t g', exec (.run n idx) s = .next t ∧ t.graph? g.gid = some g' ∧ g'.insts = g.insts ∧
       g'.state = .bound ∧ .packetCompletion n idx (some c) 0 ∈ t.pending
     (¬ fit → refused .graphInvalid) ∧
     -- a stage that asks for a gang is refused (log entry 33)
     (fit → (∃ r ∈ rs, lrecOk r.bits = false ∨ (lrecOf r.bits).gang = true) → refused .launchInvalid) ∧
     (fit → s1.stagesBad g1 rs = some .graphInvalid → refused .graphInvalid) ∧
     -- a crew that no core can hold fails the object (R87)
     (fit → s1.stagesBad g1 rs = some .residencyImpossible → ∃ t g', exec (.run n idx) s = .next t ∧ t.graph? g.gid = some g' ∧
       g'.state = .faulted ∧ g'.gcause = .residencyImpossible ∧
       (∀ x ∈ g.insts, .instanceFail g.gid x.id ⟨none, .graphFaulted⟩ ∈ t.pending) ∧
       .packetCompletion n idx (some .residencyImpossible) 0 ∈ t.pending) ∧
     (fit → s1.stagesBad g1 rs = none →
       ∃ t g' x, exec (.run n idx) s = .next t ∧ t.graph? g.gid = some g' ∧ g'.insts = g.insts ++ [x] ∧ x.q = n ∧ x.idx = idx ∧
         x.slot = g.next ∧ x.periods = g.periods ∧ x.released = 0 ∧ x.doneF = [] ∧ x.finished = false ∧ x.failing = none ∧
         g'.sref = g.sref ||| BitVec.twoPow 3 g.next ∧ (n, idx) ∉ g'.waiting ∧ .firingRelease g.gid x.id ∈ t.pending ∧
         ∀ r ∈ rs, ∃ l ∈ t.launches, l.kind = .stage g.gid x.id r.stg ∧ l.lrec = lrecOf r.bits ∧ l.owner = g.owner ∧
           l.unplaced = [(0, g.crewsOf r.stg)]))) ∧
  (∀ (s : State) n idx (q : Queue) (p : Packet) (g : Graph) (hb eb par : List Byte) es k, OnGraph s n idx q p g → g.state = .bound →
    p.ty = 4 → p.field 128 8 = 3 → Held s q.owner (p.word 4) 64 false → s.deviceRead q.owner (p.word 4) 64 = .ok hb →
    k = bitsOf (natLE hb) 0 32 →
    ((k = 0 ∨ 1024 < k ∨ bitsOf (natLE hb) 64 448 ≠ 0) → ∃ t g', exec (.patch n idx) s = .next t ∧ t.graph? g.gid = some g' ∧
      g'.next = g.next ∧ g'.periods = g.periods ∧ .packetCompletion n idx (some .graphInvalid) 0 ∈ t.pending) ∧
    (1 ≤ k → k ≤ 1024 → bitsOf (natLE hb) 64 448 = 0 → Held s q.owner (p.word 4 + 64) (64 * k) false →
      s.deviceRead q.owner (p.word 4 + 64) (64 * k) = .ok eb → patchEntries g.parlen (recordsOf 64 k eb) = some es →
      Held s q.owner (g.slotVa g.next) (64 * g.parlen) false → s.deviceRead q.owner (g.slotVa g.next) (64 * g.parlen) = .ok par →
      (let f := if g.sref.getLsbD g.next then freeSlot g.sref else g.next
       Held s q.owner (g.slotVa f) (64 * g.parlen) true → Held s q.owner g.gobj 64 true →
       ∃ t g', exec (.patch n idx) s = .next t ∧ t.graph? g.gid = some g' ∧ g'.next = f ∧ g'.sref = g.sref ∧
         g'.periods = (if bitsOf (natLE hb) 32 32 = 0 then g.periods else bitsOf (natLE hb) 32 32) ∧
         .packetCompletion n idx none 0 ∈ t.pending ∧
         -- the slot that NEXT names, copied first where an instance references it, then the entries in order, the image
         t.hbm = (wrote s q.owner ((if f = g.next then [] else [(g.slotVa f, par)]) ++ es.map (fun e => (g.slotVa f + e.1, e.2)) ++
           [(g.gobj, g'.image)])).hbm)))

/-- Firings are released in table order, feeders move records, an instance fails (R84 to R87, R361). -/
def replayRules : Prop :=
  (∀ (s : State) (g : Graph) (i : Inst) gid id, s.graph? gid = some g → g.insts.find? (fun x => x.id == id) = some i →
    (g.state = .bound → i.failing = none → i.released < i.periods * g.table.length →
      (if g.table.length ≤ i.released then i.doneF.contains (i.released - g.table.length) = true
       else ∀ o, g.older id = some o → o.doneF.contains ((o.periods - 1) * g.table.length + i.released) = true) →
      ∃ t g' i', exec (.firingRelease gid id) s = .next t ∧ t.graph? gid = some g' ∧
        g'.insts.find? (fun x => x.id == id) = some i' ∧ i' = { i with released := i.released + 1 } ∧
        .firingRelease gid id ∈ t.pending) ∧
    ((g.state ≠ .bound ∨ i.failing ≠ none ∨ i.periods * g.table.length ≤ i.released) → exec (.firingRelease gid id) s = .next s)) ∧
  (∀ (s : State) (g : Graph) (i : Inst) (x : Chan) (crew : Crew) (r : Ring) gid id ch n k F va (bs : List Byte), Inv s → noErrors s →
    s.graph? gid = some g → g.insts.find? (fun y => y.id == id) = some i → g.chans[ch]? = some x → ch < i.chans.length →
    s.tenantRuns g.owner = true → i.failing = none → crew.ended = false → n = (i.prog ch).movOut → k = n % max 1 x.crate → x.sink = false → n < g.outTotal i x →
    g.olderOut i ch x = true → g.isReleased i x.cstg (n / max 1 x.crate) = true → (x.internal = true → g.occupancy ch ≠ 0) →
    (k = 0 → g.mayStart i x.cstg (n / max 1 x.crate) = true) → s.stageCrew g i x.cstg (n / max 1 x.crate) false = some (crew, F) →
    s.crew? crew.cid = some crew → (∀ y ∈ s.crews, y.cid = crew.cid → y = crew) → crew.rings = [r] → r.chan = ch → r.input = true →
    (r.half (F % 2)).firing = F → (r.half (F % 2)).recs = k →
    va = (if x.source then (nthD i.arrays ch (0, 0)).1 + n * x.bytes else g.outVa ch x) → Held s g.owner va x.bytes false →
    s.deviceRead g.owner va x.bytes = .ok bs →
    ∃ t g' i' c' r', exec (.feederMove gid id ch) s = .next t ∧ t.graph? gid = some g' ∧
      g'.insts.find? (fun y => y.id == id) = some i' ∧ (i'.prog ch).movOut = n + 1 ∧ t.crew? crew.cid = some c' ∧ c'.rings = [r'] ∧
      (if k + 1 = r.rate ∧ F < crew.f then r'.half (F % 2) = ⟨F + 2, 0, false⟩
       else (r'.half (F % 2)).firing = F ∧ (r'.half (F % 2)).recs = k + 1) ∧
      ∀ j < x.bytes, t.locRead crew.owner (.scratch crew.cid (r.base + (F % 2 * r.rate + k) * 2 ^ r.rlog2 + j)) = nthD bs j 0) ∧
  -- an instance whose crews have left no output that a feeder has to take fails with its first cause
  (∀ (s : State) (g : Graph) (i : Inst) gid id ch (c k : Cause) (q : Queue) (p : Packet), s.graph? gid = some g →
    g.insts.find? (fun x => x.id == id) = some i → k = i.failing.getD c → Held s g.owner g.gobj 64 true →
    (∀ y ∈ s.crews, y.lid ∈ i.lids ∨ (∃ st j, y.stage = some (gid, id, st, j)) →
      ∀ r ∈ y.rings, r.input = false → r.h0.busy = false ∧ r.h1.busy = false) →
    -- while writes of its launches are to come, its packet does not complete (R47)
    ((∃ lid ∈ i.lids, s.engineBusy lid = true) → ∃ t g', exec (.instanceFail gid id ⟨ch, c⟩) s = .next t ∧ t.graph? gid = some g' ∧
      g'.state = .faulted ∧ .instanceFail gid id ⟨none, k⟩ ∈ t.pending) ∧
    (OpensPacket s i.q i.idx q p → (∀ lid ∈ i.lids, s.engineBusy lid = false) →
    ∃ t g', exec (.instanceFail gid id ⟨ch, c⟩) s = .next t ∧ t.graph? gid = some g' ∧ g'.state = .faulted ∧
      g'.gcause = (if k = .graphFaulted then g.gcause else k) ∧ (∀ x ∈ g'.insts, x.id ≠ id) ∧
      .packetCompletion i.q i.idx (some k) 0 ∈ t.pending ∧ (∀ l ∈ t.launches, l.lid ∉ i.lids) ∧
      ∀ x ∈ g.insts, x.id ≠ id → .instanceFail gid x.id ⟨none, x.failing.getD .graphFaulted⟩ ∈ t.pending))

/-- Operations on graph objects and their replay (R75 to R87, R361). That a stage may not ask for gangs is the model's reading
(log entry 33); the die of a feeder whose buffer is not mapped (81) and the image that a failing instance cannot write (90)
are its choice. -/
def Obligations.Graphs : Prop := workAreaLayout ∧ bindRules ∧ runRules ∧ replayRules

/-! ## Management -/

/-- A management command is answered in MRES, whose SEQ advances (R59, R60); QSTATE is that of the queue a QGRANT names. -/
def CommandsOn (s : State) (i : Instr) (status qstate result : Nat) (P : State → Prop) : Prop :=
  ∃ t, exec i s = .next t ∧
    t.mgmt.mres = BitVec.ofNat 64 (status + qstate * 2 ^ 8 + (bitsOf s.mgmt.mres.toNat 16 16 + 1) % 2 ^ 16 * 2 ^ 16 + result * 2 ^ 32) ∧ P t
def Commands (s : State) (i : Instr) (status result : Nat) (P : State → Prop) : Prop := CommandsOn s i status 0 result P

/-- The code of a queue's state, 0 where nothing is granted. -/
def stateCode (s : State) (n : Nat) : Nat := ((s.queue? n).map fun q => q.state.code).getD 0

/-- A rejected command changes nothing but MRES: no tenant, no queue, no context's binding, no memory (R59). The arguments that the
model keeps for a command of several turns are over. -/
def unchanged (s t : State) : Prop :=
  t.tenants = s.tenants ∧ t.queues = s.queues ∧ SameMemory s t ∧ t.mgmt = { s.mgmt with mres := t.mgmt.mres, args := [] } ∧
    ∀ x, (t.ctx? x).map (fun c => (c.owner, c.keys)) = (s.ctx? x).map fun c => (c.owner, c.keys)

/-- The code of each command (R59). -/
def commandsOf (m : Msg) (w : DWord) : List (Nat × Instr) :=
  [(1, .tenantCreate m w), (2, .tenantDestroy m w), (3, .ctxSet m w), (4, .keySet m w), (5, .peerSet m w), (6, .qgrant m w),
   (7, .migrateOut m w), (8, .migrateIn m w), (9, .attest m w), (10, .fwStage m w)]

/-- A word with a bit outside its code is refused, and so is a command that names no tenant (R59). -/
def refusals : Prop :=
  (∀ (s : State) (m : Msg) (w : DWord) (k : Nat) (i : Instr), s.covered m = true → (k, i) ∈ commandsOf m w → w.toNat ≠ k →
    Commands s i 4 0 (unchanged s)) ∧
  (∀ (s : State) (m : Msg), s.covered m = true →
    (s.tenant? (s.arg 0) = none → Commands s (.tenantDestroy m 2) 3 0 (unchanged s) ∧ Commands s (.peerSet m 5) 3 0 (unchanged s) ∧
      Commands s (.migrateOut m 7) 3 0 (unchanged s) ∧ Commands s (.migrateIn m 8) 3 0 (unchanged s)) ∧
    (s.tenant? (s.arg 3) = none → Commands s (.ctxSet m 3) 3 0 (unchanged s)) ∧
    (s.tenant? (s.arg 1) = none → CommandsOn s (.qgrant m 6) 3 (stateCode s (s.arg 0)) 0 (unchanged s)))

/-- `TENANT_CREATE` and `TENANT_DESTROY` (R59, R63, R65, R67). -/
def tenantRules : Prop :=
  (∀ (s : State) (m : Msg) part, s.covered m = true → part = s.arg 0 →
    (s.createOk = false → Commands s (.tenantCreate m 1) 3 0 (unchanged s)) ∧
    (s.createOk = true → (s.freeTag part = none ∨ s.commonsFree part (s.arg 5) = false) →
      Commands s (.tenantCreate m 1) 5 0 (unchanged s)) ∧
    (∀ tag x s1, s.createOk = true → s.freeTag part = some tag → s.commonsFree part (s.arg 5) = true →
      x = Tenant.new tag part (s.arg 1) (s.arg 2) (s.arg 3) (s.arg 4) (s.arg 5) (s.arg 6) (s.ids + 1) →
      State.deviceWrite { s.newId with tenants := s.tenants ++ [x] } tag (s.arg 2)
        ([0, 0, 0, 0x30, 0, 0, 0, 0].flatMap fun v => bytesLE 8 v) = .ok s1 →
      tag / 16 = part ∧ tag < 64 ∧ s.tenant? tag = none ∧ Commands s (.tenantCreate m 1) 0 tag fun t => t.tenant? tag = some x ∧
        ∀ u, u ≠ tag → t.tenant? u = s.tenant? u)) ∧
  (∀ (s : State) (m : Msg) (te : Tenant) tag, s.covered m = true → tag = s.arg 0 → s.tenant? tag = some te →
    ((∀ q ∈ s.queues, q.owner = tag → q.state = .free) → Commands s (.tenantDestroy m 2) 0 0 fun t => t.tenant? tag = none ∧
      (∀ q ∈ t.queues, q.owner ≠ tag) ∧ (∀ c ∈ t.ctxs, c.owner ≠ tag) ∧ (∀ c ∈ t.crews, c.owner ≠ tag) ∧
      (∀ l ∈ t.launches, l.owner ≠ tag) ∧ (∀ r ∈ t.bdir, r.own ≠ tag) ∧ (∀ g ∈ t.graphs, g.owner ≠ tag) ∧
      (∀ r ∈ t.waits, r.owner ≠ tag)) ∧
    -- the command's arguments are those of its first turn, whatever is written to the mailbox meanwhile
    (∀ n q, s.queue? n = some q → q.owner = tag → q.state ≠ .free → (∃ p ∈ q.started, ¬ cancelled p) →
      (q.started.map fun p => p.pkt.idx).Nodup → ∃ t q', exec (.tenantDestroy m 2) s = .next t ∧
      t.mgmt.mres = s.mgmt.mres ∧ (∀ box, State.arg { t with mgmt := { t.mgmt with mailbox := box } } 0 = tag) ∧ .tenantDestroy m 2 ∈ t.pending ∧ (t.tenant? tag).isSome = true ∧ t.queue? n = some q' ∧
      q'.state = .draining))

/-- `CTX_SET`, `KEY_SET`, `PEER_SET` and `QGRANT` (R31, R43, R59). -/
def bindingRules : Prop :=
  (∀ (s : State) (m : Msg) (te : Tenant), s.covered m = true → s.tenant? (s.arg 3) = some te →
    (¬ (1 ≤ s.arg 0 ∧ s.arg 0 ≤ 255) → Commands s (.ctxSet m 3) 3 0 (unchanged s)) ∧
    (1 ≤ s.arg 0 → s.arg 0 ≤ 255 → m.ctx ≠ s.arg 0 → Commands s (.ctxSet m 3) 0 0 fun t => ∃ c, t.ctx? (s.arg 0) = some c ∧
      c.owner = s.arg 3 ∧ c.job = BitVec.ofNat 64 (s.arg 1) ∧ c.addr = BitVec.ofNat 64 (s.arg 2) ∧ c.tss = .named (s.arg 4) ∧ c.keys = [] ∧ c.wm = 0)) ∧
  (∀ (s : State) (m : Msg) (c : Ctx), s.covered m = true → s.ctx? (s.arg 0) = some c →
    (4 ≤ s.arg 4 → Commands s (.keySet m 4) 4 0 (unchanged s)) ∧
    (s.arg 4 < 4 → ¬ (1 ≤ s.arg 1 ∧ s.arg 1 ≤ 4095 ∧ s.arg 2 < 2 ^ 52 ∧ s.arg 2 + s.arg 3 ≤ 2 ^ 52) →
      Commands s (.keySet m 4) 3 0 (unchanged s)) ∧
    (s.arg 4 < 4 → 1 ≤ s.arg 1 → s.arg 1 ≤ 4095 → s.arg 2 < 2 ^ 52 → s.arg 2 + s.arg 3 ≤ 2 ^ 52 →
      Commands s (.keySet m 4) 0 0 fun t => ∃ c', t.ctx? (s.arg 0) = some c' ∧ c'.owner = c.owner ∧
        c'.keys.find? (fun k => k.key == s.arg 1) =
          some ⟨s.arg 1, s.arg 2, s.arg 3, decide (s.arg 4 % 2 = 1), decide (s.arg 4 / 2 % 2 = 1)⟩ ∧
        ∀ k, k ≠ s.arg 1 → c'.keys.find? (fun x => x.key == k) = c.keys.find? fun x => x.key == k)) ∧
  (∀ (s : State) (m : Msg) (te : Tenant), s.covered m = true → s.tenant? (s.arg 0) = some te →
    (2047 < s.arg 1 → Commands s (.peerSet m 5) 3 0 (unchanged s)) ∧
    (s.arg 1 ≤ 2047 → Commands s (.peerSet m 5) 0 0 fun t => ∃ te', t.tenant? (s.arg 0) = some te' ∧
      te'.peers.find? (fun p => p.1 == s.arg 1) = some (s.arg 1, BitVec.ofNat 64 (s.arg 2), BitVec.ofNat 64 (s.arg 3)))) ∧
  (∀ (s : State) (m : Msg) (te : Tenant), s.covered m = true → s.tenant? (s.arg 1) = some te →
    (1023 < s.arg 0 → CommandsOn s (.qgrant m 6) 3 (stateCode s (s.arg 0)) 0 (unchanged s)) ∧
    (∀ q, s.arg 0 ≤ 1023 → s.queue? (s.arg 0) = some q → q.state ≠ .free →
      CommandsOn s (.qgrant m 6) 2 q.state.code 0 (unchanged s)) ∧
    (s.arg 0 ≤ 1023 → (∀ q, s.queue? (s.arg 0) = some q → q.state = .free) → Commands s (.qgrant m 6) 0 0 fun t =>
      ∃ q, t.queue? (s.arg 0) = some q ∧ q.owner = s.arg 1 ∧ q.state = .free))

/-- `MIGRATE_OUT`, `MIGRATE_IN`, `ATTEST` and `FW_STAGE` (R51, R59, R69, R70). -/
def deviceRules : Prop :=
  (∀ (s s1 : State) (m : Msg) (te : Tenant), s.covered m = true → s.tenant? (s.arg 0) = some te →
    (s.mgmt.args = [] → ∀ e, s.writeSave (s.arg 0) (s.arg 1) = .error e → Commands s (.migrateOut m 7) 3 0 (unchanged s)) ∧
    -- the tenant stops first; a command that has stopped it waits (log entry 40), with the arguments of its first turn
    (s.arg 1 < 2 ^ 52 → (s.leaving (s.arg 0) = true ∨ (s.mgmt.args ≠ [] ∧ ∃ e, s.writeSave (s.arg 0) (s.arg 1) = .error e)) →
      (s.mgmt.args = [] → s.writeSave (s.arg 0) (s.arg 1) = .ok s1) → ∃ t te', exec (.migrateOut m 7) s = .next t ∧ .migrateOut m 7 ∈ t.pending ∧
      t.tenant? (s.arg 0) = some te' ∧ te'.running = false ∧ t.mgmt.mres = s.mgmt.mres ∧ t.mgmt.args = [s.arg 0, s.arg 1] ∧
      (te.running = true → .preemptionRequest (.forSwitch te.tag) ∈ t.pending)) ∧
    -- and it waits for room to log the pages of the cursors (R163)
    (s.arg 1 < 2 ^ 52 → s.leaving (s.arg 0) = false → (s.logCursors (s.arg 0)).2 = false → s.writeSave (s.arg 0) (s.arg 1) = .ok s1 →
      ∃ t te', exec (.migrateOut m 7) s = .next t ∧ t.tenant? (s.arg 0) = some te' ∧ te'.running = false ∧ .migrateOut m 7 ∈ te'.logWait ∧
        .dirtyLogFull (s.arg 0) ∈ t.pending ∧ t.mgmt.mres = s.mgmt.mres) ∧
    (2 ^ 52 ≤ s.arg 1 → Commands s (.migrateOut m 7) 3 0 (unchanged s)) ∧
    (s.arg 1 < 2 ^ 52 → s.leaving (s.arg 0) = false → (s.logCursors (s.arg 0)).2 = true → s.writeSave (s.arg 0) (s.arg 1) = .ok s1 →
      (s1.logCursors (s.arg 0)).2 = true →
      Commands s (.migrateOut m 7) 0 0 fun t => (∃ te', t.tenant? (s.arg 0) = some te' ∧ te'.migrated = true ∧ te'.running = false) ∧
        ∀ x ∈ s.sigWait, x.owner = s.arg 0 → .relay x.owner (.sigop x.owner x.op x.ref) ∈ t.out) ∧
    ((2 ^ 52 ≤ s.arg 1 ∨ ∃ e, s.readSave (s.arg 0) (s.arg 1) = .error e) → Commands s (.migrateIn m 8) 3 0 (unchanged s)) ∧
    (s.arg 1 < 2 ^ 52 → s.readSave (s.arg 0) (s.arg 1) = .ok s1 → te.running = false →
      (∀ u ∈ s.tenants, u.part = te.part → u.running = false ∧ u.phase = 0) → Commands s (.migrateIn m 8) 0 0 fun t => ∃ te', t.tenant? (s.arg 0) = some te' ∧ te'.migrated = false ∧ te'.running = true)) ∧
  (∀ (s : State) (m : Msg), s.covered m = true →
    (2 ^ 20 ≤ s.mgmt.leafIndex → Commands s (.attest m 9) 5 0 (unchanged s)) ∧
    (s.mgmt.leafIndex < 2 ^ 20 → Inv s → Commands s (.attest m 9) 0 0 fun t => t.mgmt.leafIndex = s.mgmt.leafIndex + 1 ∧
      (let b (k : Nat) : Byte := Memory.read t.mgmt.mailbox k
       (∀ k < 32, b k = Memory.read s.mgmt.mailbox k) ∧ (∀ k < 32, b (32 + k) = Config.firmwareDigest (s.mgmt.running.getD Config.factoryImage) k) ∧
       (∀ k < 8, b (64 + k) = BitVec.ofNat 8 (Config.fusedMinimum.toNat / 256 ^ k)) ∧
       (∀ k < 4, b (72 + k) = BitVec.ofNat 8 (s.partCfg / 256 ^ k)) ∧
       (∀ k < 4, b (76 + k) = BitVec.ofNat 8 (s.mgmt.leafIndex / 256 ^ k)) ∧
       ∀ k < 2820, b (80 + k) = Config.xmssByte (Memory.readN t.mgmt.mailbox 0 80) s.mgmt.leafIndex k))) ∧
  (∀ (s : State) (m : Msg) (pa n : Nat), s.covered m = true → pa = s.arg 0 → n = s.arg 1 →
    ((paBacked pa = false ∨ 0x2800000000 < pa % 2 ^ 38 + n ∨ Config.imageVerifies (s.hbmBytes 255 pa n) = false) →
      Commands s (.fwStage m 10) 3 0 (unchanged s)) ∧
    (paBacked pa = true → pa % 2 ^ 38 + n ≤ 0x2800000000 → Config.imageVerifies (s.hbmBytes 255 pa n) = true →
      Commands s (.fwStage m 10) 0 0 fun t => t.mgmt.staged = some (s.hbmBytes 255 pa n) ∧ SameMemory s t))

/-- Management commands (R31, R43, R51, R59, R60, R63, R65, R69, R70). Initial watermarks, the rebinding of a context, the layout
of the save area, the tenant index and the limits of an image's range are the model's choice (log entries 11, 39, 40, 87, 88),
the order of a command's checks its reading (58). -/
def Obligations.Management : Prop := refusals ∧ tenantRules ∧ bindingRules ∧ deviceRules

/-! ## Registers and page service -/

/-- Writes to the management registers: in range they take effect, otherwise only their error bit is set (R25, R26, R61,
R62, R120, R121, R20, R67, R68). -/
def registerRules : Prop :=
  (∀ (s : State) (m : Msg) (v : Word) (ok : Prop), Inv s →
    (ok ↔ 90 ≤ bitsOf v.toNat 0 9 ∧ bitsOf v.toNat 0 9 ≤ 280 ∧ bitsOf v.toNat 20 4 ≤ 5 ∧ bitsOf v.toNat 9 11 = 0 ∧ bitsOf v.toNat 24 7 = 0) →
    (¬ ok → ∃ t, exec (.pwrCtlWrite m v) s = .next t ∧ t.mgmt = { s.mgmt with pwrErr := true } ∧ t.dies = s.dies) ∧
    (ok → ∃ t, exec (.pwrCtlWrite m v) s = .next t ∧ t.mgmt.ceil.toNat = bitsOf v.toNat 0 9 ∧ t.mgmt.pmax.toNat = bitsOf v.toNat 20 4 ∧
      t.mgmt.pwrErr = (s.mgmt.pwrErr && !v.getLsbD 31) ∧
      ∀ d < 4, ∀ p, (s.die d).power = .on p → (s.die d).nextP = none → (s.die d).queuedP = none →
        (bitsOf v.toNat 20 4 ≤ p → t.die d = s.die d) ∧
        (p < bitsOf v.toNat 20 4 → (t.die d).power = .on (bitsOf v.toNat 20 4) ∧ (t.die d).nextP = some (bitsOf v.toNat 20 4) ∧
          (s.now + 2200, .pstateTransitionDone d) ∈ t.timers))) ∧
  (∀ (s : State) (m : Msg) (v : Word) pids, pids = [0, 1, 2, 3].map (fun d => bitsOf v.toNat (2 * d) 2) →
    ((partsOk pids = false ∨ bitsOf v.toNat 12 19 ≠ 0 ∨
        ∃ d < 4, nthD pids d 0 ≠ s.partOf d ∧ ∃ te ∈ s.tenants, s.ownerOn te d = true) →
      ∃ t, exec (.partCfgWrite m v) s = .next t ∧ t.mgmt = { s.mgmt with partErr := true }) ∧
    (partsOk pids = true → bitsOf v.toNat 12 19 = 0 → (∀ d < 4, nthD pids d 0 ≠ s.partOf d → ∀ te ∈ s.tenants, s.ownerOn te d = false) →
      ∃ t, exec (.partCfgWrite m v) s = .next t ∧ t.mgmt = { s.mgmt with pids := pids, partErr := s.mgmt.partErr && !v.getLsbD 31 } ∧
        ∀ k a b, linkDies k = [a, b] → t.firewall.getLsbD k = decide (t.partOf a ≠ t.partOf b))) ∧
  (∀ (s : State) (m : Msg) (v : Word) (ok : Prop), (ok ↔ 10 ≤ bitsOf v.toNat 0 14 ∧ bitsOf v.toNat 0 14 ≤ 10000 ∧
      1 ≤ bitsOf v.toNat 18 10 ∧ bitsOf v.toNat 18 10 ≤ 1000 ∧ bitsOf v.toNat 14 3 = 0 ∧ bitsOf v.toNat 28 3 = 0) →
    (¬ ok → ∃ t, exec (.rruCfgWrite m v) s = .next t ∧ t.mgmt = { s.mgmt with rruErr := true } ∧ t.crews = s.crews) ∧
    (ok → ∃ t, exec (.rruCfgWrite m v) s = .next t ∧
        t.mgmt = { s.mgmt with quant := bitsOf v.toNat 0 14, drain := bitsOf v.toNat 18 10, spen := v.getLsbD 17, rruErr := s.mgmt.rruErr && !v.getLsbD 31 } ∧
      (s.mgmt.spen = true → v.getLsbD 17 = false → ∀ c ∈ s.crews, s.crew? c.cid = some c → ∀ j w, c.weaves[j]? = some w → w.wait = .spin →
        ∃ w', t.weave? c.cid j = some w' ∧ w'.wait = .none ∧ w'.spin.count = 0))) ∧
  (∀ (s : State) (m : Msg) p split x, s.ports[p]? = some x → ∃ t, exec (.portConfigWrite m p split) s = .next t ∧
    t.ports[p]? = some ⟨x.up, if x.up then x.split else split, split⟩ ∧ ∀ k, k ≠ p → t.ports[k]? = s.ports[k]?) ∧
  (∀ (s : State) (m : Msg) (v : DWord),
    (∃ t, exec (.registerWrite m 0x108 v) s = .next t ∧ t.mgmt = { s.mgmt with preq := v.setWidth 4 } ∧
      ∀ d < 4, (s.mgmt.preq.getLsbD d = false → v.getLsbD d = true → .diePark d ∈ t.pending) ∧
        (s.mgmt.preq.getLsbD d = true → v.getLsbD d = false → .dieUnpark d ∈ t.pending)) ∧
    (∃ t, exec (.registerWrite m 0x408 v) s = .next t ∧ t.mgmt = { s.mgmt with ecb := { s.mgmt.ecb with eclr := v } } ∧
      .eclrWrite 255 ∈ t.pending) ∧
    (∃ t, exec (.registerWrite m 0x410 v) s = .next t ∧ t.mgmt = { s.mgmt with ecb := { s.mgmt.ecb with emask := v } }) ∧
    (∃ t, exec (.registerWrite m 0x418 v) s = .next t ∧ t.mgmt = { s.mgmt with ecb := { s.mgmt.ecb with esev := v } }) ∧
    (∃ t, exec (.registerWrite m 0x428 v) s = .next t ∧ t.mgmt = { s.mgmt with ecb := { s.mgmt.ecb with cons := v } })) ∧
  (∀ (s : State), s.tenant? 255 = none → exec (.eclrWrite 255) s = .next { s with mgmt := { s.mgmt with
    ecb := { s.mgmt.ecb with estat := s.mgmt.ecb.estat &&& ~~~ s.mgmt.ecb.eclr, eclr := 0 } } }) ∧
  (∀ (s : State) (te : Tenant) tag pa (stat clr : DWord), Inv s → noErrors s → s.tenant? tag = some te → te.ecb % 64 = 0 → te.ecb < 2 ^ 52 →
    Held s tag te.ecb 16 true → Held s tag te.ecb 16 false → s.devicePa tag te.ecb true = .ok pa →
    s.deviceWord tag te.ecb = .ok stat → s.deviceWord tag (te.ecb + 8) = .ok clr →
    ∃ t, exec (.eclrWrite tag) s = .next t ∧
      (∀ k < 8, t.locRead tag (.hbm (pa + k)) = BitVec.ofNat 8 ((stat &&& ~~~ clr).toNat / 256 ^ k)) ∧
      (∀ k < 8, t.locRead tag (.hbm (pa + 8 + k)) = 0) ∧
      ∀ a, (a < pa ∨ pa + 16 ≤ a) → t.locRead tag (.hbm a) = s.locRead tag (.hbm a))

/-- The words of the page-service block act when the host writes them; answers to page requests; the note of a full log
(R155, R157, R159 to R164). -/
def pageServiceRules : Prop :=
  (∀ (s : State) (m : Msg) (te : Tenant) o, s.covered m = true → s.tenant? o = some te →
    (∃ t te', exec (.givenWrite m o) s = .next t ∧ t.tenant? o = some te' ∧ te' = { te with given := s.psb o 5 } ∧ SameMemory s t) ∧
    (∃ t te', exec (.rqconsWrite m o) s = .next t ∧ t.tenant? o = some te' ∧ te' = { te with rqcons := s.psb o 3, ringWait := [] } ∧
      SameMemory s t ∧ (∀ i ∈ te.ringWait, i ∈ t.pending) ∧
      ∀ cid wx c w lane, s.crew? cid = some c → c.owner = o → s.weave? cid wx = some w → w.handler = some (.ringFull lane) →
        ∃ w', t.weave? cid wx = some w' ∧ w' = { w with handler := some (.resolve lane) }) ∧
    (∃ t te', exec (.dlconsWrite m o) s = .next t ∧ t.tenant? o = some te' ∧ te' = { te with dlcons := s.psb o 9, logWait := [] } ∧
      SameMemory s t ∧ (∀ i ∈ te.logWait, i ∈ t.pending) ∧
      ∀ cid wx c w, s.crew? cid = some c → c.owner = o → s.weave? cid wx = some w → w.wait = .dirtyLog →
        ∃ w', t.weave? cid wx = some w' ∧ w' = { w with wait := .none }) ∧
    (∃ t te', exec (.dlctlWrite m o) s = .next t ∧ t.tenant? o = some te' ∧ te'.dlctl = s.psb o 10 ∧ SameMemory s t ∧
      ((s.psb o 10).setWidth 32 = te.dlctl.setWidth 32 → te' = { te with dlctl := s.psb o 10 }) ∧
      ((s.psb o 10).setWidth 32 ≠ te.dlctl.setWidth 32 → (∀ l ∈ te'.logged, l = []) ∧
        ∀ d < 4, s.partOf d = te.part → d < te.gens.length → t.gen o d = s.gen o d + 1)) ∧
    ((s.psb o 11).setWidth 32 = te.tlbgen.setWidth 32 → exec (.tlbgenWrite m o) s = .next s) ∧
    ((s.psb o 11).setWidth 32 ≠ te.tlbgen.setWidth 32 → ∃ t te', exec (.tlbgenWrite m o) s = .next t ∧ t.tenant? o = some te' ∧
      te'.tlbgen = s.psb o 11 ∧ ∀ d < 4, s.partOf d = te.part → (∀ e ∈ (t.die d).tlb, e.owner ≠ o) ∧
        (∀ k < 256, k / 64 = d → ∀ e ∈ (t.core k).tlb, e.owner ≠ o) ∧ (d < te.gens.length → t.gen o d = s.gen o d + 1))) ∧
  (∀ (s : State) (m : Msg) (te : Tenant) o slot at_ (bs : List Byte), s.covered m = true → s.tenant? o = some te →
    at_ = ((s.psb o 0).toNat + 64 * slot) % 2 ^ 52 → s.deviceRead o at_ 64 = .ok bs →
    (let answer := natLE ((bs.drop 24).take 4)
     let gen := natLE ((bs.drop 28).take 4)
     let hit (r : PageReq) : Bool := r.live && r.slot == slot && r.gen.toNat == gen
     (te.reqs.find? hit = none → ∃ t te', exec (.pageRequestAnswer m o slot) s = .next t ∧ t.tenant? o = some te' ∧ te'.reqs = te.reqs ∧
       t.queues = s.queues) ∧
     (∀ r, te.reqs.find? hit = some r → answer = 1 → ∃ t te', exec (.pageRequestAnswer m o slot) s = .next t ∧ t.tenant? o = some te' ∧
       (∀ x ∈ te'.reqs, hit x = false) ∧ (∀ x ∈ r.others, x.1 ∈ t.pending) ∧
       ∀ cid wx w lane, (cid, wx) ∈ r.weaves → s.weave? cid wx = some w → w.handler = some (.pageWait lane) →
         ∃ w', t.weave? cid wx = some w' ∧ w'.handler = some (.resolve (lane + 1))) ∧
     (∀ r, te.reqs.find? hit = some r → answer = 0 → exec (.pageRequestAnswer m o slot) s = .next (s.markUsed o at_ 64)) ∧
     (∀ r, te.reqs.find? hit = some r → answer ≠ 0 → answer ≠ 1 → ((s.markUsed o at_ 64).severity o).getLsbD 3 = false →
       ∃ t te', exec (.pageRequestAnswer m o slot) s = .next t ∧ t.tenant? o = some te' ∧
       (∀ x ∈ te'.reqs, hit x = false) ∧ (∀ x ∈ r.others, x.2 ∈ t.pending) ∧
       ∀ cid wx w, (cid, wx) ∈ r.weaves → s.weave? cid wx = some w →
         ∃ w', t.weave? cid wx = some w' ∧ w'.handler = some .entered ∧ w'.hcause = 0x12))) ∧
  (∀ (s : State) (te : Tenant) (q : Queue) o, s.tenant? o = some te → s.queue? (bitsOf te.dlctl.toNat 32 10) = some q →
    exec (.dirtyLogFull o) s = .next { s with out := s.out ++ [.note q.ctx (bytesLE 8 (s.psb o 7).toNat ++ bytesLE 8 (s.psb o 8).toNat)] })

/-- Management registers, ports and the page-service block (R20, R25, R26, R61, R62, R67, R120, R121, R155 to R164). That a port's
mode comes from outside is the model's choice (log entry 65); that a faster die slows to PMAX at once (56), and that an answer
of 0 is none (75), is its reading. -/
def Obligations.Registers : Prop := registerRules ∧ pageServiceRules

/-! ## Power, links and errors -/

/-- Performance states, the ceiling and the thermal limits (R21 to R24). -/
def powerRules : Prop :=
  (∀ (s : State) xs, xs = (s.mgmt.samples ++ [s.env.watts]).drop (s.mgmt.samples.length + 1 - 100) → Inv s →
    ∃ t, exec .powerSample s = .next t ∧ t.mgmt.samples = xs ∧ (∃ n, (n, .powerSample) ∈ t.timers) ∧
      (xs.length = 100 → t.mgmt.avg = BitVec.ofNat 12 (min 4095 (xs.sum / 100))) ∧
      (∀ d < 4, (t.die d).hot = s.env.hotDies.contains d) ∧
      ((∀ w ws, s.env.predicted = w :: ws → w ≤ 5 * s.mgmt.ceil.toNat) → s.now < s.mgmt.lastLift + 1000000 →
        ∀ d < 4, (t.die d).power = (s.die d).power ∧ (t.die d).gate = (s.die d).gate) ∧
      (∀ w d p, s.env.predicted = [w] → 5 * s.mgmt.ceil.toNat < w → s.hottest.find? (fun d => (s.die d).target.getD 5 < 5) = some d →
        (s.die d).power = .on p → (s.die d).nextP = none → (s.die d).queuedP = none →
        (t.die d).power = .on (p + 1) ∧ (t.die d).nextP = some (p + 1) ∧ (s.now + 2200, .pstateTransitionDone d) ∈ t.timers)) ∧
  (∀ (s : State) d p q, d < s.dies.length → (s.die d).power = .on q → (s.die d).nextP = some p → (s.die d).queuedP = none →
    ∃ t, exec (.pstateTransitionDone d) s = .next t ∧ (t.die d).power = .on p ∧ (t.die d).nextP = none ∧
      ∀ e, e ≠ d → t.die e = s.die e) ∧
  (∀ (s : State) d p, Inv s → d < 4 → s.env.hotDies.contains d = true → (s.die d).power = .on p → (s.die d).nextP = none →
    (s.die d).queuedP = none → p < 5 → ∃ t, exec .thermalLimit s = .next t ∧ (t.die d).power = .on 5 ∧ (t.die d).nextP = some 5 ∧
      (t.die d).hot = true) ∧
  (∀ (s : State), ∃ t, exec .thermalShutdown s = .next t ∧ ∀ i, i ≠ .moduleReset → t.works i = false)

/-- A core of a die that has lost power: caches, TLB and queue are empty. -/
def coreEmpty (k : Core) : Prop := k.l1 = [] ∧ k.icache = [] ∧ k.tlb = [] ∧ k.accq = []

/-- A die parks once no crew holds it, its units go home to another, and it comes back at P5 (R27 to R29, R55). -/
def parkingRules : Prop :=
  ∀ (s : State) d, Inv s → d < 4 →
    (∀ p, (s.die d).power = .on p → ∃ t, exec (.diePark d) s = .next t ∧ (t.die d).power = .parking ∧ (t.die d).accepts = false ∧
      (∀ g ∈ t.gangRes, g.die ≠ d) ∧ .preemptionRequest (.forPark d) ∈ t.pending) ∧
    ((s.die d).power = .parking → (∀ c ∈ s.crews, ∀ k, c.holds? = some k → k / 64 ≠ d) →
      ∃ t, exec (.diePowerDown d) s = .next t ∧ (t.die d).power = .parked ∧ (∀ k < 256, k / 64 = d → coreEmpty (t.core k)) ∧
        (∀ e ∈ [(d + 1) % 4, (d + 2) % 4, (d + 3) % 4], s.partOf e = s.partOf d → (s.die e).power ≠ .parked →
          ∀ c ∈ t.crews, c.owner / 16 = s.partOf d → c.homeDie ≠ d) ∧
        (s.mgmt.preq.getLsbD d = false → .dieUnpark d ∈ t.pending)) ∧
    ((s.die d).power = .parking → (∃ c ∈ s.crews, ∃ k, c.holds? = some k ∧ k / 64 = d) →
      ∃ t, exec (.diePowerDown d) s = .next t ∧ t.dies = s.dies ∧ t.crews = s.crews ∧ .preemptionRequest (.forPark d) ∈ t.pending) ∧
    ((s.die d).power = .parked → ∃ t, exec (.dieUnpark d) s = .next t ∧ (t.die d).power = .unparking ∧
      (s.now + 200000, .unparkComplete d) ∈ t.timers ∧
      ∀ leaf < 32, t.links[leaf]? = if leaf / 8 = d then some CmdLink.reset else s.links[leaf]?) ∧
    ((s.die d).power = .unparking → ∃ t, exec (.unparkComplete d) s = .next t ∧ (t.die d).power = .on 5 ∧ (t.die d).accepts = true ∧
      .unitPlacement d ∈ t.pending ∧ (s.mgmt.preq.getLsbD d = true → .diePark d ∈ t.pending) ∧
      ((∀ e < 4, e ≠ d → s.partOf e = s.partOf d → (s.die e).power = .parked ∨ (s.die e).power = .unparking) →
        ∀ c ∈ t.crews, c.owner / 16 = s.partOf d → ∀ e < 4, e ≠ d → s.partOf e = s.partOf d → (s.die e).power = .parked → c.homeDie ≠ e))

/-- Welt links and ports (R14, R20). -/
def linkRules : Prop :=
  (∀ (s : State) k l, s.env.badLink = k → s.welt[k]? = some l → l.state = .up →
    ∃ t l', exec .flitCrcFail s = .next t ∧ t.welt[k]? = some l' ∧ l'.state = .up ∧
      l'.fails = (if s.env.passed then 1 else l.fails + 1) ∧ (64 ≤ l'.fails → .linkRetrain k ∈ t.pending) ∧
      (l'.fails < 64 → t.pending = s.pending)) ∧
  (∀ (s : State) k l, s.welt[k]? = some l →
    (l.state = .up → ∃ t, exec (.linkRetrain k) s = .next t ∧ t.welt[k]? = some { l with state := .retraining }) ∧
    (l.state = .retraining → (∃ t, exec (.linkRetrainComplete k) s = .next t ∧ t.welt[k]? = some ⟨.up, 0⟩) ∧
      ∃ t l', exec (.linkFatal k) s = .next t ∧ t.welt[k]? = some l' ∧ l'.state = .dead) ∧
    (l.state = .dead → exec (.linkRetrain k) s = .next s ∧ exec (.linkRetrainComplete k) s = .next s ∧ exec (.linkFatal k) s = .next s)) ∧
  (∀ (s : State) p x, s.ports[p]? = some x →
    (∃ t, exec (.portLinkUp p) s = .next t ∧ t.ports[p]? = some ⟨true, x.cfgSplit, x.cfgSplit⟩) ∧
    ∃ t, exec (.portLinkDown p) s = .next t ∧ t.ports[p]? = some ⟨false, x.split, x.cfgSplit⟩)

/-- Errors in memory, and module reset (R18, R69, R235, R242). -/
def errorRules : Prop :=
  (∀ (s : State), ∃ t, exec .patrolScrub s = .next t ∧ (∃ n, (n, .patrolScrub) ∈ t.timers) ∧
    (s.env.sites ≠ [] → .memoryUe ∈ t.pending) ∧
    t.env.soft = [] ∧ ∀ k n, k < 8 → s.stackErrs[k]? = some n → t.stackErrs[k]? = some (n + nthD s.env.corrected k 0)) ∧
  (∀ (s : State) x xs, s.env.sites = x :: xs → ∃ t, exec .memoryUe s = .next t ∧ t.env.sites = xs ∧
    (xs ≠ [] → .memoryUe ∈ t.pending) ∧
    (∀ pa, x = .hbm pa → assocGet s.keyTags (pa / 256) = none → s.tenant? 255 = none →
      pa / 32 * 32 ∈ t.ueHbm ∧ ∀ n, 0 < n → (∃ k < 32, pa / 32 * 32 + k < pa + n ∧ pa ≤ pa / 32 * 32 + k) → t.hbmUe pa n = true) ∧
    (∀ k n, x = .l1 k n → ∀ l ∈ (t.core k).l1, l.line ≠ n) ∧
    (∀ k n, x = .icache k n → ∀ l ∈ (t.core k).icache, l.line ≠ n) ∧
    (∀ k o v, x = .tlb k o v → ∀ e ∈ (t.core k).tlb, e.owner = o → e.page ≠ v * 2 ^ 16) ∧
    (∀ d o v, x = .dieTlb d o v → ∀ e ∈ (t.die d).tlb, e.owner = o → e.page ≠ v * 2 ^ 16) ∧
    (∀ cid c, x = .stash cid → s.crew? cid = some c → c.core? = none → (s.severity c.owner).getLsbD 4 = false →
      ∃ c', t.crew? cid = some c' ∧ c'.imageBad = true) ∧
    (∀ cid th bank c tb, x = .tableRam cid th bank → s.crew? cid = some c → c.tables[th]? = some tb → tb.state = .valid →
      (s.severity c.owner).getLsbD 4 = false → ∃ c' tb', t.crew? cid = some c' ∧ c'.tables[th]? = some tb' ∧
        tb' = { tb with state := .discarded }) ∧
    (∀ core kind bank, x = .emptyCore core kind bank → core < s.cores.length → (∀ c ∈ s.crews, c.holds? ≠ some core) →
      (kind, bank) ∈ (t.core core).out ∧ ((kind, bank) ∈ (s.core core).out → (s.core core).repairs = [] → s.tenant? 255 = none → t.cores = s.cores)) ∧
    (∀ cid wx bank c w, x = .registerFile cid wx bank → s.crew? cid = some c → s.weave? cid wx = some w → w.pend = none →
      (s.severity c.owner).getLsbD 4 = false → ∃ w', t.weave? cid wx = some w' ∧
        w'.pend = some ⟨.memoryUe, true, w.pc, w.exec, []⟩ ∧ .deferredTrap cid wx ∈ t.pending)) ∧
  (∀ (s : State) image ok, image = (if s.mgmt.staged.isSome then s.mgmt.staged else s.mgmt.running) →
    ok = Config.imageVerifies (image.getD Config.factoryImage) →
    ∃ t, exec .moduleReset s = .next t ∧ t.mgmt.recovery = !ok ∧ t.mgmt.running = image ∧ t.mgmt.staged = none ∧
      (ok = false → t.mgmt.ecb.estat.getLsbD 9 = true) ∧ t.mgmt.leafIndex = s.mgmt.leafIndex ∧ t.hbm = s.hbm ∧ t.tenants = [] ∧ t.queues = [] ∧ t.crews = [] ∧ t.launches = [] ∧
      t.bdir = [] ∧ t.graphs = [] ∧ t.copies = [] ∧ t.pending = [] ∧ t.ctxs = [Ctx.management] ∧ t.mgmt.pids = [0, 0, 0, 0] ∧
      t.mgmt.ceil = 250 ∧ t.mgmt.pmax = 0 ∧ t.mgmt.drain = 20 ∧ t.mgmt.spen = true ∧ t.mgmt.quant = 100 ∧ t.mgmt.shutdown = false)

/-- Power, links, ports, errors and reset (R14, R18, R20 to R29, R55, R69, R235, R242). What a sensor reads comes from the
environment in State (log entry 4); that a module reset keeps HBM (62) and which lanes an error in the register file names (61) are its reading;
power predictions (55), the traffic of a dead link (79), the order of the measures (82) and what a shutdown reports and stops
(37) are its choice. -/
def Obligations.Platform : Prop := powerRules ∧ parkingRules ∧ linkRules ∧ errorRules

/-! ## Placement and residency -/

/-- Units wait in order of priority, start and unit; a unit goes to the core of its die with the most free weave slots that
has room; the first that can be placed is (R92 to R96, R124, R242). -/
def placementRules : Prop :=
  (∀ (s : State) d, (s.waiting d).Pairwise fun a b => b.prio < a.prio ∨ (a.prio = b.prio ∧ (a.seq < b.seq ∨ (a.seq = b.seq ∧
    (a.l.lid < b.l.lid ∨ (a.l.lid = b.l.lid ∧ a.unit ≤ b.unit)))))) ∧
  (∀ (s : State) res d need k, s.bestCore res d need = some k → k / 64 = d ∧ need.fits (s.roomLeft res k) = true ∧
    ∀ k' ∈ s.openCores d, need.fits (s.roomLeft res k') = true →
      (s.roomLeft res k').slots < (s.roomLeft res k).slots ∨ ((s.roomLeft res k').slots = (s.roomLeft res k).slots ∧ k ≤ k')) ∧
  (∀ (s : State) d x core u, s.reserveLaunches.firstAct d = some (.plain x core) → x.what = .unit u →
    s.reserveLaunches.launch? x.l.lid = some x.l → ∃ t c l', exec (.unitPlacement d) s = .next t ∧ c ∈ t.crews ∧ c.cid = s.ids ∧ c.lid = x.l.lid ∧ c.unit = u ∧ c.owner = x.l.owner ∧
      c.place = .resident core ∧ c.homeDie = d ∧ c.cont = false ∧ c.scratch = [] ∧ c.weaves.length = (x.l.lrec.threads + 31) / 32 ∧
      (∀ (j : Nat) (w : Weave), c.weaves[j]? = some w → w.mode = .user ∧ w.toks = [] ∧ w.exited = 0 ∧
        w.pc = BitVec.ofNat 52 (if x.l.lrec.split = true ∧ j < x.l.lrec.pweaves then x.l.lrec.entry1 else x.l.lrec.entry0) ∧
        w.v.length = (if x.l.lrec.split = true ∧ j < x.l.lrec.pweaves then x.l.lrec.regs1 else x.l.lrec.regs0) ∧
        w.g.length = x.l.lrec.gregs ∧ ∀ k < 32, w.exec.getLsbD k = decide (32 * j + k < x.l.lrec.threads)) ∧
      t.launch? x.l.lid = some l' ∧ l'.outstanding = x.l.outstanding + 1 ∧ l'.unplaced = removeUnit u x.l.unplaced ∧
      .unitPlacement d ∈ t.pending ∧ SameMemory s { t with crews := s.crews }) ∧
  (∀ (u v : Nat) (xs : List (Nat × Nat)), (∃ x ∈ removeUnit u xs, x.1 ≤ v ∧ v < x.2) ↔ v ≠ u ∧ ∃ x ∈ xs, x.1 ≤ v ∧ v < x.2) ∧
  (∀ (s : State) d x cores u b, s.firstAct d = some (.gang x cores) → x.what = .unit u → x.unit = u → s.freeBlock d = some b →
    s.launch? x.l.lid = some x.l → ∃ t l', exec (.gangPlacement d) s = .next t ∧
      (∀ (j : Nat) (core : Nat), cores[j]? = some core → ∃ c ∈ t.crews, c.lid = x.l.lid ∧ c.unit = u ∧ c.member = j ∧ c.place = .resident core) ∧
      (∀ n < 16, ∃ r ∈ t.bdir, r.num = d * 16384 + 16 * b + n ∧ r.scope = 1 ∧ r.index = n ∧ r.launch = x.l.lid ∧ r.unit = u ∧ r.gen = 0 ∧
        r.arrived = 0 ∧ r.expect = x.l.members ∧ r.own = x.l.owner) ∧
      t.launch? x.l.lid = some l' ∧ l'.outstanding = x.l.outstanding + 1) ∧
  (∀ (s : State) d, s.firstAct d = some .reserve → ∃ t, exec (.gangPlacement d) s = .next t ∧
    t.gangRes = (s.gangRes.filter fun g => g.die != d) ++ s.gangShares d (s.waiting d) ∧ t.crews = s.crews)

/-- What a save keeps of a weave that runs in user mode: everything but its fetch buffer, its `YLD` and a wait for a walk,
a publish or a full log, which it does again (R113, R114, R234). -/
structure SavedWeave (w w' : Weave) : Prop where
  same : SameContext w w'
  masks : w'.pc = w.pc ∧ w'.exec = w.exec ∧ w'.helper = w.helper ∧ w'.h = w.h ∧ w'.hg = w.hg ∧ w'.mode = .user
  waits : (∀ n, w.wait = .enq n → w'.wait = .enq n) ∧ (∀ r, w.wait = .signal r → w'.wait = .signal r) ∧ (∀ es, w.wait = .emit es → w'.wait = .emit es)

/-- Rotation, saves and restores (R106, R111 to R115, R234, R236). -/
def residencyRules : Prop :=
  (∀ (s : State) d (x : Item) xs v vs hbm, d < s.dies.length → s.pre = [] → (∀ e < 4, e ≠ d → (s.die e).accepts = false) → d < 4 →
    (s.die d).accepts = true → (s.die d).save = none → s.dropImpossible d = s → s.firstAct d = none →
    (s.waiting d).filter (fun x => s.canRestore d x || s.limitReached x.l) = x :: xs → s.firstTier d x = true → s.victimsFor d x = v :: vs →
    (s.die d).stashFor (s.imageSize (s.unitCids v)) = some hbm →
    (∀ c ∈ s.crews, ∀ w ∈ c.weaves, w.handler = none) →
    ∃ t, exec .slotNeeded s = .next t ∧ (t.die d).save = some ⟨s.unitCids v, s.now, false, some (x.l.lid, x.what), vs.map s.unitCids⟩ ∧
      (∀ cid ∈ s.unitCids v, ∀ c k, s.crew? cid = some c → c.place = .resident k → ∃ c', t.crew? cid = some c' ∧ c' = { c with place := .saving k }) ∧
      (∃ n, (n, .saveComplete d) ∈ t.timers)) ∧
  (∀ (s : State) d cid c began forced inc hbm, d < s.dies.length → (s.die d).save = some ⟨[cid], began, forced, inc, []⟩ → s.pre = [] →
    s.crew? cid = some c → c.inGang = false → (∀ x ∈ s.crews, x.cid = cid → x.imageBad = false) → s.inFlight cid = false → (s.die d).stashFor c.imageBytes = some hbm →
    (∀ w ∈ c.weaves, w.mode = .super → w.pendReady = false) → ((s.saved d [cid] hbm).reserveShares d).bringIn d inc = none →
    ∃ t c', exec (.saveComplete d) s = .next t ∧ (t.die d).save = none ∧ t.crew? cid = some c' ∧ c'.place = .stashed d hbm ∧
      c'.scratch = c.scratch ∧ c'.tiles = c.tiles ∧ c'.pds = c.pds ∧ c'.tickets = c.tickets ∧ c'.lo = c.lo ∧ c'.hi = c.hi ∧
      (∀ (k : Nat) (tb : Tbl), c.tables[k]? = some tb → tb.state = .valid → ∃ tb', c'.tables[k]? = some tb' ∧ tb'.state = .discarded) ∧
      (∀ (j : Nat) (w : Weave), c.weaves[j]? = some w → w.mode = .user → ∃ w', c'.weaves[j]? = some w' ∧ SavedWeave w w') ∧
      (if hbm then (t.die d).hbmStashBytes = (s.die d).hbmStashBytes + c.imageBytes
       else (t.die d).stashBytes = (s.die d).stashBytes + c.imageBytes)) ∧
  (∀ (s : State) d cids c began forced inc rest hbm x core, (s.die d).save = some ⟨cids, began, forced, inc, rest⟩ →
    cids.head?.bind s.crew? = some c → (∀ y ∈ s.crews, y.cid ∈ cids → y.imageBad = false) → (∀ cid ∈ cids, s.inFlight cid = false) → (s.die d).stashFor (s.imageSize cids) = some hbm →
    ((s.saved d cids hbm).reserveShares d).bringIn d inc = some (x, core) →
    ∃ t, exec (.saveComplete d) s = .next t ∧
      (∀ u, x.what = .unit u → ∃ c' ∈ t.crews, c'.lid = x.l.lid ∧ c'.unit = u ∧ c'.place = .resident core) ∧
      (∀ cid, x.what = .back [cid] → ∀ c', (s.saved d cids hbm).crew? cid = some c' → ∃ c'', t.crew? cid = some c'' ∧
        c''.place = .restoring core)) ∧
  (∀ (s : State) d j cid, (s.die d).save = some j → cid ∈ j.cids → s.inFlight cid = true →
    exec (.saveComplete d) s = .next (s.post (.saveComplete d))) ∧
  (∀ (s : State) d cid c w began forced hbm, d < s.dies.length → (s.die d).save = some ⟨[cid], began, forced, none, []⟩ → s.pre = [] →
    s.crew? cid = some c → c.inGang = false → (∀ x ∈ s.crews, x.cid = cid → x.imageBad = false) → s.inFlight cid = false →
    (s.die d).stashFor c.imageBytes = some hbm → c.weaves = [w] → w.mode = .super → w.pendReady = true → s.tenant? c.owner = none →
    ∃ t c' w', exec (.saveComplete d) s = .next t ∧ t.crew? cid = some c' ∧ c'.place = .stashed d hbm ∧ c'.weaves = [w'] ∧
      w'.handler = some .ended ∧ w'.pend = none ∧ .commandLinkMessage c.leaf false ∈ t.pending) ∧
  (∀ (s : State) d cid c q i la began forced inc rest, d < s.dies.length → (s.die d).save = some ⟨[cid], began, forced, inc, rest⟩ →
    s.crew? cid = some c → s.inFlight cid = false → (c.imageBad = true ∨ (s.die d).stashFor (s.imageSize [cid]) = none) →
    s.tenant? c.owner = none → s.launch? c.lid = some la → la.kind = .packet q i → la.ended = false → la.firstErr = none →
    ∃ t la', exec (.saveComplete d) s = .next t ∧ (t.die d).save = none ∧ t.launch? c.lid = some la' ∧ la'.ended = true ∧
      la'.firstErr = some .preemptSaveFailed ∧ ∀ x ∈ t.crews, x.lid ≠ c.lid) ∧
  (∀ (s : State) d cid c core began forced, d < s.dies.length → (s.die d).restore = some ⟨[cid], began, forced, none, []⟩ → s.crews = [c] →
    c.cid = cid → c.place = .restoring core → c.inGang = false → c.imageBad = false → (∀ w ∈ c.weaves, w.haltsScope = false) →
    ∃ t c', exec (.restoreComplete d) s = .next t ∧ (t.die d).restore = none ∧ t.crew? cid = some c' ∧ c'.place = .resident core ∧
      c'.scratch = c.scratch ∧ c'.tables = c.tables ∧ c'.tiles = c.tiles ∧
      (∀ (j : Nat) (w : Weave), c.weaves[j]? = some w → w.wait = .none → ∃ w', c'.weaves[j]? = some w' ∧ SameContext { w with b := w'.b } w' ∧
        w'.pc = w.pc ∧ w'.exec = w.exec ∧ w'.mode = w.mode ∧ ∀ b ∈ w'.b, b.bv = false))

/-- Pre-emption: the drain window, then every remaining target is saved (R119, R382). -/
def preemptionRules : Prop :=
  (∀ (s : State) why, (∀ p ∈ s.pre, p.why ≠ why ∧ p.id ≤ s.ids) → s.preTargets why ≠ [] → (∀ d l u, why ≠ .forUnit d l u) →
    ∃ t p, exec (.preemptionRequest why) s = .next t ∧ p ∈ t.pre ∧ p.id = s.ids + 1 ∧ p.why = why ∧ p.saving = false ∧
      (s.now + s.mgmt.drain * 1000, .drainExpiry (s.ids + 1)) ∈ t.timers) ∧
  (∀ (s : State) p, p ∈ s.pre → p.targets ≠ [] → exec (.preemptionRequest p.why) s = .next s) ∧
  (∀ (s : State) owner, (∀ p ∈ s.pre, p.why ≠ .forSwitch owner) → (∀ c ∈ s.crews, c.owner = owner → c.holds? = none) →
    ∃ t, exec (.preemptionRequest (.forSwitch owner)) s = .next t ∧ .tenantSwitch ∈ t.pending ∧ t.crews = s.crews) ∧
  (∀ (s : State) p, s.pre = [p] → s.passed p = true → p.saving = false → ∃ t, exec (.drainExpiry p.id) s = .next t ∧ t.pre = [] ∧
    t.crews = s.crews) ∧
  (∀ (s : State) p d, s.pre = [p] → s.passed p = false → s.placeFirst p.id = some d →
    exec (.drainExpiry p.id) s = .next ((s.postOnce (.unitPlacement d)).post (.drainExpiry p.id))) ∧
  (∀ (s : State) p c k hbm, s.pre = [p] → s.passed p = false → s.placeFirst p.id = none → p.targets = [c.cid] → s.crew? c.cid = some c → c.inGang = false → c.place = .resident k →
    k / 64 < s.dies.length → k < 256 → (s.die (k / 64)).save = none → (s.die (k / 64)).stashFor c.imageBytes = some hbm →
    (∀ w ∈ c.weaves, w.handler = none) →
    ∃ t c', exec (.drainExpiry p.id) s = .next t ∧ (t.die (k / 64)).save = some ⟨[c.cid], s.now, true, none, []⟩ ∧ t.crew? c.cid = some c' ∧
      c' = { c with place := .saving k } ∧ ∀ q ∈ t.pre, q.saving = true)

/-- Placement, residency and pre-emption (R92 to R96, R106, R111 to R115, R119, R124, R234, R236, R242, R382). Which gangs reserve
(log entry 43) and that the unit a save was made for comes first (73) is the model's reading; what a gang keeps where no
whole member fits (91), that a gang `RESLIM` holds back reserves nothing (102) and how a gang counts as a candidate (104) are
its choice. -/
def Obligations.Residency : Prop := placementRules ∧ residencyRules ∧ preemptionRules

/-! ## Scevar and tenants -/

/-- Command links (R53 to R55): a permit returns with each message taken, one whose number has been accepted does nothing. -/
def commandLinks : Prop :=
  (∀ (s : State) leaf l n m ms, s.links[leaf]? = some l → l.up.wire = (n, m) :: ms → (∀ a, l.up.accepted = some a → a < n) →
    (∀ x, m ≠ .resync x) → l.up.queue = [] →
    ∃ t l', exec (.commandLinkMessage leaf false) s = .next t ∧ t.links[leaf]? = some l' ∧ l'.up.accepted = some n ∧
      l'.up.permits = l.up.permits + 1 ∧ l'.up.wire = ms ∧ (∀ x ∈ l'.up.sent, n < x.1) ∧
      (∀ lid u la, m = .crewDone lid u → s.launch? lid = some la → ∃ la', t.launch? lid = some la' ∧ la'.outstanding = la.outstanding - 1 ∧
        (la.outstanding ≤ 1 → la.ended = false → la.unplaced = [] → la.bins = [] → (∀ c ∈ s.copies, c.lid ≠ some lid) → s.colls = [] →
          ∀ q i, la.kind = .packet q i → la'.ended = true ∧ .packetCompletion q i none 0 ∈ t.pending)) ∧
      (∀ lid c la q i, m = .endCause lid c → s.launch? lid = some la → la.kind = .packet q i → la.ended = false → la.posted = false →
        la.firstErr = none → ∃ la', t.launch? lid = some la' ∧
        la'.ended = true ∧ la'.firstErr = some c ∧ la'.unplaced = [] ∧ (∀ x ∈ t.crews, x.lid ≠ lid) ∧
        (s.engineBusy lid = false → .packetCompletion q i (some c) 0 ∈ t.pending))) ∧
  (∀ (s : State) leaf l n m ms a, s.links[leaf]? = some l → l.up.wire = (n, m) :: ms → l.up.accepted = some a → n ≤ a → l.up.queue = [] →
    ∃ t l', exec (.commandLinkMessage leaf false) s = .next t ∧ t.links[leaf]? = some l' ∧ l'.up.wire = ms ∧
      l'.up.permits = l.up.permits + 1 ∧ t.launches = s.launches ∧ t.crews = s.crews)

/-- What a transaction of the log has come to. -/
def committed (log : List LogRec) (tx : Nat) : Prop := ∃ r ∈ log, r.txid = tx ∧ r.type = .commit

/-- Every byte reads as before outside the ring of Scevar's log, whose place is the model's choice (R56; log entry 107). -/
def SameOutsideLog (s t : State) : Prop :=
  ∀ o l, (∀ pa, l = .hbm pa → pa < Config.logBase ∨ Config.logBase + 2 ^ 22 ≤ pa) → t.locRead o l = s.locRead o l

/-- Scevar's checkpoints and restarts (R56 to R58). A recovery reads the records that HBM still holds as they were written. -/
def scevarRules : Prop :=
  (∀ (s : State), (∀ x ∈ s.scv.log, 0 < x.lsn ∧ x.lsn ≤ s.scv.lsn) → ∃ t, exec .checkpoint s = .next t ∧ t.scv.lsn = s.scv.lsn + 1 ∧ t.scv.objs = s.scv.objs ∧
    (∃ r ∈ t.scv.log, r.type = .checkpoint ∧ r.lsn = s.scv.lsn + 1) ∧ (∃ n, (n, .checkpoint) ∈ t.timers) ∧
    (∀ r ∈ s.scv.log, r.type = .begin → r.txid ∈ openTx s.scv.log →
      s.scv.log.Pairwise (fun a b => a.lsn < b.lsn) → r ∈ t.scv.log)) ∧
  (∀ (s : State) rec, s.mgmt.ftl = false → rec = (s.scv.recent.filter fun x => s.now < x + 1000000000) ++ [s.now] →
    (3 ≤ rec.length → ∃ t, exec .scevarRestart s = .next t ∧ t.mgmt.ftl = true ∧
      t.mgmt.restarts = min 0xFFFF (s.mgmt.restarts + 1) ∧ ∀ i, scevarEvent i = true → i ≠ .moduleReset → t.works i = false) ∧
    (rec.length < 3 → ∃ t, exec .scevarRestart s = .next t ∧ t.mgmt.ftl = false ∧ t.scv.recent = rec ∧
      t.mgmt.restarts = min 0xFFFF (s.mgmt.restarts + 1) ∧ t.scv.objs = (s.scv.recover s.holdsRecord).objs ∧ t.scv.hung = false ∧
      (∀ i ∈ s.scv.again s.holdsRecord, i ∈ t.pending) ∧ t.crews = s.crews ∧ SameOutsideLog s t)) ∧
  (∀ (s : State), s.mgmt.ftl = true → exec .scevarRestart s = .next s) ∧
  (∀ (v : Scevar) (ok : LogRec → Bool) obj,
    (let rs := v.scan ok
     let ups := rs.filter fun r => r.type == .update && r.obj == obj
     ((∀ r ∈ rs, r.type = .update → r.obj = obj → committed rs r.txid) →
       (∀ r, ups.getLast? = some r → assocGet (v.recover ok).objs obj = some r.after) ∧
       (ups = [] → assocGet (v.recover ok).objs obj = assocGet v.objs obj)) ∧
     ∀ r, ups = [r] → r.txid ∈ openTx rs → assocGet (v.recover ok).objs obj = some r.before)) ∧
  -- a record that HBM holds no longer ends the log
  (∀ (v : Scevar) (ok : LogRec → Bool), (∀ r ∈ v.scan ok, ok r = true ∧ r ∈ v.log)) ∧
  (∀ (s : State) (r : LogRec), s.holdsRecord r = true ↔ r.crcOk = true ∧ s.hbmUe r.pa 64 = false ∧ s.hbmBytes 255 r.pa 64 = r.bytes)

/-- A step that changes Scevar's state is a transaction: a BEGIN, an UPDATE for each object, a COMMIT. When Scevar stops amid
one, it has no COMMIT, nothing of the step is seen outside the log, a command comes again only by recovery, what comes for
Scevar waits, and the watchdog restarts it in 50 ms (R56 to R58). -/
def transactionRules : Prop :=
  (∀ (s t : State) i xs, xs = changedObjects s.scvObjects t.scvObjects → xs ≠ [] → i ≠ .moduleReset → s.scv.hang = none → t.scv = s.scv →
    ∃ u, s.logStep i t = u ∧ (∀ r ∈ s.scv.log, r ∈ u.scv.log) ∧ committed u.scv.log (s.scv.txid + 1) ∧
      (∃ r ∈ u.scv.log, r.lsn = s.scv.lsn + 1 ∧ r.txid = s.scv.txid + 1 ∧ r.type = .begin ∧
        ∀ m w, commandOf i = some (m, w) → r.obj = w.toNat ∧ r.cmd = some i) ∧
      (∀ x ∈ xs, ∃ r ∈ u.scv.log, r.txid = s.scv.txid + 1 ∧ r.type = .update ∧ r.obj = x.1 ∧ r.before = x.2.1 ∧ r.after = x.2.2) ∧
      u.queues = t.queues ∧ u.ctxs = t.ctxs ∧ u.tenants = t.tenants ∧ u.crews = t.crews ∧ SameOutsideLog t u ∧
      -- the records stand in HBM, for the management owner
      ((∀ r ∈ s.scv.log, r.lsn ≤ s.scv.lsn) → xs.length < 65000 → ∀ r ∈ u.scv.log, s.scv.lsn < r.lsn →
        u.hbmBytes 255 (Config.logBase + r.lsn % 65536 * 64) 64 = r.bytes ∧ u.holdsRecord r = true)) ∧
  (∀ (s t : State) i n, changedObjects s.scvObjects t.scvObjects ≠ [] → scevarEvent i = true → s.scv.hang = some n →
    (∀ r ∈ s.scv.log, r.txid ≤ s.scv.txid) →
    ∃ u, s.logStep i t = u ∧ u.scv.hung = true ∧ (s.now + 50000000, .scevarRestart) ∈ u.timers ∧
      ¬ committed u.scv.log (s.scv.txid + 1) ∧ (∃ r ∈ u.scv.log, r.txid = s.scv.txid + 1 ∧ r.type = .begin) ∧
      u.queues = s.queues ∧ u.ctxs = s.ctxs ∧ u.tenants = s.tenants ∧ u.crews = s.crews ∧ SameOutsideLog s u ∧
      ((commandOf i).isSome = false → i ∈ u.pending)) ∧
  (∀ (s : State) ts k i, s.agenda = .event k :: ts → s.pending[k]? = some i → isEvent i = true → s.works i = true →
    s.scv.hung = true → scevarEvent i = true → i ≠ .scevarRestart →
    ∃ t, step s = .next t ∧ i ∈ t.pending ∧ t.queues = s.queues ∧ t.ctxs = s.ctxs ∧ t.crews = s.crews ∧ SameMemory s t)

/-- A partition serves one tenant at a time, in turn, one step of a switch at a time (R64). -/
def switchRules : Prop :=
  (∀ (s : State) part te, (∀ p < 4, p ≠ part → ∀ u ∈ s.tenants, u.tag / 16 ≠ p) → part < 4 → s.tenant? te.tag = some te → te.tag / 16 = part →
    te.running = true → (∀ u ∈ s.tenants, u.running = true → u.tag = te.tag) →
    (s.now < te.sliceEnd → exec .tenantSwitch s = .next s) ∧
    (te.sliceEnd ≤ s.now → (∃ u ∈ s.tenants, s.tenant? u.tag = some u ∧ u.tag / 16 = part ∧ u.tag ≠ te.tag ∧ s.tenantReady u = true) →
      ∃ t te', exec .tenantSwitch s = .next t ∧ t.tenant? te.tag = some te' ∧ te'.running = false ∧ te'.phase = 1 ∧
        .preemptionRequest (.forSwitch te.tag) ∈ t.pending ∧
        ((∀ c ∈ s.copies, c.owner ≠ te.tag) → te' = { te with running := false, phase := 1 })) ∧
    (te.sliceEnd ≤ s.now → (∀ u ∈ s.tenants, u.tag ≠ te.tag → s.tenantReady u = false) →
      ∃ t te', exec .tenantSwitch s = .next t ∧ t.tenant? te.tag = some te' ∧ te' = { te with sliceEnd := s.now + te.slice * 1000 } ∧
        (s.now + te.slice * 1000, .tenantSwitch) ∈ t.timers)) ∧
  (∀ (s : State) te, s.tenants = [te] → te.tag < 64 → te.running = false → te.migrated = false → s.holdsCores te.tag = false →
    ∃ t te', exec .tenantSwitch s = .next t ∧ t.tenant? te.tag = some te' ∧ .tenantSwitch ∈ t.pending ∧
      -- step 2 is over: the crews have left their cores
      (te.sliceEnd ≠ 0 → te.phase = 1 → te' = { te with phase := 2 }) ∧
      -- step 3, once the pages of the cursors are logged
      (te.sliceEnd ≠ 0 → te.phase ≠ 1 → te.phase ≠ 3 → te.phase ≠ 5 → te'.running = false ∧
        ((s.logCursors te.tag).2 = true → te'.phase = 3 ∧ ∀ r ∈ t.waits, r.owner = te.tag → r.who = .peer) ∧
        ((s.logCursors te.tag).2 = false → te'.phase = te.phase ∧ .tenantSwitch ∈ te'.logWait ∧ .dirtyLogFull te.tag ∈ t.pending)) ∧
      -- step 4
      (te.phase = 3 → te' = { te with sliceEnd := 0, phase := 4 } ∧
        (∀ d ∈ t.dies, ∀ e ∈ d.tlb, e.owner ≠ te.tag) ∧
        ∀ k ∈ t.cores, (∀ e ∈ k.tlb, e.owner ≠ te.tag) ∧ (∀ l ∈ k.l1, l.owner ≠ te.tag) ∧ ∀ l ∈ k.icache, l.owner ≠ te.tag) ∧
      -- steps 5 and 6
      (te.phase ≠ 3 → te.phase ≠ 5 → te.sliceEnd = 0 → te'.running = false ∧ te'.phase = 5) ∧
      (te.phase = 5 → te'.running = true ∧ te'.phase = 0 ∧ te'.sliceEnd = s.now + te.slice * 1000 ∧
        (s.now + te.slice * 1000, .tenantSwitch) ∈ t.timers))

/-- Command links, Scevar's log and tenant switches (R53 to R58, R64). The objects that the log names and its place are the model's
choice (log entries 9, 107); which tenants are ready is its reading (57). -/
def Obligations.Scevar : Prop := commandLinks ∧ scevarRules ∧ transactionRules ∧ switchRules

/-! ## Deferred traps and debug halts -/

/-- A deferred trap is taken at the boundary and abandons the wait; a debug halt is over when the debugger's signal is at 0,
and its launch when it is negative (R225 to R227, R245, R246). -/
def lateTraps : Prop :=
  (∀ (s : State) (cid wx : Nat) (c : Crew) (w : Weave) (p : Pending) k, s.crew? cid = some c → s.weave? cid wx = some w →
    c.place = .resident k → w.mode = .user → w.pend = some p → w.extra = [] → p.cause ≠ .debugHalt →
    ∃ t w', exec (.deferredTrap cid wx) s = .next t ∧ t.weave? cid wx = some w' ∧ w'.pend = none ∧ w'.wait = .none ∧
      TrapEntered w w' p.cause p.defer p.pc p.lanes (fun l => nthD p.vas l 0) ∧ SameMemory s t ∧
      ∀ r ∈ t.waits, r.who ≠ .weave cid wx) ∧
  (∀ (s : State) (cid wx : Nat) (c : Crew) (w : Weave), s.crew? cid = some c → s.weave? cid wx = some w → w.handler = some .halted →
    w.cause ≠ .debugHalt → w.haltKept = false →
    (∀ v, s.sigValue c.owner c.dbgsig = some v → 0 < v → exec (.debugResume cid wx) s = .next s) ∧
    (s.sigValue c.owner c.dbgsig = some 0 → c.hscope = 0 → w.kept = .none → ∃ t w', exec (.debugResume cid wx) s = .next t ∧
      t.weave? cid wx = some w' ∧ w'.mode = .user ∧ w'.handler = none ∧ w'.exec = w.hxm &&& ~~~ w.absent ∧ w'.pc = w.hpc.setWidth 52 ∧
      SameContext w w' ∧ SameMemory s t) ∧
    ((s.sigValue c.owner c.dbgsig = none ∨ ∃ v, s.sigValue c.owner c.dbgsig = some v ∧ v < 0) → (s.severity c.owner).getLsbD 2 = false →
      c.leaf < s.links.length →
      ∃ t w' l, exec (.debugResume cid wx) s = .next t ∧ t.weave? cid wx = some w' ∧ w'.handler = some .ended ∧
        t.links[c.leaf]? = some l ∧ ∃ n, (n, .endCause c.lid .debugHalt) ∈ l.up.sent))

/-- Traps beyond the first of R226: double traps, deferred traps and debug halts. That a halted scope goes on when no other halt
covers it is the model's reading (log entry 94). -/
def Obligations.LaterTraps : Prop := doubleTrapRules ∧ lateTraps

/-! ## What every step keeps -/

/-- At reset every memory is in canonical form, the module has its dies, cores, links and ports, and no weave or late result
exists whose form could be wrong. -/
def Obligations.ResetInv : Prop := Inv State.reset

/-- From every state with the invariant, a step that goes on leaves HBM, the mailbox, every crew's scratch and every
tenant's commons in canonical form: addresses strictly rising and no byte listed that an unlisted one reads as. -/
def Obligations.StepKeepsMemory : Prop :=
  ∀ s t : State, Inv s → step s = .next t →
    Memory.wf t.hbm ∧ Memory.wf t.mgmt.mailbox ∧ (∀ c ∈ t.crews, Memory.wf c.scratch) ∧
    (∀ x ∈ t.tenants, x.commons.length = 4 ∧ ∀ m ∈ x.commons, Memory.wf m)

/-- From every state with the invariant, a step that goes on leaves four dies, 256 cores, four Welt links, 8 ports and 32
command links (R10, R12, R19, R53), and every late result keeps an identifier that has been given out. -/
def Obligations.StepKeepsModule : Prop :=
  ∀ s t : State, Inv s → step s = .next t →
    t.dies.length = 4 ∧ t.cores.length = 256 ∧ t.welt.length = 4 ∧ t.ports.length = 8 ∧ t.links.length = 32 ∧
    (∀ f ∈ t.flights, f.id ≤ t.ids)

/-- From every state with the invariant, a step that goes on leaves every weave with 16 lane predicates, 8 translation
registers and 16 handler registers of each kind, p0 all ones and q0 one (R124). -/
def Obligations.StepKeepsWeaves : Prop :=
  ∀ s t : State, Inv s → step s = .next t → ∀ c ∈ t.crews, ∀ w ∈ c.weaves, WeaveFormed w
end

