-- ==== Sys2Proof/Laws/Decode.lean ====
section
/-! SUPPORT. Laws/Decode.lean: the codes of operands and types, the fields of a packed word, and the opcode map's row of
each instruction. -/

set_option linter.unusedSimpArgs false

namespace Sys2Proof

/-! ## Codes -/

theorem codeOfOperand_lt (o : Operand) : codeOfOperand o < 1024 := by
  cases o <;> simp only [codeOfOperand] <;> omega

set_option maxRecDepth 4000 in
theorem operandOf_v : ∀ n : Fin 640, operandOf (BitVec.ofNat 10 n.val) = .v n := by decide

theorem operandOf_g : ∀ n : Fin 128, operandOf (BitVec.ofNat 10 (640 + n.val)) = .g n := by decide
theorem operandOf_h : ∀ n : Fin 16, operandOf (BitVec.ofNat 10 (768 + n.val)) = .h n := by decide
theorem operandOf_hg : ∀ n : Fin 16, operandOf (BitVec.ofNat 10 (784 + n.val)) = .hg n := by decide
theorem operandOf_p : ∀ n : Fin 16, operandOf (BitVec.ofNat 10 (800 + n.val)) = .p n := by decide
theorem operandOf_q : ∀ n : Fin 16, operandOf (BitVec.ofNat 10 (816 + n.val)) = .q n := by decide

set_option maxRecDepth 2000 in
theorem operandOf_undef : ∀ n : Fin 187, operandOf (BitVec.ofNat 10 (832 + n.val)) = .undef n := by decide

theorem operandOf_codeOfOperand (o : Operand) : operandOf (BitVec.ofNat 10 (codeOfOperand o)) = o := by
  cases o with
  | v n => exact operandOf_v n
  | g n => exact operandOf_g n
  | h n => exact operandOf_h n
  | hg n => exact operandOf_hg n
  | p n => exact operandOf_p n
  | q n => exact operandOf_q n
  | undef n => exact operandOf_undef n
  | laneid | imm | zero | ones | none => rfl

theorem codeOfOperand_operandOf (x : BitVec 10) : BitVec.ofNat 10 (codeOfOperand (operandOf x)) = x := by
  have hx := x.isLt
  apply BitVec.eq_of_toNat_eq
  rw [BitVec.toNat_ofNat, Nat.mod_eq_of_lt (codeOfOperand_lt _)]
  simp only [operandOf]
  repeat' split
  all_goals simp only [codeOfOperand, Fin.ofNat]
  all_goals omega

theorem tyOf_codeOfTy (t : Ty) : tyOf (BitVec.ofNat 4 (codeOfTy t)) = t := by cases t <;> rfl

theorem codeOfTy_tyOf : ∀ x : BitVec 4, BitVec.ofNat 4 (codeOfTy (tyOf x)) = x := by decide

theorem fin_of_bits (n : Nat) (x : Fin (2 ^ n)) : (BitVec.ofNat n x.val).toFin = x := by
  apply Fin.ext
  simp

/-! ## The fields of a packed word -/

theorem fld_high (x y : BitVec 64) (lo len : Nat) (h : 64 ≤ lo) : fld (x ++ y) lo len = x.extractLsb' (lo - 64) len :=
  BitVec.extractLsb'_append_eq_of_le h

theorem fld_low (x y : BitVec 64) (lo len : Nat) (h : lo + len ≤ 64) : fld (x ++ y) lo len = y.extractLsb' lo len :=
  BitVec.extractLsb'_append_eq_of_add_le h

theorem fld_major (m n : Nat) (h : Head) (y : BitVec 64) :
    fld (packHead m n h ++ y) 120 8 = BitVec.ofNat 8 (m + if h.grp then 1 else 0) := by
  rw [fld_high _ _ _ _ (by decide)]
  unfold packHead
  simp (disch := decide) only [BitVec.extractLsb'_append_eq_of_le, Nat.reduceSub]
  exact BitVec.extractLsb'_eq_self

theorem fld_minor (m n : Nat) (h : Head) (y : BitVec 64) : fld (packHead m n h ++ y) 112 8 = BitVec.ofNat 8 n := by
  rw [fld_high _ _ _ _ (by decide)]
  unfold packHead
  simp (disch := decide) only [BitVec.extractLsb'_append_eq_of_le, BitVec.extractLsb'_append_eq_of_add_le, Nat.reduceSub]
  exact BitVec.extractLsb'_eq_self

theorem unpackHead_pack (m n : Nat) (h : Head) (y : BitVec 64) (hm : m % 2 = 0) : unpackHead (packHead m n h ++ y) = h := by
  have g : (packHead m n h ++ y).getLsbD 120 = h.grp := by
    have e := congrArg (fun (b : BitVec 8) => b.getLsbD 0) (fld_major m n h y)
    simp only [fld, BitVec.getLsbD_extractLsb', Nat.add_zero] at e
    rw [show (decide (0 < 8) && (packHead m n h ++ y).getLsbD 120) = (packHead m n h ++ y).getLsbD 120 from by simp] at e
    rw [e]
    rw [BitVec.getLsbD_ofNat, Nat.testBit_zero]
    cases h.grp <;> simp <;> omega
  have f1 : fld (packHead m n h ++ y) 108 4 = BitVec.ofNat 4 h.grd.val := by
    rw [fld_high _ _ _ _ (by decide)]
    unfold packHead
    simp (disch := decide) only [BitVec.extractLsb'_append_eq_of_le, BitVec.extractLsb'_append_eq_of_add_le, Nat.reduceSub]
    exact BitVec.extractLsb'_eq_self
  have f2 : (packHead m n h ++ y).getLsbD 107 = h.neg := by
    have e : fld (packHead m n h ++ y) 107 1 = BitVec.ofBool h.neg := by
      rw [fld_high _ _ _ _ (by decide)]
      unfold packHead
      simp (disch := decide) only [BitVec.extractLsb'_append_eq_of_le, BitVec.extractLsb'_append_eq_of_add_le, Nat.reduceSub]
      exact BitVec.extractLsb'_eq_self
    have e := congrArg (fun (b : BitVec 1) => b.getLsbD 0) e
    simpa [fld] using e
  have f3 : fld (packHead m n h ++ y) 97 10 = BitVec.ofNat 10 (codeOfOperand h.d) := by
    rw [fld_high _ _ _ _ (by decide)]
    unfold packHead
    simp (disch := decide) only [BitVec.extractLsb'_append_eq_of_le, BitVec.extractLsb'_append_eq_of_add_le, Nat.reduceSub]
    exact BitVec.extractLsb'_eq_self
  have f4 : fld (packHead m n h ++ y) 87 10 = BitVec.ofNat 10 (codeOfOperand h.a) := by
    rw [fld_high _ _ _ _ (by decide)]
    unfold packHead
    simp (disch := decide) only [BitVec.extractLsb'_append_eq_of_le, BitVec.extractLsb'_append_eq_of_add_le, Nat.reduceSub]
    exact BitVec.extractLsb'_eq_self
  have f5 : fld (packHead m n h ++ y) 77 10 = BitVec.ofNat 10 (codeOfOperand h.b) := by
    rw [fld_high _ _ _ _ (by decide)]
    unfold packHead
    simp (disch := decide) only [BitVec.extractLsb'_append_eq_of_le, BitVec.extractLsb'_append_eq_of_add_le, Nat.reduceSub]
    exact BitVec.extractLsb'_eq_self
  have f6 : fld (packHead m n h ++ y) 67 10 = BitVec.ofNat 10 (codeOfOperand h.c) := by
    rw [fld_high _ _ _ _ (by decide)]
    unfold packHead
    simp (disch := decide) only [BitVec.extractLsb'_append_eq_of_le, BitVec.extractLsb'_append_eq_of_add_le, Nat.reduceSub]
    exact BitVec.extractLsb'_eq_self
  have f7 : fld (packHead m n h ++ y) 64 3 = h.em := by
    rw [fld_high _ _ _ _ (by decide)]
    unfold packHead
    simp (disch := decide) only [BitVec.extractLsb'_append_eq_of_add_le, Nat.reduceSub]
    exact BitVec.extractLsb'_eq_self
  unfold unpackHead
  rw [g, f1, f2, f3, f4, f5, f6, f7, operandOf_codeOfOperand, operandOf_codeOfOperand, operandOf_codeOfOperand,
    operandOf_codeOfOperand, fin_of_bits 4]

/-- A field of the lower half. -/
theorem fld_pack (m n : Nat) (h : Head) (f : Form) (lo len : Nat) (hl : lo + len ≤ 64) :
    fld (packHead m n h ++ packLow f) lo len = (packLow f).extractLsb' lo len := fld_low _ _ _ _ hl

theorem unpackV_pack (m n : Nat) (f : VForm) (hm : m % 2 = 0) :
    unpackV (packHead m n f.hd ++ packLow (.v f)) = f := by
  have e0 : (packLow (.v f)).extractLsb' 60 4 = f.mod := by
    unfold packLow
    simp (disch := decide) only [BitVec.extractLsb'_append_eq_of_le, BitVec.extractLsb'_append_eq_of_add_le, Nat.reduceSub]
    exact BitVec.extractLsb'_eq_self
  have e1 : (packLow (.v f)).extractLsb' 56 4 = BitVec.ofNat 4 (codeOfTy f.ty1) := by
    unfold packLow
    simp (disch := decide) only [BitVec.extractLsb'_append_eq_of_le, BitVec.extractLsb'_append_eq_of_add_le, Nat.reduceSub]
    exact BitVec.extractLsb'_eq_self
  have e2 : (packLow (.v f)).extractLsb' 52 4 = BitVec.ofNat 4 (codeOfTy f.ty2) := by
    unfold packLow
    simp (disch := decide) only [BitVec.extractLsb'_append_eq_of_le, BitVec.extractLsb'_append_eq_of_add_le, Nat.reduceSub]
    exact BitVec.extractLsb'_eq_self
  have e3 : (packLow (.v f)).extractLsb' 0 32 = f.imm := by
    unfold packLow
    simp (disch := decide) only [BitVec.extractLsb'_append_eq_of_le, BitVec.extractLsb'_append_eq_of_add_le, Nat.reduceSub]
    exact BitVec.extractLsb'_eq_self
  unfold unpackV
  rw [unpackHead_pack m n f.hd _ hm, fld_pack _ _ _ _ _ _ (by decide), e0, fld_pack _ _ _ _ _ _ (by decide), e1, fld_pack _ _ _ _ _ _ (by decide), e2, fld_pack _ _ _ _ _ _ (by decide), e3, tyOf_codeOfTy, tyOf_codeOfTy]

theorem unpackM_pack (m n : Nat) (f : MForm) (hm : m % 2 = 0) :
    unpackM (packHead m n f.hd ++ packLow (.m f)) = f := by
  have e0 : (packLow (.m f)).extractLsb' 61 3 = BitVec.ofNat 3 f.xb.val := by
    unfold packLow
    simp (disch := decide) only [BitVec.extractLsb'_append_eq_of_le, BitVec.extractLsb'_append_eq_of_add_le, Nat.reduceSub]
    exact BitVec.extractLsb'_eq_self
  have e1 : (packLow (.m f)).extractLsb' 58 3 = f.wid := by
    unfold packLow
    simp (disch := decide) only [BitVec.extractLsb'_append_eq_of_le, BitVec.extractLsb'_append_eq_of_add_le, Nat.reduceSub]
    exact BitVec.extractLsb'_eq_self
  have e2 : (packLow (.m f)).extractLsb' 55 3 = f.ord := by
    unfold packLow
    simp (disch := decide) only [BitVec.extractLsb'_append_eq_of_le, BitVec.extractLsb'_append_eq_of_add_le, Nat.reduceSub]
    exact BitVec.extractLsb'_eq_self
  have e3 : (packLow (.m f)).extractLsb' 52 3 = f.scp := by
    unfold packLow
    simp (disch := decide) only [BitVec.extractLsb'_append_eq_of_le, BitVec.extractLsb'_append_eq_of_add_le, Nat.reduceSub]
    exact BitVec.extractLsb'_eq_self
  have e4 : (packLow (.m f)).extractLsb' 50 2 = f.ch := by
    unfold packLow
    simp (disch := decide) only [BitVec.extractLsb'_append_eq_of_le, BitVec.extractLsb'_append_eq_of_add_le, Nat.reduceSub]
    exact BitVec.extractLsb'_eq_self
  have e5 : (packLow (.m f)).extractLsb' 45 5 = f.atop := by
    unfold packLow
    simp (disch := decide) only [BitVec.extractLsb'_append_eq_of_le, BitVec.extractLsb'_append_eq_of_add_le, Nat.reduceSub]
    exact BitVec.extractLsb'_eq_self
  have e6 : (packLow (.m f)).extractLsb' 0 32 = f.disp := by
    unfold packLow
    simp (disch := decide) only [BitVec.extractLsb'_append_eq_of_le, BitVec.extractLsb'_append_eq_of_add_le, Nat.reduceSub]
    exact BitVec.extractLsb'_eq_self
  unfold unpackM
  rw [unpackHead_pack m n f.hd _ hm, fld_pack _ _ _ _ _ _ (by decide), e0, fld_pack _ _ _ _ _ _ (by decide), e1, fld_pack _ _ _ _ _ _ (by decide), e2, fld_pack _ _ _ _ _ _ (by decide), e3, fld_pack _ _ _ _ _ _ (by decide), e4, fld_pack _ _ _ _ _ _ (by decide), e5, fld_pack _ _ _ _ _ _ (by decide), e6, fin_of_bits 3]

theorem unpackB_pack (m n : Nat) (f : BForm) (hm : m % 2 = 0) :
    unpackB (packHead m n f.hd ++ packLow (.b f)) = f := by
  have e0 : (packLow (.b f)).extractLsb' 56 8 = f.tok := by
    unfold packLow
    simp (disch := decide) only [BitVec.extractLsb'_append_eq_of_le, BitVec.extractLsb'_append_eq_of_add_le, Nat.reduceSub]
    exact BitVec.extractLsb'_eq_self
  have e1 : (packLow (.b f)).extractLsb' 0 32 = f.off := by
    unfold packLow
    simp (disch := decide) only [BitVec.extractLsb'_append_eq_of_le, BitVec.extractLsb'_append_eq_of_add_le, Nat.reduceSub]
    exact BitVec.extractLsb'_eq_self
  unfold unpackB
  rw [unpackHead_pack m n f.hd _ hm, fld_pack _ _ _ _ _ _ (by decide), e0, fld_pack _ _ _ _ _ _ (by decide), e1]

theorem unpackE_pack (m n : Nat) (f : EForm) (hm : m % 2 = 0) :
    unpackE (packHead m n f.hd ++ packLow (.e f)) = f := by
  have e0 : (packLow (.e f)).extractLsb' 57 7 = BitVec.ofNat 7 f.ah.val := by
    unfold packLow
    simp (disch := decide) only [BitVec.extractLsb'_append_eq_of_le, BitVec.extractLsb'_append_eq_of_add_le, Nat.reduceSub]
    exact BitVec.extractLsb'_eq_self
  have e1 : (packLow (.e f)).extractLsb' 53 4 = BitVec.ofNat 4 f.th.val := by
    unfold packLow
    simp (disch := decide) only [BitVec.extractLsb'_append_eq_of_le, BitVec.extractLsb'_append_eq_of_add_le, Nat.reduceSub]
    exact BitVec.extractLsb'_eq_self
  have e2 : (packLow (.e f)).extractLsb' 32 21 = f.ctl := by
    unfold packLow
    simp (disch := decide) only [BitVec.extractLsb'_append_eq_of_le, BitVec.extractLsb'_append_eq_of_add_le, Nat.reduceSub]
    exact BitVec.extractLsb'_eq_self
  have e3 : (packLow (.e f)).extractLsb' 0 32 = f.imm := by
    unfold packLow
    simp (disch := decide) only [BitVec.extractLsb'_append_eq_of_le, BitVec.extractLsb'_append_eq_of_add_le, Nat.reduceSub]
    exact BitVec.extractLsb'_eq_self
  unfold unpackE
  rw [unpackHead_pack m n f.hd _ hm, fld_pack _ _ _ _ _ _ (by decide), e0, fld_pack _ _ _ _ _ _ (by decide), e1, fld_pack _ _ _ _ _ _ (by decide), e2, fld_pack _ _ _ _ _ _ (by decide), e3, fin_of_bits 7, fin_of_bits 4]

theorem unpackS_pack (m n : Nat) (f : SForm) (hm : m % 2 = 0) :
    unpackS (packHead m n f.hd ++ packLow (.s f)) = f := by
  have e0 : (packLow (.s f)).extractLsb' 48 16 = f.csr := by
    unfold packLow
    simp (disch := decide) only [BitVec.extractLsb'_append_eq_of_le, BitVec.extractLsb'_append_eq_of_add_le, Nat.reduceSub]
    exact BitVec.extractLsb'_eq_self
  have e1 : (packLow (.s f)).extractLsb' 0 32 = f.imm := by
    unfold packLow
    simp (disch := decide) only [BitVec.extractLsb'_append_eq_of_le, BitVec.extractLsb'_append_eq_of_add_le, Nat.reduceSub]
    exact BitVec.extractLsb'_eq_self
  unfold unpackS
  rw [unpackHead_pack m n f.hd _ hm, fld_pack _ _ _ _ _ _ (by decide), e0, fld_pack _ _ _ _ _ _ (by decide), e1]

/-! ## The opcode map -/

/-- The form that a word holds for a maker. -/
def Maker.form (w : BitVec 128) : Maker → Form
  | .v _ => .v (unpackV w)
  | .m _ => .m (unpackM w)
  | .b _ => .b (unpackB w)
  | .e _ => .e (unpackE w)
  | .s _ => .s (unpackS w)

/-- A maker takes the form's fields. -/
def Maker.fits : Maker → Form → Bool
  | .v _, .v _ | .m _, .m _ | .b _, .b _ | .e _, .e _ | .s _, .s _ => true
  | _, _ => false

/-- The opcode map's row of an instruction, with either G bit. -/
theorem lookupOp_codeOf (i : Instr) (h : formOf i ≠ .event) (g : Bool) :
    ∃ row, lookupOp ((codeOf i).1 + if g then 1 else 0) (codeOf i).2 = some row ∧
    (codeOf i).1 % 2 = 0 ∧ (codeOf i).1 + 1 < 256 ∧ (codeOf i).2 < 256 ∧ row.make.fits (formOf i) = true ∧
    ∀ w, row.make.form w = formOf i → row.make.run w = i := by
  cases i <;> first
    | exact absurd rfl h
    | (simp only [codeOf]; cases g <;> refine ⟨_, rfl, by decide, by decide, by decide, rfl, ?_⟩ <;> intro w hw <;>
        first
        | (obtain rfl := Form.v.inj hw; rfl) | (obtain rfl := Form.m.inj hw; rfl) | (obtain rfl := Form.b.inj hw; rfl)
        | (obtain rfl := Form.e.inj hw; rfl) | (obtain rfl := Form.s.inj hw; rfl))
    | (rename_i sel f; cases sel <;> cases g <;> simp only [codeOf, CmpSel.pos, FcmpSel.pos, RedSel.pos, ShflSel.pos, VoteSel.pos] <;> refine ⟨_, rfl, by decide, by decide, by decide, rfl, ?_⟩ <;> intro w hw <;>
        (obtain rfl := Form.v.inj hw; rfl))

/-- A packed word gives its form back, and its reserved bits are clear. -/
theorem fits_pack {mk : Maker} {F : Form} (h : mk.fits F = true) {hd : Head} (hh : F.head? = some hd) {m n : Nat} (hm : m % 2 = 0) :
    mk.form (packHead m n hd ++ packLow F) = F ∧ reservedBitsClear (packHead m n hd ++ packLow F) mk = true := by
  cases mk <;> cases F <;> first | (exact absurd h Bool.false_ne_true) | skip
  all_goals
    obtain rfl := Option.some.inj hh
    constructor
    · simp only [Maker.form, unpackV_pack, unpackM_pack, unpackB_pack, unpackE_pack, unpackS_pack, hm]
    · simp (disch := decide) only [reservedBitsClear, fld_pack]
      try (simp (disch := decide) only [packLow, BitVec.extractLsb'_append_eq_of_le, BitVec.extractLsb'_append_eq_of_add_le, Nat.reduceSub]; rfl)

end Sys2Proof
end

