-- ==== Sys2Proof/Laws/Lists.lean ====
section
/-! SUPPORT. Laws/Lists.lean: the list operations of the model: replacing, finding, keyed lists, lane masks. -/

namespace Sys2Proof

/-! ## modNth -/

@[simp] theorem modNth_length {α : Type} (xs : List α) (i : Nat) (f : α → α) : (modNth xs i f).length = xs.length := by
  induction xs generalizing i with
  | nil => rfl
  | cons x xs ih => cases i <;> simp [modNth, ih]

theorem modNth_getElem? {α : Type} (xs : List α) (i j : Nat) (f : α → α) :
    (modNth xs i f)[j]? = if j = i then (xs[j]?).map f else xs[j]? := by
  induction xs generalizing i j with
  | nil => cases i <;> simp [modNth]
  | cons x xs ih => cases i <;> cases j <;> simp [modNth, ih]

@[simp] theorem modNth_getElem?_same {α : Type} (xs : List α) (i : Nat) (f : α → α) :
    (modNth xs i f)[i]? = (xs[i]?).map f := by simp [modNth_getElem?]

theorem modNth_getElem?_other {α : Type} {xs : List α} {i j : Nat} {f : α → α} (h : j ≠ i) :
    (modNth xs i f)[j]? = xs[j]? := by simp [modNth_getElem?, h]

theorem nthD_eq {α : Type} (xs : List α) (i : Nat) (d : α) : nthD xs i d = (xs[i]?).getD d := by
  simp [nthD, List.getD_eq_getElem?_getD]

theorem nthD_modNth {α : Type} (xs : List α) (i j : Nat) (f : α → α) (d : α) :
    nthD (modNth xs i f) j d = if j = i ∧ j < xs.length then f (nthD xs j d) else nthD xs j d := by
  simp only [nthD_eq, modNth_getElem?]
  by_cases h : j = i
  · subst h
    by_cases hl : j < xs.length
    · simp [hl]
    · simp [hl]
  · simp [h]

theorem nthD_modNth_other {α : Type} {xs : List α} {i j : Nat} {f : α → α} {d : α} (h : j ≠ i) :
    nthD (modNth xs i f) j d = nthD xs j d := by simp [nthD_modNth, h]

theorem nthD_modNth_same {α : Type} {xs : List α} {i : Nat} {f : α → α} {d : α} (h : i < xs.length) :
    nthD (modNth xs i f) i d = f (nthD xs i d) := by simp [nthD_modNth, h]

theorem modNth_id {α : Type} (xs : List α) (i : Nat) (f : α → α) (h : ∀ x ∈ xs, f x = x) : modNth xs i f = xs := by
  induction xs generalizing i with
  | nil => rfl
  | cons x xs ih =>
    cases i with
    | zero => simp [modNth, h x (by simp)]
    | succ i => simp [modNth, ih i fun y hy => h y (by simp [hy])]

theorem mem_modNth {α : Type} {xs : List α} {i : Nat} {f : α → α} {y : α} (h : y ∈ modNth xs i f) :
    y ∈ xs ∨ ∃ x ∈ xs, y = f x := by
  induction xs generalizing i with
  | nil => simp [modNth] at h
  | cons x xs ih =>
    cases i with
    | zero =>
      simp only [modNth, List.mem_cons] at h
      rcases h with h | h
      · exact .inr ⟨x, by simp, h⟩
      · exact .inl (by simp [h])
    | succ i =>
      simp only [modNth, List.mem_cons] at h
      rcases h with h | h
      · exact .inl (by simp [h])
      · rcases ih h with h | ⟨z, hz, e⟩
        · exact .inl (by simp [h])
        · exact .inr ⟨z, by simp [hz], e⟩

namespace Machine

/-! ## updWhere -/

@[simp] theorem updWhere_length {α : Type} (xs : List α) (p : α → Bool) (f : α → α) : (updWhere xs p f).length = xs.length := by
  simp [updWhere]

theorem mem_updWhere {α : Type} {xs : List α} {p : α → Bool} {f : α → α} {y : α} (h : y ∈ updWhere xs p f) :
    ∃ x ∈ xs, y = if p x then f x else x := by
  simp only [updWhere, List.mem_map] at h
  obtain ⟨x, hx, rfl⟩ := h
  exact ⟨x, hx, rfl⟩

/-- What a key finds after the keyed entry has been replaced. -/
theorem find?_updWhere {α : Type} {xs : List α} {p : α → Bool} {f : α → α} {x : α} (h : xs.find? p = some x)
    (hf : p (f x) = true) : (updWhere xs p f).find? p = some (f x) := by
  induction xs with
  | nil => simp at h
  | cons a xs ih =>
    by_cases ha : p a = true
    · simp only [List.find?_cons_of_pos ha, Option.some.injEq] at h
      subst h
      simp [updWhere, ha, hf]
    · simp only [Bool.not_eq_true] at ha
      rw [List.find?_cons_of_neg (by simp [ha])] at h
      have := ih h
      simp only [updWhere] at this ⊢
      simp [ha, this]

theorem find?_updWhere_none {α : Type} {xs : List α} {p : α → Bool} {f : α → α} (h : xs.find? p = none) :
    updWhere xs p f = xs := by
  induction xs with
  | nil => rfl
  | cons a xs ih =>
    simp only [List.find?_eq_none, List.mem_cons, forall_eq_or_imp, Bool.not_eq_true] at h
    have := ih (by simpa [List.find?_eq_none] using h.2)
    simp only [updWhere] at this ⊢
    simp [h.1, this]

/-- Another key finds what it found. -/
theorem find?_updWhere_other {α : Type} {xs : List α} {p q : α → Bool} {f : α → α}
    (h : ∀ x, p x = true → q x = false ∧ q (f x) = false) : (updWhere xs p f).find? q = xs.find? q := by
  induction xs with
  | nil => rfl
  | cons a xs ih =>
    simp only [updWhere] at ih ⊢
    by_cases ha : p a = true
    · simp [ha, h a ha, ih]
    · simp only [Bool.not_eq_true] at ha
      simp only [List.map_cons, ha, Bool.false_eq_true, if_false, List.find?_cons, ih]

/-! ## Keyed lists -/

theorem assocGet_assocSet_same {β : Type} (xs : List (Nat × β)) (k : Nat) (v : β) : assocGet (assocSet xs k v) k = some v := by
  unfold assocSet assocGet
  by_cases h : xs.any (fun x => x.1 == k) = true
  · rw [if_pos h]
    obtain ⟨x, hx, hk⟩ := List.any_eq_true.mp h
    have hs : (xs.find? fun x => x.1 == k).isSome := List.find?_isSome.mpr ⟨x, hx, hk⟩
    obtain ⟨y, hy⟩ := Option.isSome_iff_exists.mp hs
    rw [find?_updWhere hy (by simpa using List.find?_some hy)]
    rfl
  · rw [if_neg h, List.find?_append]
    have : xs.find? (fun x => x.1 == k) = none := by
      simp only [List.find?_eq_none, Bool.not_eq_true]
      intro x hx
      by_contra hc
      exact h (List.any_eq_true.mpr ⟨x, hx, by simpa using hc⟩)
    simp [this]

theorem assocGet_assocSet_other {β : Type} (xs : List (Nat × β)) {k j : Nat} (v : β) (h : j ≠ k) :
    assocGet (assocSet xs k v) j = assocGet xs j := by
  unfold assocSet assocGet
  by_cases ha : xs.any (fun x => x.1 == k) = true
  · rw [if_pos ha, find?_updWhere_other]
    intro x hx
    have e : x.1 = k := by simpa using hx
    have : (x.1 == j) = false := by simp [e, Ne.symm h]
    exact ⟨this, this⟩
  · rw [if_neg ha, List.find?_append]
    have : ([(k, v)] : List (Nat × β)).find? (fun x => x.1 == j) = none := by simp [Ne.symm h]
    simp [this]

end Machine

/-! ## Lane masks -/

theorem maskOf_getLsbD (f : Nat → Bool) (i : Nat) : (maskOf f).getLsbD i = (decide (i < 32) && f i) := by
  have gen : ∀ (ls : List Nat) (acc : Mask),
      (ls.foldl (fun acc i => if f i then acc ||| BitVec.twoPow 32 i else acc) acc).getLsbD i
        = (acc.getLsbD i || (decide (i < 32) && ls.contains i && f i)) := by
    intro ls
    induction ls with
    | nil => intro acc; simp
    | cons a ls ih =>
      intro acc
      simp only [List.foldl_cons, ih]
      by_cases hf : f a = true
      · simp only [hf, if_true, BitVec.getLsbD_or, BitVec.getLsbD_twoPow, List.contains_cons]
        by_cases he : a = i
        · rw [he] at hf
          rw [he, hf]
          have h1 : (i == i) = true := by simp
          have h2 : decide (i = i) = true := by simp
          rw [h1, h2]
          generalize acc.getLsbD i = x, decide (i < 32) = y, ls.contains i = z
          revert x y z
          decide
        · have h1 : (i == a) = false := beq_eq_false_iff_ne.mpr (Ne.symm he)
          have h2 : decide (a = i) = false := decide_eq_false he
          rw [h1, h2]
          simp
      · simp only [hf, Bool.false_eq_true, if_false, List.contains_cons]
        by_cases he : i = a
        · subst he; simp [hf]
        · have : (i == a) = false := by simpa using he
          simp [this]
  have := gen laneList 0
  simp only [maskOf, this]
  by_cases hi : i < 32
  · simp [laneList, hi]
  · simp [hi]

@[simp] theorem laneList_length : laneList.length = 32 := by simp [laneList]
@[simp] theorem mem_laneList {i : Nat} : i ∈ laneList ↔ i < 32 := by simp [laneList]
theorem laneList_getElem? {i : Nat} (h : i < 32) : laneList[i]? = some i := by simp [laneList, h]

end Sys2Proof
end

