-- ==== Sys2Proof/Laws/State.lean ====
section
/-! SUPPORT. Laws/State.lean: what each named update of the state leaves and what it writes, field by field. -/

namespace Sys2Proof.Machine

variable (s : State)

/-! ### modCrew -/

@[simp] theorem State.modCrew_now (cid : Nat) (f : Crew → Crew) : (s.modCrew cid f).now = s.now := rfl
@[simp] theorem State.modCrew_agenda (cid : Nat) (f : Crew → Crew) : (s.modCrew cid f).agenda = s.agenda := rfl
@[simp] theorem State.modCrew_parts (cid : Nat) (f : Crew → Crew) : (s.modCrew cid f).parts = s.parts := rfl
@[simp] theorem State.modCrew_pending (cid : Nat) (f : Crew → Crew) : (s.modCrew cid f).pending = s.pending := rfl
@[simp] theorem State.modCrew_timers (cid : Nat) (f : Crew → Crew) : (s.modCrew cid f).timers = s.timers := rfl
@[simp] theorem State.modCrew_evTurn (cid : Nat) (f : Crew → Crew) : (s.modCrew cid f).evTurn = s.evTurn := rfl
@[simp] theorem State.modCrew_cur (cid : Nat) (f : Crew → Crew) : (s.modCrew cid f).cur = s.cur := rfl
@[simp] theorem State.modCrew_out (cid : Nat) (f : Crew → Crew) : (s.modCrew cid f).out = s.out := rfl
@[simp] theorem State.modCrew_ids (cid : Nat) (f : Crew → Crew) : (s.modCrew cid f).ids = s.ids := rfl
@[simp] theorem State.modCrew_fresh (cid : Nat) (f : Crew → Crew) : (s.modCrew cid f).fresh = s.fresh := rfl
@[simp] theorem State.modCrew_env (cid : Nat) (f : Crew → Crew) : (s.modCrew cid f).env = s.env := rfl
@[simp] theorem State.modCrew_hbm (cid : Nat) (f : Crew → Crew) : (s.modCrew cid f).hbm = s.hbm := rfl
@[simp] theorem State.modCrew_keyTags (cid : Nat) (f : Crew → Crew) : (s.modCrew cid f).keyTags = s.keyTags := rfl
@[simp] theorem State.modCrew_ueHbm (cid : Nat) (f : Crew → Crew) : (s.modCrew cid f).ueHbm = s.ueHbm := rfl
@[simp] theorem State.modCrew_ueCommons (cid : Nat) (f : Crew → Crew) : (s.modCrew cid f).ueCommons = s.ueCommons := rfl
@[simp] theorem State.modCrew_dies (cid : Nat) (f : Crew → Crew) : (s.modCrew cid f).dies = s.dies := rfl
@[simp] theorem State.modCrew_cores (cid : Nat) (f : Crew → Crew) : (s.modCrew cid f).cores = s.cores := rfl
@[simp] theorem State.modCrew_welt (cid : Nat) (f : Crew → Crew) : (s.modCrew cid f).welt = s.welt := rfl
@[simp] theorem State.modCrew_ports (cid : Nat) (f : Crew → Crew) : (s.modCrew cid f).ports = s.ports := rfl
@[simp] theorem State.modCrew_stackErrs (cid : Nat) (f : Crew → Crew) : (s.modCrew cid f).stackErrs = s.stackErrs := rfl
@[simp] theorem State.modCrew_mgmt (cid : Nat) (f : Crew → Crew) : (s.modCrew cid f).mgmt = s.mgmt := rfl
@[simp] theorem State.modCrew_scv (cid : Nat) (f : Crew → Crew) : (s.modCrew cid f).scv = s.scv := rfl
@[simp] theorem State.modCrew_links (cid : Nat) (f : Crew → Crew) : (s.modCrew cid f).links = s.links := rfl
@[simp] theorem State.modCrew_tenants (cid : Nat) (f : Crew → Crew) : (s.modCrew cid f).tenants = s.tenants := rfl
@[simp] theorem State.modCrew_ctxs (cid : Nat) (f : Crew → Crew) : (s.modCrew cid f).ctxs = s.ctxs := rfl
@[simp] theorem State.modCrew_queues (cid : Nat) (f : Crew → Crew) : (s.modCrew cid f).queues = s.queues := rfl
@[simp] theorem State.modCrew_waits (cid : Nat) (f : Crew → Crew) : (s.modCrew cid f).waits = s.waits := rfl
@[simp] theorem State.modCrew_remoteWaits (cid : Nat) (f : Crew → Crew) : (s.modCrew cid f).remoteWaits = s.remoteWaits := rfl
@[simp] theorem State.modCrew_peerIn (cid : Nat) (f : Crew → Crew) : (s.modCrew cid f).peerIn = s.peerIn := rfl
@[simp] theorem State.modCrew_sigWait (cid : Nat) (f : Crew → Crew) : (s.modCrew cid f).sigWait = s.sigWait := rfl
@[simp] theorem State.modCrew_launches (cid : Nat) (f : Crew → Crew) : (s.modCrew cid f).launches = s.launches := rfl
@[simp] theorem State.modCrew_crews (cid : Nat) (f : Crew → Crew) : (s.modCrew cid f).crews = updWhere s.crews (fun c => c.cid == cid) f := rfl
@[simp] theorem State.modCrew_bdir (cid : Nat) (f : Crew → Crew) : (s.modCrew cid f).bdir = s.bdir := rfl
@[simp] theorem State.modCrew_gangRes (cid : Nat) (f : Crew → Crew) : (s.modCrew cid f).gangRes = s.gangRes := rfl
@[simp] theorem State.modCrew_flights (cid : Nat) (f : Crew → Crew) : (s.modCrew cid f).flights = s.flights := rfl
@[simp] theorem State.modCrew_armed (cid : Nat) (f : Crew → Crew) : (s.modCrew cid f).armed = s.armed := rfl
@[simp] theorem State.modCrew_copies (cid : Nat) (f : Crew → Crew) : (s.modCrew cid f).copies = s.copies := rfl
@[simp] theorem State.modCrew_colls (cid : Nat) (f : Crew → Crew) : (s.modCrew cid f).colls = s.colls := rfl
@[simp] theorem State.modCrew_graphs (cid : Nat) (f : Crew → Crew) : (s.modCrew cid f).graphs = s.graphs := rfl
@[simp] theorem State.modCrew_pre (cid : Nat) (f : Crew → Crew) : (s.modCrew cid f).pre = s.pre := rfl
@[simp] theorem State.modCrew_publs (cid : Nat) (f : Crew → Crew) : (s.modCrew cid f).publs = s.publs := rfl

/-! ### modWeave -/

@[simp] theorem State.modWeave_now (cid wx : Nat) (f : Weave → Weave) : (s.modWeave cid wx f).now = s.now := rfl
@[simp] theorem State.modWeave_agenda (cid wx : Nat) (f : Weave → Weave) : (s.modWeave cid wx f).agenda = s.agenda := rfl
@[simp] theorem State.modWeave_parts (cid wx : Nat) (f : Weave → Weave) : (s.modWeave cid wx f).parts = s.parts := rfl
@[simp] theorem State.modWeave_pending (cid wx : Nat) (f : Weave → Weave) : (s.modWeave cid wx f).pending = s.pending := rfl
@[simp] theorem State.modWeave_timers (cid wx : Nat) (f : Weave → Weave) : (s.modWeave cid wx f).timers = s.timers := rfl
@[simp] theorem State.modWeave_evTurn (cid wx : Nat) (f : Weave → Weave) : (s.modWeave cid wx f).evTurn = s.evTurn := rfl
@[simp] theorem State.modWeave_cur (cid wx : Nat) (f : Weave → Weave) : (s.modWeave cid wx f).cur = s.cur := rfl
@[simp] theorem State.modWeave_out (cid wx : Nat) (f : Weave → Weave) : (s.modWeave cid wx f).out = s.out := rfl
@[simp] theorem State.modWeave_ids (cid wx : Nat) (f : Weave → Weave) : (s.modWeave cid wx f).ids = s.ids := rfl
@[simp] theorem State.modWeave_fresh (cid wx : Nat) (f : Weave → Weave) : (s.modWeave cid wx f).fresh = s.fresh := rfl
@[simp] theorem State.modWeave_env (cid wx : Nat) (f : Weave → Weave) : (s.modWeave cid wx f).env = s.env := rfl
@[simp] theorem State.modWeave_hbm (cid wx : Nat) (f : Weave → Weave) : (s.modWeave cid wx f).hbm = s.hbm := rfl
@[simp] theorem State.modWeave_keyTags (cid wx : Nat) (f : Weave → Weave) : (s.modWeave cid wx f).keyTags = s.keyTags := rfl
@[simp] theorem State.modWeave_ueHbm (cid wx : Nat) (f : Weave → Weave) : (s.modWeave cid wx f).ueHbm = s.ueHbm := rfl
@[simp] theorem State.modWeave_ueCommons (cid wx : Nat) (f : Weave → Weave) : (s.modWeave cid wx f).ueCommons = s.ueCommons := rfl
@[simp] theorem State.modWeave_dies (cid wx : Nat) (f : Weave → Weave) : (s.modWeave cid wx f).dies = s.dies := rfl
@[simp] theorem State.modWeave_cores (cid wx : Nat) (f : Weave → Weave) : (s.modWeave cid wx f).cores = s.cores := rfl
@[simp] theorem State.modWeave_welt (cid wx : Nat) (f : Weave → Weave) : (s.modWeave cid wx f).welt = s.welt := rfl
@[simp] theorem State.modWeave_ports (cid wx : Nat) (f : Weave → Weave) : (s.modWeave cid wx f).ports = s.ports := rfl
@[simp] theorem State.modWeave_stackErrs (cid wx : Nat) (f : Weave → Weave) : (s.modWeave cid wx f).stackErrs = s.stackErrs := rfl
@[simp] theorem State.modWeave_mgmt (cid wx : Nat) (f : Weave → Weave) : (s.modWeave cid wx f).mgmt = s.mgmt := rfl
@[simp] theorem State.modWeave_scv (cid wx : Nat) (f : Weave → Weave) : (s.modWeave cid wx f).scv = s.scv := rfl
@[simp] theorem State.modWeave_links (cid wx : Nat) (f : Weave → Weave) : (s.modWeave cid wx f).links = s.links := rfl
@[simp] theorem State.modWeave_tenants (cid wx : Nat) (f : Weave → Weave) : (s.modWeave cid wx f).tenants = s.tenants := rfl
@[simp] theorem State.modWeave_ctxs (cid wx : Nat) (f : Weave → Weave) : (s.modWeave cid wx f).ctxs = s.ctxs := rfl
@[simp] theorem State.modWeave_queues (cid wx : Nat) (f : Weave → Weave) : (s.modWeave cid wx f).queues = s.queues := rfl
@[simp] theorem State.modWeave_waits (cid wx : Nat) (f : Weave → Weave) : (s.modWeave cid wx f).waits = s.waits := rfl
@[simp] theorem State.modWeave_remoteWaits (cid wx : Nat) (f : Weave → Weave) : (s.modWeave cid wx f).remoteWaits = s.remoteWaits := rfl
@[simp] theorem State.modWeave_peerIn (cid wx : Nat) (f : Weave → Weave) : (s.modWeave cid wx f).peerIn = s.peerIn := rfl
@[simp] theorem State.modWeave_sigWait (cid wx : Nat) (f : Weave → Weave) : (s.modWeave cid wx f).sigWait = s.sigWait := rfl
@[simp] theorem State.modWeave_launches (cid wx : Nat) (f : Weave → Weave) : (s.modWeave cid wx f).launches = s.launches := rfl
@[simp] theorem State.modWeave_crews (cid wx : Nat) (f : Weave → Weave) : (s.modWeave cid wx f).crews = updWhere s.crews (fun c => c.cid == cid) fun c => c.modWeave wx f := rfl
@[simp] theorem State.modWeave_bdir (cid wx : Nat) (f : Weave → Weave) : (s.modWeave cid wx f).bdir = s.bdir := rfl
@[simp] theorem State.modWeave_gangRes (cid wx : Nat) (f : Weave → Weave) : (s.modWeave cid wx f).gangRes = s.gangRes := rfl
@[simp] theorem State.modWeave_flights (cid wx : Nat) (f : Weave → Weave) : (s.modWeave cid wx f).flights = s.flights := rfl
@[simp] theorem State.modWeave_armed (cid wx : Nat) (f : Weave → Weave) : (s.modWeave cid wx f).armed = s.armed := rfl
@[simp] theorem State.modWeave_copies (cid wx : Nat) (f : Weave → Weave) : (s.modWeave cid wx f).copies = s.copies := rfl
@[simp] theorem State.modWeave_colls (cid wx : Nat) (f : Weave → Weave) : (s.modWeave cid wx f).colls = s.colls := rfl
@[simp] theorem State.modWeave_graphs (cid wx : Nat) (f : Weave → Weave) : (s.modWeave cid wx f).graphs = s.graphs := rfl
@[simp] theorem State.modWeave_pre (cid wx : Nat) (f : Weave → Weave) : (s.modWeave cid wx f).pre = s.pre := rfl
@[simp] theorem State.modWeave_publs (cid wx : Nat) (f : Weave → Weave) : (s.modWeave cid wx f).publs = s.publs := rfl

/-! ### putWeave -/

@[simp] theorem State.putWeave_now (cid wx : Nat) (w : Weave) : (s.putWeave cid wx w).now = s.now := rfl
@[simp] theorem State.putWeave_agenda (cid wx : Nat) (w : Weave) : (s.putWeave cid wx w).agenda = s.agenda := rfl
@[simp] theorem State.putWeave_parts (cid wx : Nat) (w : Weave) : (s.putWeave cid wx w).parts = s.parts := rfl
@[simp] theorem State.putWeave_pending (cid wx : Nat) (w : Weave) : (s.putWeave cid wx w).pending = s.pending := rfl
@[simp] theorem State.putWeave_timers (cid wx : Nat) (w : Weave) : (s.putWeave cid wx w).timers = s.timers := rfl
@[simp] theorem State.putWeave_evTurn (cid wx : Nat) (w : Weave) : (s.putWeave cid wx w).evTurn = s.evTurn := rfl
@[simp] theorem State.putWeave_cur (cid wx : Nat) (w : Weave) : (s.putWeave cid wx w).cur = s.cur := rfl
@[simp] theorem State.putWeave_out (cid wx : Nat) (w : Weave) : (s.putWeave cid wx w).out = s.out := rfl
@[simp] theorem State.putWeave_ids (cid wx : Nat) (w : Weave) : (s.putWeave cid wx w).ids = s.ids := rfl
@[simp] theorem State.putWeave_fresh (cid wx : Nat) (w : Weave) : (s.putWeave cid wx w).fresh = s.fresh := rfl
@[simp] theorem State.putWeave_env (cid wx : Nat) (w : Weave) : (s.putWeave cid wx w).env = s.env := rfl
@[simp] theorem State.putWeave_hbm (cid wx : Nat) (w : Weave) : (s.putWeave cid wx w).hbm = s.hbm := rfl
@[simp] theorem State.putWeave_keyTags (cid wx : Nat) (w : Weave) : (s.putWeave cid wx w).keyTags = s.keyTags := rfl
@[simp] theorem State.putWeave_ueHbm (cid wx : Nat) (w : Weave) : (s.putWeave cid wx w).ueHbm = s.ueHbm := rfl
@[simp] theorem State.putWeave_ueCommons (cid wx : Nat) (w : Weave) : (s.putWeave cid wx w).ueCommons = s.ueCommons := rfl
@[simp] theorem State.putWeave_dies (cid wx : Nat) (w : Weave) : (s.putWeave cid wx w).dies = s.dies := rfl
@[simp] theorem State.putWeave_cores (cid wx : Nat) (w : Weave) : (s.putWeave cid wx w).cores = s.cores := rfl
@[simp] theorem State.putWeave_welt (cid wx : Nat) (w : Weave) : (s.putWeave cid wx w).welt = s.welt := rfl
@[simp] theorem State.putWeave_ports (cid wx : Nat) (w : Weave) : (s.putWeave cid wx w).ports = s.ports := rfl
@[simp] theorem State.putWeave_stackErrs (cid wx : Nat) (w : Weave) : (s.putWeave cid wx w).stackErrs = s.stackErrs := rfl
@[simp] theorem State.putWeave_mgmt (cid wx : Nat) (w : Weave) : (s.putWeave cid wx w).mgmt = s.mgmt := rfl
@[simp] theorem State.putWeave_scv (cid wx : Nat) (w : Weave) : (s.putWeave cid wx w).scv = s.scv := rfl
@[simp] theorem State.putWeave_links (cid wx : Nat) (w : Weave) : (s.putWeave cid wx w).links = s.links := rfl
@[simp] theorem State.putWeave_tenants (cid wx : Nat) (w : Weave) : (s.putWeave cid wx w).tenants = s.tenants := rfl
@[simp] theorem State.putWeave_ctxs (cid wx : Nat) (w : Weave) : (s.putWeave cid wx w).ctxs = s.ctxs := rfl
@[simp] theorem State.putWeave_queues (cid wx : Nat) (w : Weave) : (s.putWeave cid wx w).queues = s.queues := rfl
@[simp] theorem State.putWeave_waits (cid wx : Nat) (w : Weave) : (s.putWeave cid wx w).waits = s.waits := rfl
@[simp] theorem State.putWeave_remoteWaits (cid wx : Nat) (w : Weave) : (s.putWeave cid wx w).remoteWaits = s.remoteWaits := rfl
@[simp] theorem State.putWeave_peerIn (cid wx : Nat) (w : Weave) : (s.putWeave cid wx w).peerIn = s.peerIn := rfl
@[simp] theorem State.putWeave_sigWait (cid wx : Nat) (w : Weave) : (s.putWeave cid wx w).sigWait = s.sigWait := rfl
@[simp] theorem State.putWeave_launches (cid wx : Nat) (w : Weave) : (s.putWeave cid wx w).launches = s.launches := rfl
@[simp] theorem State.putWeave_crews (cid wx : Nat) (w : Weave) : (s.putWeave cid wx w).crews = updWhere s.crews (fun c => c.cid == cid) fun c => c.modWeave wx fun _ => w := rfl
@[simp] theorem State.putWeave_bdir (cid wx : Nat) (w : Weave) : (s.putWeave cid wx w).bdir = s.bdir := rfl
@[simp] theorem State.putWeave_gangRes (cid wx : Nat) (w : Weave) : (s.putWeave cid wx w).gangRes = s.gangRes := rfl
@[simp] theorem State.putWeave_flights (cid wx : Nat) (w : Weave) : (s.putWeave cid wx w).flights = s.flights := rfl
@[simp] theorem State.putWeave_armed (cid wx : Nat) (w : Weave) : (s.putWeave cid wx w).armed = s.armed := rfl
@[simp] theorem State.putWeave_copies (cid wx : Nat) (w : Weave) : (s.putWeave cid wx w).copies = s.copies := rfl
@[simp] theorem State.putWeave_colls (cid wx : Nat) (w : Weave) : (s.putWeave cid wx w).colls = s.colls := rfl
@[simp] theorem State.putWeave_graphs (cid wx : Nat) (w : Weave) : (s.putWeave cid wx w).graphs = s.graphs := rfl
@[simp] theorem State.putWeave_pre (cid wx : Nat) (w : Weave) : (s.putWeave cid wx w).pre = s.pre := rfl
@[simp] theorem State.putWeave_publs (cid wx : Nat) (w : Weave) : (s.putWeave cid wx w).publs = s.publs := rfl

/-! ### modTenant -/

@[simp] theorem State.modTenant_now (tag : Nat) (f : Tenant → Tenant) : (s.modTenant tag f).now = s.now := rfl
@[simp] theorem State.modTenant_agenda (tag : Nat) (f : Tenant → Tenant) : (s.modTenant tag f).agenda = s.agenda := rfl
@[simp] theorem State.modTenant_parts (tag : Nat) (f : Tenant → Tenant) : (s.modTenant tag f).parts = s.parts := rfl
@[simp] theorem State.modTenant_pending (tag : Nat) (f : Tenant → Tenant) : (s.modTenant tag f).pending = s.pending := rfl
@[simp] theorem State.modTenant_timers (tag : Nat) (f : Tenant → Tenant) : (s.modTenant tag f).timers = s.timers := rfl
@[simp] theorem State.modTenant_evTurn (tag : Nat) (f : Tenant → Tenant) : (s.modTenant tag f).evTurn = s.evTurn := rfl
@[simp] theorem State.modTenant_cur (tag : Nat) (f : Tenant → Tenant) : (s.modTenant tag f).cur = s.cur := rfl
@[simp] theorem State.modTenant_out (tag : Nat) (f : Tenant → Tenant) : (s.modTenant tag f).out = s.out := rfl
@[simp] theorem State.modTenant_ids (tag : Nat) (f : Tenant → Tenant) : (s.modTenant tag f).ids = s.ids := rfl
@[simp] theorem State.modTenant_fresh (tag : Nat) (f : Tenant → Tenant) : (s.modTenant tag f).fresh = s.fresh := rfl
@[simp] theorem State.modTenant_env (tag : Nat) (f : Tenant → Tenant) : (s.modTenant tag f).env = s.env := rfl
@[simp] theorem State.modTenant_hbm (tag : Nat) (f : Tenant → Tenant) : (s.modTenant tag f).hbm = s.hbm := rfl
@[simp] theorem State.modTenant_keyTags (tag : Nat) (f : Tenant → Tenant) : (s.modTenant tag f).keyTags = s.keyTags := rfl
@[simp] theorem State.modTenant_ueHbm (tag : Nat) (f : Tenant → Tenant) : (s.modTenant tag f).ueHbm = s.ueHbm := rfl
@[simp] theorem State.modTenant_ueCommons (tag : Nat) (f : Tenant → Tenant) : (s.modTenant tag f).ueCommons = s.ueCommons := rfl
@[simp] theorem State.modTenant_dies (tag : Nat) (f : Tenant → Tenant) : (s.modTenant tag f).dies = s.dies := rfl
@[simp] theorem State.modTenant_cores (tag : Nat) (f : Tenant → Tenant) : (s.modTenant tag f).cores = s.cores := rfl
@[simp] theorem State.modTenant_welt (tag : Nat) (f : Tenant → Tenant) : (s.modTenant tag f).welt = s.welt := rfl
@[simp] theorem State.modTenant_ports (tag : Nat) (f : Tenant → Tenant) : (s.modTenant tag f).ports = s.ports := rfl
@[simp] theorem State.modTenant_stackErrs (tag : Nat) (f : Tenant → Tenant) : (s.modTenant tag f).stackErrs = s.stackErrs := rfl
@[simp] theorem State.modTenant_mgmt (tag : Nat) (f : Tenant → Tenant) : (s.modTenant tag f).mgmt = s.mgmt := rfl
@[simp] theorem State.modTenant_scv (tag : Nat) (f : Tenant → Tenant) : (s.modTenant tag f).scv = s.scv := rfl
@[simp] theorem State.modTenant_links (tag : Nat) (f : Tenant → Tenant) : (s.modTenant tag f).links = s.links := rfl
@[simp] theorem State.modTenant_tenants (tag : Nat) (f : Tenant → Tenant) : (s.modTenant tag f).tenants = updWhere s.tenants (fun t => t.tag == tag) f := rfl
@[simp] theorem State.modTenant_ctxs (tag : Nat) (f : Tenant → Tenant) : (s.modTenant tag f).ctxs = s.ctxs := rfl
@[simp] theorem State.modTenant_queues (tag : Nat) (f : Tenant → Tenant) : (s.modTenant tag f).queues = s.queues := rfl
@[simp] theorem State.modTenant_waits (tag : Nat) (f : Tenant → Tenant) : (s.modTenant tag f).waits = s.waits := rfl
@[simp] theorem State.modTenant_remoteWaits (tag : Nat) (f : Tenant → Tenant) : (s.modTenant tag f).remoteWaits = s.remoteWaits := rfl
@[simp] theorem State.modTenant_peerIn (tag : Nat) (f : Tenant → Tenant) : (s.modTenant tag f).peerIn = s.peerIn := rfl
@[simp] theorem State.modTenant_sigWait (tag : Nat) (f : Tenant → Tenant) : (s.modTenant tag f).sigWait = s.sigWait := rfl
@[simp] theorem State.modTenant_launches (tag : Nat) (f : Tenant → Tenant) : (s.modTenant tag f).launches = s.launches := rfl
@[simp] theorem State.modTenant_crews (tag : Nat) (f : Tenant → Tenant) : (s.modTenant tag f).crews = s.crews := rfl
@[simp] theorem State.modTenant_bdir (tag : Nat) (f : Tenant → Tenant) : (s.modTenant tag f).bdir = s.bdir := rfl
@[simp] theorem State.modTenant_gangRes (tag : Nat) (f : Tenant → Tenant) : (s.modTenant tag f).gangRes = s.gangRes := rfl
@[simp] theorem State.modTenant_flights (tag : Nat) (f : Tenant → Tenant) : (s.modTenant tag f).flights = s.flights := rfl
@[simp] theorem State.modTenant_armed (tag : Nat) (f : Tenant → Tenant) : (s.modTenant tag f).armed = s.armed := rfl
@[simp] theorem State.modTenant_copies (tag : Nat) (f : Tenant → Tenant) : (s.modTenant tag f).copies = s.copies := rfl
@[simp] theorem State.modTenant_colls (tag : Nat) (f : Tenant → Tenant) : (s.modTenant tag f).colls = s.colls := rfl
@[simp] theorem State.modTenant_graphs (tag : Nat) (f : Tenant → Tenant) : (s.modTenant tag f).graphs = s.graphs := rfl
@[simp] theorem State.modTenant_pre (tag : Nat) (f : Tenant → Tenant) : (s.modTenant tag f).pre = s.pre := rfl
@[simp] theorem State.modTenant_publs (tag : Nat) (f : Tenant → Tenant) : (s.modTenant tag f).publs = s.publs := rfl

/-! ### modQueue -/

@[simp] theorem State.modQueue_now (q : Nat) (f : Queue → Queue) : (s.modQueue q f).now = s.now := rfl
@[simp] theorem State.modQueue_agenda (q : Nat) (f : Queue → Queue) : (s.modQueue q f).agenda = s.agenda := rfl
@[simp] theorem State.modQueue_parts (q : Nat) (f : Queue → Queue) : (s.modQueue q f).parts = s.parts := rfl
@[simp] theorem State.modQueue_pending (q : Nat) (f : Queue → Queue) : (s.modQueue q f).pending = s.pending := rfl
@[simp] theorem State.modQueue_timers (q : Nat) (f : Queue → Queue) : (s.modQueue q f).timers = s.timers := rfl
@[simp] theorem State.modQueue_evTurn (q : Nat) (f : Queue → Queue) : (s.modQueue q f).evTurn = s.evTurn := rfl
@[simp] theorem State.modQueue_cur (q : Nat) (f : Queue → Queue) : (s.modQueue q f).cur = s.cur := rfl
@[simp] theorem State.modQueue_out (q : Nat) (f : Queue → Queue) : (s.modQueue q f).out = s.out := rfl
@[simp] theorem State.modQueue_ids (q : Nat) (f : Queue → Queue) : (s.modQueue q f).ids = s.ids := rfl
@[simp] theorem State.modQueue_fresh (q : Nat) (f : Queue → Queue) : (s.modQueue q f).fresh = s.fresh := rfl
@[simp] theorem State.modQueue_env (q : Nat) (f : Queue → Queue) : (s.modQueue q f).env = s.env := rfl
@[simp] theorem State.modQueue_hbm (q : Nat) (f : Queue → Queue) : (s.modQueue q f).hbm = s.hbm := rfl
@[simp] theorem State.modQueue_keyTags (q : Nat) (f : Queue → Queue) : (s.modQueue q f).keyTags = s.keyTags := rfl
@[simp] theorem State.modQueue_ueHbm (q : Nat) (f : Queue → Queue) : (s.modQueue q f).ueHbm = s.ueHbm := rfl
@[simp] theorem State.modQueue_ueCommons (q : Nat) (f : Queue → Queue) : (s.modQueue q f).ueCommons = s.ueCommons := rfl
@[simp] theorem State.modQueue_dies (q : Nat) (f : Queue → Queue) : (s.modQueue q f).dies = s.dies := rfl
@[simp] theorem State.modQueue_cores (q : Nat) (f : Queue → Queue) : (s.modQueue q f).cores = s.cores := rfl
@[simp] theorem State.modQueue_welt (q : Nat) (f : Queue → Queue) : (s.modQueue q f).welt = s.welt := rfl
@[simp] theorem State.modQueue_ports (q : Nat) (f : Queue → Queue) : (s.modQueue q f).ports = s.ports := rfl
@[simp] theorem State.modQueue_stackErrs (q : Nat) (f : Queue → Queue) : (s.modQueue q f).stackErrs = s.stackErrs := rfl
@[simp] theorem State.modQueue_mgmt (q : Nat) (f : Queue → Queue) : (s.modQueue q f).mgmt = s.mgmt := rfl
@[simp] theorem State.modQueue_scv (q : Nat) (f : Queue → Queue) : (s.modQueue q f).scv = s.scv := rfl
@[simp] theorem State.modQueue_links (q : Nat) (f : Queue → Queue) : (s.modQueue q f).links = s.links := rfl
@[simp] theorem State.modQueue_tenants (q : Nat) (f : Queue → Queue) : (s.modQueue q f).tenants = s.tenants := rfl
@[simp] theorem State.modQueue_ctxs (q : Nat) (f : Queue → Queue) : (s.modQueue q f).ctxs = s.ctxs := rfl
@[simp] theorem State.modQueue_queues (q : Nat) (f : Queue → Queue) : (s.modQueue q f).queues = updWhere s.queues (fun x => x.q == q) f := rfl
@[simp] theorem State.modQueue_waits (q : Nat) (f : Queue → Queue) : (s.modQueue q f).waits = s.waits := rfl
@[simp] theorem State.modQueue_remoteWaits (q : Nat) (f : Queue → Queue) : (s.modQueue q f).remoteWaits = s.remoteWaits := rfl
@[simp] theorem State.modQueue_peerIn (q : Nat) (f : Queue → Queue) : (s.modQueue q f).peerIn = s.peerIn := rfl
@[simp] theorem State.modQueue_sigWait (q : Nat) (f : Queue → Queue) : (s.modQueue q f).sigWait = s.sigWait := rfl
@[simp] theorem State.modQueue_launches (q : Nat) (f : Queue → Queue) : (s.modQueue q f).launches = s.launches := rfl
@[simp] theorem State.modQueue_crews (q : Nat) (f : Queue → Queue) : (s.modQueue q f).crews = s.crews := rfl
@[simp] theorem State.modQueue_bdir (q : Nat) (f : Queue → Queue) : (s.modQueue q f).bdir = s.bdir := rfl
@[simp] theorem State.modQueue_gangRes (q : Nat) (f : Queue → Queue) : (s.modQueue q f).gangRes = s.gangRes := rfl
@[simp] theorem State.modQueue_flights (q : Nat) (f : Queue → Queue) : (s.modQueue q f).flights = s.flights := rfl
@[simp] theorem State.modQueue_armed (q : Nat) (f : Queue → Queue) : (s.modQueue q f).armed = s.armed := rfl
@[simp] theorem State.modQueue_copies (q : Nat) (f : Queue → Queue) : (s.modQueue q f).copies = s.copies := rfl
@[simp] theorem State.modQueue_colls (q : Nat) (f : Queue → Queue) : (s.modQueue q f).colls = s.colls := rfl
@[simp] theorem State.modQueue_graphs (q : Nat) (f : Queue → Queue) : (s.modQueue q f).graphs = s.graphs := rfl
@[simp] theorem State.modQueue_pre (q : Nat) (f : Queue → Queue) : (s.modQueue q f).pre = s.pre := rfl
@[simp] theorem State.modQueue_publs (q : Nat) (f : Queue → Queue) : (s.modQueue q f).publs = s.publs := rfl

/-! ### modCtx -/

@[simp] theorem State.modCtx_now (id : Nat) (f : Ctx → Ctx) : (s.modCtx id f).now = s.now := rfl
@[simp] theorem State.modCtx_agenda (id : Nat) (f : Ctx → Ctx) : (s.modCtx id f).agenda = s.agenda := rfl
@[simp] theorem State.modCtx_parts (id : Nat) (f : Ctx → Ctx) : (s.modCtx id f).parts = s.parts := rfl
@[simp] theorem State.modCtx_pending (id : Nat) (f : Ctx → Ctx) : (s.modCtx id f).pending = s.pending := rfl
@[simp] theorem State.modCtx_timers (id : Nat) (f : Ctx → Ctx) : (s.modCtx id f).timers = s.timers := rfl
@[simp] theorem State.modCtx_evTurn (id : Nat) (f : Ctx → Ctx) : (s.modCtx id f).evTurn = s.evTurn := rfl
@[simp] theorem State.modCtx_cur (id : Nat) (f : Ctx → Ctx) : (s.modCtx id f).cur = s.cur := rfl
@[simp] theorem State.modCtx_out (id : Nat) (f : Ctx → Ctx) : (s.modCtx id f).out = s.out := rfl
@[simp] theorem State.modCtx_ids (id : Nat) (f : Ctx → Ctx) : (s.modCtx id f).ids = s.ids := rfl
@[simp] theorem State.modCtx_fresh (id : Nat) (f : Ctx → Ctx) : (s.modCtx id f).fresh = s.fresh := rfl
@[simp] theorem State.modCtx_env (id : Nat) (f : Ctx → Ctx) : (s.modCtx id f).env = s.env := rfl
@[simp] theorem State.modCtx_hbm (id : Nat) (f : Ctx → Ctx) : (s.modCtx id f).hbm = s.hbm := rfl
@[simp] theorem State.modCtx_keyTags (id : Nat) (f : Ctx → Ctx) : (s.modCtx id f).keyTags = s.keyTags := rfl
@[simp] theorem State.modCtx_ueHbm (id : Nat) (f : Ctx → Ctx) : (s.modCtx id f).ueHbm = s.ueHbm := rfl
@[simp] theorem State.modCtx_ueCommons (id : Nat) (f : Ctx → Ctx) : (s.modCtx id f).ueCommons = s.ueCommons := rfl
@[simp] theorem State.modCtx_dies (id : Nat) (f : Ctx → Ctx) : (s.modCtx id f).dies = s.dies := rfl
@[simp] theorem State.modCtx_cores (id : Nat) (f : Ctx → Ctx) : (s.modCtx id f).cores = s.cores := rfl
@[simp] theorem State.modCtx_welt (id : Nat) (f : Ctx → Ctx) : (s.modCtx id f).welt = s.welt := rfl
@[simp] theorem State.modCtx_ports (id : Nat) (f : Ctx → Ctx) : (s.modCtx id f).ports = s.ports := rfl
@[simp] theorem State.modCtx_stackErrs (id : Nat) (f : Ctx → Ctx) : (s.modCtx id f).stackErrs = s.stackErrs := rfl
@[simp] theorem State.modCtx_mgmt (id : Nat) (f : Ctx → Ctx) : (s.modCtx id f).mgmt = s.mgmt := rfl
@[simp] theorem State.modCtx_scv (id : Nat) (f : Ctx → Ctx) : (s.modCtx id f).scv = s.scv := rfl
@[simp] theorem State.modCtx_links (id : Nat) (f : Ctx → Ctx) : (s.modCtx id f).links = s.links := rfl
@[simp] theorem State.modCtx_tenants (id : Nat) (f : Ctx → Ctx) : (s.modCtx id f).tenants = s.tenants := rfl
@[simp] theorem State.modCtx_ctxs (id : Nat) (f : Ctx → Ctx) : (s.modCtx id f).ctxs = updWhere s.ctxs (fun c => c.id == id) f := rfl
@[simp] theorem State.modCtx_queues (id : Nat) (f : Ctx → Ctx) : (s.modCtx id f).queues = s.queues := rfl
@[simp] theorem State.modCtx_waits (id : Nat) (f : Ctx → Ctx) : (s.modCtx id f).waits = s.waits := rfl
@[simp] theorem State.modCtx_remoteWaits (id : Nat) (f : Ctx → Ctx) : (s.modCtx id f).remoteWaits = s.remoteWaits := rfl
@[simp] theorem State.modCtx_peerIn (id : Nat) (f : Ctx → Ctx) : (s.modCtx id f).peerIn = s.peerIn := rfl
@[simp] theorem State.modCtx_sigWait (id : Nat) (f : Ctx → Ctx) : (s.modCtx id f).sigWait = s.sigWait := rfl
@[simp] theorem State.modCtx_launches (id : Nat) (f : Ctx → Ctx) : (s.modCtx id f).launches = s.launches := rfl
@[simp] theorem State.modCtx_crews (id : Nat) (f : Ctx → Ctx) : (s.modCtx id f).crews = s.crews := rfl
@[simp] theorem State.modCtx_bdir (id : Nat) (f : Ctx → Ctx) : (s.modCtx id f).bdir = s.bdir := rfl
@[simp] theorem State.modCtx_gangRes (id : Nat) (f : Ctx → Ctx) : (s.modCtx id f).gangRes = s.gangRes := rfl
@[simp] theorem State.modCtx_flights (id : Nat) (f : Ctx → Ctx) : (s.modCtx id f).flights = s.flights := rfl
@[simp] theorem State.modCtx_armed (id : Nat) (f : Ctx → Ctx) : (s.modCtx id f).armed = s.armed := rfl
@[simp] theorem State.modCtx_copies (id : Nat) (f : Ctx → Ctx) : (s.modCtx id f).copies = s.copies := rfl
@[simp] theorem State.modCtx_colls (id : Nat) (f : Ctx → Ctx) : (s.modCtx id f).colls = s.colls := rfl
@[simp] theorem State.modCtx_graphs (id : Nat) (f : Ctx → Ctx) : (s.modCtx id f).graphs = s.graphs := rfl
@[simp] theorem State.modCtx_pre (id : Nat) (f : Ctx → Ctx) : (s.modCtx id f).pre = s.pre := rfl
@[simp] theorem State.modCtx_publs (id : Nat) (f : Ctx → Ctx) : (s.modCtx id f).publs = s.publs := rfl

/-! ### modLaunch -/

@[simp] theorem State.modLaunch_now (lid : Nat) (f : Launch → Launch) : (s.modLaunch lid f).now = s.now := rfl
@[simp] theorem State.modLaunch_agenda (lid : Nat) (f : Launch → Launch) : (s.modLaunch lid f).agenda = s.agenda := rfl
@[simp] theorem State.modLaunch_parts (lid : Nat) (f : Launch → Launch) : (s.modLaunch lid f).parts = s.parts := rfl
@[simp] theorem State.modLaunch_pending (lid : Nat) (f : Launch → Launch) : (s.modLaunch lid f).pending = s.pending := rfl
@[simp] theorem State.modLaunch_timers (lid : Nat) (f : Launch → Launch) : (s.modLaunch lid f).timers = s.timers := rfl
@[simp] theorem State.modLaunch_evTurn (lid : Nat) (f : Launch → Launch) : (s.modLaunch lid f).evTurn = s.evTurn := rfl
@[simp] theorem State.modLaunch_cur (lid : Nat) (f : Launch → Launch) : (s.modLaunch lid f).cur = s.cur := rfl
@[simp] theorem State.modLaunch_out (lid : Nat) (f : Launch → Launch) : (s.modLaunch lid f).out = s.out := rfl
@[simp] theorem State.modLaunch_ids (lid : Nat) (f : Launch → Launch) : (s.modLaunch lid f).ids = s.ids := rfl
@[simp] theorem State.modLaunch_fresh (lid : Nat) (f : Launch → Launch) : (s.modLaunch lid f).fresh = s.fresh := rfl
@[simp] theorem State.modLaunch_env (lid : Nat) (f : Launch → Launch) : (s.modLaunch lid f).env = s.env := rfl
@[simp] theorem State.modLaunch_hbm (lid : Nat) (f : Launch → Launch) : (s.modLaunch lid f).hbm = s.hbm := rfl
@[simp] theorem State.modLaunch_keyTags (lid : Nat) (f : Launch → Launch) : (s.modLaunch lid f).keyTags = s.keyTags := rfl
@[simp] theorem State.modLaunch_ueHbm (lid : Nat) (f : Launch → Launch) : (s.modLaunch lid f).ueHbm = s.ueHbm := rfl
@[simp] theorem State.modLaunch_ueCommons (lid : Nat) (f : Launch → Launch) : (s.modLaunch lid f).ueCommons = s.ueCommons := rfl
@[simp] theorem State.modLaunch_dies (lid : Nat) (f : Launch → Launch) : (s.modLaunch lid f).dies = s.dies := rfl
@[simp] theorem State.modLaunch_cores (lid : Nat) (f : Launch → Launch) : (s.modLaunch lid f).cores = s.cores := rfl
@[simp] theorem State.modLaunch_welt (lid : Nat) (f : Launch → Launch) : (s.modLaunch lid f).welt = s.welt := rfl
@[simp] theorem State.modLaunch_ports (lid : Nat) (f : Launch → Launch) : (s.modLaunch lid f).ports = s.ports := rfl
@[simp] theorem State.modLaunch_stackErrs (lid : Nat) (f : Launch → Launch) : (s.modLaunch lid f).stackErrs = s.stackErrs := rfl
@[simp] theorem State.modLaunch_mgmt (lid : Nat) (f : Launch → Launch) : (s.modLaunch lid f).mgmt = s.mgmt := rfl
@[simp] theorem State.modLaunch_scv (lid : Nat) (f : Launch → Launch) : (s.modLaunch lid f).scv = s.scv := rfl
@[simp] theorem State.modLaunch_links (lid : Nat) (f : Launch → Launch) : (s.modLaunch lid f).links = s.links := rfl
@[simp] theorem State.modLaunch_tenants (lid : Nat) (f : Launch → Launch) : (s.modLaunch lid f).tenants = s.tenants := rfl
@[simp] theorem State.modLaunch_ctxs (lid : Nat) (f : Launch → Launch) : (s.modLaunch lid f).ctxs = s.ctxs := rfl
@[simp] theorem State.modLaunch_queues (lid : Nat) (f : Launch → Launch) : (s.modLaunch lid f).queues = s.queues := rfl
@[simp] theorem State.modLaunch_waits (lid : Nat) (f : Launch → Launch) : (s.modLaunch lid f).waits = s.waits := rfl
@[simp] theorem State.modLaunch_remoteWaits (lid : Nat) (f : Launch → Launch) : (s.modLaunch lid f).remoteWaits = s.remoteWaits := rfl
@[simp] theorem State.modLaunch_peerIn (lid : Nat) (f : Launch → Launch) : (s.modLaunch lid f).peerIn = s.peerIn := rfl
@[simp] theorem State.modLaunch_sigWait (lid : Nat) (f : Launch → Launch) : (s.modLaunch lid f).sigWait = s.sigWait := rfl
@[simp] theorem State.modLaunch_launches (lid : Nat) (f : Launch → Launch) : (s.modLaunch lid f).launches = updWhere s.launches (fun l => l.lid == lid) f := rfl
@[simp] theorem State.modLaunch_crews (lid : Nat) (f : Launch → Launch) : (s.modLaunch lid f).crews = s.crews := rfl
@[simp] theorem State.modLaunch_bdir (lid : Nat) (f : Launch → Launch) : (s.modLaunch lid f).bdir = s.bdir := rfl
@[simp] theorem State.modLaunch_gangRes (lid : Nat) (f : Launch → Launch) : (s.modLaunch lid f).gangRes = s.gangRes := rfl
@[simp] theorem State.modLaunch_flights (lid : Nat) (f : Launch → Launch) : (s.modLaunch lid f).flights = s.flights := rfl
@[simp] theorem State.modLaunch_armed (lid : Nat) (f : Launch → Launch) : (s.modLaunch lid f).armed = s.armed := rfl
@[simp] theorem State.modLaunch_copies (lid : Nat) (f : Launch → Launch) : (s.modLaunch lid f).copies = s.copies := rfl
@[simp] theorem State.modLaunch_colls (lid : Nat) (f : Launch → Launch) : (s.modLaunch lid f).colls = s.colls := rfl
@[simp] theorem State.modLaunch_graphs (lid : Nat) (f : Launch → Launch) : (s.modLaunch lid f).graphs = s.graphs := rfl
@[simp] theorem State.modLaunch_pre (lid : Nat) (f : Launch → Launch) : (s.modLaunch lid f).pre = s.pre := rfl
@[simp] theorem State.modLaunch_publs (lid : Nat) (f : Launch → Launch) : (s.modLaunch lid f).publs = s.publs := rfl

/-! ### modBdir -/

@[simp] theorem State.modBdir_now (num : Nat) (f : BdirRec → BdirRec) : (s.modBdir num f).now = s.now := rfl
@[simp] theorem State.modBdir_agenda (num : Nat) (f : BdirRec → BdirRec) : (s.modBdir num f).agenda = s.agenda := rfl
@[simp] theorem State.modBdir_parts (num : Nat) (f : BdirRec → BdirRec) : (s.modBdir num f).parts = s.parts := rfl
@[simp] theorem State.modBdir_pending (num : Nat) (f : BdirRec → BdirRec) : (s.modBdir num f).pending = s.pending := rfl
@[simp] theorem State.modBdir_timers (num : Nat) (f : BdirRec → BdirRec) : (s.modBdir num f).timers = s.timers := rfl
@[simp] theorem State.modBdir_evTurn (num : Nat) (f : BdirRec → BdirRec) : (s.modBdir num f).evTurn = s.evTurn := rfl
@[simp] theorem State.modBdir_cur (num : Nat) (f : BdirRec → BdirRec) : (s.modBdir num f).cur = s.cur := rfl
@[simp] theorem State.modBdir_out (num : Nat) (f : BdirRec → BdirRec) : (s.modBdir num f).out = s.out := rfl
@[simp] theorem State.modBdir_ids (num : Nat) (f : BdirRec → BdirRec) : (s.modBdir num f).ids = s.ids := rfl
@[simp] theorem State.modBdir_fresh (num : Nat) (f : BdirRec → BdirRec) : (s.modBdir num f).fresh = s.fresh := rfl
@[simp] theorem State.modBdir_env (num : Nat) (f : BdirRec → BdirRec) : (s.modBdir num f).env = s.env := rfl
@[simp] theorem State.modBdir_hbm (num : Nat) (f : BdirRec → BdirRec) : (s.modBdir num f).hbm = s.hbm := rfl
@[simp] theorem State.modBdir_keyTags (num : Nat) (f : BdirRec → BdirRec) : (s.modBdir num f).keyTags = s.keyTags := rfl
@[simp] theorem State.modBdir_ueHbm (num : Nat) (f : BdirRec → BdirRec) : (s.modBdir num f).ueHbm = s.ueHbm := rfl
@[simp] theorem State.modBdir_ueCommons (num : Nat) (f : BdirRec → BdirRec) : (s.modBdir num f).ueCommons = s.ueCommons := rfl
@[simp] theorem State.modBdir_dies (num : Nat) (f : BdirRec → BdirRec) : (s.modBdir num f).dies = s.dies := rfl
@[simp] theorem State.modBdir_cores (num : Nat) (f : BdirRec → BdirRec) : (s.modBdir num f).cores = s.cores := rfl
@[simp] theorem State.modBdir_welt (num : Nat) (f : BdirRec → BdirRec) : (s.modBdir num f).welt = s.welt := rfl
@[simp] theorem State.modBdir_ports (num : Nat) (f : BdirRec → BdirRec) : (s.modBdir num f).ports = s.ports := rfl
@[simp] theorem State.modBdir_stackErrs (num : Nat) (f : BdirRec → BdirRec) : (s.modBdir num f).stackErrs = s.stackErrs := rfl
@[simp] theorem State.modBdir_mgmt (num : Nat) (f : BdirRec → BdirRec) : (s.modBdir num f).mgmt = s.mgmt := rfl
@[simp] theorem State.modBdir_scv (num : Nat) (f : BdirRec → BdirRec) : (s.modBdir num f).scv = s.scv := rfl
@[simp] theorem State.modBdir_links (num : Nat) (f : BdirRec → BdirRec) : (s.modBdir num f).links = s.links := rfl
@[simp] theorem State.modBdir_tenants (num : Nat) (f : BdirRec → BdirRec) : (s.modBdir num f).tenants = s.tenants := rfl
@[simp] theorem State.modBdir_ctxs (num : Nat) (f : BdirRec → BdirRec) : (s.modBdir num f).ctxs = s.ctxs := rfl
@[simp] theorem State.modBdir_queues (num : Nat) (f : BdirRec → BdirRec) : (s.modBdir num f).queues = s.queues := rfl
@[simp] theorem State.modBdir_waits (num : Nat) (f : BdirRec → BdirRec) : (s.modBdir num f).waits = s.waits := rfl
@[simp] theorem State.modBdir_remoteWaits (num : Nat) (f : BdirRec → BdirRec) : (s.modBdir num f).remoteWaits = s.remoteWaits := rfl
@[simp] theorem State.modBdir_peerIn (num : Nat) (f : BdirRec → BdirRec) : (s.modBdir num f).peerIn = s.peerIn := rfl
@[simp] theorem State.modBdir_sigWait (num : Nat) (f : BdirRec → BdirRec) : (s.modBdir num f).sigWait = s.sigWait := rfl
@[simp] theorem State.modBdir_launches (num : Nat) (f : BdirRec → BdirRec) : (s.modBdir num f).launches = s.launches := rfl
@[simp] theorem State.modBdir_crews (num : Nat) (f : BdirRec → BdirRec) : (s.modBdir num f).crews = s.crews := rfl
@[simp] theorem State.modBdir_bdir (num : Nat) (f : BdirRec → BdirRec) : (s.modBdir num f).bdir = updWhere s.bdir (fun r => r.num == num) f := rfl
@[simp] theorem State.modBdir_gangRes (num : Nat) (f : BdirRec → BdirRec) : (s.modBdir num f).gangRes = s.gangRes := rfl
@[simp] theorem State.modBdir_flights (num : Nat) (f : BdirRec → BdirRec) : (s.modBdir num f).flights = s.flights := rfl
@[simp] theorem State.modBdir_armed (num : Nat) (f : BdirRec → BdirRec) : (s.modBdir num f).armed = s.armed := rfl
@[simp] theorem State.modBdir_copies (num : Nat) (f : BdirRec → BdirRec) : (s.modBdir num f).copies = s.copies := rfl
@[simp] theorem State.modBdir_colls (num : Nat) (f : BdirRec → BdirRec) : (s.modBdir num f).colls = s.colls := rfl
@[simp] theorem State.modBdir_graphs (num : Nat) (f : BdirRec → BdirRec) : (s.modBdir num f).graphs = s.graphs := rfl
@[simp] theorem State.modBdir_pre (num : Nat) (f : BdirRec → BdirRec) : (s.modBdir num f).pre = s.pre := rfl
@[simp] theorem State.modBdir_publs (num : Nat) (f : BdirRec → BdirRec) : (s.modBdir num f).publs = s.publs := rfl

/-! ### modGraph -/

@[simp] theorem State.modGraph_now (gid : Nat) (f : Graph → Graph) : (s.modGraph gid f).now = s.now := rfl
@[simp] theorem State.modGraph_agenda (gid : Nat) (f : Graph → Graph) : (s.modGraph gid f).agenda = s.agenda := rfl
@[simp] theorem State.modGraph_parts (gid : Nat) (f : Graph → Graph) : (s.modGraph gid f).parts = s.parts := rfl
@[simp] theorem State.modGraph_pending (gid : Nat) (f : Graph → Graph) : (s.modGraph gid f).pending = s.pending := rfl
@[simp] theorem State.modGraph_timers (gid : Nat) (f : Graph → Graph) : (s.modGraph gid f).timers = s.timers := rfl
@[simp] theorem State.modGraph_evTurn (gid : Nat) (f : Graph → Graph) : (s.modGraph gid f).evTurn = s.evTurn := rfl
@[simp] theorem State.modGraph_cur (gid : Nat) (f : Graph → Graph) : (s.modGraph gid f).cur = s.cur := rfl
@[simp] theorem State.modGraph_out (gid : Nat) (f : Graph → Graph) : (s.modGraph gid f).out = s.out := rfl
@[simp] theorem State.modGraph_ids (gid : Nat) (f : Graph → Graph) : (s.modGraph gid f).ids = s.ids := rfl
@[simp] theorem State.modGraph_fresh (gid : Nat) (f : Graph → Graph) : (s.modGraph gid f).fresh = s.fresh := rfl
@[simp] theorem State.modGraph_env (gid : Nat) (f : Graph → Graph) : (s.modGraph gid f).env = s.env := rfl
@[simp] theorem State.modGraph_hbm (gid : Nat) (f : Graph → Graph) : (s.modGraph gid f).hbm = s.hbm := rfl
@[simp] theorem State.modGraph_keyTags (gid : Nat) (f : Graph → Graph) : (s.modGraph gid f).keyTags = s.keyTags := rfl
@[simp] theorem State.modGraph_ueHbm (gid : Nat) (f : Graph → Graph) : (s.modGraph gid f).ueHbm = s.ueHbm := rfl
@[simp] theorem State.modGraph_ueCommons (gid : Nat) (f : Graph → Graph) : (s.modGraph gid f).ueCommons = s.ueCommons := rfl
@[simp] theorem State.modGraph_dies (gid : Nat) (f : Graph → Graph) : (s.modGraph gid f).dies = s.dies := rfl
@[simp] theorem State.modGraph_cores (gid : Nat) (f : Graph → Graph) : (s.modGraph gid f).cores = s.cores := rfl
@[simp] theorem State.modGraph_welt (gid : Nat) (f : Graph → Graph) : (s.modGraph gid f).welt = s.welt := rfl
@[simp] theorem State.modGraph_ports (gid : Nat) (f : Graph → Graph) : (s.modGraph gid f).ports = s.ports := rfl
@[simp] theorem State.modGraph_stackErrs (gid : Nat) (f : Graph → Graph) : (s.modGraph gid f).stackErrs = s.stackErrs := rfl
@[simp] theorem State.modGraph_mgmt (gid : Nat) (f : Graph → Graph) : (s.modGraph gid f).mgmt = s.mgmt := rfl
@[simp] theorem State.modGraph_scv (gid : Nat) (f : Graph → Graph) : (s.modGraph gid f).scv = s.scv := rfl
@[simp] theorem State.modGraph_links (gid : Nat) (f : Graph → Graph) : (s.modGraph gid f).links = s.links := rfl
@[simp] theorem State.modGraph_tenants (gid : Nat) (f : Graph → Graph) : (s.modGraph gid f).tenants = s.tenants := rfl
@[simp] theorem State.modGraph_ctxs (gid : Nat) (f : Graph → Graph) : (s.modGraph gid f).ctxs = s.ctxs := rfl
@[simp] theorem State.modGraph_queues (gid : Nat) (f : Graph → Graph) : (s.modGraph gid f).queues = s.queues := rfl
@[simp] theorem State.modGraph_waits (gid : Nat) (f : Graph → Graph) : (s.modGraph gid f).waits = s.waits := rfl
@[simp] theorem State.modGraph_remoteWaits (gid : Nat) (f : Graph → Graph) : (s.modGraph gid f).remoteWaits = s.remoteWaits := rfl
@[simp] theorem State.modGraph_peerIn (gid : Nat) (f : Graph → Graph) : (s.modGraph gid f).peerIn = s.peerIn := rfl
@[simp] theorem State.modGraph_sigWait (gid : Nat) (f : Graph → Graph) : (s.modGraph gid f).sigWait = s.sigWait := rfl
@[simp] theorem State.modGraph_launches (gid : Nat) (f : Graph → Graph) : (s.modGraph gid f).launches = s.launches := rfl
@[simp] theorem State.modGraph_crews (gid : Nat) (f : Graph → Graph) : (s.modGraph gid f).crews = s.crews := rfl
@[simp] theorem State.modGraph_bdir (gid : Nat) (f : Graph → Graph) : (s.modGraph gid f).bdir = s.bdir := rfl
@[simp] theorem State.modGraph_gangRes (gid : Nat) (f : Graph → Graph) : (s.modGraph gid f).gangRes = s.gangRes := rfl
@[simp] theorem State.modGraph_flights (gid : Nat) (f : Graph → Graph) : (s.modGraph gid f).flights = s.flights := rfl
@[simp] theorem State.modGraph_armed (gid : Nat) (f : Graph → Graph) : (s.modGraph gid f).armed = s.armed := rfl
@[simp] theorem State.modGraph_copies (gid : Nat) (f : Graph → Graph) : (s.modGraph gid f).copies = s.copies := rfl
@[simp] theorem State.modGraph_colls (gid : Nat) (f : Graph → Graph) : (s.modGraph gid f).colls = s.colls := rfl
@[simp] theorem State.modGraph_graphs (gid : Nat) (f : Graph → Graph) : (s.modGraph gid f).graphs = updWhere s.graphs (fun g => g.gid == gid) f := rfl
@[simp] theorem State.modGraph_pre (gid : Nat) (f : Graph → Graph) : (s.modGraph gid f).pre = s.pre := rfl
@[simp] theorem State.modGraph_publs (gid : Nat) (f : Graph → Graph) : (s.modGraph gid f).publs = s.publs := rfl

/-! ### modDie -/

@[simp] theorem State.modDie_now (d : Nat) (f : Die → Die) : (s.modDie d f).now = s.now := rfl
@[simp] theorem State.modDie_agenda (d : Nat) (f : Die → Die) : (s.modDie d f).agenda = s.agenda := rfl
@[simp] theorem State.modDie_parts (d : Nat) (f : Die → Die) : (s.modDie d f).parts = s.parts := rfl
@[simp] theorem State.modDie_pending (d : Nat) (f : Die → Die) : (s.modDie d f).pending = s.pending := rfl
@[simp] theorem State.modDie_timers (d : Nat) (f : Die → Die) : (s.modDie d f).timers = s.timers := rfl
@[simp] theorem State.modDie_evTurn (d : Nat) (f : Die → Die) : (s.modDie d f).evTurn = s.evTurn := rfl
@[simp] theorem State.modDie_cur (d : Nat) (f : Die → Die) : (s.modDie d f).cur = s.cur := rfl
@[simp] theorem State.modDie_out (d : Nat) (f : Die → Die) : (s.modDie d f).out = s.out := rfl
@[simp] theorem State.modDie_ids (d : Nat) (f : Die → Die) : (s.modDie d f).ids = s.ids := rfl
@[simp] theorem State.modDie_fresh (d : Nat) (f : Die → Die) : (s.modDie d f).fresh = s.fresh := rfl
@[simp] theorem State.modDie_env (d : Nat) (f : Die → Die) : (s.modDie d f).env = s.env := rfl
@[simp] theorem State.modDie_hbm (d : Nat) (f : Die → Die) : (s.modDie d f).hbm = s.hbm := rfl
@[simp] theorem State.modDie_keyTags (d : Nat) (f : Die → Die) : (s.modDie d f).keyTags = s.keyTags := rfl
@[simp] theorem State.modDie_ueHbm (d : Nat) (f : Die → Die) : (s.modDie d f).ueHbm = s.ueHbm := rfl
@[simp] theorem State.modDie_ueCommons (d : Nat) (f : Die → Die) : (s.modDie d f).ueCommons = s.ueCommons := rfl
@[simp] theorem State.modDie_dies (d : Nat) (f : Die → Die) : (s.modDie d f).dies = modNth s.dies d f := rfl
@[simp] theorem State.modDie_cores (d : Nat) (f : Die → Die) : (s.modDie d f).cores = s.cores := rfl
@[simp] theorem State.modDie_welt (d : Nat) (f : Die → Die) : (s.modDie d f).welt = s.welt := rfl
@[simp] theorem State.modDie_ports (d : Nat) (f : Die → Die) : (s.modDie d f).ports = s.ports := rfl
@[simp] theorem State.modDie_stackErrs (d : Nat) (f : Die → Die) : (s.modDie d f).stackErrs = s.stackErrs := rfl
@[simp] theorem State.modDie_mgmt (d : Nat) (f : Die → Die) : (s.modDie d f).mgmt = s.mgmt := rfl
@[simp] theorem State.modDie_scv (d : Nat) (f : Die → Die) : (s.modDie d f).scv = s.scv := rfl
@[simp] theorem State.modDie_links (d : Nat) (f : Die → Die) : (s.modDie d f).links = s.links := rfl
@[simp] theorem State.modDie_tenants (d : Nat) (f : Die → Die) : (s.modDie d f).tenants = s.tenants := rfl
@[simp] theorem State.modDie_ctxs (d : Nat) (f : Die → Die) : (s.modDie d f).ctxs = s.ctxs := rfl
@[simp] theorem State.modDie_queues (d : Nat) (f : Die → Die) : (s.modDie d f).queues = s.queues := rfl
@[simp] theorem State.modDie_waits (d : Nat) (f : Die → Die) : (s.modDie d f).waits = s.waits := rfl
@[simp] theorem State.modDie_remoteWaits (d : Nat) (f : Die → Die) : (s.modDie d f).remoteWaits = s.remoteWaits := rfl
@[simp] theorem State.modDie_peerIn (d : Nat) (f : Die → Die) : (s.modDie d f).peerIn = s.peerIn := rfl
@[simp] theorem State.modDie_sigWait (d : Nat) (f : Die → Die) : (s.modDie d f).sigWait = s.sigWait := rfl
@[simp] theorem State.modDie_launches (d : Nat) (f : Die → Die) : (s.modDie d f).launches = s.launches := rfl
@[simp] theorem State.modDie_crews (d : Nat) (f : Die → Die) : (s.modDie d f).crews = s.crews := rfl
@[simp] theorem State.modDie_bdir (d : Nat) (f : Die → Die) : (s.modDie d f).bdir = s.bdir := rfl
@[simp] theorem State.modDie_gangRes (d : Nat) (f : Die → Die) : (s.modDie d f).gangRes = s.gangRes := rfl
@[simp] theorem State.modDie_flights (d : Nat) (f : Die → Die) : (s.modDie d f).flights = s.flights := rfl
@[simp] theorem State.modDie_armed (d : Nat) (f : Die → Die) : (s.modDie d f).armed = s.armed := rfl
@[simp] theorem State.modDie_copies (d : Nat) (f : Die → Die) : (s.modDie d f).copies = s.copies := rfl
@[simp] theorem State.modDie_colls (d : Nat) (f : Die → Die) : (s.modDie d f).colls = s.colls := rfl
@[simp] theorem State.modDie_graphs (d : Nat) (f : Die → Die) : (s.modDie d f).graphs = s.graphs := rfl
@[simp] theorem State.modDie_pre (d : Nat) (f : Die → Die) : (s.modDie d f).pre = s.pre := rfl
@[simp] theorem State.modDie_publs (d : Nat) (f : Die → Die) : (s.modDie d f).publs = s.publs := rfl

/-! ### modCore -/

@[simp] theorem State.modCore_now (k : Nat) (f : Core → Core) : (s.modCore k f).now = s.now := rfl
@[simp] theorem State.modCore_agenda (k : Nat) (f : Core → Core) : (s.modCore k f).agenda = s.agenda := rfl
@[simp] theorem State.modCore_parts (k : Nat) (f : Core → Core) : (s.modCore k f).parts = s.parts := rfl
@[simp] theorem State.modCore_pending (k : Nat) (f : Core → Core) : (s.modCore k f).pending = s.pending := rfl
@[simp] theorem State.modCore_timers (k : Nat) (f : Core → Core) : (s.modCore k f).timers = s.timers := rfl
@[simp] theorem State.modCore_evTurn (k : Nat) (f : Core → Core) : (s.modCore k f).evTurn = s.evTurn := rfl
@[simp] theorem State.modCore_cur (k : Nat) (f : Core → Core) : (s.modCore k f).cur = s.cur := rfl
@[simp] theorem State.modCore_out (k : Nat) (f : Core → Core) : (s.modCore k f).out = s.out := rfl
@[simp] theorem State.modCore_ids (k : Nat) (f : Core → Core) : (s.modCore k f).ids = s.ids := rfl
@[simp] theorem State.modCore_fresh (k : Nat) (f : Core → Core) : (s.modCore k f).fresh = s.fresh := rfl
@[simp] theorem State.modCore_env (k : Nat) (f : Core → Core) : (s.modCore k f).env = s.env := rfl
@[simp] theorem State.modCore_hbm (k : Nat) (f : Core → Core) : (s.modCore k f).hbm = s.hbm := rfl
@[simp] theorem State.modCore_keyTags (k : Nat) (f : Core → Core) : (s.modCore k f).keyTags = s.keyTags := rfl
@[simp] theorem State.modCore_ueHbm (k : Nat) (f : Core → Core) : (s.modCore k f).ueHbm = s.ueHbm := rfl
@[simp] theorem State.modCore_ueCommons (k : Nat) (f : Core → Core) : (s.modCore k f).ueCommons = s.ueCommons := rfl
@[simp] theorem State.modCore_dies (k : Nat) (f : Core → Core) : (s.modCore k f).dies = s.dies := rfl
@[simp] theorem State.modCore_cores (k : Nat) (f : Core → Core) : (s.modCore k f).cores = modNth s.cores k f := rfl
@[simp] theorem State.modCore_welt (k : Nat) (f : Core → Core) : (s.modCore k f).welt = s.welt := rfl
@[simp] theorem State.modCore_ports (k : Nat) (f : Core → Core) : (s.modCore k f).ports = s.ports := rfl
@[simp] theorem State.modCore_stackErrs (k : Nat) (f : Core → Core) : (s.modCore k f).stackErrs = s.stackErrs := rfl
@[simp] theorem State.modCore_mgmt (k : Nat) (f : Core → Core) : (s.modCore k f).mgmt = s.mgmt := rfl
@[simp] theorem State.modCore_scv (k : Nat) (f : Core → Core) : (s.modCore k f).scv = s.scv := rfl
@[simp] theorem State.modCore_links (k : Nat) (f : Core → Core) : (s.modCore k f).links = s.links := rfl
@[simp] theorem State.modCore_tenants (k : Nat) (f : Core → Core) : (s.modCore k f).tenants = s.tenants := rfl
@[simp] theorem State.modCore_ctxs (k : Nat) (f : Core → Core) : (s.modCore k f).ctxs = s.ctxs := rfl
@[simp] theorem State.modCore_queues (k : Nat) (f : Core → Core) : (s.modCore k f).queues = s.queues := rfl
@[simp] theorem State.modCore_waits (k : Nat) (f : Core → Core) : (s.modCore k f).waits = s.waits := rfl
@[simp] theorem State.modCore_remoteWaits (k : Nat) (f : Core → Core) : (s.modCore k f).remoteWaits = s.remoteWaits := rfl
@[simp] theorem State.modCore_peerIn (k : Nat) (f : Core → Core) : (s.modCore k f).peerIn = s.peerIn := rfl
@[simp] theorem State.modCore_sigWait (k : Nat) (f : Core → Core) : (s.modCore k f).sigWait = s.sigWait := rfl
@[simp] theorem State.modCore_launches (k : Nat) (f : Core → Core) : (s.modCore k f).launches = s.launches := rfl
@[simp] theorem State.modCore_crews (k : Nat) (f : Core → Core) : (s.modCore k f).crews = s.crews := rfl
@[simp] theorem State.modCore_bdir (k : Nat) (f : Core → Core) : (s.modCore k f).bdir = s.bdir := rfl
@[simp] theorem State.modCore_gangRes (k : Nat) (f : Core → Core) : (s.modCore k f).gangRes = s.gangRes := rfl
@[simp] theorem State.modCore_flights (k : Nat) (f : Core → Core) : (s.modCore k f).flights = s.flights := rfl
@[simp] theorem State.modCore_armed (k : Nat) (f : Core → Core) : (s.modCore k f).armed = s.armed := rfl
@[simp] theorem State.modCore_copies (k : Nat) (f : Core → Core) : (s.modCore k f).copies = s.copies := rfl
@[simp] theorem State.modCore_colls (k : Nat) (f : Core → Core) : (s.modCore k f).colls = s.colls := rfl
@[simp] theorem State.modCore_graphs (k : Nat) (f : Core → Core) : (s.modCore k f).graphs = s.graphs := rfl
@[simp] theorem State.modCore_pre (k : Nat) (f : Core → Core) : (s.modCore k f).pre = s.pre := rfl
@[simp] theorem State.modCore_publs (k : Nat) (f : Core → Core) : (s.modCore k f).publs = s.publs := rfl

/-! ### post -/

@[simp] theorem State.post_now (i : Instr) : (s.post i).now = s.now := rfl
@[simp] theorem State.post_agenda (i : Instr) : (s.post i).agenda = s.agenda := rfl
@[simp] theorem State.post_parts (i : Instr) : (s.post i).parts = s.parts := rfl
@[simp] theorem State.post_pending (i : Instr) : (s.post i).pending = s.pending ++ [i] := rfl
@[simp] theorem State.post_timers (i : Instr) : (s.post i).timers = s.timers := rfl
@[simp] theorem State.post_evTurn (i : Instr) : (s.post i).evTurn = s.evTurn := rfl
@[simp] theorem State.post_cur (i : Instr) : (s.post i).cur = s.cur := rfl
@[simp] theorem State.post_out (i : Instr) : (s.post i).out = s.out := rfl
@[simp] theorem State.post_ids (i : Instr) : (s.post i).ids = s.ids := rfl
@[simp] theorem State.post_fresh (i : Instr) : (s.post i).fresh = s.fresh := rfl
@[simp] theorem State.post_env (i : Instr) : (s.post i).env = s.env := rfl
@[simp] theorem State.post_hbm (i : Instr) : (s.post i).hbm = s.hbm := rfl
@[simp] theorem State.post_keyTags (i : Instr) : (s.post i).keyTags = s.keyTags := rfl
@[simp] theorem State.post_ueHbm (i : Instr) : (s.post i).ueHbm = s.ueHbm := rfl
@[simp] theorem State.post_ueCommons (i : Instr) : (s.post i).ueCommons = s.ueCommons := rfl
@[simp] theorem State.post_dies (i : Instr) : (s.post i).dies = s.dies := rfl
@[simp] theorem State.post_cores (i : Instr) : (s.post i).cores = s.cores := rfl
@[simp] theorem State.post_welt (i : Instr) : (s.post i).welt = s.welt := rfl
@[simp] theorem State.post_ports (i : Instr) : (s.post i).ports = s.ports := rfl
@[simp] theorem State.post_stackErrs (i : Instr) : (s.post i).stackErrs = s.stackErrs := rfl
@[simp] theorem State.post_mgmt (i : Instr) : (s.post i).mgmt = s.mgmt := rfl
@[simp] theorem State.post_scv (i : Instr) : (s.post i).scv = s.scv := rfl
@[simp] theorem State.post_links (i : Instr) : (s.post i).links = s.links := rfl
@[simp] theorem State.post_tenants (i : Instr) : (s.post i).tenants = s.tenants := rfl
@[simp] theorem State.post_ctxs (i : Instr) : (s.post i).ctxs = s.ctxs := rfl
@[simp] theorem State.post_queues (i : Instr) : (s.post i).queues = s.queues := rfl
@[simp] theorem State.post_waits (i : Instr) : (s.post i).waits = s.waits := rfl
@[simp] theorem State.post_remoteWaits (i : Instr) : (s.post i).remoteWaits = s.remoteWaits := rfl
@[simp] theorem State.post_peerIn (i : Instr) : (s.post i).peerIn = s.peerIn := rfl
@[simp] theorem State.post_sigWait (i : Instr) : (s.post i).sigWait = s.sigWait := rfl
@[simp] theorem State.post_launches (i : Instr) : (s.post i).launches = s.launches := rfl
@[simp] theorem State.post_crews (i : Instr) : (s.post i).crews = s.crews := rfl
@[simp] theorem State.post_bdir (i : Instr) : (s.post i).bdir = s.bdir := rfl
@[simp] theorem State.post_gangRes (i : Instr) : (s.post i).gangRes = s.gangRes := rfl
@[simp] theorem State.post_flights (i : Instr) : (s.post i).flights = s.flights := rfl
@[simp] theorem State.post_armed (i : Instr) : (s.post i).armed = s.armed := rfl
@[simp] theorem State.post_copies (i : Instr) : (s.post i).copies = s.copies := rfl
@[simp] theorem State.post_colls (i : Instr) : (s.post i).colls = s.colls := rfl
@[simp] theorem State.post_graphs (i : Instr) : (s.post i).graphs = s.graphs := rfl
@[simp] theorem State.post_pre (i : Instr) : (s.post i).pre = s.pre := rfl
@[simp] theorem State.post_publs (i : Instr) : (s.post i).publs = s.publs := rfl

/-! ### after -/

@[simp] theorem State.after_now (ns : Nat) (i : Instr) : (s.after ns i).now = s.now := rfl
@[simp] theorem State.after_agenda (ns : Nat) (i : Instr) : (s.after ns i).agenda = s.agenda := rfl
@[simp] theorem State.after_parts (ns : Nat) (i : Instr) : (s.after ns i).parts = s.parts := rfl
@[simp] theorem State.after_pending (ns : Nat) (i : Instr) : (s.after ns i).pending = s.pending := rfl
@[simp] theorem State.after_timers (ns : Nat) (i : Instr) : (s.after ns i).timers = s.timers ++ [(s.now + ns, i)] := rfl
@[simp] theorem State.after_evTurn (ns : Nat) (i : Instr) : (s.after ns i).evTurn = s.evTurn := rfl
@[simp] theorem State.after_cur (ns : Nat) (i : Instr) : (s.after ns i).cur = s.cur := rfl
@[simp] theorem State.after_out (ns : Nat) (i : Instr) : (s.after ns i).out = s.out := rfl
@[simp] theorem State.after_ids (ns : Nat) (i : Instr) : (s.after ns i).ids = s.ids := rfl
@[simp] theorem State.after_fresh (ns : Nat) (i : Instr) : (s.after ns i).fresh = s.fresh := rfl
@[simp] theorem State.after_env (ns : Nat) (i : Instr) : (s.after ns i).env = s.env := rfl
@[simp] theorem State.after_hbm (ns : Nat) (i : Instr) : (s.after ns i).hbm = s.hbm := rfl
@[simp] theorem State.after_keyTags (ns : Nat) (i : Instr) : (s.after ns i).keyTags = s.keyTags := rfl
@[simp] theorem State.after_ueHbm (ns : Nat) (i : Instr) : (s.after ns i).ueHbm = s.ueHbm := rfl
@[simp] theorem State.after_ueCommons (ns : Nat) (i : Instr) : (s.after ns i).ueCommons = s.ueCommons := rfl
@[simp] theorem State.after_dies (ns : Nat) (i : Instr) : (s.after ns i).dies = s.dies := rfl
@[simp] theorem State.after_cores (ns : Nat) (i : Instr) : (s.after ns i).cores = s.cores := rfl
@[simp] theorem State.after_welt (ns : Nat) (i : Instr) : (s.after ns i).welt = s.welt := rfl
@[simp] theorem State.after_ports (ns : Nat) (i : Instr) : (s.after ns i).ports = s.ports := rfl
@[simp] theorem State.after_stackErrs (ns : Nat) (i : Instr) : (s.after ns i).stackErrs = s.stackErrs := rfl
@[simp] theorem State.after_mgmt (ns : Nat) (i : Instr) : (s.after ns i).mgmt = s.mgmt := rfl
@[simp] theorem State.after_scv (ns : Nat) (i : Instr) : (s.after ns i).scv = s.scv := rfl
@[simp] theorem State.after_links (ns : Nat) (i : Instr) : (s.after ns i).links = s.links := rfl
@[simp] theorem State.after_tenants (ns : Nat) (i : Instr) : (s.after ns i).tenants = s.tenants := rfl
@[simp] theorem State.after_ctxs (ns : Nat) (i : Instr) : (s.after ns i).ctxs = s.ctxs := rfl
@[simp] theorem State.after_queues (ns : Nat) (i : Instr) : (s.after ns i).queues = s.queues := rfl
@[simp] theorem State.after_waits (ns : Nat) (i : Instr) : (s.after ns i).waits = s.waits := rfl
@[simp] theorem State.after_remoteWaits (ns : Nat) (i : Instr) : (s.after ns i).remoteWaits = s.remoteWaits := rfl
@[simp] theorem State.after_peerIn (ns : Nat) (i : Instr) : (s.after ns i).peerIn = s.peerIn := rfl
@[simp] theorem State.after_sigWait (ns : Nat) (i : Instr) : (s.after ns i).sigWait = s.sigWait := rfl
@[simp] theorem State.after_launches (ns : Nat) (i : Instr) : (s.after ns i).launches = s.launches := rfl
@[simp] theorem State.after_crews (ns : Nat) (i : Instr) : (s.after ns i).crews = s.crews := rfl
@[simp] theorem State.after_bdir (ns : Nat) (i : Instr) : (s.after ns i).bdir = s.bdir := rfl
@[simp] theorem State.after_gangRes (ns : Nat) (i : Instr) : (s.after ns i).gangRes = s.gangRes := rfl
@[simp] theorem State.after_flights (ns : Nat) (i : Instr) : (s.after ns i).flights = s.flights := rfl
@[simp] theorem State.after_armed (ns : Nat) (i : Instr) : (s.after ns i).armed = s.armed := rfl
@[simp] theorem State.after_copies (ns : Nat) (i : Instr) : (s.after ns i).copies = s.copies := rfl
@[simp] theorem State.after_colls (ns : Nat) (i : Instr) : (s.after ns i).colls = s.colls := rfl
@[simp] theorem State.after_graphs (ns : Nat) (i : Instr) : (s.after ns i).graphs = s.graphs := rfl
@[simp] theorem State.after_pre (ns : Nat) (i : Instr) : (s.after ns i).pre = s.pre := rfl
@[simp] theorem State.after_publs (ns : Nat) (i : Instr) : (s.after ns i).publs = s.publs := rfl

/-! ### say -/

@[simp] theorem State.say_now (m : HostMsg) : (s.say m).now = s.now := rfl
@[simp] theorem State.say_agenda (m : HostMsg) : (s.say m).agenda = s.agenda := rfl
@[simp] theorem State.say_parts (m : HostMsg) : (s.say m).parts = s.parts := rfl
@[simp] theorem State.say_pending (m : HostMsg) : (s.say m).pending = s.pending := rfl
@[simp] theorem State.say_timers (m : HostMsg) : (s.say m).timers = s.timers := rfl
@[simp] theorem State.say_evTurn (m : HostMsg) : (s.say m).evTurn = s.evTurn := rfl
@[simp] theorem State.say_cur (m : HostMsg) : (s.say m).cur = s.cur := rfl
@[simp] theorem State.say_out (m : HostMsg) : (s.say m).out = s.out ++ [m] := rfl
@[simp] theorem State.say_ids (m : HostMsg) : (s.say m).ids = s.ids := rfl
@[simp] theorem State.say_fresh (m : HostMsg) : (s.say m).fresh = s.fresh := rfl
@[simp] theorem State.say_env (m : HostMsg) : (s.say m).env = s.env := rfl
@[simp] theorem State.say_hbm (m : HostMsg) : (s.say m).hbm = s.hbm := rfl
@[simp] theorem State.say_keyTags (m : HostMsg) : (s.say m).keyTags = s.keyTags := rfl
@[simp] theorem State.say_ueHbm (m : HostMsg) : (s.say m).ueHbm = s.ueHbm := rfl
@[simp] theorem State.say_ueCommons (m : HostMsg) : (s.say m).ueCommons = s.ueCommons := rfl
@[simp] theorem State.say_dies (m : HostMsg) : (s.say m).dies = s.dies := rfl
@[simp] theorem State.say_cores (m : HostMsg) : (s.say m).cores = s.cores := rfl
@[simp] theorem State.say_welt (m : HostMsg) : (s.say m).welt = s.welt := rfl
@[simp] theorem State.say_ports (m : HostMsg) : (s.say m).ports = s.ports := rfl
@[simp] theorem State.say_stackErrs (m : HostMsg) : (s.say m).stackErrs = s.stackErrs := rfl
@[simp] theorem State.say_mgmt (m : HostMsg) : (s.say m).mgmt = s.mgmt := rfl
@[simp] theorem State.say_scv (m : HostMsg) : (s.say m).scv = s.scv := rfl
@[simp] theorem State.say_links (m : HostMsg) : (s.say m).links = s.links := rfl
@[simp] theorem State.say_tenants (m : HostMsg) : (s.say m).tenants = s.tenants := rfl
@[simp] theorem State.say_ctxs (m : HostMsg) : (s.say m).ctxs = s.ctxs := rfl
@[simp] theorem State.say_queues (m : HostMsg) : (s.say m).queues = s.queues := rfl
@[simp] theorem State.say_waits (m : HostMsg) : (s.say m).waits = s.waits := rfl
@[simp] theorem State.say_remoteWaits (m : HostMsg) : (s.say m).remoteWaits = s.remoteWaits := rfl
@[simp] theorem State.say_peerIn (m : HostMsg) : (s.say m).peerIn = s.peerIn := rfl
@[simp] theorem State.say_sigWait (m : HostMsg) : (s.say m).sigWait = s.sigWait := rfl
@[simp] theorem State.say_launches (m : HostMsg) : (s.say m).launches = s.launches := rfl
@[simp] theorem State.say_crews (m : HostMsg) : (s.say m).crews = s.crews := rfl
@[simp] theorem State.say_bdir (m : HostMsg) : (s.say m).bdir = s.bdir := rfl
@[simp] theorem State.say_gangRes (m : HostMsg) : (s.say m).gangRes = s.gangRes := rfl
@[simp] theorem State.say_flights (m : HostMsg) : (s.say m).flights = s.flights := rfl
@[simp] theorem State.say_armed (m : HostMsg) : (s.say m).armed = s.armed := rfl
@[simp] theorem State.say_copies (m : HostMsg) : (s.say m).copies = s.copies := rfl
@[simp] theorem State.say_colls (m : HostMsg) : (s.say m).colls = s.colls := rfl
@[simp] theorem State.say_graphs (m : HostMsg) : (s.say m).graphs = s.graphs := rfl
@[simp] theorem State.say_pre (m : HostMsg) : (s.say m).pre = s.pre := rfl
@[simp] theorem State.say_publs (m : HostMsg) : (s.say m).publs = s.publs := rfl

/-! ### newId -/

@[simp] theorem State.newId_now : s.newId.now = s.now := rfl
@[simp] theorem State.newId_agenda : s.newId.agenda = s.agenda := rfl
@[simp] theorem State.newId_parts : s.newId.parts = s.parts := rfl
@[simp] theorem State.newId_pending : s.newId.pending = s.pending := rfl
@[simp] theorem State.newId_timers : s.newId.timers = s.timers := rfl
@[simp] theorem State.newId_evTurn : s.newId.evTurn = s.evTurn := rfl
@[simp] theorem State.newId_cur : s.newId.cur = s.cur := rfl
@[simp] theorem State.newId_out : s.newId.out = s.out := rfl
@[simp] theorem State.newId_ids : s.newId.ids = s.ids + 1 := rfl
@[simp] theorem State.newId_fresh : s.newId.fresh = s.fresh := rfl
@[simp] theorem State.newId_env : s.newId.env = s.env := rfl
@[simp] theorem State.newId_hbm : s.newId.hbm = s.hbm := rfl
@[simp] theorem State.newId_keyTags : s.newId.keyTags = s.keyTags := rfl
@[simp] theorem State.newId_ueHbm : s.newId.ueHbm = s.ueHbm := rfl
@[simp] theorem State.newId_ueCommons : s.newId.ueCommons = s.ueCommons := rfl
@[simp] theorem State.newId_dies : s.newId.dies = s.dies := rfl
@[simp] theorem State.newId_cores : s.newId.cores = s.cores := rfl
@[simp] theorem State.newId_welt : s.newId.welt = s.welt := rfl
@[simp] theorem State.newId_ports : s.newId.ports = s.ports := rfl
@[simp] theorem State.newId_stackErrs : s.newId.stackErrs = s.stackErrs := rfl
@[simp] theorem State.newId_mgmt : s.newId.mgmt = s.mgmt := rfl
@[simp] theorem State.newId_scv : s.newId.scv = s.scv := rfl
@[simp] theorem State.newId_links : s.newId.links = s.links := rfl
@[simp] theorem State.newId_tenants : s.newId.tenants = s.tenants := rfl
@[simp] theorem State.newId_ctxs : s.newId.ctxs = s.ctxs := rfl
@[simp] theorem State.newId_queues : s.newId.queues = s.queues := rfl
@[simp] theorem State.newId_waits : s.newId.waits = s.waits := rfl
@[simp] theorem State.newId_remoteWaits : s.newId.remoteWaits = s.remoteWaits := rfl
@[simp] theorem State.newId_peerIn : s.newId.peerIn = s.peerIn := rfl
@[simp] theorem State.newId_sigWait : s.newId.sigWait = s.sigWait := rfl
@[simp] theorem State.newId_launches : s.newId.launches = s.launches := rfl
@[simp] theorem State.newId_crews : s.newId.crews = s.crews := rfl
@[simp] theorem State.newId_bdir : s.newId.bdir = s.bdir := rfl
@[simp] theorem State.newId_gangRes : s.newId.gangRes = s.gangRes := rfl
@[simp] theorem State.newId_flights : s.newId.flights = s.flights := rfl
@[simp] theorem State.newId_armed : s.newId.armed = s.armed := rfl
@[simp] theorem State.newId_copies : s.newId.copies = s.copies := rfl
@[simp] theorem State.newId_colls : s.newId.colls = s.colls := rfl
@[simp] theorem State.newId_graphs : s.newId.graphs = s.graphs := rfl
@[simp] theorem State.newId_pre : s.newId.pre = s.pre := rfl
@[simp] theorem State.newId_publs : s.newId.publs = s.publs := rfl

/-! ### draw -/

@[simp] theorem State.draw_now : s.draw.now = s.now := rfl
@[simp] theorem State.draw_agenda : s.draw.agenda = s.agenda := rfl
@[simp] theorem State.draw_parts : s.draw.parts = s.parts := rfl
@[simp] theorem State.draw_pending : s.draw.pending = s.pending := rfl
@[simp] theorem State.draw_timers : s.draw.timers = s.timers := rfl
@[simp] theorem State.draw_evTurn : s.draw.evTurn = s.evTurn := rfl
@[simp] theorem State.draw_cur : s.draw.cur = s.cur := rfl
@[simp] theorem State.draw_out : s.draw.out = s.out := rfl
@[simp] theorem State.draw_ids : s.draw.ids = s.ids := rfl
@[simp] theorem State.draw_fresh : s.draw.fresh = s.fresh + 1 := rfl
@[simp] theorem State.draw_env : s.draw.env = s.env := rfl
@[simp] theorem State.draw_hbm : s.draw.hbm = s.hbm := rfl
@[simp] theorem State.draw_keyTags : s.draw.keyTags = s.keyTags := rfl
@[simp] theorem State.draw_ueHbm : s.draw.ueHbm = s.ueHbm := rfl
@[simp] theorem State.draw_ueCommons : s.draw.ueCommons = s.ueCommons := rfl
@[simp] theorem State.draw_dies : s.draw.dies = s.dies := rfl
@[simp] theorem State.draw_cores : s.draw.cores = s.cores := rfl
@[simp] theorem State.draw_welt : s.draw.welt = s.welt := rfl
@[simp] theorem State.draw_ports : s.draw.ports = s.ports := rfl
@[simp] theorem State.draw_stackErrs : s.draw.stackErrs = s.stackErrs := rfl
@[simp] theorem State.draw_mgmt : s.draw.mgmt = s.mgmt := rfl
@[simp] theorem State.draw_scv : s.draw.scv = s.scv := rfl
@[simp] theorem State.draw_links : s.draw.links = s.links := rfl
@[simp] theorem State.draw_tenants : s.draw.tenants = s.tenants := rfl
@[simp] theorem State.draw_ctxs : s.draw.ctxs = s.ctxs := rfl
@[simp] theorem State.draw_queues : s.draw.queues = s.queues := rfl
@[simp] theorem State.draw_waits : s.draw.waits = s.waits := rfl
@[simp] theorem State.draw_remoteWaits : s.draw.remoteWaits = s.remoteWaits := rfl
@[simp] theorem State.draw_peerIn : s.draw.peerIn = s.peerIn := rfl
@[simp] theorem State.draw_sigWait : s.draw.sigWait = s.sigWait := rfl
@[simp] theorem State.draw_launches : s.draw.launches = s.launches := rfl
@[simp] theorem State.draw_crews : s.draw.crews = s.crews := rfl
@[simp] theorem State.draw_bdir : s.draw.bdir = s.bdir := rfl
@[simp] theorem State.draw_gangRes : s.draw.gangRes = s.gangRes := rfl
@[simp] theorem State.draw_flights : s.draw.flights = s.flights := rfl
@[simp] theorem State.draw_armed : s.draw.armed = s.armed := rfl
@[simp] theorem State.draw_copies : s.draw.copies = s.copies := rfl
@[simp] theorem State.draw_colls : s.draw.colls = s.colls := rfl
@[simp] theorem State.draw_graphs : s.draw.graphs = s.graphs := rfl
@[simp] theorem State.draw_pre : s.draw.pre = s.pre := rfl
@[simp] theorem State.draw_publs : s.draw.publs = s.publs := rfl

end Sys2Proof.Machine
end

