-- ==== Sys2Proof/Laws/Lookup.lean ====
section
/-! SUPPORT. Laws/Lookup.lean: what a key finds after a named update: crews, weaves, tenants, queues, contexts, launches, dies,
cores. -/

namespace Sys2Proof.Machine

/-! ## Crews and weaves -/

theorem crew?_cid {s : State} {cid : Nat} {c : Crew} (h : s.crew? cid = some c) : c.cid = cid := by
  simpa using List.find?_some h

theorem crew?_modCrew_same {s : State} {cid : Nat} {c : Crew} {f : Crew → Crew} (h : s.crew? cid = some c)
    (hf : (f c).cid = cid) : (s.modCrew cid f).crew? cid = some (f c) :=
  find?_updWhere h (by simp [hf])

theorem crew?_modCrew_none {s : State} {cid : Nat} {f : Crew → Crew} (h : s.crew? cid = none) : s.modCrew cid f = s := by
  unfold State.modCrew
  rw [find?_updWhere_none h]

theorem crew?_modCrew_other {s : State} {cid x : Nat} {f : Crew → Crew} (hx : x ≠ cid) (hf : ∀ c, (f c).cid = c.cid) :
    (s.modCrew cid f).crew? x = s.crew? x := by
  apply find?_updWhere_other
  intro c hc
  have e : c.cid = cid := by simpa using hc
  have : (c.cid == x) = false := by simp [e, Ne.symm hx]
  simp only [hf]
  exact ⟨this, this⟩

theorem crew?_modWeave_same {s : State} {cid wx : Nat} {c : Crew} {f : Weave → Weave} (h : s.crew? cid = some c) :
    (s.modWeave cid wx f).crew? cid = some (c.modWeave wx f) :=
  crew?_modCrew_same h (show c.cid = cid from crew?_cid h)

theorem crew?_modWeave_other {s : State} {cid wx x : Nat} {f : Weave → Weave} (hx : x ≠ cid) :
    (s.modWeave cid wx f).crew? x = s.crew? x :=
  crew?_modCrew_other hx fun _ => rfl

theorem crew?_modWeave_none {s : State} {cid wx : Nat} {f : Weave → Weave} (h : s.crew? cid = none) :
    s.modWeave cid wx f = s := crew?_modCrew_none h

/-- A weave that is found belongs to a crew that is found. -/
theorem weave?_crew {s : State} {cid wx : Nat} {w : Weave} (h : s.weave? cid wx = some w) :
    ∃ c, s.crew? cid = some c ∧ c.weaves[wx]? = some w := by
  unfold State.weave? at h
  cases hc : s.crew? cid with
  | none => simp [hc] at h
  | some c => exact ⟨c, rfl, by simpa [hc] using h⟩

theorem weave?_of_crew {s : State} {cid wx : Nat} {c : Crew} (h : s.crew? cid = some c) : s.weave? cid wx = c.weaves[wx]? := by
  simp [State.weave?, h]

theorem weave?_modWeave_same {s : State} {cid wx : Nat} {w : Weave} {f : Weave → Weave} (h : s.weave? cid wx = some w) :
    (s.modWeave cid wx f).weave? cid wx = some (f w) := by
  obtain ⟨c, hc, hw⟩ := weave?_crew h
  rw [weave?_of_crew (crew?_modWeave_same hc)]
  simp [Crew.modWeave, hw]

theorem weave?_putWeave_same {s : State} {cid wx : Nat} {w w' : Weave} (h : s.weave? cid wx = some w) :
    (s.putWeave cid wx w').weave? cid wx = some w' := weave?_modWeave_same h

theorem weave?_modWeave_other {s : State} {cid wx x y : Nat} {f : Weave → Weave} (hx : x ≠ cid ∨ y ≠ wx) :
    (s.modWeave cid wx f).weave? x y = s.weave? x y := by
  by_cases h : x = cid
  · subst h
    have hy : y ≠ wx := by simpa using hx
    cases hc : s.crew? x with
    | none => rw [crew?_modWeave_none hc]
    | some c =>
      rw [weave?_of_crew (crew?_modWeave_same hc), weave?_of_crew hc]
      simp [Crew.modWeave, modNth_getElem?_other hy]
  · simp [State.weave?, crew?_modWeave_other h]

/-- A change to a crew that leaves its weaves alone leaves what every weave is found as. -/
theorem weave?_modCrew {s : State} {cid x y : Nat} {f : Crew → Crew} (hc : ∀ c, (f c).cid = c.cid)
    (hw : ∀ c, (f c).weaves = c.weaves) : (s.modCrew cid f).weave? x y = s.weave? x y := by
  by_cases h : x = cid
  · subst h
    cases e : s.crew? x with
    | none => rw [crew?_modCrew_none e]
    | some c =>
      rw [weave?_of_crew (crew?_modCrew_same e (by rw [hc, crew?_cid e])), weave?_of_crew e, hw]
  · simp [State.weave?, crew?_modCrew_other h hc]

/-- The crew of a weave after the weave has changed. -/
theorem crew?_putWeave_same {s : State} {cid wx : Nat} {c : Crew} {w : Weave} (h : s.crew? cid = some c) :
    (s.putWeave cid wx w).crew? cid = some { c with weaves := modNth c.weaves wx fun _ => w } := crew?_modWeave_same h

theorem crew?_putWeave_other {s : State} {cid wx x : Nat} {w : Weave} (hx : x ≠ cid) :
    (s.putWeave cid wx w).crew? x = s.crew? x := crew?_modWeave_other hx

/-! ## Registers that a register write leaves STALE -/

theorem crew?_wroteRegs_other {s : State} {cid wx x : Nat} {ks : List Nat} (hx : x ≠ cid) :
    (s.wroteRegs cid wx ks).crew? x = s.crew? x := by
  unfold State.wroteRegs
  split
  · rfl
  · exact crew?_modCrew_other hx fun _ => rfl

theorem weave?_wroteRegs {s : State} {cid wx x y : Nat} {ks : List Nat} :
    (s.wroteRegs cid wx ks).weave? x y = s.weave? x y := by
  unfold State.wroteRegs
  split
  · rfl
  · exact weave?_modCrew (fun _ => rfl) fun _ => rfl

/-! ## Other keys -/

theorem tenant?_modTenant_same {s : State} {tag : Nat} {t : Tenant} {f : Tenant → Tenant} (h : s.tenant? tag = some t)
    (hf : (f t).tag = tag) : (s.modTenant tag f).tenant? tag = some (f t) := find?_updWhere h (by simp [hf])

theorem tenant?_modTenant_other {s : State} {tag x : Nat} {f : Tenant → Tenant} (hx : x ≠ tag) (hf : ∀ t, (f t).tag = t.tag) :
    (s.modTenant tag f).tenant? x = s.tenant? x := by
  apply find?_updWhere_other
  intro t ht
  have e : t.tag = tag := by simpa using ht
  have : (t.tag == x) = false := by simp [e, Ne.symm hx]
  simp only [hf]
  exact ⟨this, this⟩

theorem queue?_modQueue_same {s : State} {n : Nat} {q : Queue} {f : Queue → Queue} (h : s.queue? n = some q)
    (hf : (f q).q = n) : (s.modQueue n f).queue? n = some (f q) := find?_updWhere h (by simp [hf])

theorem queue?_modQueue_other {s : State} {n x : Nat} {f : Queue → Queue} (hx : x ≠ n) (hf : ∀ q, (f q).q = q.q) :
    (s.modQueue n f).queue? x = s.queue? x := by
  apply find?_updWhere_other
  intro t ht
  have e : t.q = n := by simpa using ht
  have : (t.q == x) = false := by simp [e, Ne.symm hx]
  simp only [hf]
  exact ⟨this, this⟩

theorem ctx?_modCtx_same {s : State} {id : Nat} {c : Ctx} {f : Ctx → Ctx} (h : s.ctx? id = some c) (hf : (f c).id = id) :
    (s.modCtx id f).ctx? id = some (f c) := find?_updWhere h (by simp [hf])

theorem launch?_modLaunch_same {s : State} {lid : Nat} {l : Launch} {f : Launch → Launch} (h : s.launch? lid = some l)
    (hf : (f l).lid = lid) : (s.modLaunch lid f).launch? lid = some (f l) := find?_updWhere h (by simp [hf])

theorem bdir?_modBdir_same {s : State} {num : Nat} {r : BdirRec} {f : BdirRec → BdirRec} (h : s.bdir? num = some r)
    (hf : (f r).num = num) : (s.modBdir num f).bdir? num = some (f r) := find?_updWhere h (by simp [hf])

theorem graph?_modGraph_same {s : State} {gid : Nat} {g : Graph} {f : Graph → Graph} (h : s.graph? gid = some g)
    (hf : (f g).gid = gid) : (s.modGraph gid f).graph? gid = some (f g) := find?_updWhere h (by simp [hf])

theorem die_modDie_same {s : State} {d : Nat} {f : Die → Die} (h : d < s.dies.length) : (s.modDie d f).die d = f (s.die d) :=
  nthD_modNth_same h

theorem die_modDie_other {s : State} {d e : Nat} {f : Die → Die} (h : e ≠ d) : (s.modDie d f).die e = s.die e :=
  nthD_modNth_other h

theorem core_modCore_same {s : State} {k : Nat} {f : Core → Core} (h : k < s.cores.length) : (s.modCore k f).core k = f (s.core k) :=
  nthD_modNth_same h

theorem core_modCore_other {s : State} {k j : Nat} {f : Core → Core} (h : j ≠ k) : (s.modCore k f).core j = s.core j :=
  nthD_modNth_other h

end Sys2Proof.Machine
end

