-- ==== Sys2Proof/Laws/Issue.lean ====
section
/-! SUPPORT. Laws/Issue.lean: what the checks at issue find, and what an instruction on its own weave's registers does to the
state. -/

namespace Sys2Proof.Machine

/-- The weave that an instruction runs on: the recognizer remembers an excluded one. -/
def Weave.issued (w : Weave) (i : Instr) : Weave :=
  if spinExcluded i then { w with spin := { w.spin with bad := true } } else w

theorem Issues.stop {s : State} {i : Instr} {cid wx : Nat} {w : Weave} (h : Issues s i cid wx w) :
    w.stop (s.tblqOf cid) i = .go := by
  have h1 : ∀ em xs, (∀ x ∈ xs, x ∈ fieldRuns i) → w.feEmpty em xs = false := by
    intro em xs hx
    simp only [Weave.feEmpty, List.any_eq_false]
    intro y hy
    have := h.full _ (hx _ (List.of_mem_zip hy).1)
    simp [this]
  have h2 : (fieldRuns i).any (fun x => w.outOfRange x.1 x.2) = false := by
    simp only [List.any_eq_false]
    intro x hx
    simp [h.allotted x hx]
  have h3 : (fieldRuns i).any (fun x => w.anyEmpty x.1 x.2) = false := by
    simp only [List.any_eq_false]
    intro x hx
    simp [h.full x hx]
  have h4 : (decide (w.mode = .user) && (fieldRuns i).any (fun x => kindOf x.1 == .h || kindOf x.1 == .hg)) = false := by
    by_cases hm : w.mode = .user
    · simp only [hm, decide_true, Bool.true_and, List.any_eq_false]
      intro x hx
      simp [h.operand hm x hx]
    · simp [hm]
  have h6 : ((fieldRuns i).any fun x => kindOf x.1 == .h && decide (16 < regNo x.1 + x.2)) = false := by
    simp only [List.any_eq_false, Bool.and_eq_true, beq_iff_eq, decide_eq_true_eq, not_and, Nat.not_lt]
    exact h.run
  have h5 : (decide (w.mode = .user) && supervisorOnly i) = false := by
    by_cases hm : w.mode = .user
    · simp [h.opcode hm]
    · simp [hm]
  unfold Weave.stop
  simp only [h4, h5, h6, h2, h3, h.handle, h1 _ _ fun x hx => List.mem_of_mem_drop hx, Bool.false_eq_true, if_false, Bool.or_self]

/-- An issuing instruction runs. -/
theorem Issues.issue {s : State} {i : Instr} {cid wx : Nat} {w : Weave} (h : Issues s i cid wx w)
    (run : Nat → Nat → Weave → State) : s.issue i run = .next (run cid wx (w.issued i)) := by
  unfold State.issue
  simp only [h.issuing, h.weave, h.stop, Weave.issued]

/-- A register instruction runs: the weave's new registers, then the sets it leaves STALE. -/
theorem Issues.issueAlu {s : State} {i : Instr} {cid wx : Nat} {w : Weave} (h : Issues s i cid wx w) (f : Weave → Weave) :
    s.issueAlu i f = .next ((s.putWeave cid wx
      ((f (w.issued i)).note ((w.issued i).writtenWords (f (w.issued i)) i)).next).wroteRegs cid wx ((w.issued i).writtenRegs i)) := by
  unfold State.issueAlu
  rw [h.issue]

/-- The weave after a register instruction. -/
theorem Issues.completesAlu {s : State} {i : Instr} {cid wx : Nat} {w : Weave} (h : Issues s i cid wx w) {f : Weave → Weave}
    (he : exec i s = s.issueAlu i f) {P : Weave → Prop} (hP : ∀ ws, P ((f (w.issued i)).note ws).next) :
    Completes s i cid wx P := by
  refine ⟨_, _, he.trans (h.issueAlu f), ?_, hP ((w.issued i).writtenWords (f (w.issued i)) i)⟩
  rw [weave?_wroteRegs]
  exact weave?_putWeave_same h.weave

/-! ## The state around the weave -/

theorem crew_rest_putWeave {s : State} {cid wx : Nat} {w : Weave} :
    s.putWeave cid wx w = { s with crews := (s.putWeave cid wx w).crews } := rfl

theorem onlyWeave_putWeave {s : State} {cid wx : Nat} {w : Weave} : OnlyWeave s (s.putWeave cid wx w) cid wx where
  rest := rfl
  others := fun _ hx => crew?_putWeave_other hx
  mine := fun c hc => ⟨_, crew?_putWeave_same hc, rfl, fun _ hj => modNth_getElem?_other hj⟩
  tables := fun c c' hc hc' k x hx => by
    rw [crew?_putWeave_same hc] at hc'
    obtain rfl := Option.some.inj hc'
    exact ⟨x, hx, rfl, .inl rfl⟩

theorem staledByRegs_state (t : Tbl) (wx : Nat) (ks : List Nat) :
    t.staledByRegs wx ks = { t with state := (t.staledByRegs wx ks).state } ∧
      ((t.staledByRegs wx ks).state = t.state ∨
        ((t.staledByRegs wx ks).state = .stale ∧ ∃ base, t.src = .regs wx base)) := by
  unfold Tbl.staledByRegs
  split
  · split
    · rename_i x base hsrc hc
      simp only [Bool.and_eq_true, decide_eq_true_eq] at hc
      obtain ⟨⟨rfl, _⟩, _⟩ := hc
      exact ⟨rfl, .inr ⟨rfl, base, hsrc⟩⟩
    · exact ⟨rfl, .inl rfl⟩
  · exact ⟨rfl, .inl rfl⟩

theorem onlyWeave_wroteRegs {s t : State} {cid wx : Nat} {ks : List Nat} (h : OnlyWeave s t cid wx) :
    OnlyWeave s (t.wroteRegs cid wx ks) cid wx := by
  unfold State.wroteRegs
  split
  · exact h
  · refine ⟨?_, fun x hx => ?_, fun c hc => ?_, fun c c' hc hc' k x hx => ?_⟩
    · conv => lhs; rw [h.rest]
      rfl
    · refine (crew?_modCrew_other hx ?_).trans (h.others x hx)
      exact fun _ => rfl
    · obtain ⟨c1, h1, h2, h3⟩ := h.mine c hc
      refine ⟨_, crew?_modCrew_same h1 (crew?_cid h1 :), ?_, h3⟩
      rw [h2]
    · obtain ⟨c1, h1, _, _⟩ := h.mine c hc
      rw [crew?_modCrew_same h1 (crew?_cid h1 :)] at hc'
      obtain rfl := Option.some.inj hc'
      obtain ⟨x1, hx1, hx2, hx3⟩ := h.tables c c1 hc h1 k x hx
      refine ⟨x1.staledByRegs wx ks, by simp [hx1], ?_, ?_⟩
      · rw [(staledByRegs_state x1 wx ks).1, hx2]
      · rcases (staledByRegs_state x1 wx ks).2 with e | ⟨e, base, hb⟩
        · rw [e]; exact hx3
        · exact .inr ⟨e, base, by rw [hx2] at hb; exact hb⟩

/-- Nothing of memory is in the weaves. -/
theorem sameMemory_of_onlyWeave {s t : State} {cid wx : Nat} {w : Weave} (h : OnlyWeave s t cid wx)
    (hw : s.weave? cid wx = some w) : SameMemory s t := by
  intro owner l
  have hr := h.rest
  cases l with
  | scratch x off =>
    by_cases e : x = cid
    · subst e
      obtain ⟨c, hc, _⟩ := weave?_crew hw
      obtain ⟨c', h1, h2, _⟩ := h.mine c hc
      simp only [State.locRead, hc, h1]
      rw [h2]
    · simp only [State.locRead, h.others x e]
  | commons o d off => rw [hr]; rfl
  | hbm pa => rw [hr]; rfl

end Sys2Proof.Machine
end

