-- ==== Sys2Proof/Laws/Registers.lean ====
section
/-! SUPPORT. Laws/Registers.lean: what each register write leaves alone, and what each lane of a register holds after it. -/

namespace Sys2Proof.Machine

/-! ## The instruction in hand -/

@[simp] theorem Weave.issued_v (w : Weave) (i : Instr) : (w.issued i).v = w.v := by unfold Weave.issued; split <;> rfl
@[simp] theorem Weave.issued_g (w : Weave) (i : Instr) : (w.issued i).g = w.g := by unfold Weave.issued; split <;> rfl
@[simp] theorem Weave.issued_h (w : Weave) (i : Instr) : (w.issued i).h = w.h := by unfold Weave.issued; split <;> rfl
@[simp] theorem Weave.issued_hg (w : Weave) (i : Instr) : (w.issued i).hg = w.hg := by unfold Weave.issued; split <;> rfl
@[simp] theorem Weave.issued_p (w : Weave) (i : Instr) : (w.issued i).p = w.p := by unfold Weave.issued; split <;> rfl
@[simp] theorem Weave.issued_q (w : Weave) (i : Instr) : (w.issued i).q = w.q := by unfold Weave.issued; split <;> rfl
@[simp] theorem Weave.issued_pc (w : Weave) (i : Instr) : (w.issued i).pc = w.pc := by unfold Weave.issued; split <;> rfl
@[simp] theorem Weave.issued_exec (w : Weave) (i : Instr) : (w.issued i).exec = w.exec := by
  unfold Weave.issued; split <;> rfl
@[simp] theorem Weave.issued_helper (w : Weave) (i : Instr) : (w.issued i).helper = w.helper := by
  unfold Weave.issued; split <;> rfl
@[simp] theorem Weave.issued_absent (w : Weave) (i : Instr) : (w.issued i).absent = w.absent := by
  unfold Weave.issued; split <;> rfl
@[simp] theorem Weave.issued_exited (w : Weave) (i : Instr) : (w.issued i).exited = w.exited := by
  unfold Weave.issued; split <;> rfl
@[simp] theorem Weave.issued_toks (w : Weave) (i : Instr) : (w.issued i).toks = w.toks := by
  unfold Weave.issued; split <;> rfl
@[simp] theorem Weave.issued_mode (w : Weave) (i : Instr) : (w.issued i).mode = w.mode := by
  unfold Weave.issued; split <;> rfl
@[simp] theorem Weave.issued_writers (w : Weave) (i : Instr) (h : Head) : (w.issued i).writers h = w.writers h := by
  simp [Weave.writers, Weave.guardMask]
@[simp] theorem Weave.issued_actors (w : Weave) (i : Instr) (h : Head) : (w.issued i).actors h = w.actors h := by
  simp [Weave.actors, Weave.guardMask]
@[simp] theorem Weave.issued_qPass (w : Weave) (i : Instr) (h : Head) : (w.issued i).qPass h = w.qPass h := by
  simp [Weave.qPass]
@[simp] theorem Weave.issued_uniform (w : Weave) (i : Instr) (h : Head) : (w.issued i).uniform h = w.uniform h := by
  simp [Weave.uniform, Weave.guardMask, Weave.qPass]
@[simp] theorem Weave.issued_read (w : Weave) (i : Instr) (imm : Word) (o : Operand) :
    (w.issued i).read imm o = w.read imm o := by
  unfold Weave.issued; split <;> rfl
@[simp] theorem Weave.issued_readG (w : Weave) (i : Instr) (imm : Word) (o : Operand) :
    (w.issued i).readG imm o = w.readG imm o := by
  simp [Weave.readG]
@[simp] theorem Weave.issued_wideLane (w : Weave) (i : Instr) (imm : Word) (sg : Bool) (o : Operand) (l : Nat) :
    (w.issued i).wideLane imm sg o l = w.wideLane imm sg o l := by
  unfold Weave.issued; split <;> rfl
@[simp] theorem Weave.issued_predBits (w : Weave) (i : Instr) (o : Operand) : (w.issued i).predBits o = w.predBits o := by
  unfold Weave.issued; split <;> rfl
@[simp] theorem Weave.issued_predBit (w : Weave) (i : Instr) (o : Operand) : (w.issued i).predBit o = w.predBit o := by
  simp [Weave.predBit]

/-! ## Frames -/

/-- A weave after register writes: it differs in the registers of `os` only. -/
structure Puts (os : List Operand) (w w' : Weave) : Prop extends OnlyRegs os w w' where
  pc : w'.pc = w.pc
  spin : w'.spin = w.spin

theorem OnlyRegs.refl (os : List Operand) (w : Weave) : OnlyRegs os w w := by
  constructor <;> first | rfl | exact ⟨rfl, rfl⟩ | (intros; rfl)

theorem Puts.refl (os : List Operand) (w : Weave) : Puts os w w := ⟨OnlyRegs.refl os w, rfl, rfl⟩

theorem OnlyRegs.issued {os : List Operand} {w w' : Weave} {i : Instr} (h : OnlyRegs os (w.issued i) w') :
    OnlyRegs os w w' := by
  unfold Weave.issued at h
  split at h
  · exact ⟨h.rest, h.v, h.g, h.h, h.hg, h.p, h.q, h.lengths⟩
  · exact h

theorem OnlyRegs.next {os : List Operand} {w w' : Weave} (h : OnlyRegs os w w') (ws : List Word) :
    OnlyRegs os w (w'.note ws).next :=
  ⟨by rw [h.rest]; rfl, h.v, h.g, h.h, h.hg, h.p, h.q, h.lengths⟩

theorem Puts.putV {os : List Operand} {w w' : Weave} {o : Operand} {m : Mask} {r : VReg} (h : Puts os w w')
    (ho : o ∈ os) : Puts os w (w'.putV o m r) := by
  cases o with
  | v n =>
    refine ⟨⟨by rw [h.rest]; rfl, fun k hk => ?_, h.g, h.h, h.hg, h.p, h.q, ?_, h.lengths.2⟩, h.pc, h.spin⟩
    · exact (modNth_getElem?_other (Ne.symm (hk n ho))).trans (h.v k hk)
    · exact (modNth_length _ _ _).trans h.lengths.1
  | h n =>
    refine ⟨⟨by rw [h.rest]; rfl, h.v, h.g, fun k hk => ?_, h.hg, h.p, h.q, h.lengths⟩, h.pc, h.spin⟩
    exact (modNth_getElem?_other (Ne.symm (hk n ho))).trans (h.h k hk)
  | _ => exact h

theorem Puts.putG {os : List Operand} {w w' : Weave} {o : Operand} {x : Word} (h : Puts os w w')
    (ho : o ∈ os) : Puts os w (w'.putG o x) := by
  cases o with
  | g n =>
    refine ⟨⟨by rw [h.rest]; rfl, h.v, fun k hk => ?_, h.h, h.hg, h.p, h.q, h.lengths.1, ?_⟩, h.pc, h.spin⟩
    · exact (modNth_getElem?_other (Ne.symm (hk n ho))).trans (h.g k hk)
    · exact (modNth_length _ _ _).trans h.lengths.2
  | hg n =>
    refine ⟨⟨by rw [h.rest]; rfl, h.v, h.g, h.h, fun k hk => ?_, h.p, h.q, h.lengths⟩, h.pc, h.spin⟩
    exact (modNth_getElem?_other (Ne.symm (hk n ho))).trans (h.hg k hk)
  | _ => exact h

theorem Puts.putP {os : List Operand} {w w' : Weave} {o : Operand} {m b : Mask} (h : Puts os w w')
    (ho : o ∈ os) : Puts os w (w'.putP o m b) := by
  cases o with
  | p n =>
    unfold Weave.putP
    dsimp only
    split
    · exact h
    · refine ⟨⟨by rw [h.rest], h.v, h.g, h.h, h.hg, fun k hk => ?_, h.q, h.lengths⟩, h.pc, h.spin⟩
      exact (modNth_getElem?_other (Ne.symm (hk n ho))).trans (h.p k hk)
  | _ => exact h

theorem putQ_bit {q : BitVec 16} {n k : Nat} {b : Bool} (hk : n ≠ k) :
    ((q &&& ~~~ BitVec.twoPow 16 n) ||| (if b then BitVec.twoPow 16 n else 0)).getLsbD k = q.getLsbD k := by
  by_cases hl : k < 16
  · cases b <;> simp [hl, Ne.symm hk]
  · rw [BitVec.getLsbD_of_ge _ _ (by omega), BitVec.getLsbD_of_ge _ _ (by omega)]

theorem Puts.putQ {os : List Operand} {w w' : Weave} {o : Operand} {b : Bool} (h : Puts os w w')
    (ho : o ∈ os) : Puts os w (w'.putQ o b) := by
  cases o with
  | q n =>
    unfold Weave.putQ
    dsimp only
    split
    · exact h
    · refine ⟨⟨by rw [h.rest], h.v, h.g, h.h, h.hg, h.p, fun k hk => ?_, h.lengths⟩, h.pc, h.spin⟩
      exact (putQ_bit (hk n ho)).trans (h.q k hk)
  | _ => exact h

theorem Puts.putVPair {os : List Operand} {w w' : Weave} {o : Operand} {m : Mask} {r : VReg × VReg}
    (h : Puts os w w') (h0 : o ∈ os) (h1 : o.plus 1 ∈ os) : Puts os w (w'.putVPair o m r) := (h.putV h0).putV h1

theorem Puts.putGPair {os : List Operand} {w w' : Weave} {o : Operand} {x : DWord} (h : Puts os w w')
    (h0 : o ∈ os) (h1 : o.plus 1 ∈ os) : Puts os w (w'.putGPair o x) := (h.putG h0).putG h1

theorem Puts.putGranules {os : List Operand} {w w' : Weave} {o : Operand} {m : Mask} {uni : Bool} {val : Nat → Word}
    {sc : Nat → Nat} (h : Puts os w w') (ho : o ∈ os) : Puts os w (w'.putGranules o m uni val sc) := by
  unfold Weave.putGranules
  split
  · exact h
  · cases o with
    | v n =>
      refine ⟨⟨by rw [h.rest], fun k hk => ?_, h.g, h.h, h.hg, h.p, h.q, ?_, h.lengths.2⟩, h.pc, h.spin⟩
      · exact (modNth_getElem?_other (Ne.symm (hk n ho))).trans (h.v k hk)
      · exact (modNth_length _ _ _).trans h.lengths.1
    | h n =>
      refine ⟨⟨by rw [h.rest], h.v, h.g, fun k hk => ?_, h.hg, h.p, h.q, h.lengths⟩, h.pc, h.spin⟩
      exact (modNth_getElem?_other (Ne.symm (hk n ho))).trans (h.h k hk)
    | _ => exact h

theorem Puts.putVRun {os : List Operand} {w w' : Weave} {o : Operand} {m : Mask} {rs : List VReg} (h : Puts os w w')
    (ho : ∀ k < rs.length, o.plus k ∈ os) : Puts os w (w'.putVRun o m rs) := by
  unfold Weave.putVRun
  have : ∀ x ∈ rs.zip (List.range rs.length), o.plus x.2 ∈ os := by
    intro x hx
    exact ho _ (by simpa using (List.of_mem_zip hx).2)
  generalize rs.zip (List.range rs.length) = xs at this
  induction xs generalizing w' with
  | nil => exact h
  | cons x xs ih =>
    exact ih (h.putV (this x (List.mem_cons_self))) fun y hy => this y (List.mem_cons_of_mem _ hy)

theorem Puts.alu32 {os : List Operand} {w w' : Weave} {h : Head} {imm : Word} {aff : AffRule} {op : Word → Word → Word → Word}
    (hw : Puts os w w') (ho : h.d ∈ os) : Puts os w (w'.alu32 h imm aff op) := by
  unfold Weave.alu32
  split
  · split
    · exact hw.putG ho
    · exact hw
  · exact hw.putV ho

theorem Puts.alu64 {os : List Operand} {w w' : Weave} {h : Head} {imm : Word} {sg : Bool} {op : DWord → DWord → DWord → DWord}
    (hw : Puts os w w') (h0 : h.d ∈ os) (h1 : h.d.plus 1 ∈ os) : Puts os w (w'.alu64 h imm sg op) := by
  unfold Weave.alu64
  split
  · split
    · exact hw.putGPair h0 h1
    · exact hw
  · exact hw.putVPair h0 h1

theorem Puts.intAlu {os : List Operand} {w w' : Weave} {f : VForm} {aff : AffRule} {op : Int → Int → Int → Int}
    (hw : Puts os w w') (h0 : f.hd.d ∈ os) (h1 : f.ty1.wide = true → f.hd.d.plus 1 ∈ os) :
    Puts os w (w'.intAlu f aff op) := by
  unfold Weave.intAlu
  dsimp only
  split
  · rename_i h
    exact hw.alu64 h0 (h1 h)
  · exact hw.alu32 h0

theorem Puts.carryAlu {os : List Operand} {w w' : Weave} {f : VForm} {op : Word → Word → Bool → Word × Bool}
    (hw : Puts os w w') (h0 : f.hd.d ∈ os) (h1 : f.hd.c ∈ os) : Puts os w (w'.carryAlu f op) := by
  unfold Weave.carryAlu
  dsimp only
  split
  · split
    · exact (hw.putG h0).putQ h1
    · exact hw
  · exact (hw.putV h0).putP h1

theorem Puts.putPred {os : List Operand} {w w' : Weave} {h : Head} {b : Mask} (hw : Puts os w w') (ho : h.d ∈ os) :
    Puts os w (w'.putPred h b) := by
  unfold Weave.putPred
  split
  · split
    · exact hw.putQ ho
    · exact hw
  · exact hw.putP ho

theorem Puts.putUni {os : List Operand} {w w' : Weave} {h : Head} {o : Operand} {x : Word} (hw : Puts os w w')
    (ho : o ∈ os) : Puts os w (w'.putUni h o x) := by
  unfold Weave.putUni
  split
  · split
    · exact hw.putG ho
    · exact hw
  · exact hw.putV ho

theorem Puts.putUniPair {os : List Operand} {w w' : Weave} {h : Head} {x : DWord} (hw : Puts os w w')
    (h0 : h.d ∈ os) (h1 : h.d.plus 1 ∈ os) : Puts os w (w'.putUniPair h x) := by
  unfold Weave.putUniPair
  split
  · split
    · exact hw.putGPair h0 h1
    · exact hw
  · exact hw.putVPair h0 h1

theorem Puts.putGen {os : List Operand} {w w' : Weave} {h : Head} {f : Nat → Lane} (hw : Puts os w w')
    (ho : h.d ∈ os) : Puts os w (w'.putGen h f) := hw.putV ho

/-! ## Destinations -/

theorem plus_zero (o : Operand) : o.plus 0 = o := by
  cases o <;> simp [Operand.plus]

theorem mem_destRun {i : Instr} {h : Head} {k : Nat} (hh : (formOf i).head? = some h) (hi : ∀ f, i ≠ .movh f)
    (hk : k < runLen i (specOf i).rd) : h.d.plus k ∈ destRun i := by
  have e : fieldRuns i = (h.d, runLen i (specOf i).rd) :: (fieldRuns i).tail := by
    simp [fieldRuns, hh, Head.operands, Spec.runs]
  unfold destRun
  rw [e]
  cases i <;> first
    | exact absurd rfl (hi _)
    | exact List.mem_map.2 ⟨k, List.mem_range.2 hk, rfl⟩

theorem mem_destinations {i : Instr} {h : Head} (hh : (formOf i).head? = some h) (hi : ∀ f, i ≠ .movh f) {k : Nat}
    (hk : k < runLen i (specOf i).rd) : h.d.plus k ∈ destinations i :=
  List.mem_append_left _ (mem_destRun hh hi hk)

end Sys2Proof.Machine
end

