-- ==== Sys2Proof/Laws/Lanes.lean ====
section
/-! SUPPORT. Laws/Lanes.lean: what each lane of a register holds after a write, and what a register instruction's
destination receives. -/

namespace Sys2Proof.Machine

/-! ## Vector registers -/

theorem lane_ofFn {f : Nat → Lane} {l : Nat} (h : l < 32) : (VReg.ofFn f).lane l = f l := by
  simp [VReg.ofFn, VReg.lane, nthD_eq, laneList_getElem? h]

theorem lane_settle {r : VReg} {l : Nat} (h : l < 32) : r.settle.lane l = r.lane l := by
  cases r with
  | uni x =>
    show (if x.sb then VReg.gen (laneList.map fun _ => x) else VReg.uni x).lane l = x
    split
    · exact lane_ofFn (f := fun _ => x) h
    · rfl
  | _ => rfl

/-- The lanes that a masked write names hold the new value. -/
theorem lane_write_of_mem {old new : VReg} {m absent : Mask} {l : Nat} (h : l < 32) (hm : m.getLsbD l = true) :
    (old.write new m absent).lane l = new.lane l := by
  unfold VReg.write
  split
  · rename_i e; simp [e] at hm
  · split
    · rfl
    · split
      · rename_i e
        simp only [Bool.and_eq_true, beq_iff_eq] at e
        rw [e.2]
      · rw [lane_ofFn h, if_pos hm]

/-- Every other present lane holds what it held. -/
theorem lane_write_of_not_mem {old new : VReg} {m absent : Mask} {l : Nat} (h : l < 32) (hm : m.getLsbD l = false)
    (ha : absent.getLsbD l = false) : (old.write new m absent).lane l = old.lane l := by
  unfold VReg.write
  split
  · rfl
  · split
    · rename_i e
      have t : (m ||| absent).getLsbD l = (BitVec.allOnes 32).getLsbD l := by rw [e]
      rw [BitVec.getLsbD_or, hm, ha, BitVec.getLsbD_allOnes] at t
      simp [h] at t
    · split
      · rfl
      · rw [lane_ofFn h, if_neg (by simp [hm])]

/-- An operand of `len` registers lies within the allotment. -/
theorem allotted_v {w : Weave} {n : Fin 640} {len : Nat} (h : w.outOfRange (.v n) len = false) : n.val + len ≤ w.v.length := by
  simpa [Weave.outOfRange] using h

theorem allotted_g {w : Weave} {n : Fin 128} {len : Nat} (h : w.outOfRange (.g n) len = false) : n.val + len ≤ w.g.length := by
  simpa [Weave.outOfRange] using h

/-! ## Reading back -/

/-- A masked write of a vector register, lane by lane. -/
theorem laneOf_putV {w : Weave} {o : Operand} {m : Mask} {r : VReg} (ho : isVector o = true)
    (hv : w.outOfRange o 1 = false) (hh : w.h.length = 16) {l : Nat} (hl : l < 32) :
    (m.getLsbD l = true → (w.putV o m r).laneOf o l = r.lane l) ∧
    (m.getLsbD l = false → w.absent.getLsbD l = false → (w.putV o m r).laneOf o l = w.laneOf o l) := by
  cases o with
  | v n =>
    have hn : n.val < w.v.length := by have := allotted_v hv; omega
    have e : (w.putV (.v n) m r).laneOf (.v n) l = ((nthD w.v n.val (.uni Lane.zero)).write r.settle m w.absent).lane l := by
      show ((nthD (modNth w.v n.val _) n.val (.uni Lane.zero))).lane l = _
      rw [nthD_modNth_same hn]
    rw [e]
    exact ⟨fun hm => (lane_write_of_mem hl hm).trans (lane_settle hl), fun hm ha => lane_write_of_not_mem hl hm ha⟩
  | h n =>
    have hn : n.val < w.h.length := by have := n.isLt; omega
    have e : (w.putV (.h n) m r).laneOf (.h n) l = if m.getLsbD l then r.lane l else nthD (nthD w.h n.val []) l Lane.zero := by
      show nthD (nthD (modNth w.h n.val _) n.val []) l Lane.zero = _
      rw [nthD_modNth_same hn, nthD_eq]
      simp [laneList_getElem? hl]
    rw [e]
    exact ⟨fun hm => if_pos hm, fun hm _ => by rw [hm]; rfl⟩
  | _ => simp [isVector] at ho

theorem readG_putG {w : Weave} {o : Operand} {x : Word} (ho : isGroup o = true) (hg : w.outOfRange o 1 = false)
    (hh : w.hg.length = 16) : (w.putG o x).readG 0 o = x := by
  cases o with
  | g n =>
    have hn : n.val < w.g.length := by have := allotted_g hg; omega
    show nthD (modNth w.g n.val _) n.val 0 = x
    rw [nthD_modNth_same hn]
  | hg n =>
    have hn : n.val < w.hg.length := by have := n.isLt; omega
    show nthD (modNth w.hg n.val _) n.val 0 = x
    rw [nthD_modNth_same hn]
  | _ => simp [isGroup] at ho

/-! ## What D receives -/

/-- What a register instruction's destination holds when the instruction is complete. -/
theorem Receives.of_eq {w w' w'' : Weave} {h : Head} {o : Operand} {f : Nat → Lane} (hr : Receives w w' h o f)
    (hv : w''.v = w'.v) (hg : w''.g = w'.g) (hh : w''.h = w'.h) (hhg : w''.hg = w'.hg) : Receives w w'' h o f := by
  have e : ∀ l, isVector o = true → w''.laneOf o l = w'.laneOf o l := by
    intro l ho
    cases o <;> simp_all [isVector, Weave.laneOf, Weave.read]
  have e2 : isGroup o = true → w''.readG 0 o = w'.readG 0 o := by
    intro ho
    cases o <;> simp_all [isGroup, Weave.readG, Weave.read]
  exact ⟨fun h1 h2 l h3 h4 => (e l h2).trans (hr.writes h1 h2 l h3 h4),
    fun h1 h2 l h3 h4 h5 => (e l h2).trans (hr.keeps h1 h2 l h3 h4 h5), fun h1 h2 => (e2 h2).trans (hr.group h1 h2)⟩

/-- A lane form that writes a register in its writing lanes. -/
theorem receives_putV {w : Weave} {h : Head} {o : Operand} {r : VReg} {f : Nat → Lane} (hg : h.grp = false)
    (hv : w.outOfRange o 1 = false) (hh : w.h.length = 16) (hf : ∀ l < 32, (w.writers h).getLsbD l = true → r.lane l = f l) :
    Receives w (w.putV o (w.writers h) r) h o f where
  writes := fun _ ho l hl hm => ((laneOf_putV ho hv hh hl).1 hm).trans (hf l hl hm)
  keeps := fun _ ho l hl hm ha => (laneOf_putV ho hv hh hl).2 hm ha
  group := fun h1 => by simp [hg] at h1

/-- A group form that writes a group register when q passes. -/
theorem receives_putG {w : Weave} {h : Head} {o : Operand} {x : Word} {f : Nat → Lane} (hg : h.grp = true)
    (hv : w.outOfRange o 1 = false) (hh : w.hg.length = 16) (hf : x = (f 0).val) :
    Receives w (if w.qPass h then w.putG o x else w) h o f where
  writes := fun h1 => by simp [hg] at h1
  keeps := fun h1 => by simp [hg] at h1
  group := fun _ ho => by
    cases w.qPass h with
    | true => exact (readG_putG ho hv hh).trans hf
    | false => rfl

/-- The shape that a rule gives a result holds the result in every lane. -/
def AffRule.Sound (aff : AffRule) (op : Word → Word → Word → Word) : Prop :=
  ∀ a b c r, aff a b c = some r → ∀ l < 32, r.lane l = Lane.ofWord (op (a.lane l).val (b.lane l).val (c.lane l).val)

theorem affNone_sound (op : Word → Word → Word → Word) : affNone.Sound op := by
  intro a b c r h
  simp [affNone] at h

theorem lane_uni {r : VReg} (h : r.isUni = true) (l : Nat) : r.lane l = r.lane 0 := by
  cases r <;> simp_all [VReg.isUni, VReg.lane]

theorem lane_lift3 {aff : AffRule} {op : Word → Word → Word → Word} (hs : aff.Sound op) (a b c : VReg) {l : Nat} (hl : l < 32) :
    (lift3 aff op a b c).lane l = Lane.ofWord (op (a.lane l).val (b.lane l).val (c.lane l).val) := by
  unfold lift3
  split
  · rename_i h
    simp only [Bool.and_eq_true] at h
    rw [lane_uni h.1.1 l, lane_uni h.1.2 l, lane_uni h.2 l]
    rfl
  · split
    · rename_i r e
      exact hs a b c r e l hl
    · exact lane_ofFn hl

/-- A 32-bit register instruction: D receives the operation of its operands. -/
theorem receives_alu32 {w : Weave} {h : Head} {imm : Word} {aff : AffRule} {op : Word → Word → Word → Word}
    (hs : aff.Sound op) (hv : w.outOfRange h.d 1 = false) (hh : w.h.length = 16) (hhg : w.hg.length = 16) :
    ReceivesWords w (w.alu32 h imm aff op) h h.d fun l => op (w.valueOf imm h.a l) (w.valueOf imm h.b l) (w.valueOf imm h.c l) := by
  unfold Weave.alu32
  split
  · rename_i hg
    exact receives_putG hg hv hhg rfl
  · rename_i hg
    exact receives_putV (by simpa using hg) hv hh fun l hl _ => lane_lift3 hs _ _ _ hl

theorem affAdd_sound {op : Word → Word → Word} (h : ∀ x sx y sy l, op (x + l * sx) (y + l * sy) = op x y + l * op sx sy) :
    (affAdd op).Sound fun x y _ => op x y := by
  intro a b c r e l _
  have ha : ∀ (v : VReg) x sx, v.affine? = some (x, sx) → (v.lane l).val = x + BitVec.ofNat 32 l * sx := by
    intro v x sx hv
    cases v <;> simp_all [VReg.affine?, VReg.lane, Lane.ofWord] <;> obtain ⟨rfl, rfl⟩ := hv <;> simp
  unfold affAdd at e
  split at e
  · rename_i x sx y sy e1 e2
    simp only [Option.some.injEq] at e
    subst e
    show _ = Lane.ofWord (op (a.lane l).val (b.lane l).val)
    rw [ha a x sx e1, ha b y sy e2, h]
    rfl
  · simp at e

theorem affMul_sound : affMul.Sound fun x y _ => x * y := by
  intro a b c r e l _
  unfold affMul at e
  split at e
  · simp only [Option.some.injEq] at e
    subst e
    simp [VReg.lane, Lane.ofWord, BitVec.add_mul, BitVec.mul_assoc]
  · simp only [Option.some.injEq] at e
    subst e
    simp only [VReg.lane, Lane.ofWord, BitVec.mul_add, ← BitVec.mul_assoc]
    rw [BitVec.mul_comm (BitVec.ofNat 32 l)]
  · simp at e

end Sys2Proof.Machine
end

