-- ==== Sys2Proof/Laws/Memory.lean ====
section
/-! SUPPORT. Laws/Memory.lean: reading after writing, and that every memory operation keeps the canonical form. -/

namespace Sys2Proof.Machine

/-! ## One byte -/

theorem Memory.read_of_lt (m : Memory) (x : Nat) (h : ∀ c ∈ m, x < c.1) : Memory.read m x = unlistedByte := by
  induction m with
  | nil => rfl
  | cons c m ih =>
    have hc := h c (by simp)
    have : ¬ c.1 = x := by omega
    simp only [Memory.read, this, if_false]
    exact ih fun d hd => h d (by simp [hd])

theorem Memory.read_write_same (m : Memory) (hm : m.Pairwise fun x y => x.1 < y.1) (x : Nat) (v : Byte) :
    Memory.read (Memory.write m x v) x = v := by
  induction m with
  | nil => unfold Memory.write; split <;> simp_all [Memory.read]
  | cons c m ih =>
    obtain ⟨a, b⟩ := c
    obtain ⟨h1, h2⟩ := List.pairwise_cons.mp hm
    unfold Memory.write
    by_cases hax : a < x
    · have : ¬ a = x := by omega
      simp [hax, Memory.read, this, ih h2]
    · by_cases he : a = x
      · subst he
        by_cases hv : v = unlistedByte
        · simp only [Nat.lt_irrefl, if_false, if_true, hv]
          exact Memory.read_of_lt m a fun c hc => h1 c hc
        · simp [hv, Memory.read]
      · by_cases hv : v = unlistedByte
        · simp only [hax, he, if_false, hv, if_true]
          apply Memory.read_of_lt
          intro c hc
          rcases List.mem_cons.mp hc with rfl | hc
          · show x < a; omega
          · have := h1 c hc; simp at this; omega
        · simp [hax, he, hv, Memory.read]

theorem Memory.read_write_other (m : Memory) (hm : m.Pairwise fun x y => x.1 < y.1) {x y : Nat} (v : Byte) (h : y ≠ x) :
    Memory.read (Memory.write m x v) y = Memory.read m y := by
  induction m with
  | nil =>
    unfold Memory.write
    split
    · rfl
    · simp [Memory.read, Ne.symm h]
  | cons c m ih =>
    obtain ⟨a, b⟩ := c
    obtain ⟨h1, h2⟩ := List.pairwise_cons.mp hm
    unfold Memory.write
    by_cases hax : a < x
    · simp only [hax, if_true, Memory.read, ih h2]
    · by_cases he : a = x
      · subst he
        have ha : ¬ a = y := fun e => h e.symm
        by_cases hv : v = unlistedByte
        · simp [hv, Memory.read, ha]
        · simp [hv, Memory.read, ha]
      · by_cases hv : v = unlistedByte
        · simp [hax, he, hv]
        · have hxy : ¬ x = y := fun e => h e.symm
          simp [hax, he, hv, Memory.read, hxy]

/-! ## The canonical form -/

theorem Memory.wf_nil : Memory.wf [] := ⟨List.Pairwise.nil, by simp⟩

theorem Memory.mem_write {m : Memory} {x : Nat} {v : Byte} {c : Host.Cell} (h : c ∈ Memory.write m x v) :
    c ∈ m ∨ (c = (x, v) ∧ v ≠ unlistedByte) := by
  induction m with
  | nil =>
    unfold Memory.write at h
    split at h
    · simp at h
    · exact .inr ⟨by simpa using h, ‹_›⟩
  | cons d m ih =>
    obtain ⟨a, b⟩ := d
    unfold Memory.write at h
    split at h
    · rcases List.mem_cons.mp h with rfl | h
      · exact .inl (by simp)
      · rcases ih h with h | h
        · exact .inl (by simp [h])
        · exact .inr h
    · split at h
      · split at h
        · exact .inl (by simp [h])
        · rcases List.mem_cons.mp h with rfl | h
          · exact .inr ⟨rfl, ‹_›⟩
          · exact .inl (by simp [h])
      · split at h
        · exact .inl h
        · rcases List.mem_cons.mp h with rfl | h
          · exact .inr ⟨rfl, ‹_›⟩
          · exact .inl h

/-- A write keeps the canonical form. -/
theorem Memory.wf_write {m : Memory} (h : Memory.wf m) (x : Nat) (v : Byte) : Memory.wf (Memory.write m x v) := by
  obtain ⟨hp, hn⟩ := h
  refine ⟨?_, fun c hc => ?_⟩
  · induction m with
    | nil => unfold Memory.write; split <;> simp
    | cons c m ih =>
      obtain ⟨a, b⟩ := c
      obtain ⟨h1, h2⟩ := List.pairwise_cons.mp hp
      have ih := ih h2 fun c hc => hn c (by simp [hc])
      unfold Memory.write
      split
      · rename_i hax
        refine List.pairwise_cons.mpr ⟨fun d hd => ?_, ih⟩
        rcases Memory.mem_write hd with hd | ⟨rfl, _⟩
        · exact h1 d hd
        · exact hax
      · split
        · split
          · exact h2
          · rename_i he _
            subst he
            exact List.pairwise_cons.mpr ⟨h1, h2⟩
        · split
          · exact hp
          · refine List.pairwise_cons.mpr ⟨fun d hd => ?_, hp⟩
            have hx : x < a := by omega
            rcases List.mem_cons.mp hd with rfl | hd
            · exact hx
            · exact Nat.lt_trans hx (h1 d hd)
  · rcases Memory.mem_write hc with hc | ⟨rfl, hv⟩
    · exact hn c hc
    · exact hv

theorem Memory.wf_writeN {m : Memory} (h : Memory.wf m) (a : Nat) (bs : List Byte) : Memory.wf (Memory.writeN m a bs) := by
  induction bs generalizing m a with
  | nil => exact h
  | cons b bs ih => exact ih (Memory.wf_write h a b) (a + 1)

theorem Memory.wf_filter {m : Memory} (h : Memory.wf m) (p : Host.Cell → Bool) : Memory.wf (m.filter p) :=
  ⟨h.1.filter p, fun c hc => h.2 c (List.mem_of_mem_filter hc)⟩

/-! ## Several bytes -/

/-- What any address reads after some bytes have been stored. -/
theorem Memory.read_writeN {m : Memory} (h : Memory.wf m) (a : Nat) (bs : List Byte) (x : Nat) :
    Memory.read (Memory.writeN m a bs) x
      = if a ≤ x ∧ x < a + bs.length then nthD bs (x - a) 0 else Memory.read m x := by
  induction bs generalizing m a with
  | nil =>
    have : ¬ (a ≤ x ∧ x < a + 0) := by omega
    simp [Memory.writeN, this]
  | cons b bs ih =>
    rw [Memory.writeN, ih (Memory.wf_write h a b)]
    by_cases h1 : a + 1 ≤ x ∧ x < a + 1 + bs.length
    · have h2 : a ≤ x ∧ x < a + (b :: bs).length := by simp; omega
      rw [if_pos h1, if_pos h2]
      have e : x - a = (x - (a + 1)) + 1 := by omega
      rw [e]
      rfl
    · rw [if_neg h1]
      by_cases he : x = a
      · subst he
        rw [Memory.read_write_same _ h.1]
        simp [nthD]
      · rw [Memory.read_write_other _ h.1 b he]
        have h2 : ¬ (a ≤ x ∧ x < a + (b :: bs).length) := by simp; omega
        rw [if_neg h2]

theorem Memory.read_writeN_outside {m : Memory} (h : Memory.wf m) {a x : Nat} {bs : List Byte} (hx : x < a ∨ a + bs.length ≤ x) :
    Memory.read (Memory.writeN m a bs) x = Memory.read m x := by
  rw [Memory.read_writeN h, if_neg (by omega)]

/-- The bytes just stored are read back. -/
theorem Memory.readN_writeN {m : Memory} (h : Memory.wf m) (a : Nat) (bs : List Byte) :
    Memory.readN (Memory.writeN m a bs) a bs.length = bs := by
  apply List.ext_getElem
  · simp [Memory.readN]
  · intro i h1 h2
    simp only [Memory.readN, List.getElem_map, List.getElem_range]
    rw [Memory.read_writeN h, if_pos (by omega)]
    simp [nthD, h2]

end Sys2Proof.Machine
end

