-- ==== Sys2Proof/Laws/Stores.lean ====
section
/-! SUPPORT. Laws/Stores.lean: every operation that writes memory keeps each memory of the module in its canonical form. -/

namespace Sys2Proof.Machine

/-- Every memory of the module is in its canonical form: HBM, the mailbox, each scratch window, the four commons slices of
each tenant. -/
structure MemoriesWf (s : State) : Prop where
  hbm : Memory.wf s.hbm
  mailbox : Memory.wf s.mgmt.mailbox
  scratch : ∀ c ∈ s.crews, Memory.wf c.scratch
  commons : ∀ t ∈ s.tenants, t.commons.length = 4 ∧ ∀ m ∈ t.commons, Memory.wf m

theorem memoriesWf_reset : MemoriesWf State.reset :=
  ⟨Memory.wf_nil, Memory.wf_nil, fun _ hc => (List.not_mem_nil hc).elim, fun _ ht => (List.not_mem_nil ht).elim⟩

/-- A fold of steps that each keep the form keeps it. -/
theorem memoriesWf_foldl {α : Type} {f : State → α → State} (hf : ∀ s x, MemoriesWf s → MemoriesWf (f s x)) {s : State}
    (h : MemoriesWf s) (xs : List α) : MemoriesWf (xs.foldl f s) := by
  induction xs generalizing s with
  | nil => exact h
  | cons x xs ih => exact ih (hf s x h)

/-- Changes to crews that keep each scratch window's form. -/
theorem memoriesWf_updCrews {s : State} (h : MemoriesWf s) (p : Crew → Bool) {f : Crew → Crew}
    (hf : ∀ c, Memory.wf c.scratch → Memory.wf (f c).scratch) : MemoriesWf { s with crews := updWhere s.crews p f } := by
  refine ⟨h.hbm, h.mailbox, fun c hc => ?_, h.commons⟩
  obtain ⟨x, hx, rfl⟩ := mem_updWhere hc
  by_cases hp : p x = true
  · simpa [hp] using hf x (h.scratch x hx)
  · simpa [hp] using h.scratch x hx

theorem memoriesWf_modCrew {s : State} (h : MemoriesWf s) (cid : Nat) {f : Crew → Crew}
    (hf : ∀ c, Memory.wf c.scratch → Memory.wf (f c).scratch) : MemoriesWf (s.modCrew cid f) := memoriesWf_updCrews h _ hf

theorem memoriesWf_modWeave {s : State} (h : MemoriesWf s) (cid wx : Nat) (f : Weave → Weave) :
    MemoriesWf (s.modWeave cid wx f) := memoriesWf_modCrew h cid fun _ hc => hc

/-! ## HBM -/

theorem memoriesWf_hbm {s : State} (h : MemoriesWf s) {m : Memory} (hm : Memory.wf m) : MemoriesWf { s with hbm := m } :=
  ⟨hm, h.mailbox, h.scratch, h.commons⟩

theorem memoriesWf_claimGranule {s : State} (h : MemoriesWf s) (owner g : Nat) : MemoriesWf (s.claimGranule owner g) := by
  unfold State.claimGranule
  split
  · dsimp only
    split
    · exact h
    · generalize s.hbmBytes owner (g * 256) 256 = bs
      exact ⟨Memory.wf_writeN h.hbm _ _, h.mailbox, h.scratch, h.commons⟩
  · exact ⟨h.hbm, h.mailbox, h.scratch, h.commons⟩

theorem memoriesWf_hbmWrite {s : State} (h : MemoriesWf s) (owner pa : Nat) (bs : List Byte) :
    MemoriesWf (s.hbmWrite owner pa bs) := by
  unfold State.hbmWrite
  split
  · exact h
  · have hc := memoriesWf_foldl (fun s i hs => memoriesWf_claimGranule (s := s) hs owner (pa / 256 + i)) h
      (List.range ((pa + bs.length - 1) / 256 - pa / 256 + 1))
    dsimp only
    split <;> exact ⟨Memory.wf_writeN hc.hbm _ _, hc.mailbox, hc.scratch, hc.commons⟩

theorem memoriesWf_wakeLines {s : State} (h : MemoriesWf s) (ls : List WLine) : MemoriesWf (s.wakeLines ls) := by
  unfold State.wakeLines
  apply memoriesWf_foldl _ h
  intro s a hs
  have := memoriesWf_modWeave hs a.cid a.widx fun w => { w with woken := w.woken || w.watch.contains a.line }
  exact ⟨this.hbm, this.mailbox, this.scratch, this.commons⟩

/-- A zeroed frame lists nothing of its bytes. -/
theorem memoriesWf_zeroFrame {s : State} (h : MemoriesWf s) (owner f : Nat) : MemoriesWf (s.zeroFrame owner f) := by
  unfold State.zeroFrame
  apply memoriesWf_wakeLines
  constructor
  · exact Memory.wf_filter h.hbm _
  · exact h.mailbox
  · exact h.scratch
  · exact h.commons

/-! ## Commons and scratch -/

theorem memoriesWf_commonsWrite {s : State} (h : MemoriesWf s) (o d off : Nat) (bs : List Byte) :
    MemoriesWf (s.commonsWrite o d off bs) := by
  refine ⟨h.hbm, h.mailbox, h.scratch, fun t ht => ?_⟩
  obtain ⟨x, hx, rfl⟩ := mem_updWhere ht
  obtain ⟨hl, hm⟩ := h.commons x hx
  split
  · refine ⟨by simpa using hl, fun m hmem => ?_⟩
    rcases mem_modNth hmem with hmem | ⟨y, hy, rfl⟩
    · exact hm m hmem
    · dsimp only
      split <;> exact Memory.wf_writeN (hm y hy) _ _
  · exact ⟨hl, hm⟩

theorem memoriesWf_staleScratch {s : State} (h : MemoriesWf s) (cid off n : Nat) : MemoriesWf (s.staleScratch cid off n) := by
  unfold State.staleScratch
  split
  · exact h
  · exact memoriesWf_updCrews h _ fun _ hc => hc

/-- A store anywhere. -/
theorem memoriesWf_locWrite {s : State} (h : MemoriesWf s) (owner : Nat) (l : Loc) (bs : List Byte) :
    MemoriesWf (s.locWrite owner l bs) := by
  cases l with
  | scratch cid off =>
    exact memoriesWf_wakeLines (memoriesWf_staleScratch (memoriesWf_modCrew h cid fun c hc => Memory.wf_writeN hc off bs) _ _ _) _
  | commons o d off => exact memoriesWf_wakeLines (memoriesWf_commonsWrite h o d off bs) _
  | hbm pa => exact memoriesWf_wakeLines (memoriesWf_hbmWrite h owner pa bs) _

/-! ## What the device writes by translation -/

theorem memoriesWf_setUsed {s : State} (h : MemoriesWf s) (owner entry : Nat) : MemoriesWf (s.setUsed owner entry) := by
  unfold State.setUsed
  dsimp only
  split
  · exact h
  · exact memoriesWf_locWrite h _ _ _

theorem memoriesWf_markUsed {s : State} (h : MemoriesWf s) (owner va n : Nat) : MemoriesWf (s.markUsed owner va n) := by
  unfold State.markUsed
  apply memoriesWf_foldl _ h
  intro s i hs
  split
  · exact memoriesWf_setUsed hs _ _
  · exact hs

theorem memoriesWf_deviceStore {s t : State} (h : MemoriesWf s) {owner va : Nat} {bs : List Byte}
    (hw : s.deviceStore owner va bs = .ok t) : MemoriesWf t := by
  unfold State.deviceStore at hw
  split at hw
  · cases hw
  · simp only [Except.ok.injEq] at hw
    subst hw
    apply memoriesWf_foldl _ (memoriesWf_markUsed h _ _ _)
    intro s x hs
    split
    · exact memoriesWf_locWrite hs _ _ _
    · exact hs

theorem memoriesWf_deviceWrite {s t : State} (h : MemoriesWf s) {owner va : Nat} {bs : List Byte}
    (hw : s.deviceWrite owner va bs = .ok t) : MemoriesWf t := by
  unfold State.deviceWrite at hw
  split at hw
  · cases hw
  · exact memoriesWf_deviceStore h hw

theorem memoriesWf_deviceWriteWords {s : State} (h : MemoriesWf s) (owner va : Nat) (ws : List DWord) :
    MemoriesWf (s.deviceWriteWords owner va ws) := by
  unfold State.deviceWriteWords
  split
  · exact memoriesWf_deviceWrite h ‹_›
  · exact h

end Sys2Proof.Machine
end

