-- ==== Sys2Proof/Tests/Slice0.lean ====
section
/-! SUPPORT. Tests/Slice0.lean: ill-formed terms, words written out from the spec's encodings, single steps with results
worked out by hand, and for each statement of Certificates/Slice0 states and operands that meet its hypotheses. -/

namespace Sys2Proof.Tests

open Sys2Proof Sys2Proof.Machine

set_option Elab.async false

/-! ## Ill-formed terms -/

/-- A head of a lane form. -/
def lane (d a b c : Operand) : Head := ⟨false, 0, false, d, a, b, c, 0⟩
/-- A head of a group form. -/
def group (d a b c : Operand) : Head := ⟨true, 0, false, d, a, b, c, 0⟩
def vf (h : Head) : VForm := ⟨h, 0, .named, .named, 0⟩
def bf (h : Head) : BForm := ⟨h, 0, 0⟩
def mf (h : Head) : MForm := ⟨h, 0, 2, 0, 0, 0, 0, 0⟩
def ef (h : Head) : EForm := ⟨h, 0, 0, 0, 0⟩
def sf (h : Head) : SForm := ⟨h, 0, 0⟩

theorem test_wf_addition : WellFormed (.iadd (vf (lane (.v 3) (.v 1) (.v 2) .none))) := by decide
/-- R279: a form that the opcode map does not give. -/
theorem test_wf_form : ¬ WellFormed (.exmr (vf (lane (.v 3) .none .none .none))) := by decide
/-- R262: an undefined operand code. -/
theorem test_wf_undefined : ¬ WellFormed (.iadd (vf (lane (.v 3) (.undef 0) (.v 2) .none))) := by decide
/-- R285: an operand of a class that the field does not take. -/
theorem test_wf_class : ¬ WellFormed (.iadd (vf (lane (.p 1) (.v 1) (.v 2) .none))) := by decide
/-- R263: an unused field that is not 1023. -/
theorem test_wf_unused : ¬ WellFormed (.iadd (vf (lane (.v 3) (.v 1) (.v 2) (.v 0)))) := by decide
/-- R132: an odd register pair. -/
theorem test_wf_pair : ¬ WellFormed (.iadd { vf (lane (.v 3) (.v 2) (.v 2) .none) with ty1 := .i64 }) := by decide
/-- R283: a type that the instruction does not accept. -/
theorem test_wf_type : ¬ WellFormed (.iadd { vf (lane (.v 3) (.v 1) (.v 2) .none) with ty1 := .f32 }) := by decide
/-- R283: a modifier that the instruction does not have. -/
theorem test_wf_modifier : ¬ WellFormed (.and_ { vf (lane (.v 3) (.v 1) (.v 2) .none) with mod := 8 }) := by decide
/-- R263: an immediate that no operand names. -/
theorem test_wf_immediate : ¬ WellFormed (.iadd { vf (lane (.v 3) (.v 1) (.v 2) .none) with imm := 1 }) := by decide
/-- An agent's step that names a die beyond the four. -/
theorem test_wf_die : WellFormed (.diePark 3) ∧ ¬ WellFormed (.diePark 4) := by decide
/-- And a queue, a link, a port, a core, a weave beyond the last. -/
theorem test_wf_parts : ¬ WellFormed (.packetRead 1024) ∧ ¬ WellFormed (.linkFatal 4) ∧ ¬ WellFormed (.portLinkUp 8) ∧
    ¬ WellFormed (.lkaRetire 256) ∧ ¬ WellFormed (.deferredTrap 0 32) := by decide
/-- R329, R281: a width, an ordering scope, a displacement, a token count, a handle and a CSR out of their lists. -/
theorem test_wf_fields : ¬ WellFormed (.ld { mf (lane (.v 1) .zero .none .none) with wid := 7 }) ∧
    ¬ WellFormed (.fence { mf (lane .none .none .none .none) with scp := 6 }) ∧
    ¬ WellFormed (.bara { mf (lane .none .none .none .none) with scp := 1, wid := 0, disp := 16 }) ∧
    ¬ WellFormed (.ifb (bf (lane .none (.p 1) .none .none))) ∧
    ¬ WellFormed (.plnset { ef (group .none (.g 2) .none .none) with th := 1 }) ∧
    ¬ WellFormed (.csrr { sf (group (.g 2) .none .none .none) with csr := 0x0012 }) := by decide
/-- R305, R301: an immediate beyond its limit. -/
theorem test_wf_limits : ¬ WellFormed (.qbc { vf (lane (.v 3) (.v 1) .imm .none) with imm := 4 }) ∧
    ¬ WellFormed (.lea { vf (lane (.v 3) (.v 1) (.v 2) .imm) with imm := 32 }) := by decide

/-! ## Words written out from the spec's encodings -/

/-- R278, R284 and the tables beside R267, R291: control. -/
theorem test_decode_control :
    decode 0x0100_17FF_FFFF_FFF8_0000_0000_FFFF_FFFD = .ok (.bra ⟨⟨true, 1, false, .none, .none, .none, .none, 0⟩, 0, -3⟩) ∧
    decode 0x0203_07FF_FFFF_FFF8_0000_0000_0000_0008 = .ok (.loop ⟨lane .none .none .none .none, 0, 8⟩) ∧
    decode 0x0200_07FF_90FF_FFF8_0100_0000_0000_0002 = .ok (.ifb ⟨lane .none (.p 1) .none .none, 1, 2⟩) ∧
    decode 0x0204_07FF_917F_FFF8_0000_0000_0000_0000 = .ok (.brkl ⟨lane .none (.p 2) .none .none, 0, 0⟩) ∧
    decode 0x0206_07FF_91FF_FFF8_0000_0000_FFFF_FFFA = .ok (.lend ⟨lane .none (.p 3) .none .none, 0, -6⟩) ∧
    decode 0x0403_17FF_FFFF_FFF8_0000_0000_0000_0000 = .ok (.trap ⟨⟨false, 1, false, .none, .none, .none, .none, 0⟩, 0, 0⟩) := by
  decide +kernel

/-- Integer, move, compare, exchange and special registers. -/
theorem test_decode_integer :
    decode 0x2000_0006_00D0_5FF8_0000_0000_0000_0000 = .ok (.iadd (vf (lane (.v 3) (.v 1) (.g 2) .none))) ∧
    decode 0x2100_0507_40D0_5FF8_0000_0000_0000_0000 = .ok (.iadd (vf (group (.g 3) (.g 1) (.g 2) .none))) ∧
    decode 0x2002_000C_0100_9918_0000_0000_0000_0000 = .ok (.iadc (vf (lane (.v 6) (.v 2) (.v 4) (.p 3)))) ∧
    decode 0x2502_0509_FE7F_FFF8_0000_0000_0020_0000 =
      .ok (.movi { vf (group (.g 4) .imm .none .none) with imm := 0x0020_0000 }) ∧
    decode 0x2502_0505_FF7F_FFF8_0000_0000_0000_0000 = .ok (.movi (vf (group (.g 2) .ones .none .none))) ∧
    decode 0x2412_0642_0100_7FF8_0900_0000_0000_0000 =
      .ok (.icmp .lt { vf (lane (.p 1) (.v 2) (.v 3) .none) with ty1 := .ui32 }) ∧
    decode 0x2412_0643_FDFF_9FF8_0000_0000_0000_0002 =
      .ok (.icmp .lt { vf (lane (.p 1) .laneid .imm .none) with imm := 2 }) ∧
    decode 0x6000_0010_01FF_9FF8_0000_0000_0000_00B1 =
      .ok (.qswz { vf (lane (.v 8) (.v 3) .imm .none) with imm := 0xB1 }) ∧
    decode 0x6210_0012_02FF_FFF8_0100_0000_0000_0000 =
      .ok (.redw .add { vf (lane (.v 9) (.v 5) .none .none) with ty1 := .f32 }) ∧
    decode 0x6700_0505_FFFF_FFF8_6000_0000_0000_0000 =
      .ok (.sreg { vf (group (.g 2) .none .none .none) with mod := 6 }) := by decide +kernel

/-- Floating point, pairs, conversions, granules. -/
theorem test_decode_float :
    decode 0x4003_000E_0200_C019_1000_0000_0000_0000 =
      .ok (.ffma { vf { lane (.v 7) (.v 4) (.v 6) (.v 3) with em := 1 } with mod := 1 }) ∧
    decode 0x4207_0014_0100_7FF8_3000_0000_0000_0000 =
      .ok (.fdiv { vf (lane (.v 10) (.v 2) (.v 3) .none) with mod := 3 }) ∧
    decode 0x4016_0644_0080_3FF8_0000_0000_0000_0000 = .ok (.fcmp .un (vf (lane (.p 2) (.v 1) (.v 1) .none))) ∧
    decode 0x4405_000C_00D0_6010_8000_0000_0000_0000 =
      .ok (.hfma2 { vf (lane (.v 6) (.v 1) (.g 3) (.v 2)) with mod := 8 }) ∧
    decode 0x4600_000A_027F_FFF8_1410_0000_0000_0000 =
      .ok (.cvt { vf (lane (.v 5) (.v 4) .none .none) with mod := 1, ty1 := .i8, ty2 := .f32 }) ∧
    decode 0x4601_0018_0250_3FF8_0E20_0000_0000_0000 =
      .ok (.tenc { vf (lane (.v 12) (.v 4) (.g 1) .none) with ty1 := .t6, ty2 := .bf16 }) ∧
    decode 0x4602_003C_0A7F_9FF8_00D0_0000_0000_0002 =
      .ok (.tdec { vf (lane (.v 30) (.v 20) .imm .none) with ty2 := .t8, imm := 2 }) ∧
    decode 0x4800_0028_047F_FFF8_0F00_0000_0000_0000 =
      .ok (.gpack { vf (lane (.v 20) (.v 8) .none .none) with ty1 := .i8g }) := by decide +kernel

/-- Memory, translation, waits, barriers, signals. -/
theorem test_decode_memory :
    decode 0x8000_0012_03FF_FFF8_48C0_0000_0000_0040 =
      .ok (.ld ⟨lane (.v 9) (.v 7) .none .none, 2, 2, 1, 4, 0, 0, 0x40⟩) ∧
    decode 0x8001_07FE_0301_5FF8_2D40_0000_0000_0008 =
      .ok (.st ⟨lane .none (.v 6) (.v 10) .none, 1, 3, 2, 4, 0, 0, 8⟩) ∧
    decode 0x8200_0007_FEFF_FFF8_0890_0000_0000_0010 =
      .ok (.lds ⟨lane (.v 3) .zero .none .none, 0, 2, 1, 1, 0, 0, 0x10⟩) ∧
    decode 0x8201_07FF_FEFF_DFF8_0910_0000_0000_0010 =
      .ok (.sts ⟨lane .none .zero .ones .none, 0, 2, 2, 1, 0, 0, 0x10⟩) ∧
    decode 0x8700_07FF_427F_FFF8_4000_0000_0000_0000 =
      .ok (.xlb ⟨group .none (.g 4) .none .none, 2, 0, 0, 0, 0, 0, 0⟩) ∧
    decode 0xA200_07FF_FEFF_FFF8_0400_0000_0000_0010 =
      .ok (.watch ⟨lane .none .zero .none .none, 0, 1, 0, 0, 0, 0, 0x10⟩) ∧
    decode 0xA202_0645_FFFF_FFF8_0000_0000_0000_0000 =
      .ok (.waita ⟨lane (.p 2) .none .none .none, 0, 0, 0, 0, 0, 0, 0⟩) ∧
    decode 0xA402_07FF_FFFF_FFF8_0040_0000_0000_0000 =
      .ok (.baraw ⟨lane .none .none .none .none, 0, 0, 0, 4, 0, 0, 0⟩) ∧
    decode 0xA700_07FF_4250_DFF8_0000_0000_0000_0000 =
      .ok (.sigadd ⟨group .none (.g 4) (.g 6) .none, 0, 0, 0, 0, 0, 0, 0⟩) := by decide +kernel

/-- Engines, dynamic work, graphs, system. -/
theorem test_decode_engines :
    decode 0xC500_0505_447F_FFF8_0000_0014_0000_0000 =
      .ok (.cpy { ef (group (.g 2) (.g 8) .none .none) with ctl := 0x14 }) ∧
    decode 0xC600_07FE_0A50_9FF8_0000_0000_0000_0000 = .ok (.emit (ef (lane .none (.v 20) (.g 4) .none))) ∧
    decode 0xC702_0509_FFFF_9FF8_0000_0000_0000_0008 =
      .ok (.rtake { ef (group (.g 4) .none .imm .none) with imm := 8 }) ∧
    decode 0xC900_050D_FFFF_9FF8_0000_0000_0000_0003 =
      .ok (.rpop { ef (group (.g 6) .none .imm .none) with imm := 3 }) ∧
    decode 0xE000_07FF_FFFF_FFF8_0000_0000_0000_0000 = .ok (.tret (sf (lane .none .none .none .none))) := by decide +kernel

/-- R280: an unassigned major; an unassigned minor; then a reserved bit; then an operand of a wrong class. -/
theorem test_decode_rejects :
    decode 0x0300_07FF_FFFF_FFF8_0000_0000_0000_0000 = .error .illegalOpcode ∧
    decode 0x20FF_0006_00D0_5FF8_0000_0000_0000_0000 = .error .illegalOpcode ∧
    decode 0x2000_0006_00D0_5FF8_0001_0000_0000_0000 = .error .reservedField ∧
    decode 0x2000_0646_00D0_5FF8_0000_0000_0000_0000 = .error .illegalOperand := by decide +kernel

/-- The bits as the opcode table numbers them are the word's. -/
theorem test_table_word : decodeTableWord 128 0x0400_07FF_FFFF_FFF8_0000_0000_0000_0000 =
    some (.nop (bf (lane .none .none .none .none))) := by decide +kernel

/-! ## A small machine -/

/-- A weave of 32 lanes at PC 0x100: v0 holds 0, v1 the lane number, v2 to v15 are small, g2 is 5, g4:g5 the VA 0x1000,
p1 the odd lanes, p2 no lane, q1 clear. -/
def w0 : Weave :=
  { Weave.start 32 16 16 false 0x100 0 with
    v := [.uni Lane.zero, .aff 0 1, .uni (Lane.ofWord 7), .uni (Lane.ofWord 0xFFFFFFFF)] ++ List.replicate 12 (.uni (Lane.ofWord 2))
    g := [0, 1, 5, 0, 0x1000, 0, 0, 0, 0, 0, 0, 0, 0, 0, 0, 0]
    p := [BitVec.allOnes 32, 0xAAAAAAAA, 0] ++ List.replicate 13 0 }

/-- The same in supervisor mode after a trap at PC 0x40 in lanes 0 and 1. -/
def wSup : Weave :=
  { w0 with mode := .super, handler := some .entered, hpc := 0x40, hxm := 3, hhm := 0, hfm := 3, hcause := 0x110 }

/-- A crew whose one weave is `w`, on core 0. -/
def crewOf (w : Weave) : Crew := Crew.start harnessSeat harnessShape [w] 0

/-- The machine in which that weave is issuing. -/
def on (w : Weave) : State :=
  { State.reset.harness [] with cur := some (0, 0), crews := [crewOf w] }

/-- The conditions of `Issues` on the weave and the instruction. -/
def fits (w : Weave) (i : Instr) : Bool :=
  decide (w.p.length = 16) && decide (nthD w.p 0 0 = BitVec.allOnes 32) && w.q.getLsbD 0 && decide (w.b.length = 8) &&
  decide (w.h.length = 16) && decide (w.hg.length = 16) && decide (w.v.length ≤ 640) && decide (w.g.length ≤ 128) &&
  (decide (w.mode = .super) || ((fieldRuns i).all fun x => kindOf x.1 != .h && kindOf x.1 != .hg) && !supervisorOnly i) &&
  (fieldRuns i).all (fun x => !w.outOfRange x.1 x.2 && !w.anyEmpty x.1 x.2) && !handleBeyond 16 i &&
  (fieldRuns i).all (fun x => kindOf x.1 != .h || decide (regNo x.1 + x.2 ≤ 16))

theorem issues_of {s : State} {w : Weave} {i : Instr} (hc : s.cur = some (0, 0)) (hw : s.weave? 0 0 = some w)
    (ht : s.tblqOf 0 = 16) (h : fits w i = true) : Issues s i 0 0 w := by
  simp only [fits, Bool.and_eq_true, decide_eq_true_eq, List.all_eq_true, Bool.or_eq_true, Bool.not_eq_true', bne_iff_ne] at h
  obtain ⟨⟨⟨⟨⟨⟨⟨⟨⟨⟨⟨h1, h2⟩, h3⟩, h4⟩, h5⟩, h6⟩, h7⟩, h8⟩, h9⟩, h10⟩, h11⟩, h12⟩ := h
  refine ⟨hc, hw, ⟨h1, h2, h3, h4, h5, h6⟩, ⟨h7, h8⟩, ?_, fun x hx hk => (h12 x hx).resolve_left (fun h => h hk), ?_,
    fun x hx => (h10 x hx).1, ?_, fun x hx => (h10 x hx).2⟩
  · intro hm x hx
    rcases h9 with h9 | h9
    · rw [hm] at h9; cases h9
    · exact h9.1 x hx
  · intro hm
    rcases h9 with h9 | h9
    · rw [hm] at h9; cases h9
    · exact h9.2
  · rw [ht]; exact h11

theorem issues_on {w : Weave} {i : Instr} (h : fits w i = true) : Issues (on w) i 0 0 w := issues_of rfl rfl rfl h

/-- Every instruction of a list issues. -/
theorem issues_all {w : Weave} {is : List Instr} (h : is.all (fits w) = true) : ∀ i ∈ is, Issues (on w) i 0 0 w :=
  fun i hi => issues_on (List.all_eq_true.mp h i hi)

/-- Lane `l` of register `o` after `i` on the machine `on w`. -/
def after (w : Weave) (i : Instr) (o : Operand) (l : Nat) : Option Word :=
  match exec i (on w) with
  | .next t => (t.weave? 0 0).map fun w' => w'.valueOf 0 o l
  | _ => none

/-- Predicate `n` after it. -/
def afterP (w : Weave) (i : Instr) (n : Nat) : Option Mask :=
  match exec i (on w) with
  | .next t => (t.weave? 0 0).map fun w' => nthD w'.p n 0
  | _ => none

/-- The cause that it traps with. -/
def causeOf (w : Weave) (i : Instr) : Option Word :=
  match exec i (on w) with
  | .next t => (t.weave? 0 0).map (·.hcause)
  | _ => none

/-- Where the weave stands after it: PC, exec mask, tokens. -/
def flowOf (w : Weave) (i : Instr) : Option (Pc × Mask × Nat) :=
  match exec i (on w) with
  | .next t => (t.weave? 0 0).map fun w' => (w'.pc, w'.exec, w'.toks.length)
  | _ => none

def v3 (a b : Operand) : VForm := vf (lane (.v 8) a b .none)

/-! ## Integer and logic -/

/-- R297: 2 + 0xFFFFFFFF wraps; it saturates as an unsigned sum. -/
theorem test_iadd : after w0 (.iadd (v3 (.v 3) (.v 4))) (.v 8) 5 = some 1 ∧
    after w0 (.iadd { v3 (.v 3) (.v 4) with mod := 8, ty1 := .ui32 }) (.v 8) 5 = some 0xFFFFFFFF := by decide +kernel
/-- The guard p1: even lanes keep D. -/
theorem test_guard : after w0 (.iadd (vf { lane (.v 8) (.v 1) (.v 2) .none with grd := 1 })) (.v 8) 4 = some 2 ∧
    after w0 (.iadd (vf { lane (.v 8) (.v 1) (.v 2) .none with grd := 1 })) (.v 8) 5 = some 12 := by decide +kernel

/-! ## Witnesses: encoding and steps -/

theorem witness_DecodeEncode : WeaveForm (.iadd (v3 (.v 639) (.v 4))) ∧ WeaveForm (.fence { mf (lane .none .none .none .none) with wid := 0 }) ∧
    WeaveForm (.nop (bf (group .none .none .none .none))) ∧ WeaveForm (.plnset (ef (group .none (.g 2) .none .none))) ∧
    WeaveForm (.csrw { sf (group .none (.g 127) .none .none) with csr := 0x0800 }) := by decide +kernel
theorem witness_EncodeDecode : decode 0x2000_0006_00D0_5FF8_0000_0000_0000_0000 =
    .ok (.iadd (vf (lane (.v 3) (.v 1) (.g 2) .none))) := by decide +kernel
/-- Majors beside assigned ones, and the last. -/
theorem witness_UnassignedMajor : (fld 0x0300_07FF_FFFF_FFF8_0000_0000_0000_0000 120 8).toNat ∉ assignedMajors ∧
    (fld 0xE200_07FF_FFFF_FFF8_0000_0000_0000_0000 120 8).toNat ∉ assignedMajors ∧
    (fld 0xFF00_07FF_FFFF_FFF8_0000_0000_0000_0000 120 8).toNat ∉ assignedMajors ∧ 0xE1 ∈ assignedMajors ∧
    decode 0x2000_0006_00D0_5FF8_0000_0000_0000_0000 = .ok (.iadd (vf (lane (.v 3) (.v 1) (.g 2) .none))) ∧
    (formOf (.iadd (vf (lane (.v 3) (.v 1) (.g 2) .none)))).head? = some (lane (.v 3) (.v 1) (.g 2) .none) := by decide +kernel

/-- `NOP` where the next step fetches. -/
def nopAt0 : State := State.reset.withFetchWord 128 0x0400_07FF_FFFF_FFF8_0000_0000_0000_0000

theorem test_step_nop : (match step nopAt0 with
    | .next t => (t.weave? 0 0).map (·.pc)
    | _ => none) = some 16 := by decide +kernel

/-- A `BARQ` of the launch, whose records die 1 holds, while link 0 is retraining. -/
def barqAt0 : State :=
  { State.reset.withFetchWord 128 (encode (.barq { mf (group (.g 8) .none .none .none) with wid := 0, scp := 4, disp := 15 })).toNat with
    launches := [{ harnessLaunch with recDie := some 1 }], welt := [⟨.retraining, 64⟩, ⟨.up, 0⟩, ⟨.up, 0⟩, ⟨.up, 0⟩] }

/-- The weave, the fetch and the word of the first clause, on links that are up and on one that is not; an event of the
second, and one whose traffic stalls. -/
theorem witness_StepRunsDecoded :
    (∃ ts c w s' x i, nopAt0.agenda = .weave 0 0 :: ts ∧ nopAt0.mgmt.shutdown = false ∧ nopAt0.crew? 0 = some c ∧
      nopAt0.weave? 0 0 = some w ∧ c.core? = some 0 ∧ ({ nopAt0 with agenda := ts, cur := none } : State).ready 0 0 0 w = true ∧
      w.pendReady = false ∧ w.handler = none ∧
      (turnBegins nopAt0 ts 0 0).fetch 0 0 0 c.owner { w with tried := nopAt0.ids + 1 } = (s', .word x) ∧
      decode x = .ok i ∧ s'.welt.all (fun l => l.state == .up) = true) ∧
    (match step barqAt0 with
     | .next t => (t.weave? 0 0).map (·.pc)
     | _ => none) = some 0 ∧
    (match (turnBegins barqAt0 [] 0 0).fetch 0 0 0 0 { (barqAt0.weave? 0 0).getD w0 with tried := barqAt0.ids + 1 } with
     | (s', .word x) => match decode x with
       | .ok i => ({ s' with cur := some (0, 0) } : State).stalls i
       | .error _ => false
     | _ => false) = true ∧
    (let s : State := { State.reset with agenda := [.event 0], pending := [.checkpoint] }
     s.agenda = .event 0 :: [] ∧ s.pending[0]? = some .checkpoint ∧ isEvent .checkpoint = true ∧
      ({ s with agenda := [] } : State).works .checkpoint = true ∧ s.scv.hung = false ∧
      ({ s with agenda := [], pending := s.pending.eraseIdx 0 } : State).stalls .checkpoint = false ∧
      ({ s with agenda := [], pending := [], welt := barqAt0.welt } : State).stalls (.commandLinkMessage 8 true) = true) := by
  refine ⟨⟨[], _, _, _, _, .nop (bf (lane .none .none .none .none)), rfl, rfl, rfl, rfl, rfl, ?_, rfl, rfl, rfl, ?_, ?_⟩, ?_, ?_, ?_⟩
  all_goals decide +kernel

/-- The line of PC 0 in neither buffer. -/
theorem witness_FetchReadsMemory : ∃ w l t, nopAt0.weave? 0 0 = some w ∧ w.fline ≠ some (w.pc.toNat / 64) ∧ w.pc.toNat % 16 = 0 ∧
    (nopAt0.core 0).icache.find? (fun y => y.owner == 0 && y.line == w.pc.toNat / 64) = none ∧ nopAt0.tenant? 0 = some t ∧
    nopAt0.xlate w 0 0 (w.pc.toNat / 64 * 64) = .hit l ∧ l.x = true ∧
    paBacked (leafPa l t.shadow (w.pc.toNat / 64 * 64) false) = true :=
  ⟨_, _, _, rfl, by decide +kernel, by decide +kernel, by decide +kernel, rfl, rfl, rfl, by decide +kernel⟩

/-! ## Witnesses: register instructions -/

/-- A lane form and a group form of 32 bits, and the same on pairs. -/
def a32 : VForm := vf (lane (.v 8) (.v 1) (.v 3) (.v 4))
def g32 : VForm := vf (group (.g 8) (.g 2) (.g 1) (.g 4))
def a64 : VForm := { vf (lane (.v 8) (.v 2) (.v 4) (.v 6)) with ty1 := .i64 }
def g64 : VForm := { vf (group (.g 8) (.g 2) (.g 4) (.g 6)) with ty1 := .i64 }
/-- At the boundary of the register file: the last register, under a negated guard. -/
def last32 : VForm := vf ⟨false, 1, true, .v 15, .ones, .imm, .g 15, 0⟩

/-- Every instruction of a list, in both forms. -/
def both (w : Weave) (fs : List VForm) (is : List (VForm → Instr)) : Bool := fs.all fun f => is.all fun mk => fits w (mk f)

theorem both_issue {w : Weave} {fs : List VForm} {is : List (VForm → Instr)} (h : both w fs is = true) :
    ∀ f ∈ fs, ∀ mk ∈ is, Issues (on w) (mk f) 0 0 w := fun f hf mk hm =>
  issues_on (List.all_eq_true.mp (List.all_eq_true.mp h f hf) mk hm)

theorem witness_RegisterFrame : ∀ f ∈ [a32, g32, a64, g64, last32], ∀ mk ∈ [Instr.iadd, .icmp .lt, .fadd, .cvt, .redw .add],
    isAlu (mk f) = true ∧ Issues (on w0) (mk f) 0 0 w0 := by
  intro f hf mk hm
  refine ⟨?_, both_issue (by decide +kernel) f hf mk hm⟩
  simp only [List.mem_cons, List.not_mem_nil, or_false] at hm
  rcases hm with rfl | rfl | rfl | rfl | rfl <;> rfl

def integerOps : List (VForm → Instr) := [.iadd, .isub, .imul, .imad, .ineg, .iabs, .imin, .imax, .imulh]

theorem witness_IntegerResults :
    (∀ f ∈ [a32, g32, last32], ∀ mk ∈ integerOps, Issues (on w0) (mk f) 0 0 w0) ∧
    (∀ f ∈ [a64, g64], ∀ mk ∈ integerOps, Issues (on w0) (mk f) 0 0 w0) ∧
    wraps32 a32 ∧ wraps32 { a32 with ty1 := .ui32 } ∧ wraps64 a64 ∧ wraps64 { g64 with ty1 := .ui64 } ∧
    signed32 g32 ∧ unsigned32 { a32 with ty1 := .ui32 } ∧ signed64 a64 ∧ unsigned64 { a64 with ty1 := .ui64 } :=
  by
  refine ⟨both_issue (by decide +kernel), both_issue (by decide +kernel), ?_⟩
  repeat' first | rfl | apply And.intro | exact .inl rfl | exact .inr rfl

theorem witness_IntegerCorners :
    (∀ f ∈ [{ a32 with mod := 8 }, { g32 with mod := 8 }, { a32 with mod := 8, ty1 := .ui32 }], ∀ mk ∈ integerOps,
      Issues (on w0) (mk f) 0 0 w0) ∧
    (∀ f ∈ [{ a64 with mod := 8 }, { a64 with mod := 8, ty1 := .ui64 }], ∀ mk ∈ integerOps, Issues (on w0) (mk f) 0 0 w0) ∧
    saturates .named { a32 with mod := 8 } ∧ saturates .ui32 { a32 with mod := 8, ty1 := .ui32 } ∧
    saturates .i64 { a64 with mod := 8 } ∧ saturates .ui64 { a64 with mod := 8, ty1 := .ui64 } ∧
    (∀ f ∈ [vf (lane (.v 8) (.v 1) (.v 3) (.p 1)), vf (group (.g 8) (.g 2) (.g 1) (.q 1))], ∀ mk ∈ [Instr.iadc, .isbb],
      Issues (on w0) (mk f) 0 0 w0) :=
  ⟨both_issue (by decide +kernel), both_issue (by decide +kernel), ⟨rfl, rfl⟩, ⟨rfl, rfl⟩, ⟨rfl, rfl⟩, ⟨rfl, rfl⟩,
   both_issue (by decide +kernel)⟩

/-- v4 and g2 divide; v0 and g0 do not; v1 is 0 in lane 0 alone. -/
theorem witness_Division :
    (∀ f ∈ [vf (lane (.v 8) (.v 1) (.v 4) .none), vf (group (.g 8) (.g 1) (.g 2) .none), vf (lane (.v 8) (.v 3) (.v 1) .none),
        vf (group (.g 8) (.g 1) (.g 0) .none)], ∀ mk ∈ [Instr.idiv, .irem], Issues (on w0) (mk f) 0 0 w0) ∧
    (∀ fl ∈ (on w0).flights, fl.id ≤ (on w0).ids) ∧
    (w0.writers (lane (.v 8) (.v 1) (.v 4) .none) ≠ 0 ∧ ∀ l < 32, w0.valueOf 0 (.v 4) l ≠ 0) ∧
    (w0.qPass (group (.g 8) (.g 1) (.g 2) .none) = true ∧ w0.readG 0 (.g 2) ≠ 0 ∧ w0.readG 0 (.g 0) = 0) ∧
    w0.mode = .user ∧
    (∀ l < 32, (1#32).getLsbD l = ((w0.actors (lane (.v 8) (.v 3) (.v 1) .none)).getLsbD l && w0.valueOf 0 (.v 1) l == 0)) :=
  ⟨both_issue (by decide +kernel), by decide +kernel, by decide +kernel, by decide +kernel, rfl, by decide +kernel⟩

def s64 : VForm := { a64 with mod := 8 }
def u64 : VForm := { a64 with mod := 8, ty1 := .ui64 }
theorem witness_Division_wide :
    (∀ f ∈ [vf (lane (.v 8) (.v 2) (.v 4) .none), vf (group (.g 8) (.g 4) (.g 2) .none), vf (lane (.v 8) (.v 2) (.v 0) .none),
        vf (group (.g 8) (.g 4) (.g 6) .none)], ∀ mk ∈ [Instr.idiv, .irem],
      Issues (on w0) (mk { f with ty1 := .i64 }) 0 0 w0 ∧ Issues (on w0) (mk { f with ty1 := .ui64 }) 0 0 w0) ∧
    (∀ t ∈ [Ty.i64, .ui64],
      (∀ l < 32, int64 w0 { vf (lane (.v 8) (.v 2) (.v 4) .none) with ty1 := t } (.v 4) l ≠ 0) ∧
      int64 w0 { vf (group (.g 8) (.g 4) (.g 2) .none) with ty1 := t } (.g 2) 0 ≠ 0 ∧
      int64 w0 { vf (group (.g 8) (.g 4) (.g 6) .none) with ty1 := t } (.g 6) 0 = 0 ∧
      -- a pair that is 0 in lane 0 alone
      (∀ l < 32, (1#32).getLsbD l = ((w0.actors (lane (.v 8) (.v 2) (.v 0) .none)).getLsbD l &&
        int64 w0 { vf (lane (.v 8) (.v 2) (.v 0) .none) with ty1 := t } (.v 0) l == 0))) := by
  have h : ∀ t, t = Ty.i64 ∨ t = .ui64 → both w0 [{ vf (lane (.v 8) (.v 2) (.v 4) .none) with ty1 := t },
      { vf (group (.g 8) (.g 4) (.g 2) .none) with ty1 := t }, { vf (lane (.v 8) (.v 2) (.v 0) .none) with ty1 := t },
      { vf (group (.g 8) (.g 4) (.g 6) .none) with ty1 := t }] [Instr.idiv, .irem] = true := by
    rintro t (rfl | rfl) <;> decide +kernel
  refine ⟨fun f hf mk hm => ⟨?_, ?_⟩, ?_⟩
  · refine both_issue (h .i64 (.inl rfl)) _ ?_ mk hm
    revert f; simp
  · refine both_issue (h .ui64 (.inr rfl)) _ ?_ mk hm
    revert f; simp
  · intro t ht
    simp only [List.mem_cons, List.not_mem_nil, or_false] at ht
    rcases ht with rfl | rfl <;> refine ⟨?_, ?_, ?_, ?_⟩ <;> decide +kernel
/-- R297: INT64 −7 by 2 is −3, remainder −1. -/
theorem test_idiv_wide : (let w : Weave := { w0 with g := modNth (modNth (modNth w0.g 4 fun _ => 0xFFFFFFF9) 5 fun _ => 0xFFFFFFFF) 2 fun _ => 2 }
    let run (i : Instr) : Option (Word × Word) := match exec i (on w) with
      | .next t => (match exec (.idivComplete 1) t with
        | .next u => (u.weave? 0 0).map fun x => (x.readG 0 (.g 8), x.readG 0 (.g 9))
        | _ => none)
      | _ => none
    run (.idiv { vf (group (.g 8) (.g 4) (.g 2) .none) with ty1 := .i64 }) = some (0xFFFFFFFD, 0xFFFFFFFF) ∧
    run (.irem { vf (group (.g 8) (.g 4) (.g 2) .none) with ty1 := .i64 }) = some (0xFFFFFFFF, 0xFFFFFFFF)) := by decide +kernel

theorem witness_LogicAndMoves :
    (∀ f ∈ [a32, g32, last32], ∀ mk ∈ [Instr.and_, .or_, .xor_, .not_, .andn, .shl, .shr, .sar, .rotl, .popc, .clz, .ctz, .brev],
      Issues (on w0) (mk f) 0 0 w0) ∧
    (∀ f ∈ [vf (lane (.v 8) (.v 1) (.v 3) (.p 1)), vf (group (.g 8) (.g 2) (.g 1) (.q 1))], ∀ mk ∈ [Instr.sel, .mov],
      Issues (on w0) (mk f) 0 0 w0) ∧
    (∀ f ∈ [vf (lane (.v 8) .imm .none .none), vf (group (.g 14) .ones .none .none)], ∀ mk ∈ [Instr.movi, .movh],
      Issues (on w0) (mk f) 0 0 w0) ∧
    (∀ f ∈ [{ vf (lane (.v 8) (.v 1) (.v 3) .imm) with imm := 31 }, vf (group (.g 8) (.g 2) (.g 1) .zero)], ∀ mk ∈ [Instr.lea],
      Issues (on w0) (mk f) 0 0 w0) ∧
    Issues (on w0) (.shape (vf (lane (.v 8) (.v 1) .none .none))) 0 0 w0 :=
  ⟨both_issue (by decide +kernel), both_issue (by decide +kernel), both_issue (by decide +kernel), both_issue (by decide +kernel),
   issues_on (by decide +kernel)⟩

theorem witness_BitFields : (∀ f ∈ [a32, g32, { a32 with ty1 := .ui32 }], ∀ mk ∈ [Instr.bfx, .bfi], Issues (on w0) (mk f) 0 0 w0) :=
  both_issue (by decide +kernel)

theorem witness_CompareAndPredicates :
    (∀ f ∈ [vf (lane (.p 3) (.v 1) (.v 3) .none), { vf (lane (.p 3) (.v 1) (.v 3) .none) with ty1 := .ui32 },
        { vf (lane (.p 15) (.v 2) (.v 4) .none) with ty1 := .i64 }, { vf (group (.q 3) (.g 2) (.g 4) .none) with ty1 := .ui64 }],
      ∀ mk ∈ [Instr.icmp .eq, .icmp .ge], Issues (on w0) (mk f) 0 0 w0) ∧
    (∀ f ∈ [vf (lane (.p 3) (.p 1) (.q 1) .none), vf (group (.q 3) (.q 1) .ones .none)], ∀ mk ∈ [Instr.pand, .por, .pxor, .pnot, .pmov],
      Issues (on w0) (mk f) 0 0 w0) ∧
    Issues (on w0) (.pmov (vf (lane (.p 3) (.v 1) .none .none))) 0 0 w0 ∧
    Issues (on w0) (.pmov (vf (lane (.v 3) (.p 1) .none .none))) 0 0 w0 :=
  ⟨both_issue (by decide +kernel), both_issue (by decide +kernel), issues_on (by decide +kernel), issues_on (by decide +kernel)⟩

theorem witness_ExchangesAndVotes :
    (∀ f ∈ [{ vf (lane (.v 8) (.v 1) .imm .none) with imm := 3 }, { vf (lane (.v 8) (.v 1) (.v 3) .none) with ty1 := .ui32 }],
      ∀ mk ∈ [Instr.qswz, .qbc, .shfl .idx, .shfl .up, .shfl .down, .shfl .xor, .match_, .qred .min, .redw .xor, .scanw .add],
      Issues (on w0) (mk f) 0 0 w0) ∧
    Issues (on w0) (.ball (vf (lane (.v 8) (.p 1) .none .none))) 0 0 w0 ∧
    (∀ f ∈ [vf (lane (.p 3) (.p 1) .none .none)], ∀ mk ∈ [Instr.vote .all, .vote .any, .vote .uni], Issues (on w0) (mk f) 0 0 w0) :=
  ⟨both_issue (by decide +kernel), issues_on (by decide +kernel), both_issue (by decide +kernel)⟩

/-- `EXMW` with a mask that keeps lanes; `SREG` with selectors 0 and 6; a spin flag. -/
theorem witness_SpecialRegisters :
    (∀ f ∈ [vf (group (.g 8) .none .none .none)], ∀ mk ∈ [Instr.exmr, .hlpr], Issues (on w0) (mk f) 0 0 w0) ∧
    Issues (on w0) (.exmw (vf (group .none (.g 2) .none .none))) 0 0 w0 ∧
    w0.readG 0 (.g 2) &&& ~~~ w0.absent &&& ~~~ w0.helper &&& ~~~ w0.exited ≠ 0 ∧ w0.done = false ∧
    (∀ f ∈ [vf (group (.g 8) .none .none .none), { vf (group (.g 8) .none .none .none) with mod := 6 }], ∀ mk ∈ [Instr.sreg],
      Issues (on w0) (mk f) 0 0 w0) ∧
    (VForm.rnd (vf (group (.g 8) .none .none .none)) < 7 ∧
      VForm.rnd { vf (group (.g 8) .none .none .none) with mod := 6 } = 6) ∧
    ((on w0).crew? 0 = some (crewOf w0) ∧ (on w0).launch? (crewOf w0).lid = some harnessLaunch ∧ (crewOf w0).place = .resident 0) ∧
    Issues (on w0) (.sregw { vf (group .none (.g 1) .none .none) with mod := 7 }) 0 0 w0 :=
  ⟨both_issue (by decide +kernel), issues_on (by decide +kernel), by decide +kernel, rfl, both_issue (by decide +kernel),
   by decide, ⟨rfl, rfl, rfl⟩, issues_on (by decide +kernel)⟩

/-! ## Witnesses: floating point, conversions, granules -/

/-- A float form; h registers in supervisor mode. -/
def f3 : VForm := vf (lane (.v 8) (.v 1) (.v 3) (.v 4))
def fh : VForm := vf (lane (.h 15) (.h 0) (.h 1) (.g 2))

def floatOps : List (VForm → Instr) :=
  [.fadd, .fsub, .fmul, .ffma, .frnd, .fscl, .fmin, .fmax, .fcls, .fdiv, .frcp, .fsqrt, .frsq, .fex2, .flg2, .fsin, .fcos,
   .badd2, .bmul2, .bfma2, .hadd2, .hmul2, .hfma2]

theorem witness_FloatArithmetic : (∀ f ∈ [f3, { f3 with mod := 12 }], ∀ mk ∈ floatOps, Issues (on w0) (mk f) 0 0 w0) ∧
    (∀ f ∈ [fh], ∀ mk ∈ floatOps, Issues (on wSup) (mk f) 0 0 wSup) :=
  ⟨both_issue (by decide +kernel), both_issue (by decide +kernel)⟩

/-- The greatest finite code, an infinity, the first NaN of each format. -/
theorem witness_FormatsExact :
    (∀ f ∈ ieeeFormats, f.infCode - 1 < 2 * f.signBit ∧ (f.infCode - 1) % f.signBit < f.infCode) ∧
    (∀ f ∈ ieeeFormats, f.signBit + f.infCode < 2 * f.signBit ∧ (f.signBit + f.infCode) % f.signBit = f.infCode) ∧
    (∀ f ∈ ieeeFormats, f.infCode < (f.infCode + 1) % f.signBit) := by decide +kernel

theorem witness_RoundingCorrect : fp16 ∈ ieeeFormats ∧ (4 : Nat) < 5 := by decide +kernel

/-- Operands of each case: NaN, infinities, zero, a negative number, −0. -/
theorem witness_DivisionAndRoots : fp32.decode (0x7FC00000#32).toNat = .nan ∧ fp32.decode (0xFF800000#32).toNat = .inf true ∧
    fp32.decode (0x80000000#32).toNat = .fin true 0 (-149) ∧ fp32.decode (0x3F800000#32).toNat = .fin false 8388608 (-23) ∧
    fp32.decode (0xBF800000#32).toNat = .fin true 8388608 (-23) := by decide +kernel

/-- 1.0 is an integer, half of 2 and 2^0. -/
theorem witness_FloatSpecial : ratOf (.fin false 8388608 (-23)) = (1 : Int) ∧ ratOf (.fin false 8388608 (-23)) = ((2 : Int) : Rat) / 2 ∧
    ((8388608 : Nat) : Rat) * pow2 (-23) = pow2 0 ∧ nan32 0x7FC00000 = true := by
  refine ⟨?_, ?_, ?_, by decide +kernel⟩ <;> norm_num [ratOf, pow2]

/-- A magnitude at the greatest T8 value, and one below. -/
theorem witness_TaperedFormats : valTapered 7 127 ≤ ((4096 : Nat) : Rat) * pow2 0 ∧ ((1 : Nat) : Rat) * pow2 0 < valTapered 7 127 ∧
    (0 : Nat) < 2 ^ 8 := by
  have h : valTapered 7 127 = 4096 := by decide +kernel
  refine ⟨?_, ?_, by decide⟩ <;> rw [h] <;> norm_num [pow2]

theorem witness_Conversions : Issues (on w0) (.cvt { f3 with hd := lane (.v 8) (.v 4) .none .none, ty1 := .i64, ty2 := .f32 }) 0 0 w0 ∧
    Issues (on w0) (.cvt { f3 with hd := lane (.v 8) (.v 4) .none .none, ty1 := .f32, ty2 := .ui64 }) 0 0 w0 ∧
    (.i64, 64, true) ∈ integerTypes ∧ (.f16, fp16) ∈ ieeeTypes ∧
    floatSource .f32 0x7FC00000 = .nan ∧ floatSource .bf16 0xFF80 = .inf true ∧ floatSource .e8m0 255 = .nan ∧
    floatSource .t6 32 = .nan :=
  ⟨issues_on (by decide +kernel), issues_on (by decide +kernel), by decide +kernel, by decide +kernel, by decide +kernel,
   by decide +kernel, by decide +kernel, by decide +kernel⟩

theorem witness_Granules :
    Issues (on w0) (.tenc { vf (lane (.v 8) (.v 4) (.v 1) .none) with ty1 := .t8 }) 0 0 w0 ∧
    Issues (on wSup) (.tenc { vf (lane (.h 8) (.h 4) (.v 1) .none) with ty1 := .t6, ty2 := .f16 }) 0 0 wSup ∧
    Issues (on w0) (.gscl { vf (lane (.v 8) (.v 4) (.v 1) .none) with ty1 := .i8g }) 0 0 w0 ∧
    Issues (on w0) (.tdec { vf (lane (.v 8) (.v 4) .imm .none) with ty2 := .t6, imm := 3 }) 0 0 w0 ∧
    Issues (on w0) (.gunpk { vf (lane (.v 8) (.v 4) .none .none) with ty2 := .i8g }) 0 0 w0 ∧
    Issues (on w0) (.gpack { vf (lane (.v 8) (.v 4) .none .none) with ty1 := .i8g }) 0 0 w0 :=
  by and_intros <;> exact issues_on (by decide +kernel)

/-! ## Traps, system registers, flow -/

/-- A weave in which v8 is empty and a source says so. -/
def wEmpty : Weave := { w0 with empty := [8] }
def wTok (ts : List Token) : Weave := { w0 with toks := ts }
def aCall : Token := ⟨.callk, 0xFF, 0, 0x200, 0⟩
def anIf : Token := ⟨.ifk, 0xFFFFFFFF, 0xFF, 0x140, 0x180⟩
def anElse : Token := ⟨.elsek, 0xFFFFFFFF, 0, 0x140, 0x180⟩
def aLoop : Token := ⟨.loopk, 0xFFFFFFFF, 0xF0, 0xF0, 0x110⟩

/-- R231: codes of the causes of the first checks. -/
theorem test_cause_regRange : causeOf w0 (.iadd (v3 (.v 16) (.v 4))) = some 0x006 ∧
    causeOf w0 (.iadd (v3 (.h 0) (.v 4))) = some 0x003 := by decide +kernel

theorem witness_IssueChecks :
    isEvent (.iadd (v3 (.h 0) (.v 4))) = false ∧ (on w0).cur = some (0, 0) ∧ (on w0).weave? 0 0 = some w0 ∧
    (w0.mode = .user ∧ ∃ x ∈ fieldRuns (.iadd (v3 (.h 0) (.v 4))), kindOf x.1 = .h ∨ kindOf x.1 = .hg) ∧
    (supervisorOnly (.tret (sf (lane .none .none .none .none))) = true ∧
      ¬ ∃ x ∈ fieldRuns (.tret (sf (lane .none .none .none .none))), kindOf x.1 = .h ∨ kindOf x.1 = .hg) ∧
    beyondAllotment (on w0) 0 w0 (.iadd (v3 (.v 16) (.v 4))) ∧
    beyondAllotment { on w0 with crews := [] } 0 w0 (.tstat (ef (group (.g 3) .none .none .none))) ∧
    emptySource wEmpty (.iadd (vf { lane (.v 3) (.v 8) (.v 4) .none with em := 1 })) ∧
    ((∃ x ∈ fieldRuns (.iadd (v3 (.v 3) (.v 4))), wEmpty.anyEmpty x.1 x.2 = true) ∧ ¬ emptySource wEmpty (.iadd (v3 (.v 3) (.v 4))) ∧
      ¬ beyondAllotment (on wEmpty) 0 wEmpty (.iadd (v3 (.v 3) (.v 4)))) := by
  refine ⟨rfl, rfl, rfl, by decide +kernel, by decide +kernel, .inl (by decide +kernel), .inr (by decide +kernel),
    ⟨{ lane (.v 3) (.v 8) (.v 4) .none with em := 1 }, 0, (.v 8, 1), rfl, by decide, by decide, rfl, by decide⟩, by decide +kernel, ?_, ?_⟩
  · rintro ⟨h, k, x, h1, h2, h3, h4, h5⟩
    obtain rfl := Option.some.inj h1
    interval_cases k <;> revert h3 <;> decide
  · rintro (h | h) <;> revert h <;> decide +kernel

theorem witness_TrapEntry : w0.mode = .user := rfl

theorem witness_LaterTraps : wSup.mode = .super ∧ isEvent (.iadd (v3 (.v 16) (.v 4))) = false ∧
    beyondAllotment (on wSup) 0 wSup (.iadd (v3 (.v 16) (.v 4))) ∧
    (let w : Weave := { w0 with pend := some ⟨.memoryUe, true, 0x100, 1, []⟩ }
     (on w).crew? 0 = some (crewOf w) ∧ (on w).weave? 0 0 = some w ∧ (crewOf w).place = .resident 0 ∧ w.mode = .user ∧
      w.pend = some ⟨.memoryUe, true, 0x100, 1, []⟩ ∧ w.extra = []) ∧
    (let w : Weave := { wSup with handler := some .halted }
     (on w).crew? 0 = some (crewOf w) ∧ w.handler = some .halted ∧ w.cause ≠ .debugHalt ∧ (crewOf w).hscope = 0 ∧ w.kept = .none ∧
      ((on w).severity 0).getLsbD 2 = false ∧ (crewOf w).leaf < (on w).links.length) := by
  refine ⟨rfl, rfl, .inl (by decide +kernel), ⟨rfl, rfl, rfl, rfl, rfl, rfl⟩, ?_⟩
  decide +kernel

/-- The signal that the debugger writes: at 2 and at 0, and one that no page maps. -/
theorem witness_LaterTraps_signal : ∃ s : State, s.sigValue 0 0x40 = some 2 ∧ s.sigValue 0 0x80 = some 0 ∧
    s.sigValue 0 0x400000 = none ∧ ∃ v, s.sigValue 0 0xC0 = some v ∧ v < 0 :=
  ⟨State.reset.harness (List.replicate 64 0 ++ [2] ++ List.replicate 127 0 ++ List.replicate 8 255), by decide +kernel,
   by decide +kernel, by decide +kernel, -1, by decide +kernel, by decide⟩

def pastH : Instr := .iadd { vf (lane (.v 8) (.h 15) (.v 2) .none) with ty1 := .i64 }
theorem witness_LaterTraps_h : pastH15 pastH ∧ wSup.mode = .super ∧ (on wSup).weave? 0 0 = some wSup ∧ ¬ pastH15 (.iadd (v3 (.v 3) (.v 4))) := by
  refine ⟨⟨(.h 15, 2), by decide, rfl, by decide⟩, rfl, rfl, ?_⟩
  rintro ⟨x, hx, hk, -⟩
  revert x; decide

theorem witness_ReturnFromTrap : Issues (on wSup) (.tret (sf (lane .none .none .none .none))) 0 0 wSup ∧ wSup.kept = .none ∧
    wSup.acts (lane .none .none .none .none) = true :=
  ⟨issues_on (by decide +kernel), rfl, by decide +kernel⟩
/-- R233: after TRET the PC is `hpc`. -/
theorem test_tret : flowOf wSup (.tret (sf (lane .none .none .none .none))) = some (0x40, 3, 0) := by decide +kernel

theorem witness_SoftwareTraps : (∀ i ∈ [Instr.bkpt (bf (lane .none .none .none .none)), .trap (bf (group .none .none .none .none)),
      .svc (sf (group .none (.g 2) (.g 4) .none)), .trap (bf { lane .none .none .none .none with grd := 2 })],
    Issues (on w0) i 0 0 w0) ∧ w0.mode = .user ∧ w0.actors { lane .none .none .none .none with grd := 2 } = 0 ∧
    w0.actors (lane .none .none .none .none) ≠ 0 :=
  ⟨issues_all (by decide +kernel), rfl, by decide +kernel, by decide +kernel⟩
/-- R231, R363: a trap under a guard that no lane passes does nothing. -/
theorem test_trap : causeOf w0 (.trap (bf (lane .none .none .none .none))) = some 0x00C ∧
    causeOf w0 (.trap (bf { lane .none .none .none .none with grd := 2 })) = some 0 := by decide +kernel

def csrForm (h : Head) (n : BitVec 16) : SForm := { sf h with csr := n }

theorem witness_SystemRegisters : (∀ n ∈ csrNumbers, Issues (on wSup) (.csrr (csrForm (group (.g 8) .none .none .none) (BitVec.ofNat 16 n))) 0 0 wSup ∧
      Issues (on wSup) (.csrw (csrForm (group .none (.g 2) .none .none) (BitVec.ofNat 16 n))) 0 0 wSup) ∧
    (on wSup).crew? 0 = some (crewOf wSup) ∧ wSup.qPass (group .none (.g 2) .none .none) = true ∧
    Issues (on w0) (.csrw (csrForm (group .none .ones .none .none) 0x0010)) 0 0 w0 ∧
    csrReserved 0x0010 (csrOperand w0 (csrForm (group .none .ones .none .none) 0x0010)) ∧
    (csrReserved 0x0010 3 ∧ csrReserved 0x0010 8 ∧ csrReserved 0x0800 512 ∧ csrReserved 0x0801 0x10000000000000 ∧
      ¬ csrReserved 0x0010 6 ∧ ¬ csrReserved 0x0800 511 ∧ ¬ csrReserved 0x0801 0xFFFFFFFFFFFFF) := by
  refine ⟨?_, rfl, rfl, issues_on (by decide +kernel), ?_, ?_⟩
  · have h : csrNumbers.all (fun n => fits wSup (.csrr (csrForm (group (.g 8) .none .none .none) (BitVec.ofNat 16 n))) &&
        fits wSup (.csrw (csrForm (group .none (.g 2) .none .none) (BitVec.ofNat 16 n)))) = true := by decide +kernel
    intro n hn
    have := List.all_eq_true.mp h n hn
    rw [Bool.and_eq_true] at this
    exact ⟨issues_on this.1, issues_on this.2⟩
  · unfold csrReserved; decide +kernel
  · unfold csrReserved; decide +kernel

/-- R365, R228: `hcause` and `hpc` of the trap. -/
theorem test_csrr : after wSup (.csrr (csrForm (group (.g 8) .none .none .none) 0x0800)) (.g 8) 0 = some 0x110 ∧
    after wSup (.csrr (csrForm (group (.g 8) .none .none .none) 0x0801)) (.g 8) 0 = some 0x40 := by decide +kernel

def flowOps : List (BForm → Instr) := [.bra, .call, .ret, .nop, .yld, .exit_, .ifb, .elsb, .join, .loop, .brkl, .contl, .lend]
def fp : BForm := ⟨lane .none (.p 1) .none .none, 1, 4⟩
def fl : BForm := bf (lane .none .none .none .none)

/-- Forms of every instruction of the two sections, on empty and full stacks and on each record. -/
theorem witness_flow_forms (w : Weave) (h : flowOps.all (fun mk => fits w (mk fp) && fits w (mk fl)) = true) :
    ∀ mk ∈ flowOps, Issues (on w) (mk fp) 0 0 w ∧ Issues (on w) (mk fl) 0 0 w := by
  intro mk hm
  have := List.all_eq_true.mp h mk hm
  rw [Bool.and_eq_true] at this
  exact ⟨issues_on this.1, issues_on this.2⟩

theorem witness_Flow : (∀ mk ∈ flowOps, Issues (on w0) (mk fp) 0 0 w0 ∧ Issues (on w0) (mk fl) 0 0 w0) ∧
    w0.uniform (lane .none .none .none .none) = true ∧ w0.uniform { lane .none .none .none .none with grd := 1 } = false ∧
    Issues (on w0) (.brx (bf (group .none (.g 4) .none .none))) 0 0 w0 ∧
    (((w0.wideLane 0 false (.g 4) ((lowestLane w0.exec).getD 0)).setWidth 52 : Pc).toNat % 16 = 0) ∧
    (((w0.wideLane 0 false (.g 2) ((lowestLane w0.exec).getD 0)).setWidth 52 : Pc).toNat % 16 ≠ 0) ∧
    (∀ mk ∈ flowOps, Issues (on (wTok [aCall])) (mk fp) 0 0 (wTok [aCall]) ∧ Issues (on (wTok [aCall])) (mk fl) 0 0 (wTok [aCall])) ∧
    (aCall.kind = .callk ∧ aCall.rmask ≠ 0) ∧
    (∀ mk ∈ flowOps, Issues (on (wTok (List.replicate 48 anIf))) (mk fp) 0 0 (wTok (List.replicate 48 anIf)) ∧
      Issues (on (wTok (List.replicate 48 anIf))) (mk fl) 0 0 (wTok (List.replicate 48 anIf))) ∧
    w0.actors { lane .none .none .none .none with grd := 2 } = 0 ∧ w0.toks.length < 48 ∧ w0.done = false :=
  ⟨witness_flow_forms _ (by decide +kernel), by decide +kernel, by decide +kernel, issues_on (by decide +kernel), by decide +kernel,
   by decide +kernel, witness_flow_forms _ (by decide +kernel), by decide, witness_flow_forms _ (by decide +kernel), by decide +kernel,
   by decide, rfl⟩
/-- R287, R288: a branch back by three; a call pushes. -/
theorem test_branch : flowOf w0 (.bra ⟨lane .none .none .none .none, 0, -3⟩) = some (0xD0, 0xFFFFFFFF, 0) ∧
    flowOf w0 (.call ⟨{ lane .none .none .none .none with grd := 1 }, 0, 2⟩) = some (0x120, 0xAAAAAAAA, 1) := by decide +kernel
/-- R288, R291: a return from a record, and with none. -/
theorem test_return : flowOf (wTok [aCall]) (.ret fl) = some (0x200, 0xFF, 0) ∧ causeOf w0 (.ret fl) = some 0x009 := by decide +kernel

/-- A weave without exec lanes, for each record. -/
theorem witness_Resume : (let w (t : Token) : Weave := { w0 with exec := 0, toks := [t] }
     (w anIf).exec = 0 ∧ (w anIf).toks = [anIf] ∧ anIf.pmask ≠ 0 ∧ anElse.kind = .elsek ∧ anElse.rmask ≠ 0 ∧
     aLoop.pmask ≠ 0 ∧ aCall.rmask ≠ 0) := by decide

theorem witness_Conditionals :
    (∀ mk ∈ flowOps, Issues (on (wTok [anIf])) (mk fp) 0 0 (wTok [anIf]) ∧ Issues (on (wTok [anIf])) (mk fl) 0 0 (wTok [anIf])) ∧
    (∀ mk ∈ flowOps, Issues (on (wTok [anElse])) (mk fp) 0 0 (wTok [anElse]) ∧ Issues (on (wTok [anElse])) (mk fl) 0 0 (wTok [anElse])) ∧
    (wTok [anIf]).done = false ∧ anIf.kind = .ifk ∧ anElse.kind ≠ .ifk ∧ anElse.kind = .elsek ∧ anIf.kind ≠ .elsek :=
  ⟨witness_flow_forms _ (by decide +kernel), witness_flow_forms _ (by decide +kernel), rfl, rfl, by decide, rfl, by decide⟩
/-- R292: the even lanes wait at the else target; then `ELSB` takes them, and `JOIN` all. -/
theorem test_conditional : flowOf w0 (.ifb ⟨lane .none (.p 1) .none .none, 1, 4⟩) = some (0x110, 0xAAAAAAAA, 1) ∧
    flowOf (wTok [anIf]) (.elsb fl) = some (0x110, 0xFF, 1) ∧ flowOf (wTok [anElse]) (.join fl) = some (0x110, 0xFFFFFFFF, 0) := by
  decide +kernel

theorem witness_Loops :
    (∀ mk ∈ flowOps, Issues (on (wTok [anIf, aLoop])) (mk fp) 0 0 (wTok [anIf, aLoop]) ∧
      Issues (on (wTok [anIf, aLoop])) (mk fl) 0 0 (wTok [anIf, aLoop])) ∧
    (∀ mk ∈ flowOps, Issues (on (wTok [aLoop])) (mk fp) 0 0 (wTok [aLoop]) ∧ Issues (on (wTok [aLoop])) (mk fl) 0 0 (wTok [aLoop])) ∧
    ((wTok [anIf, aLoop]).toks = [anIf] ++ aLoop :: [] ∧ (∀ r ∈ [anIf], r.kind = .ifk ∨ r.kind = .elsek) ∧ aLoop.kind = .loopk) ∧
    aLoop.pcj = w0.pc + 16 ∧
    ((w0.exec ||| aLoop.pmask) &&& ~~~ w0.exited &&& w0.guardMask (lane .none (.p 1) .none .none) &&& w0.predBits (.p 1) ≠ 0) ∧
    ((w0.exec ||| aLoop.pmask) &&& ~~~ w0.exited &&& w0.guardMask (lane .none (.p 2) .none .none) &&& w0.predBits (.p 2) = 0) ∧
    ((wTok [anIf, aCall]).toks = [anIf] ++ aCall :: [] ∧ aCall.kind = .callk) :=
  ⟨witness_flow_forms _ (by decide +kernel), witness_flow_forms _ (by decide +kernel), by decide, by decide, by decide +kernel,
   by decide +kernel, by decide⟩
/-- R293: a loop goes round in the odd lanes; R289: an exit in the odd lanes leaves the even ones. -/
theorem test_loop : flowOf (wTok [aLoop]) (.lend ⟨lane .none (.p 1) .none .none, 0, -2⟩) = some (0xE0, 0xAAAAAAAA, 1) ∧
    flowOf w0 (.exit_ (bf { lane .none .none .none .none with grd := 1 })) = some (0x110, 0x55555555, 0) := by decide +kernel

/-- A record of a call whose lanes have all exited; a weave of the slot that is ready, and one whose next instruction has not
been fetched; a guard that no lane ever passes. -/
theorem witness_Flow_resume : (let t : Token := { aCall with rmask := 0 }
    Issues (on (wTok [t])) (.ret fl) 0 0 (wTok [t]) ∧ Issues (on (wTok [t, anIf])) (.ret fl) 0 0 (wTok [t, anIf]) ∧
      (wTok [t]).uniform fl.hd = true ∧ (wTok [t]).done = false ∧ t.kind = .callk ∧ (∀ r ∈ ([] : List Token), ¬ holdsLane r) ∧
      holdsLane anIf) :=
  ⟨issues_on (by decide +kernel), issues_on (by decide +kernel), by decide +kernel, rfl, rfl, by simp, .inl (by decide)⟩
theorem witness_Flow_ready : (let mate : Weave := { w0 with slot := 0, fline := some 4, fbytes := bytesLE 16 0x0400_07FF_FFFF_FFF8_0000_0000_0000_0000 }
    mate.isReady 16 = true ∧ ({ mate with fline := none } : Weave).isReady 16 = false ∧
      ({ mate with mode := .super, handler := some .halted } : Weave).isReady 16 = false ∧
      (let s : State := { State.reset.harness [] with cur := some (0, 0), crews := [Crew.start harnessSeat harnessShape [w0, mate] 0] }
       Issues s (.yld fl) 0 0 w0 ∧ s.weave? 0 0 = some w0 ∧ (s.crew? 0).map (·.weaves[1]?) = some (some { mate with slot := 0 }) ∧
        w0.slot = mate.slot ∧ ((0, 1) : Nat × Nat) ≠ (0, 0))) := by
  refine ⟨by decide +kernel, by decide +kernel, by decide +kernel, issues_of rfl ?_ rfl (by decide +kernel), ?_, ?_, rfl, by decide⟩ <;> decide +kernel
theorem witness_Conditionals_never : (let h : Head := { lane .none (.p 1) .none .none with neg := true }
    neverPasses h = true ∧ (∀ i ∈ [Instr.ifb ⟨h, 1, 4⟩, .brkl ⟨h, 0, 0⟩, .contl ⟨h, 0, 0⟩, .lend ⟨h, 0, -2⟩], Issues (on w0) i 0 0 w0) ∧
      neverPasses fp.hd = false) :=
  ⟨rfl, issues_all (by decide +kernel), rfl⟩

/-! ## Witnesses: memory -/

/-- Lane l's address is 4 l: from v5 in scratch and commons, and in the page that maps VA 0. -/
def wMem : Weave := { w0 with v := modNth w0.v 5 fun _ => .aff 0 4 }
/-- b1 gives VA 0x40 at PA 0x200040, 256 bytes, and reads; b0 gives nothing. -/
def wXlb : Weave := { wMem with b := modNth wMem.b 1 fun _ => ⟨0x40, 0x200040, 0, 256, true, true, false, 0, false⟩ }
def mem (i : Operand) (wid : BitVec 3) : MForm := { mf (lane (.v 8) i .none .none) with wid := wid }
def put (i b : Operand) (wid : BitVec 3) : MForm := { mf (lane .none i b .none) with wid := wid }

theorem inv_on {w : Weave} (h : WeaveFormed w) : Inv (on w) where
  hbm := (by decide +kernel : Memory.wf (State.reset.harness []).hbm)
  mailbox := (by decide +kernel : Memory.wf State.reset.mgmt.mailbox)
  scratch := by intro c hc; obtain rfl := List.mem_singleton.mp hc; exact (by decide +kernel : Memory.wf [])
  commons := (by decide +kernel : ∀ t ∈ [harnessTenant], t.commons.length = 4 ∧ ∀ m ∈ t.commons, Memory.wf m)
  dies := by rfl
  cores := (by decide +kernel : (State.reset.harness []).cores.length = 256)
  welt := by rfl
  ports := by rfl
  links := by rfl
  weaves := by intro c hc; obtain rfl := List.mem_singleton.mp hc; intro x hx; obtain rfl := List.mem_singleton.mp hx; exact h
  flights := by intro f hf; cases hf

/-- An outcome that goes on. -/
def goesOn (o : Host.Outcome State Fault Refusal) : Bool :=
  match o with
  | .next _ => true
  | _ => false

theorem of_goesOn {o : Host.Outcome State Fault Refusal} (h : goesOn o = true) : ∃ t, o = .next t := by
  cases o with
  | next t => exact ⟨t, rfl⟩
  | _ => cases h

/-- A machine that a step starts from. -/
theorem witness_StepKeeps : Inv (on w0) ∧ ∃ t, step (on w0) = .next t :=
  ⟨inv_on (by constructor <;> decide +kernel), of_goesOn (by decide +kernel)⟩

/-- Scratch is 64 KiB, a commons slice 1 MiB: the last word, the first byte beyond, a negative offset, an atomic that crosses. -/
theorem witness_Addresses_local :
    (crewOf w0).inGang = false ∧ (crewOf w0).shape.scrkb * 1024 + (crewOf w0).shape.ringBytes = 65536 ∧
    ((on w0).probeScratch (crewOf w0) ⟨4, true, false, false⟩ 65532 = .ok [⟨.scratch 0 65532, 4, 0, true, false, none⟩] ∧
      (on w0).probeScratch (crewOf w0) ⟨4, true, false, false⟩ 65533 = .bad .scratchRange 0 ∧
      (on w0).probeScratch (crewOf w0) ⟨4, true, false, false⟩ (-1) = .bad .scratchRange 0 ∧
      (on w0).probeScratch (crewOf w0) ⟨4, true, true, true⟩ 62 = .bad .atomicSplit 0) ∧ crossesLine 62 4 ∧ ¬ crossesLine 60 4 ∧
    (on w0).tenant? 0 = some harnessTenant ∧
    ((on w0).probeCommons 0 ⟨4, true, false, false⟩ (0xC0FFFFC) = .ok [⟨.commons 0 3 0xFFFFC, 4, 0, true, false, none⟩] ∧
      (on w0).probeCommons 0 ⟨4, true, false, false⟩ 0xC0FFFFD = .bad .commonsRange 0 ∧
      (on w0).probeCommons 0 ⟨4, true, false, false⟩ 0x10000000 = .bad .commonsRange 0 ∧
      ({ on w0 with mgmt := { Mgmt.reset with pids := [0, 1, 0, 0] } } : State).probeCommons 0 ⟨4, true, false, false⟩ 0x4000000 =
        .late .firewallBlocked) := by
  refine ⟨rfl, by decide +kernel, by decide +kernel, ?_, ?_, rfl, by decide +kernel⟩ <;> unfold crossesLine <;> decide

/-- Through b1: its last word; beyond its limit, VA 0x140, which a page maps; a page without a leaf; a page not walked yet; no
write permission in b1, so that a store goes through the page. -/
theorem witness_Addresses_global :
    wXlb.b[1]? = some ⟨0x40, 0x200040, 0, 256, true, true, false, 0, false⟩ ∧
    (on wXlb).probeGlobal wXlb 0 0 1 ⟨4, true, false, false⟩ 252 = .ok [⟨.hbm 0x20013C, 4, 0, false, false, none⟩] ∧
    (on wXlb).probeGlobal wXlb 0 0 1 ⟨4, true, false, false⟩ 256 = .ok [⟨.hbm 0x200140, 4, 0, false, false, some (0, 0)⟩] ∧
    (on wXlb).probeGlobal wXlb 0 0 1 ⟨4, false, true, false⟩ 0 = .ok [⟨.hbm 0x200040, 4, 0, false, false, some (0, 0)⟩] ∧
    (on wXlb).xlate wXlb 0 0 0x40000 = .walk ∧ (on wXlb).probeGlobal wXlb 0 0 0 ⟨4, true, false, false⟩ 0x40000 = .walk [4] ∧
    (let w : Weave := { wXlb with walked := [(4, none)] }
     (on w).xlate w 0 0 0x40000 = .miss) ∧
    (∃ l, (on wXlb).xlate wXlb 0 0 0x100 = .hit l ∧ l.r = true ∧ l.w = true ∧ paOpen (on wXlb) harnessTenant (leafPa l 0 0x100 false) 4) ∧
    (let w : Weave := { wXlb with b := modNth wXlb.b 1 fun b => { b with pabase := 0xFFFFFFFFFF00 } }
     (on w).probeGlobal w 0 0 1 ⟨4, true, false, false⟩ 0 = .late .paUnbacked) := by
  and_intros
  on_goal 8 => refine ⟨⟨0x200000, 0, true, true, true, 0, false, false, 0⟩, by decide +kernel, rfl, rfl, ?_⟩
  all_goals first | decide +kernel | (unfold paOpen; decide +kernel)

/-- Whether every acting lane's address can be accessed. -/
def allOk (w : Weave) (f : MForm) (sp : Space) (rd wr at_ : Bool) : Bool :=
  laneList.all fun l => !(w.actors f.hd).getLsbD l || match laneProbe (on w) (crewOf w) w 0 f sp rd wr at_ l with
    | .ok _ => true
    | _ => false

/-- The pieces of the lanes. -/
def piecesOf (w : Weave) (f : MForm) (sp : Space) (rd wr at_ : Bool) (l : Nat) : List Piece :=
  match laneProbe (on w) (crewOf w) w 0 f sp rd wr at_ l with
  | .ok ps => ps
  | _ => []

theorem laneProbe_ok {w : Weave} {f : MForm} {sp : Space} {rd wr at_ : Bool} (h : allOk w f sp rd wr at_ = true) :
    ∀ l < 32, (w.actors f.hd).getLsbD l = true →
      laneProbe (on w) (crewOf w) w 0 f sp rd wr at_ l = .ok (piecesOf w f sp rd wr at_ l) := by
  intro l hl ha
  have := List.all_eq_true.mp h l (by simp [laneList, hl])
  simp only [ha, Bool.not_true, Bool.false_or] at this
  unfold piecesOf
  split at this <;> simp_all

/-- The hypotheses that the statements on accesses share. -/
theorem witness_access : (on wXlb).crew? 0 = some (crewOf wXlb) ∧ (crewOf wXlb).place = .resident 0 ∧ wXlb.outst < 255 ∧
    wXlb.mode = .user ∧ noErrors (on wXlb) ∧ (on wXlb).dlen 0 = false ∧ (on wXlb).cores.all (fun x => x.accq.isEmpty) = true ∧
    (∀ x ∈ ((on wXlb).core 0).l1, x.owner ≠ 0) :=
  ⟨rfl, rfl, by decide, rfl, ⟨rfl, rfl⟩, by decide +kernel, by decide +kernel, by decide +kernel⟩

/-- A lane needs a walk; a lane 16 at 65536 is beyond scratch. -/
theorem witness_Addresses_traps :
    (let w : Weave := { w0 with v := modNth w0.v 5 fun _ => .aff 0 0x1000 }
     (∃ l < 32, (w.actors (lane (.v 8) (.v 5) .none .none)).getLsbD l = true ∧
       ∃ vpns, laneProbe (on w) (crewOf w) w 0 (mem (.v 5) 2) (.global 0) true false false l = .walk vpns) ∧
     laneProbe (on w) (crewOf w) w 0 (mem (.v 5) 2) .scratch true false false 15 = .ok [⟨.scratch 0 0xF000, 4, 0, true, false, none⟩] ∧
     (∀ l < 32, 16 ≤ l → laneProbe (on w) (crewOf w) w 0 (mem (.v 5) 2) .scratch true false false l = .bad .scratchRange 0) ∧
     causeOf w (.lds (mem (.v 5) 2)) = some 0x016) ∧
    accessOrder.idxOf .scratchRange = 0 := by
  refine ⟨⟨⟨16, by decide, by decide +kernel, [1], by decide +kernel⟩, by decide +kernel, by decide +kernel, by decide +kernel⟩, by decide⟩

theorem witness_LoadResults : Inv (on wXlb) ∧ (∀ i ∈ [Instr.ld (mem (.v 5) 2), .lds (mem (.v 5) 3), .ldc (mem (.v 5) 0)],
      Issues (on wXlb) i 0 0 wXlb) ∧
    accessOf (.ld (mem (.v 5) 2)) (mem (.v 5) 2) (.global 0) true false false ∧
    allOk wXlb (mem (.v 5) 2) (.global 0) true false false = true ∧ allOk wXlb (mem (.v 5) 3) .scratch true false false = true ∧
    allOk wXlb (mem (.v 5) 0) .commons true false false = true ∧ wXlb.writers (mem (.v 5) 2).hd ≠ 0 ∧
    wXlb.actors (mem (.v 5) 2).hd ≠ 0 ∧ wXlb.outst < 255 :=
  ⟨inv_on (by constructor <;> decide +kernel), issues_all (by decide +kernel), .inl ⟨rfl, rfl, rfl, rfl, rfl⟩, by
    and_intros <;> decide +kernel⟩

theorem witness_Stores : (∀ i ∈ [Instr.st (put (.v 5) (.v 1) 2), .sts (put (.v 5) .ones 4), .stc (put (.v 5) (.v 4) 3)],
      Issues (on wXlb) i 0 0 wXlb) ∧
    allOk wXlb (put (.v 5) (.v 1) 2) (.global 0) false true false = true ∧
    (on wXlb).heldByLka (crewOf wXlb) ((actingLanes wXlb (put (.v 5) (.v 1) 2)).flatMap
      (piecesOf wXlb (put (.v 5) (.v 1) 2) (.global 0) false true false)) = false ∧
    wXlb.actors (put (.v 5) (.v 1) 2).hd ≠ 0 :=
  ⟨issues_all (by decide +kernel), by decide +kernel, by decide +kernel, by decide +kernel⟩

/-- Atomics with and without a result, on 64 bits and on the four elements of `BRED`. -/
theorem witness_AtomicResults :
    (let f : MForm := { mf (lane .none (.v 5) (.v 4) .none) with wid := 2, atop := 1 }
     let g : MForm := { mf (lane (.v 8) (.v 5) (.v 4) (.v 6)) with wid := 3, atop := 10 }
     let b : MForm := { mf (lane .none (.v 5) (.v 4) .none) with wid := 4, atop := 15 }
     (∀ i ∈ [Instr.atom f, .atoms g, .atomc f, .bred b, .bupd { b with atop := 18, hd := lane .none (.v 5) (.v 4) (.v 8) }],
       Issues (on wXlb) i 0 0 wXlb) ∧
     allOk wXlb f (.global 0) true true true = true ∧
     (let h : MForm := { f with disp := 0x100 }
      (on wXlb).heldByLka (crewOf wXlb) ((actingLanes wXlb h).flatMap (piecesOf wXlb h .scratch true true true)) = false)) :=
  ⟨issues_all (by decide +kernel), by decide +kernel, by decide +kernel⟩

/-- R331: lane 3 stores 7, and it is read back. -/
theorem test_store : (match exec (.sts (put (.v 5) (.v 2) 2)) (on wXlb) with
    | .next t => some (t.locRead 0 (.scratch 0 12), t.locRead 0 (.scratch 0 13), t.locRead 0 (.scratch 0 128))
    | _ => none) = some (7, 0, 0) := by decide +kernel
/-- R333: every lane adds 2 to one word, so that lane 31 finds 62. -/
theorem test_atomic : (let w : Weave := { w0 with v := modNth w0.v 5 fun _ => .uni Lane.zero }
    match exec (.atoms { mf (lane (.v 8) (.v 5) (.v 4) .none) with wid := 2, atop := 1 }) (on w) with
    | .next t => (match exec (.loadComplete 1) t with
      | .next u => (u.weave? 0 0).map fun x => (u.locRead 0 (.scratch 0 0), x.valueOf 0 (.v 8) 31)
      | _ => none)
    | _ => none) = some (64, 62) := by decide +kernel

/-- Two members of a gang, of 64 KiB each: the seam between their windows, its last byte, one beyond, an atomic across it. -/
def aMember (k : Nat) : Crew := Crew.start { harnessSeat with cid := k, member := k, inGang := true, core := k } harnessShape [w0] 0
def sPair : State := { State.reset.harness [] with cur := some (0, 0), crews := [aMember 0, aMember 1] }
theorem witness_Addresses_gang : (aMember 0).inGang = true ∧ (sPair.windows (aMember 0)).map Crew.cid = [0, 1] ∧
    ((sPair.windows (aMember 0)).map Crew.window).sum = 131072 ∧
    sPair.probeScratch (aMember 1) ⟨4, true, false, false⟩ (-1) = .bad .scratchRange 0 ∧
    sPair.probeScratch (aMember 1) ⟨4, true, false, false⟩ 131069 = .bad .scratchRange 0 ∧
    crossesLine 65534 4 ∧ sPair.probeScratch (aMember 0) ⟨4, true, true, true⟩ 65534 = .bad .atomicSplit 0 ∧
    (sPair.probeScratch (aMember 0) ⟨4, true, false, false⟩ 65534 =
      .ok [⟨.scratch 0 65534, 2, 0, true, false, none⟩, ⟨.scratch 1 0, 2, 0, true, false, none⟩]) := by
  refine ⟨rfl, by decide +kernel, by decide +kernel, by decide +kernel, by decide +kernel, ?_, by decide +kernel, by decide +kernel⟩
  unfold crossesLine; decide

/-- A leaf by KIND and permissions. -/
def leafKR (pa kind : Nat) (r : Bool) : Leaf := ⟨pa, 0, r, true, true, kind, false, false, 0⟩
/-- A weave for which pages 0 and 1 have been walked, with what was found. -/
def wPages (a b : Option Leaf) : Weave := { w0 with walked := [(0, a), (1, b)] }
/-- Accesses across the seam of two pages: one not walked, an atomic; pages that agree, that differ, that forbid reading, that
are absent, in each place. -/
theorem witness_Addresses_crossing : w0.b[(0 : Nat)]? = some ⟨0, 0, 0, 0, false, false, false, 0, false⟩ ∧
    (let e : Int := 65534
     let a : Access := ⟨4, true, false, false⟩
     let go (w : Weave) : Probe := (on w).probeGlobal w 0 0 0 a e
     let l := leafKR 0x200000 0 true
     let m := leafKR 0x300000 0 true
     let no := leafKR 0x300000 0 false
     (on w0).xlate w0 0 0 65536 = .walk ∧ go w0 = .walk [1] ∧
     (let w := wPages (some l) (some m)
      (on w).probeGlobal w 0 0 0 ⟨4, true, true, true⟩ e = .bad .atomicSplit 65534) ∧ crossesLine 65534 4 ∧
     (let w := wPages (some l) (some m)
      (on w).xlate w 0 0 65534 = .hit l ∧ (on w).xlate w 0 0 65536 = .hit m ∧
       go w = .ok [⟨.hbm 0x20FFFE, 2, 0, false, false, some (0, 0)⟩, ⟨.hbm 0x300000, 2, 0, false, false, some (65536, 0)⟩]) ∧
     go (wPages (some l) (some (leafKR 0x300000 1 true))) = .bad .kindStraddle 65534 ∧
     go (wPages (some { l with r := false }) (some m)) = .bad .pageProtection 65534 ∧
     go (wPages (some l) (some no)) = .bad .pageProtection 65536 ∧
     go (wPages none (some no)) = .bad .pageProtection 65536 ∧ go (wPages none (some m)) = .bad .pageNotPresent 65534 ∧
     go (wPages (some { l with r := false }) none) = .bad .pageProtection 65534 ∧ go (wPages (some l) none) = .bad .pageNotPresent 65536 ∧
     go (wPages none none) = .bad .pageNotPresent 65534) ∧
    differ (leafKR 0 0 true) (leafKR 0 1 true) ∧ ¬ differ (leafKR 0 0 true) (leafKR 65536 0 true) ∧
    forbids ⟨4, true, false, false⟩ (leafKR 0 0 false) ∧ ¬ forbids ⟨4, true, false, false⟩ (leafKR 0 0 true) ∧
    paOpen (on w0) harnessTenant 0x20FFFE 2 ∧ paOpen (on w0) harnessTenant 0x300000 2 := by
  refine ⟨by decide +kernel, ⟨by decide +kernel, by decide +kernel, by decide +kernel, ?_, ?_⟩, ?_, ?_, ?_, ?_, ?_, ?_⟩
  · unfold crossesLine; decide
  · decide +kernel
  · exact .inl (by decide)
  · rintro (h | h | h) <;> revert h <;> decide
  · exact .inl ⟨rfl, rfl⟩
  · rintro (h | h) <;> revert h <;> decide
  · unfold paOpen; decide +kernel
  · unfold paOpen; decide +kernel

/-- A store that meets what a queued `LKA` is still to read. -/
theorem witness_Stores_held : (let s : State := (on wXlb).modCore 0 fun k => { k with accq := [.lka 0 0 0x40 0 0 0 0 0 ⟨0, []⟩] }
    let f : MForm := put (.v 5) (.v 1) 2
    Issues s (.sts f) 0 0 wXlb ∧ s.heldByLka (crewOf wXlb) ((actingLanes wXlb f).flatMap (piecesOf wXlb f .scratch false true false)) = true) :=
  ⟨issues_of rfl rfl rfl (by decide +kernel), by decide +kernel⟩

/-! ## Witnesses: translation, waits, barriers, signals -/

/-- Write a page-table entry of the machine's tables: at level 3, VA 0x10000 times k. -/
def entry3 (s : State) (k : Nat) (e : Nat) : State := { s with hbm := Memory.writeN s.hbm (0x132000 + 8 * k) (bytesLE 8 e) }

/-- The tables of the walk that every page here takes. -/
def tableAt (n : Nat) : Nat := nthD [0x100000, 0x130000, 0x131000, 0x132000] n 0

/-- A leaf; an entry of 0; KIND 3; a first-touch entry; at level 0, an entry with LF set. -/
theorem witness_PageWalk :
    (on w0).tenant? 0 = some harnessTenant ∧ tableAt 0 = harnessTenant.root ∧
    (∀ k < 3, (pageEntry (on w0) 0 (tableAt k) k 0).getLsbD 0 = true ∧ (pageEntry (on w0) 0 (tableAt k) k 0).getLsbD 1 = false ∧
      tableAt (k + 1) = pageAddr (pageEntry (on w0) 0 (tableAt k) k 0)) ∧
    (∀ k < 3, ¬ badEntry (on w0) 0 k (pageEntry (on w0) 0 (tableAt k) k 0)) ∧
    ((pageEntry (on w0) 0 (tableAt 3) 3 0).getLsbD 0 = true ∧ (pageEntry (on w0) 0 (tableAt 3) 3 0).getLsbD 1 = true ∧
      ¬ badEntry (on w0) 0 3 (pageEntry (on w0) 0 (tableAt 3) 3 0)) ∧
    ((pageEntry (on w0) 0 (tableAt 0) 0 (2 ^ 39)).getLsbD 0 = false ∧ (pageEntry (on w0) 0 (tableAt 0) 0 (2 ^ 39)).getLsbD 57 = false) ∧
    ((pageEntry (entry3 (on w0) 1 0x20007F) 0 (tableAt 3) 3 0x10000).getLsbD 0 = true ∧
      badEntry (entry3 (on w0) 1 0x20007F) 0 3 (pageEntry (entry3 (on w0) 1 0x20007F) 0 (tableAt 3) 3 0x10000)) ∧
    (let s := entry3 (on w0) 1 (2 ^ 57)
     (pageEntry s 0 (tableAt 3) 3 0x10000).getLsbD 57 = true ∧ (pageEntry s 0 (tableAt 3) 3 0x10000).getLsbD 0 = false ∧
      ¬ badEntry s 0 3 (pageEntry s 0 (tableAt 3) 3 0x10000)) ∧
    badEntry (on w0) 0 0 3 := by
  simp only [badEntry]
  refine ⟨rfl, rfl, ?_, ?_, ?_, ?_, ?_, ?_, ?_⟩ <;> decide +kernel

/-- g4:g5 at `x`. -/
def wG (w : Weave) (x : Nat) : Weave := (w.putG (.g 4) (BitVec.ofNat 32 x)).putG (.g 5) (BitVec.ofNat 32 (x / 2 ^ 32))
def xlb : MForm := { mf (group .none (.g 4) .none .none) with wid := 0, xb := 2 }

/-- A page that the TLB holds, one that it does not, a VA of 53 bits, a guard that fails. -/
theorem witness_Translation_xlb :
    (∀ x ∈ [0x1000, 0x40000, 2 ^ 52], Issues (on (wG w0 x)) (.xlb xlb) 0 0 (wG w0 x) ∧ ((wG w0 x).wideG 0 false (.g 4)).toNat = x) ∧
    (on (wG w0 0x1000)).xlate (wG w0 0x1000) 0 0 0x1000 = .hit ⟨0x200000, 0, true, true, true, 0, false, false, 0⟩ ∧
    (on (wG w0 0x40000)).xlate (wG w0 0x40000) 0 0 0x40000 = .walk ∧
    w0.qPass (group .none (.g 4) .none .none) = true ∧ w0.qPass { group .none (.g 4) .none .none with grd := 1 } = false := by
  refine ⟨?_, by decide +kernel, by decide +kernel, by decide +kernel, by decide +kernel⟩
  intro x hx
  simp only [List.mem_cons, List.not_mem_nil, or_false] at hx
  rcases hx with rfl | rfl | rfl <;> exact ⟨issues_on (by decide +kernel), by decide +kernel⟩

theorem witness_Translation_tlbi : (∀ a ∈ [Operand.g 4, .ones], Issues (on wSup) (.tlbi (sf (group .none a .none .none))) 0 0 wSup) ∧
    Issues (on (wG wSup (2 ^ 52))) (.tlbi (sf (group .none (.g 4) .none .none))) 0 0 (wG wSup (2 ^ 52)) ∧ Inv (on wSup) ∧
    harnessTenant.gens.length = 4 ∧ (wSup.wideG 0 false (.g 4)).toNat < 2 ^ 52 := by
  refine ⟨?_, issues_on (by decide +kernel), inv_on (by constructor <;> decide +kernel), rfl, by decide +kernel⟩
  intro a ha
  simp only [List.mem_cons, List.not_mem_nil, or_false] at ha
  rcases ha with rfl | rfl <;> exact issues_on (by decide +kernel)

/-- A first-touch entry at VA 0x10000 and a pool of one frame, 0x400000, on die 0. -/
def sTouch : State :=
  { entry3 (State.reset.harness (bytesLE 8 0x400000)) 1 (2 ^ 57 + 0x1C) with tenants := [{ harnessTenant with given := 1 }] }

theorem witness_Translation_mapp : (∀ x ∈ [0x1000, 2 ^ 39, 2 ^ 52], Issues (on (wG wSup x)) (.mapp (sf (group (.g 8) (.g 4) .none .none))) 0 0 (wG wSup x)) ∧
    (on wSup).walk 0 0x1000 = .leaf ⟨0x200000, 0, true, true, true, 0, false, false, 0⟩ 0x132000 ∧ (on wSup).walk 0 (2 ^ 39) = .missing ∧
    sTouch.walk 0 0x10000 = .firstTouch 0x132008 3 (BitVec.ofNat 64 (2 ^ 57 + 0x1C)) ∧ sTouch.tenant? 0 = some { harnessTenant with given := 1 } ∧
    dieCount (1 : DWord) 0 ≠ dieCount (sTouch.psb 0 6) 0 ∧ dieCount (1 : DWord) 0 < 2 ^ 16 ∧
    sTouch.deviceWord 0 (((sTouch.psb 0 4).toNat + 0 * 8 * 2 ^ sTouch.poolLog2 0 + 8 * (dieCount (sTouch.psb 0 6) 0 % 2 ^ sTouch.poolLog2 0)) % 2 ^ 52) =
      .ok (BitVec.ofNat 64 0x400000) ∧
    (sTouch.putPsb 0 6 (takeOne (sTouch.psb 0 6) 0)).poolEntryOk 0 0 0x400000 = true ∧
    (let s : State := { sTouch with tenants := [harnessTenant] }
     s.walk 0 0x10000 = .firstTouch 0x132008 3 (BitVec.ofNat 64 (2 ^ 57 + 0x1C)) ∧
      dieCount (harnessTenant.given) 0 = dieCount (s.psb 0 6) 0) := by
  refine ⟨?_, by decide +kernel, by decide +kernel, by decide +kernel, rfl, ?_⟩
  on_goal 2 => and_intros <;> decide +kernel
  intro x hx
  simp only [List.mem_cons, List.not_mem_nil, or_false] at hx
  rcases hx with rfl | rfl | rfl <;> exact issues_on (by decide +kernel)

/-- A weave that waits for the walk of page 0. -/
theorem witness_Translation_walk : (let w : Weave := { w0 with wait := .walk [0] }
    let s : State := (on w).modDie 0 fun d => { d with walks := [⟨0, 0, [(0, 0)], [], []⟩] }
    (s.die 0).walks.find? (fun k => k.owner == 0 && k.vpn == 0) = some ⟨0, 0, [(0, 0)], [], []⟩ ∧ s.walkFault 0 (0 * 2 ^ 16) = none ∧
      s.weave? 0 0 = some w) := by decide +kernel

theorem witness_Translation_caches :
    Issues (on w0) (.fence { mf (lane .none .none .none .none) with wid := 1, scp := 5 }) 0 0 w0 ∧
    (let w : Weave := { w0 with outst := 1 }
     Issues (on w) (.fence { mf (lane .none .none .none .none) with wid := 0 }) 0 0 w ∧ w.outst ≠ 0) ∧ w0.outst = 0 ∧
    w0.acts (lane .none .none .none .none) = true ∧ w0.acts { lane .none .none .none .none with grd := 2 } = false ∧
    Issues (on w0) (.ifence { mf (lane .none .none .none .none) with wid := 0 }) 0 0 w0 ∧
    Issues (on w0) (.iflush { mf (group .none (.g 4) (.g 2) .none) with wid := 0 }) 0 0 w0 ∧
    (∀ ch ∈ [0, 1, 2], Issues (on w0) (.cctl { mf (group .none (.g 4) .none .none) with wid := 0, ch := ch }) 0 0 w0) ∧
    Issues (on wMem) (.pft { mf (lane .none (.v 5) .none .none) with wid := 0, ch := 3 }) 0 0 wMem ∧
    (on w0).walk 0 (w0.groupVa { mf (group .none (.g 4) .none .none) with wid := 0 }) =
      .leaf ⟨0x200000, 0, true, true, true, 0, false, false, 0⟩ 0x132000 := by
  refine ⟨issues_on (by decide +kernel), ⟨issues_on (by decide +kernel), by decide⟩, rfl, by decide +kernel, by decide +kernel,
    issues_on (by decide +kernel), issues_on (by decide +kernel), ?_, issues_on (by decide +kernel), by decide +kernel⟩
  intro ch hc
  simp only [List.mem_cons, List.not_mem_nil, or_false] at hc
  rcases hc with rfl | rfl | rfl <;> exact issues_on (by decide +kernel)

theorem witness_Translation_traps : (∀ i ∈ [Instr.tlbi (sf (group .none (.g 4) .none .none)), .mapp (sf (group (.g 8) (.g 4) .none .none))],
      Issues (on (wG wSup (2 ^ 52))) i 0 0 (wG wSup (2 ^ 52))) ∧ ((wG wSup (2 ^ 52)).wideG 0 false (.g 4)).toNat = 2 ^ 52 ∧
    (let w := wG wSup 0x10000
     let s : State := { sTouch with cur := some (0, 0), crews := [crewOf w] }
     Issues s (.mapp (sf (group (.g 8) (.g 4) .none .none))) 0 0 w ∧ (s.firstTouch 0 0 0x10000).2 = .mapped ∧
      ((s.firstTouch 0 0 0x10000).1.weave? 0 0).isSome = true) ∧
    ((on w0).die 0).walks.find? (fun k => k.owner == 0 && k.vpn == 9) = none :=
  ⟨issues_all (by decide +kernel), by decide +kernel, ⟨issues_of rfl rfl rfl (by decide +kernel), by decide +kernel, by decide +kernel⟩, by decide +kernel⟩

/-- `CCTL` of a line on a page that the TLB holds, on one that a walk has not found, on one not walked. -/
theorem witness_Translation_cctl : (let f : MForm := { mf (group .none (.g 4) .none .none) with wid := 0, ch := 0 }
    (let w := wG w0 0x1000
     Issues (on w) (.cctl f) 0 0 w ∧ (∃ l, (on w).xlate w 0 0 (w.groupVa f) = .hit l)) ∧
    (let w := wG { w0 with walked := [(4, none)] } 0x40000
     Issues (on w) (.cctl f) 0 0 w ∧ (on w).xlate w 0 0 (w.groupVa f) = .miss) ∧
    (let w := wG w0 0x40000
     Issues (on w) (.cctl f) 0 0 w ∧ (on w).xlate w 0 0 (w.groupVa f) = .walk)) :=
  ⟨⟨issues_on (by decide +kernel), ⟨0x200000, 0, true, true, true, 0, false, false, 0⟩, by decide +kernel⟩, ⟨issues_on (by decide +kernel), by decide +kernel⟩,
   issues_on (by decide +kernel), by decide +kernel⟩

/-- One line; a set that is unwatched; five lines, where the set holds four. -/
theorem witness_Waits_watch :
    (∀ f ∈ [{ mf (lane .none .zero .none .none) with wid := 1, disp := 0x10 }, { mf (lane .none (.v 5) .none .none) with wid := 2 }],
      Issues (on wMem) (.watch f) 0 0 wMem ∧ wMem.actors f.hd ≠ 0) ∧
    (∀ l < 32, (on wMem).probe (crewOf wMem) wMem 0 .scratch ⟨1, true, false, false⟩ ((wMem.valueOf 0 .zero l).toNat + 0x10) =
      .ok [⟨.scratch 0 0x10, 1, 0, true, false, none⟩]) ∧
    ((on wMem).armed.length < 60 ∧ wMem.watch.length ≤ 4 ∧ wMem.unwatched = false) ∧
    (let w : Weave := { wMem with unwatched := true }
     Issues (on w) (.watch { mf (lane .none .zero .none .none) with wid := 1 }) 0 0 w ∧ w.unwatched = true) ∧
    ¬ (([.scratch 0 0, .scratch 0 1, .scratch 0 2, .scratch 0 3, .scratch 0 4] : List WLine).length ≤ 4) := by
  refine ⟨?_, by decide +kernel, by decide, ⟨issues_on (by decide +kernel), rfl⟩, by decide⟩
  intro f hf
  simp only [List.mem_cons, List.not_mem_nil, or_false] at hf
  rcases hf with rfl | rfl <;> exact ⟨issues_on (by decide +kernel), by decide +kernel⟩

def waita : MForm := { mf (lane (.p 2) .none .none .none) with wid := 0, disp := 1000000 }
/-- A weave whose set holds the first line of scratch. -/
def wWatch : Weave := { w0 with watch := [.scratch 0 0] }

theorem witness_Waits_waita :
    (∀ w ∈ [w0, wWatch, { wWatch with woken := true }, { wWatch with wakeRes := some false }, { w0 with unwatched := true }],
      Issues (on w) (.waita waita) 0 0 w ∧ Issues (on w) (.unwch { waita with hd := lane .none .none .none .none, disp := 0 }) 0 0 w ∧
        w.uniform waita.hd = true) ∧ w0.uniform { waita.hd with grd := 1 } = false ∧ waita.disp ≠ 0 ∧
    ¬ (wWatch.watch = [] ∧ wWatch.unwatched = false) ∧ (w0.watch = [] ∧ w0.unwatched = false) := by
  refine ⟨?_, by decide +kernel, by decide, by decide, by decide⟩
  intro w hw
  simp only [List.mem_cons, List.not_mem_nil, or_false] at hw
  rcases hw with rfl | rfl | rfl | rfl | rfl <;> exact ⟨issues_on (by decide +kernel), issues_on (by decide +kernel), by decide +kernel⟩

/-- Weaves that wait in `WAITA` and that spin, with a word that has not changed and one that has. -/
theorem witness_Waits_wake :
    (let w : Weave := { wWatch with wait := .waita, woken := true, stamp := 7 }
     (on w).weave? 0 0 = some w ∧ w.wait = .waita ∧ w.woken = true ∧ w.stamp = 7 ∧ w.stamp ≠ 6) ∧
    (let w (v : Byte) : Weave := { w0 with wait := .spin, spin := { Spin.fresh false with watched := true, last := [⟨some (.scratch 0 0), true, [v]⟩] } }
     (on (w 0)).weave? 0 0 = some (w 0) ∧ (w 0).wait = .spin ∧ (w 0).spin.armed = false ∧
     (on (w 1)).locReadN 0 (.scratch 0 0) 1 ≠ [1] ∧ (on (w 0)).locReadN 0 (.scratch 0 0) 1 = [0]) := by decide +kernel

def bar (scp : BitVec 3) : MForm := { mf (lane .none .none .none .none) with wid := 0, scp := scp, disp := 15 }
/-- A weave of two of a gang's crew. -/
def gangCrew (w : Weave) : Crew :=
  { Crew.start { harnessSeat with inGang := true } harnessShape [w, { w0 with slot := 1 }] 0 with
    gk := List.replicate 16 0, lk := List.replicate 16 0 }
/-- Barrier arrivals of every crew barrier. -/
def wArr (x : Option Word) : Weave := { w0 with carr := List.replicate 16 x }

theorem witness_Barriers_crew :
    (∀ i ∈ [Instr.bara (bar 1), .barw (bar 1), .baraw (bar 1), .bara (bar 2), .baraw (bar 4)],
      Issues (on (wArr none)) i 0 0 (wArr none)) ∧
    barrierOf (.baraw (bar 1)) (bar 1) true true ∧ (wArr none).uniform (bar 1).hd = true ∧ (bar 1).disp.toNat = 15 ∧
    (crewOf (wArr none)).cbars[15]? = some (CBar.start 1) ∧ 15 < (wArr none).carr.length ∧
    nthD (wArr (some 0)).carr 15 none = some (CBar.start 1).gen ∧ nthD (wArr none).carr 15 none ≠ some (CBar.start 1).gen ∧
    ((bar 2).scp = 2 ∧ (crewOf w0).inGang = false) ∧
    (∀ i ∈ [Instr.bara (bar 1), .baraw (bar 1)], Issues (on (wArr (some 0))) i 0 0 (wArr (some 0))) :=
  by
  refine ⟨issues_all (by decide +kernel), .inr (.inr ⟨rfl, rfl, rfl⟩), ?_⟩
  and_intros
  on_goal 9 => exact issues_all (by decide +kernel)
  all_goals decide +kernel

/-- The machine with that gang crew, and a record of its gang barrier 15. -/
def sGang (w : Weave) : State :=
  { on w with crews := [gangCrew w], launches := [{ harnessLaunch with recDie := some 0, recBase := 16 }], bdir := [⟨3, 0, 1, 15, 0, 1, 0, 0, 0, 0, 0, 0⟩, ⟨31, 0, 2, 15, 9, 2, 1, 0, 0, 0, 0, 0⟩] }

theorem witness_Barriers_gang :
    Issues (sGang w0) (.baraw (bar 2)) 0 0 w0 ∧ (sGang w0).crew? 0 = some (gangCrew w0) ∧ (gangCrew w0).cont = false ∧
    (gangCrew w0).inGang = true ∧ ((gangCrew w0).pendOf 2 15).getLsbD 0 = false ∧
    (gangCrew w0).mOf 2 15 ≠ some ((gangCrew w0).kOf 2 15) ∧
    ((gangCrew w0).live &&& ~~~ ((gangCrew w0).pendOf 2 15 ||| BitVec.twoPow 32 0)) ≠ 0 ∧ (gangCrew w0).gpend.length = 16 ∧
    (let w : Weave := { w0 with slot := 1 }
     let s : State := { on w with crews := [{ gangCrew w with weaves := [w] }], bdir := (sGang w0).bdir }
     Issues s (.bara (bar 2)) 0 0 w ∧ (({ gangCrew w with weaves := [w] } : Crew).live &&& ~~~ BitVec.twoPow 32 0) = 0 ∧
      ∃ r, s.bdirNum? { gangCrew w with weaves := [w] } 2 15 = some r) :=
  ⟨issues_of rfl rfl rfl (by decide +kernel), rfl, rfl, rfl, by decide +kernel, by decide +kernel, by decide +kernel, rfl,
   issues_of rfl rfl rfl (by decide +kernel), by decide +kernel, 3, by decide +kernel⟩

theorem witness_Barriers_query :
    Issues (on w0) (.barq { bar 1 with hd := group (.g 8) .none .none .none }) 0 0 w0 ∧
    Issues (sGang w0) (.barq { bar 4 with hd := group (.g 8) .none .none .none }) 0 0 w0 ∧
    (sGang w0).bdirNum? (gangCrew w0) 4 15 = some 31 ∧ (sGang w0).bdir? 31 = some ⟨31, 0, 2, 15, 9, 2, 1, 0, 0, 0, 0, 0⟩ ∧
    w0.qPass (group (.g 8) .none .none .none) = true ∧ isGroup (.g 8) = true :=
  ⟨issues_on (by decide +kernel), issues_of rfl rfl rfl (by decide +kernel), by decide +kernel, by decide +kernel, by decide +kernel, rfl⟩

/-- A record one arrival short, a second arrival in its generation, a member that leaves, a waiter at the notice. -/
theorem witness_Barriers_directory :
    ((sGang w0).bdir? 3 = some ⟨3, 0, 1, 15, 0, 1, 0, 0, 0, 0, 0, 0⟩ ∧ (none : Option Word) ≠ some 0 ∧ 0 + 1 = 1) ∧
    ((sGang w0).weave? 0 0 = some w0 ∧ w0.done = false ∧ w0.mode = .user) ∧
    (let w : Weave := { w0 with wait := .barrier 2 15 0 }
     (sGang w).crew? 0 = some (gangCrew w) ∧ (gangCrew w).place = .resident 0 ∧ (sGang w).bdirNum? (gangCrew w) 2 15 = some 3 ∧
      (gangCrew w).kOf 2 15 = 0 ∧ (sGang w).weave? 0 0 = some w ∧ ((sGang w).crews.map Crew.cid).Nodup) := by decide +kernel

/-- A signal at VA 0x40: 2, 0, −1. -/
def sSig (v : Nat) (w : Weave) : State :=
  { State.reset.harness (List.replicate 64 0 ++ bytesLE 8 v) with cur := some (0, 0), crews := [crewOf w] }

theorem witness_Signals_kernel :
    Issues (sSig 2 (wG w0 0x40)) (.sigadd { mf (group .none (.g 4) (.g 6) .none) with wid := 0 }) 0 0 (wG w0 0x40) ∧
    refOk ((wG w0 0x40).wideG 0 false (.g 4)) = true ∧ refOk ((wG w0 0x48).wideG 0 false (.g 4)) = false ∧
    ((wG w0 (2 ^ 63)).wideG 0 false (.g 4)).getLsbD 63 = true ∧ (sSig 2 w0).peerKnown 0 (BitVec.ofNat 64 (2 ^ 63)) = false ∧
    ({ sSig 2 w0 with tenants := [{ harnessTenant with peers := [(0, 0, 0)] }] } : State).peerKnown 0 (BitVec.ofNat 64 (2 ^ 63)) = true ∧
    (sSig 2 (wG w0 0x40)).probeVa (wG w0 0x40) 0 0 ⟨8, false, true, false⟩ 0x40 = .ok [⟨.hbm 0x200040, 8, 0, false, false, some (0, 0)⟩] ∧
    (sSig 2 w0).dlen 0 = false ∧ signalValue (sSig 2 w0) 0 0x200040 = 2 ∧ signalValue (sSig 0 w0) 0 0x200040 = 0 ∧
    signalValue (sSig (2 ^ 64 - 1) w0) 0 0x200040 < 0 ∧
    Issues (sSig 2 (wG w0 0x40)) (.sigwt { mf (group .none (.g 4) .none .none) with wid := 0 }) 0 0 (wG w0 0x40) ∧ w0.wakeRes = none :=
  by
  refine ⟨issues_of rfl rfl rfl (by decide +kernel), ?_⟩
  and_intros
  on_goal 11 => exact issues_of rfl rfl rfl (by decide +kernel)
  all_goals decide +kernel

theorem inv_sSig (v : Nat) {w : Weave} (hm : Memory.wf (sSig v w).hbm) (h : WeaveFormed w) : Inv (sSig v w) where
  hbm := hm
  mailbox := (by decide +kernel : Memory.wf State.reset.mgmt.mailbox)
  scratch := by intro c hc; obtain rfl := List.mem_singleton.mp hc; exact (by decide +kernel : Memory.wf [])
  commons := (by decide +kernel : ∀ t ∈ [harnessTenant], t.commons.length = 4 ∧ ∀ m ∈ t.commons, Memory.wf m)
  dies := by rfl
  cores := (by decide +kernel : (State.reset.harness []).cores.length = 256)
  welt := by rfl
  ports := by rfl
  links := by rfl
  weaves := by intro c hc; obtain rfl := List.mem_singleton.mp hc; intro x hx; obtain rfl := List.mem_singleton.mp hx; exact h
  flights := by intro f hf; cases hf

/-- 2 stands an ADD of −2, and underflows under one of −3. -/
theorem witness_Signals_plain : PlainSignal (sSig 2 w0) 0 0x40 0x200040 ∧
    ¬ underflows (sSig 2 w0) 0 0x200040 (.add (BitVec.ofInt 64 (-2))) ∧ underflows (sSig 2 w0) 0 0x200040 (.add (BitVec.ofInt 64 (-3))) := by
  have hv : signalValue (sSig 2 w0) 0 0x200040 = 2 := by decide +kernel
  refine ⟨⟨inv_sSig 2 (by decide +kernel) (by constructor <;> decide +kernel), ⟨rfl, rfl⟩, by decide, by decide +kernel, by decide +kernel,
    fun x hx => by cases hx⟩, fun h => ?_, ?_, ?_⟩
  · have := h.2; rw [hv] at this; revert this; decide
  all_goals rw [hv]; decide

/-- A peer that the tenant knows and one that it does not. -/
theorem witness_Signals_known : (let ref : DWord := 0x8040_0000_0000_0040
    let w : Weave := { w0 with g := modNth (modNth w0.g 2 fun _ => 0x40) 3 fun _ => 0x8040_0000 }
    ref = w.wideG 0 false (.g 2) ∧ refOk ref = true ∧ ref.getLsbD 63 = true ∧ (on w).peerKnown 0 ref = false ∧
      ({ on w with tenants := [{ harnessTenant with peers := [(4, 1, 1)] }] } : State).peerKnown 0 ref = true ∧ w.wakeRes = none) := by decide +kernel

/-- What waits on a signal: a weave, locally and at a peer; a peer's messages. -/
theorem witness_Signals_waiters :
    (let w : Weave := { w0 with wait := .signal 0x40 }
     let s : State := { sSig 0 w with waits := [⟨0, 0x40, .weave 0 0, 0⟩], remoteWaits := [⟨0, 0x40, .weave 0 0, 0⟩], peerIn := [.notify 0 0x40 0 false] }
     s.weave? 0 0 = some w ∧ w.handler = none ∧ s.devicePa 0 0x40 false = .ok 0x200040 ∧ s.migratedAway 0 = false) ∧
    (let s : State := { sSig 2 w0 with tenants := [{ harnessTenant with migrated := true }], peerIn := [.register 0 0x40] }
     s.migratedAway (PeerMsg.owner (.register 0 0x40)) = true) ∧
    (let s : State := { sSig 2 w0 with ctxs := [{ Ctx.management with id := 1, owner := 0 }] }
     s.ctxOwner 1 = 0) := by decide +kernel
/-- R44: an ADD of −2 makes 2 zero; an ADD beyond the greatest VALUE stays there. -/
theorem test_signal : signalAfter (.add (BitVec.ofInt 64 (-2))) 2 false = (0, false) ∧
    signalAfter (.add 5) (2 ^ 63 - 3) false = (2 ^ 63 - 1, false) := by decide +kernel

/-- The last weave of a crew that is in no gang, at a barrier of its launch; a waiter on core 65 at a notice for die 1. -/
theorem witness_Barriers_launch :
    (let s : State := { on w0 with launches := [{ harnessLaunch with recDie := some 0, recBase := 16 }], bdir := (sGang w0).bdir }
     let c : Crew := crewOf w0
     Issues s (.bara (bar 4)) 0 0 w0 ∧ s.crew? 0 = some c ∧ c.cont = false ∧ c.inGang = false ∧ (s.crews.map Crew.cid).Nodup ∧
      (c.pendOf 4 15).getLsbD 0 = false ∧ c.mOf 4 15 ≠ some (c.kOf 4 15) ∧ (c.live &&& ~~~ (c.pendOf 4 15 ||| BitVec.twoPow 32 0)) = 0 ∧
      c.gpend.length = 16 ∧ c.gm.length = 16 ∧ c.lpend.length = 16 ∧ c.lm.length = 16 ∧ s.bdirNum? c 4 15 = some 31) ∧
    (let w : Weave := { w0 with wait := .barrier 2 15 0 }
     let c : Crew := { gangCrew w with place := .resident 65 }
     let s : State := { sGang w with crews := [c] }
     s.bdir? 3 = some ⟨3, 0, 1, 15, 0, 1, 0, 0, 0, 0, 0, 0⟩ ∧ s.crew? c.cid = some c ∧ c.place = .resident 65 ∧ 65 / 64 = 1 ∧
      s.bdirNum? c 2 15 = some 3 ∧ c.kOf 2 15 = 0 ∧ s.weave? c.cid 0 = some w ∧ (s.crews.map Crew.cid).Nodup) := by
  refine ⟨⟨issues_of rfl rfl rfl (by decide +kernel), ?_⟩, ?_⟩ <;> decide +kernel

/-- A peer's registration that was told 2 of a signal that holds 0; a forwarded notification for a tenant that runs and for
one that does not. -/
theorem witness_Signals_peers :
    (let s : State := { sSig 0 w0 with waits := [⟨0, 0x40, .peer, 2⟩] }
     s.waits = [WaitReg.mk 0 0x40 .peer 2] ∧ s.devicePa 0 (0x40 : DWord).toNat false = .ok 0x200040 ∧
      BitVec.ofNat 64 (natLE (s.hbmBytes 0 0x200040 8)) ≠ (2 : DWord)) ∧
    (let s (run : Bool) : State := { sSig 2 w0 with tenants := [{ harnessTenant with running := run }], peerIn := [.notify 0 0x40 0 true] }
     (s true).peerIn = [.notify 0 0x40 0 true] ∧ (s true).migratedAway 0 = false ∧ (s false).migratedAway 0 = false ∧
      (s true).tenantRuns 0 = true ∧ (s false).tenantRuns 0 = false) := by decide +kernel

/-! ## Witnesses: the Accord Engine -/

/-- The machine whose one crew is `c`. -/
def onC (c : Crew) : State := { State.reset.harness [] with cur := some (0, 0), crews := [c] }
/-- A format word as the immediate of B. -/
def acc (a : Operand) (fw : Word) : EForm := { ef (lane .none a .imm .none) with imm := fw }
def accG (a : Operand) (x : Word) : EForm := { ef (group .none a .none .none) with imm := x }
/-- A valid set of 8 KiB at every handle, built from v0 to v3. -/
def aTbl (st : TState) : Tbl :=
  { state := st, afmt := 0, tkind := false, gsz := false, kg := 0, src := .regs 0 0, size := 8, spill := 0x100,
    rows := List.replicate 16 (List.replicate 32 4096), scales := List.replicate 16 [0x7F] }
def cTbl (st : TState) : Crew := { crewOf w0 with tables := aTbl st :: List.replicate 15 Tbl.unbound }

theorem inv_onC {c : Crew} (hs : Memory.wf c.scratch) (h : ∀ w ∈ c.weaves, WeaveFormed w) : Inv (onC c) where
  hbm := (by decide +kernel : Memory.wf (State.reset.harness []).hbm)
  mailbox := (by decide +kernel : Memory.wf State.reset.mgmt.mailbox)
  scratch := by intro x hx; obtain rfl := List.mem_singleton.mp hx; exact hs
  commons := (by decide +kernel : ∀ t ∈ [harnessTenant], t.commons.length = 4 ∧ ∀ m ∈ t.commons, Memory.wf m)
  dies := by rfl
  cores := (by decide +kernel : (State.reset.harness []).cores.length = 256)
  welt := by rfl
  ports := by rfl
  links := by rfl
  weaves := by intro x hx; obtain rfl := List.mem_singleton.mp hx; exact h
  flights := by intro f hf; cases hf

theorem formed_w0 : WeaveFormed w0 := by constructor <;> decide +kernel

theorem accord_ready {c : Crew} {i : Instr} {f : EForm} (hw : c.weaves = [w0])
    (h : (decide (c.cid = 0) && c.scratch.isEmpty && !c.inGang && decide (c.place = .resident 0) && decide (c.tables.length = 16) &&
      decide (c.tiles.length = 128) && decide (c.pds.length = 4) && decide (c.shape.tblq = 16) && fits w0 i && w0.acts f.hd) = true) :
    AccordReady (onC c) i 0 0 w0 f c 0 := by
  simp only [Bool.and_eq_true, decide_eq_true_eq, Bool.not_eq_true'] at h
  obtain ⟨⟨⟨⟨⟨⟨⟨⟨⟨h1, h2⟩, h3⟩, h4⟩, h5⟩, h6⟩, h7⟩, h8⟩, h9⟩, h10⟩ := h
  have hc : (onC c).crew? 0 = some c := by simp [onC, State.crew?, h1]
  have hv : (onC c).weave? 0 0 = some w0 := by simp [State.weave?, hc, hw]
  refine ⟨issues_of rfl hv (by simp [State.tblqOf, hc, h8]) h9, inv_onC ?_ ?_, hc, h3, h4, by decide, ?_, rfl, h10, h5, h6, h7⟩
  · rw [List.isEmpty_iff.mp h2]; decide +kernel
  · intro w hx; rw [hw] at hx; obtain rfl := List.mem_singleton.mp hx; exact formed_w0
  · exact (by decide +kernel : ((State.reset.harness []).core 0).accq = [])

/-- Formats T8 and T6, a bad one; a set that fits the table RAM and one that does not; registers and scratch. -/
theorem witness_TableSets_build :
    AccordReady (onC (crewOf w0)) (.tbld (acc (.v 12) 0)) 0 0 w0 (acc (.v 12) 0) (crewOf w0) 0 ∧
    AccordReady (onC (crewOf w0)) (.tblds (acc .zero 2)) 0 0 w0 (acc .zero 2) (crewOf w0) 0 ∧
    votesFor w0 (acc (.v 12) 0) 0 ∧ (∀ fw, ¬ votesFor w0 { acc (.v 12) 0 with hd := lane .none (.v 12) (.v 1) .none } fw) ∧
    (12 + 4 * (kgOf 0 + 1) ≤ w0.v.length ∧ ¬ 13 + 4 * (kgOf 0 + 1) ≤ w0.v.length) ∧
    (∀ x ∈ regKeys (.v 12) (4 * (kgOf 0 + 1)), x ∉ w0.empty) ∧ (badWord 3 ∧ badWord 512 ∧ ¬ badWord 510) ∧
    (otherSets (crewOf w0) 0 + kibOf 0 ≤ (crewOf w0).shape.tblkb) ∧
    ((cTbl .valid).shape.tblkb < otherSets (cTbl .valid) 1 + kibOf 0x50) ∧ windowBytes (crewOf w0) = 65536 ∧
    (0 + 16 * (kgOf 2 + 1) * 25 ≤ windowBytes (crewOf w0)) := by
  refine ⟨accord_ready rfl (by decide +kernel), accord_ready rfl (by decide +kernel), ?_, ?_, by decide +kernel, by decide +kernel,
    ?_, by decide +kernel, by decide +kernel, by decide +kernel, by decide +kernel⟩
  · intro l hl _; rfl
  · intro fw h
    have h0 := h 0 (by decide) (by decide +kernel)
    have h1 := h 1 (by decide) (by decide +kernel)
    revert h0 h1
    have e0 : w0.valueOf 0 (.v 1) 0 = 0 := by decide +kernel
    have e1 : w0.valueOf 0 (.v 1) 1 = 1 := by decide +kernel
    intro h0 h1
    have := (e0.symm.trans h0).trans (h1.symm.trans e1)
    exact absurd this (by decide)
  · unfold badWord; decide

/-- Every state of a handle, and places at and beyond the end of the window. -/
theorem witness_TableSets_tables :
    (∀ st ∈ [TState.unbound, .valid, .stale, .discarded, .spilled],
      AccordReady (onC (cTbl st)) (.tinv (accG .none 0)) 0 0 w0 (accG .none 0) (cTbl st) 0 ∧
      AccordReady (onC (cTbl st)) (.tspill (accG .imm 0xE000)) 0 0 w0 (accG .imm 0xE000) (cTbl st) 0 ∧
      AccordReady (onC (cTbl st)) (.tfill (accG .none 0)) 0 0 w0 (accG .none 0) (cTbl st) 0 ∧
      AccordReady (onC (cTbl st)) (.tstat { accG .none 0 with hd := group (.g 8) .none .none .none }) 0 0 w0
        { accG .none 0 with hd := group (.g 8) .none .none .none } (cTbl st) 0 ∧
      (cTbl st).tables[0]? = some (aTbl st) ∧ (aTbl st).state = st) ∧
    (0xE000 + (aTbl .valid).size * 1024 ≤ windowBytes (cTbl .valid) ∧ windowBytes (cTbl .valid) < 0xE001 + (aTbl .valid).size * 1024) ∧
    (aTbl .valid).spillBytes.length = (aTbl .valid).size * 1024 ∧
    otherSets (cTbl .spilled) 0 + 8 ≤ (cTbl .spilled).shape.tblkb ∧ (aTbl .spilled).spill + 8 * 1024 ≤ windowBytes (cTbl .spilled) ∧
    ({ harnessShape with tblkb := 7 } : Shape).tblkb < otherSets (cTbl .spilled) 0 + 8 := by
  refine ⟨?_, by decide +kernel, by decide +kernel, by decide +kernel, by decide +kernel, by decide +kernel⟩
  intro st hs
  simp only [List.mem_cons, List.not_mem_nil, or_false] at hs
  rcases hs with rfl | rfl | rfl | rfl | rfl <;>
    exact ⟨accord_ready rfl (by decide +kernel), accord_ready rfl (by decide +kernel), accord_ready rfl (by decide +kernel),
      accord_ready rfl (by decide +kernel), rfl, rfl⟩

/-- Plane descriptors at scratch 0: zeros, a CTL of 32, BCQ multipliers out of range and in range. -/
theorem witness_TableSets_planes :
    AccordReady (onC (crewOf w0)) (.plnset (accG .zero 0)) 0 0 w0 (accG .zero 0) (crewOf w0) 0 ∧
    (let bytes (xs : List Byte) : List Byte := scratchBytes (onC { crewOf w0 with scratch := Memory.writeN [] 0 xs }) 0 0 260
     (BitVec.ofNat 32 (natLE ((bytes []).take 4)) : Word) = 0 ∧ (BitVec.ofNat 32 (natLE ((bytes [32]).take 4)) : Word) = 32 ∧
     (BitVec.ofNat 32 (natLE ((bytes [1, 0, 0, 0, 0x6F]).take 4)) : Word).getLsbD 0 = true ∧
     (nthD (bytes [1, 0, 0, 0, 0x6F]) 4 0).toNat < 0x70 ∧
     (∀ n < 32, 0x70 ≤ (nthD (bytes ([1, 0, 0, 0] ++ List.replicate 32 0x8F)) (4 + n) 0).toNat)) ∧
    0 + 260 ≤ windowBytes (crewOf w0) ∧ windowBytes (crewOf w0) < 65277 + 260 :=
  ⟨accord_ready rfl (by decide +kernel), by decide +kernel, by decide +kernel, by decide +kernel⟩

theorem witness_TableSets_queue : ∀ op ∈ [AccOp.tinv 0 0, .build 0 0],
    (((onC (crewOf w0)).modCore 0 fun k => { k with accq := [op] }).core 0).accq = op :: [] ∧
    0 < ((onC (crewOf w0)).modCore 0 fun k => { k with accq := [op] }).cores.length := by decide +kernel

theorem witness_LookupSum : multipliersFit ⟨0, List.replicate 256 0⟩ ∧ PlaneD.bcq ⟨0, List.replicate 256 0⟩ = (aTbl .valid).tkind ∧
    multipliersFit ⟨1, List.replicate 256 0x8F⟩ ∧ (nthD (nthD (aTbl .valid).scales 0 []) 0 0 ≠ 255) :=
  ⟨fun h => absurd h (by decide), by decide, fun _ p hp n hn => by
    have : p = 0 := Nat.le_zero.mp hp
    subst this
    have : ∀ n < 32, 0x70 ≤ (nthD (List.replicate 256 (0x8F : Byte)) (32 * 0 + n) 0).toNat ∧
      (nthD (List.replicate 256 (0x8F : Byte)) (32 * 0 + n) 0).toNat ≤ 0x8F := by decide +kernel
    exact this n hn, by decide⟩

/-- Every state of the table, a format that matches and one that does not, the last handle of a full quota, offsets. -/
theorem witness_LookupAndTiles_lka :
    (∀ st ∈ [TState.unbound, .valid, .stale, .discarded, .spilled],
      AccordReady (onC (cTbl st)) (.lka (acc .zero 0)) 0 0 w0 (acc .zero 0) (cTbl st) 0) ∧
    votesFor w0 (acc .zero 0) 0 ∧ (cTbl .valid).pds[(0 : Nat)]? = some ⟨0, List.replicate 256 0⟩ ∧
    ((aTbl .valid).afmt = (0 : Word).toNat % 4 ∧ (aTbl .valid).tkind = (0 : Word).getLsbD 2 ∧ (aTbl .valid).gsz = (0 : Word).getLsbD 3 ∧
      (aTbl .valid).kg = kgOf 0) ∧ (aTbl .valid).afmt ≠ (1 : Word).toNat % 4 ∧ mayBind (cTbl .valid) 127 ∧
    ¬ mayBind { cTbl .valid with shape := { harnessShape with accq := 0 } } 127 ∧
    (nthD (cTbl .valid).tiles 0 ⟨false, []⟩).data = [] ∧ 0 + (0 + 1) * (32 + 1 * 32 * 4) ≤ windowBytes (cTbl .valid) := by
  refine ⟨?_, fun l _ _ => rfl, rfl, by decide, by decide, .inr (by decide +kernel), ?_, rfl, by decide +kernel⟩
  · intro st hs
    simp only [List.mem_cons, List.not_mem_nil, or_false] at hs
    rcases hs with rfl | rfl | rfl | rfl | rfl <;> exact accord_ready rfl (by decide +kernel)
  · rintro (h | h) <;> revert h <;> decide +kernel

theorem witness_LookupAndTiles_tiles :
    AccordReady (onC (crewOf w0)) (.ard (ef (lane (.v 0) .none .none .none))) 0 0 w0 (ef (lane (.v 0) .none .none .none)) (crewOf w0) 0 ∧
    AccordReady (onC (crewOf w0)) (.awr (ef (lane .none (.v 0) .none .none))) 0 0 w0 (ef (lane .none (.v 0) .none .none)) (crewOf w0) 0 ∧
    (∀ f ∈ [ef (group .none .none .none .none), { ef (lane .none .none .none .none) with ah := 127 }],
      AccordReady (onC (crewOf w0)) (.azro f) 0 0 w0 f (crewOf w0) 0 ∧ AccordReady (onC (crewOf w0)) (.arel f) 0 0 w0 f (crewOf w0) 0) ∧
    (let c : Crew := { crewOf w0 with shape := { harnessShape with accq := 0 } }
     AccordReady (onC c) (.azro (ef (group .none .none .none .none))) 0 0 w0 (ef (group .none .none .none .none)) c 0 ∧ ¬ mayBind c 0) := by
  refine ⟨accord_ready rfl (by decide +kernel), accord_ready rfl (by decide +kernel), ?_, accord_ready rfl (by decide +kernel), ?_⟩
  · intro f hf
    simp only [List.mem_cons, List.not_mem_nil, or_false] at hf
    rcases hf with rfl | rfl <;> exact ⟨accord_ready rfl (by decide +kernel), accord_ready rfl (by decide +kernel)⟩
  · rintro (h | h) <;> revert h <;> decide +kernel

/-- R213: `TINV` leaves the handle unbound. -/
theorem test_tinv : (match exec (.tinv (accG .none 0)) (onC (cTbl .stale)) with
    | .next t => (t.crew? 0).map fun c => (nthD c.tables 0 Tbl.unbound).state
    | _ => none) = some .unbound := by decide +kernel

/-- `TBLDS` of an invalid format and of a set that the table RAM cannot hold; the lane forms of `TSPILL`, `TFILL`, `PLNSET`,
whose scalar is that of the leading lane. -/
theorem witness_TableSets_lanes :
    AccordReady (onC (crewOf w0)) (.tblds (acc .zero 3)) 0 0 w0 (acc .zero 3) (crewOf w0) 0 ∧ badWord 3 ∧
    AccordReady (onC (cTbl .valid)) (.tblds { acc .zero 0x50 with th := 1 }) 0 0 w0 { acc .zero 0x50 with th := 1 } (cTbl .valid) 0 ∧
    ¬ badWord 0x50 ∧ (cTbl .valid).shape.tblkb < otherSets (cTbl .valid) 1 + kibOf 0x50 ∧
    (∀ st ∈ [TState.valid, .spilled], (let f : EForm := { ef (lane .none (.v 4) .none .none) with th := 0 }
      AccordReady (onC (cTbl st)) (.tspill f) 0 0 w0 f (cTbl st) 0)) ∧
    (∀ st ∈ [TState.valid, .spilled], AccordReady (onC (cTbl st)) (.tfill (ef (lane .none .none .none .none))) 0 0 w0
      (ef (lane .none .none .none .none)) (cTbl st) 0) ∧
    AccordReady (onC (crewOf w0)) (.plnset (ef (lane .none .zero .none .none))) 0 0 w0 (ef (lane .none .zero .none .none)) (crewOf w0) 0 ∧
    scalarOf w0 (ef (lane .none (.v 4) .none .none)) (.v 4) = 2 ∧ scalarOf w0 (accG .imm 9) .imm = 9 ∧
    actingOf w0 (lane .none .none .none .none) = BitVec.allOnes 32 := by
  refine ⟨accord_ready rfl (by decide +kernel), ?_, accord_ready rfl (by decide +kernel), ?_, by decide +kernel, ?_, ?_,
    accord_ready rfl (by decide +kernel), by decide +kernel, by decide +kernel, by decide +kernel⟩
  · unfold badWord; decide
  · unfold badWord; decide
  · intro st hs
    simp only [List.mem_cons, List.not_mem_nil, or_false] at hs
    rcases hs with rfl | rfl <;> exact accord_ready rfl (by decide +kernel)
  · intro st hs
    simp only [List.mem_cons, List.not_mem_nil, or_false] at hs
    rcases hs with rfl | rfl <;> exact accord_ready rfl (by decide +kernel)

/-! ## Witnesses: engines and dynamic work -/

/-- g0 to g7 as a descriptor: from 0x100 to 0x200, 64 bytes, completion word 9 at 0x300. -/
def wDesc : Weave := { w0 with g := [0x100, 0, 0x200, 0, 64, 0, 9, 0x300] ++ List.replicate 8 0, v := modNth w0.v 5 fun _ => .aff 0 64 }
/-- The same with a LEN, and a range beyond the window. -/
def wLen (n : Nat) : Weave := { wDesc with g := modNth (modNth wDesc.g 4 fun _ => BitVec.ofNat 32 n) 5 fun _ => BitVec.ofNat 32 (n / 2 ^ 32) }
def cpy : EForm := { ef (group (.g 8) (.g 0) .none .none) with ctl := 0x15 }
def cpyg : EForm := { ef (lane (.v 8) (.v 5) (.g 0) .none) with ctl := 0x15 }

theorem formed_of {w : Weave} (h : (decide (w.p.length = 16) && decide (nthD w.p 0 0 = BitVec.allOnes 32) && w.q.getLsbD 0 &&
    decide (w.b.length = 8) && decide (w.h.length = 16) && decide (w.hg.length = 16)) = true) : WeaveFormed w := by
  simp only [Bool.and_eq_true, decide_eq_true_eq] at h
  obtain ⟨⟨⟨⟨⟨h1, h2⟩, h3⟩, h4⟩, h5⟩, h6⟩ := h
  exact ⟨h1, h2, h3, h4, h5, h6⟩

theorem copy_ready {w : Weave} {i : Instr} {f : EForm} (hf : WeaveFormed w) (h : fits w i = true) :
    CopyReady (on w) i 0 0 w f (crewOf w) 0 where
  issues := issues_on h
  inv := inv_on hf
  crew := rfl
  unique := by intro x hx _; exact List.mem_singleton.mp hx
  alone := rfl
  place := rfl
  runs := rfl
  copies := rfl
  room := (by decide : (0 : Nat) < 64)
  log := (by decide : (0 : Nat) < 256)
  errors := ⟨rfl, rfl⟩

/-- 64 bytes inside the window; LEN beyond 2^40, 0, beyond 65536; a range that leaves the window. -/
theorem witness_Engines_copy :
    (∀ n ∈ [64, 2 ^ 40 + 1, 65535, 0], CopyReady (on (wLen n)) (.cpy cpy) 0 0 (wLen n) cpy (crewOf (wLen n)) 0 ∧
      CopyReady (on (wLen n)) (.cpyg cpyg) 0 0 (wLen n) cpyg (crewOf (wLen n)) 0 ∧
      CopyReady (on (wLen n)) (.cpys cpyg) 0 0 (wLen n) cpyg (crewOf (wLen n)) 0 ∧ descField (wLen n) (.g 0) 4 = n) ∧
    (∀ x ∈ [(cpy, [(0x100, 0x200, 64)]), (cpyg, [(0x100 + 31 * 64, 0x200 + 31 * 64, 64)])],
      copyFits (crewOf wDesc) x.2 (copyWord wDesc x.1 (.g 0))) ∧
    ¬ copyFits (crewOf wDesc) [(0x100, 0x200, 65535)] (copyWord wDesc cpy (.g 0)) ∧
    wordFits (crewOf (wLen 0)) (copyWord (wLen 0) cpy (.g 0)) ∧ ¬ wordFits (crewOf w0) (some (0x301, 9)) ∧
    w0.qPass cpy.hd = true ∧ w0.actors cpyg.hd ≠ 0 := by
  have fits (f : EForm) (hf : f ∈ [cpy, cpyg]) : copyWord wDesc f (.g 0) = some (0x300, 9) := by
    simp only [List.mem_cons, List.not_mem_nil, or_false] at hf; rcases hf with rfl | rfl <;> decide +kernel
  refine ⟨?_, ?_, ?_, ?_, ?_, by decide +kernel, by decide +kernel⟩
  · intro n hn
    simp only [List.mem_cons, List.not_mem_nil, or_false] at hn
    rcases hn with rfl | rfl | rfl | rfl <;>
      exact ⟨copy_ready (formed_of (by decide +kernel)) (by decide +kernel),
        copy_ready (formed_of (by decide +kernel)) (by decide +kernel),
        copy_ready (formed_of (by decide +kernel)) (by decide +kernel), by decide +kernel⟩
  · intro x hx
    have hw : copyWord wDesc x.1 (.g 0) = some (0x300, 9) := fits x.1 (by
      simp only [List.mem_cons, List.not_mem_nil, or_false] at hx ⊢; rcases hx with rfl | rfl <;> simp)
    rw [hw]
    refine ⟨fun r hr => ?_, fun y hy => ?_⟩
    · simp only [List.mem_cons, List.not_mem_nil, or_false] at hx
      rcases hx with rfl | rfl <;> obtain rfl := List.mem_singleton.mp hr <;> constructor <;> decide +kernel
    · obtain rfl := Option.some.inj hy
      constructor <;> decide +kernel
  · intro h
    have := (h.1 (0x100, 0x200, 65535) (by simp)).1
    revert this; decide +kernel
  · intro y hy
    have hw : copyWord (wLen 0) cpy (.g 0) = some (0x300, 9) := by decide +kernel
    rw [hw] at hy
    obtain rfl := Option.some.inj hy
    constructor <;> decide +kernel
  · intro h
    have := (h (0x301, 9) rfl).1
    revert this; decide

/-- Lane copies: no lane that writes; lane 31 past the window, and past the end of memory. -/
theorem witness_Engines_lanes : (let f : EForm := { cpyg with hd := { cpyg.hd with grd := 1 } }
    let off : Weave := { wDesc with p := modNth wDesc.p 1 fun _ => 0 }
    let far : Weave := { wDesc with g := modNth wDesc.g 4 fun _ => 4096 }
    let high : Weave := { wDesc with g := modNth (modNth wDesc.g 0 fun _ => 0xFFFFF801) 1 fun _ => 0xFFFFF }
    (∀ g : Bool, CopyReady (on off) (laneCopy g f) 0 0 off f (crewOf off) 0) ∧ off.actors f.hd = 0 ∧
      laneRun true far cpyg 31 = (0x100 + 31 * 64, 0x200 + 31 * 4096, 4096) ∧
      ¬ runFits (crewOf far) (laneRun true far cpyg 31) ∧ runFits (crewOf far) (laneRun true far cpyg 0) ∧
      2 ^ 52 < (laneRun true high cpyg 31).1 + 64 ∧ (laneRun true high cpyg 30).1 + 64 ≤ 2 ^ 52) := by
  refine ⟨fun g => ?_, by decide +kernel, by decide +kernel, fun h => ?_, ?_, by decide +kernel, by decide +kernel⟩
  · cases g <;> exact copy_ready (formed_of (by decide +kernel)) (by decide +kernel)
  · have := h.2; revert this; decide +kernel
  · constructor <;> decide +kernel

/-- A guard that fails for every guarded form. -/
theorem witness_Engines_guard : (let h : Head := { group (.g 8) .none (.g 1) .none with grd := 1 }
    guarded (.rpop (ef h)) (ef h) ∧ Issues (on w0) (.rpop (ef h)) 0 0 w0 ∧ w0.acts h = false ∧
    guarded (.cpy { cpy with hd := { cpy.hd with grd := 1 } }) { cpy with hd := { cpy.hd with grd := 1 } }) :=
  ⟨.inl (by decide), issues_on (by decide +kernel), by decide +kernel, .inr ⟨rfl, .inl rfl⟩⟩

/-- A copy in flight of ticket 3, which fails; a crew with tickets. -/
theorem witness_Engines_fail : (let c : Crew := { crewOf w0 with tickets := [(3, 0)], inflight := 1 }
    let s : State := { onC c with copies := [⟨5, 0, none, none, 0, 0, [], 0, .ticket 0 3 (some (0xFFFC, 9))⟩] }
    s.crew? 0 = some c ∧ (∀ y ∈ s.crews, y.cid = 0 → y = c) ∧ 0xFFFC + 4 ≤ windowBytes c ∧ assocGet c.tickets 3 = some 0 ∧
      (s.severity 0).getLsbD 3 = false) := by decide +kernel

theorem witness_Engines_status : Issues (on w0) (.cstat (ef (group (.g 8) (.g 2) .none .none))) 0 0 w0 ∧
    w0.qPass (group (.g 8) (.g 2) .none .none) = true ∧ w0.readG 0 (.g 0) = 0 ∧ w0.readG 0 (.g 2) = 5 :=
  ⟨issues_on (by decide +kernel), by decide +kernel, by decide +kernel, by decide +kernel⟩

/-- Selectors 255 and 256; a flip under way, with no copy in its group. -/
theorem witness_Engines_publish : (∀ x ∈ [255, 256], Issues (on w0) (.publ (accG .imm x)) 0 0 w0) ∧
    (let w : Weave := { w0 with wait := .publ 1 }
     let s : State := { on w with publs := [⟨1, 0, 0, 255⟩] }
     s.crew? 0 = some (crewOf w) ∧ s.weave? 0 0 = some w ∧ s.tenant? 0 = some harnessTenant ∧ s.copyInGroup 1 0 0 255 = false) := by
  refine ⟨?_, by decide +kernel⟩
  intro x hx
  simp only [List.mem_cons, List.not_mem_nil, or_false] at hx
  rcases hx with rfl | rfl <;> exact issues_on (by decide +kernel)

/-- Two ranks and one, a rank beyond them, no elements; a broadcast's root beyond them. -/
def coll (kind : BitVec 21) (root : Word) : EForm := { ef (group (.g 8) (.g 0) .none .imm) with ctl := kind + 8, imm := root }
def wColl (count rank n : Word) : Weave := { w0 with g := [0x1000, 0, 0x1000, 0, count, rank, n, 0] ++ List.replicate 8 0 }
theorem witness_Engines_collective :
    (∀ x ∈ [(16, 0, 1), (16, 1, 2), (0, 1, 2), (16, 2, 2)], Issues (on (wColl x.1 x.2.1 x.2.2)) (.coll (coll 1 0)) 0 0 (wColl x.1 x.2.1 x.2.2)) ∧
    Issues (on (wColl 16 0 1)) (.coll (coll 3 1)) 0 0 (wColl 16 0 1) ∧ (crewOf w0).inflight < 64 ∧ (crewOf w0).tickets.length < 256 ∧
    (on w0).colls = [] := by
  refine ⟨?_, issues_on (by decide +kernel), by decide, by decide, rfl⟩
  intro x hx
  simp only [List.mem_cons, List.not_mem_nil, or_false] at hx
  rcases hx with rfl | rfl | rfl | rfl <;> exact issues_on (by decide +kernel)

/-- A collective of one rank, its reads and its writes. -/
theorem witness_Engines_result : (let p : Part := ⟨0, 1, 0, 0, 1, 0, 0x1000, 0x2000, 4, 0, 1, 0⟩
    ([List.replicate 16 (0 : Byte)].length = p.n ∧ p.rank < p.n ∧ p.root < p.n ∧ p.op < 3 ∧ p.reads * p.block = 16) ∧
    (let x : Coll := ⟨7, 0, 0, [p], false, true, 0⟩
     let s : State := { on w0 with colls := [x] }
     s.launch? x.lid = some harnessLaunch ∧ s.tenantRuns 0 = true ∧ (s.resolveColl 0 x).2.1 = .go ∧ (s.resolveColl 0 x).1.dlen 0 = false ∧
      (∃ src, (s.resolveColl 0 x).1.collSources 0 x.ranks = .ok src ∧ src = [List.replicate 16 0]) ∧
      (∃ ws, (s.resolveColl 0 x).1.collWrites 0 [List.replicate 16 0] x.ranks = .ok ws ∧ ws.length = 16))) := by
  refine ⟨by decide, rfl, by decide +kernel, by decide +kernel, by decide +kernel, ⟨_, ?_, rfl⟩, ?_⟩
  · decide +kernel
  · refine ⟨(List.range 16).map fun j => (.hbm (0x202000 + j), 0), by decide +kernel, by decide⟩

/-- An ENTRY at 0x1000 in g4:g5; odd, and beyond 52 bits. -/
theorem witness_DynamicWork_emit :
    (∀ x ∈ [0x1000, 0x1008, 2 ^ 52], Issues (on (wG w0 x)) (.emit (ef (lane .none (.v 4) (.g 4) .none))) 0 0 (wG w0 x) ∧
      ((wG w0 x).wideLane 0 false (.g 4) 0).toNat = x) ∧
    (on w0).launch? (crewOf w0).lid = some harnessLaunch ∧ isVector (.v 4) = true ∧
    (harnessLaunch.putRecords 0 0 ((emitters w0 (ef (lane .none (.v 4) (.g 4) .none))).map
      (emitted (wG w0 0x1000) (ef (lane .none (.v 4) (.g 4) .none))))).isSome = true ∧
    (let l : Launch := { harnessLaunch with bins := [⟨0, 0, 0x1000, List.replicate 64 [], 0⟩] }
     l.putRecords 0 0 [(0x1000, [])] = none ∧ (l.bins.map fun b => (b.die, b.entry)).Nodup ∧ (l.putRecord 0 0 0x2000 []).isSome = true) := by
  refine ⟨?_, rfl, rfl, by decide +kernel, by decide +kernel⟩
  intro x hx
  simp only [List.mem_cons, List.not_mem_nil, or_false] at hx
  rcases hx with rfl | rfl | rfl <;> exact ⟨issues_on (by decide +kernel), by decide +kernel⟩

/-- A bin that is 2 µs old, the one unit that waits on its die. -/
theorem witness_DynamicWork_release : (let b : Bin := ⟨0, 63, 0x1000, [[1, 2, 3, 4, 5, 6]], 0⟩
    let l : Launch := { harnessLaunch with bins := [b], recDie := some 0 }
    let s : State := { on w0 with launches := [l], now := 2000, crews := [] }
    let x : Item := ⟨l, l.lrec.prio, l.startSeq, 2 ^ 64, .bin 63⟩
    s.launch? l.lid = some l ∧ (s.die 0).accepts = true ∧ s.limitReached l = false ∧ b.recs ≠ [] ∧
      l.bins.find? (fun x => x.die == 0 && x.bin == 63) = some b ∧ s.binDue l b = true ∧ s.waiting 0 = [x] ∧ s.gangRes = [] ∧
      (s.bestCore [] 0 (s.itemNeed x)).isSome = true) := by decide +kernel

/-- An active queue of the owner with room, a full one, another owner's. -/
def aQueue (owner head tail : Nat) : Queue :=
  { q := 5, owner := owner, ctx := 1, state := .active, descVa := 0x1000, ring := 0x2000, log2n := 4, dsig := 0, tail := tail, head := head,
    res := tail, errIdx := 0, errCause := .noCause, ready := [], started := [], reading := 0, fault := none, halted := false }
theorem witness_DynamicWork_enq : (∀ q ∈ [aQueue 0 0 15, aQueue 0 0 16, aQueue 1 0 0],
      let s : State := { on w0 with queues := [q] }
      s.queue? 5 = some q ∧ Issues s (.enq (ef (group .none (.g 0) (.g 2) .none))) 0 0 w0) ∧
    (on w0).deviceRange 0 ((0x2000 + 64 * (15 % 2 ^ 4)) % 2 ^ 52) 64 true = none ∧ (on w0).queue? 5 = none := by
  refine ⟨?_, by decide +kernel, rfl⟩
  intro q hq
  simp only [List.mem_cons, List.not_mem_nil, or_false] at hq
  rcases hq with rfl | rfl | rfl <;> exact ⟨by decide +kernel, issues_of rfl rfl rfl (by decide +kernel)⟩

/-- A range of 5 taken by 8 with no victim; an empty one with a victim of 6. -/
theorem witness_DynamicWork_range :
    (let c : Crew := { crewOf w0 with lo := 10, hi := 15 }
     Issues (onC c) (.rtake { ef (group (.g 8) .none .imm .none) with imm := 8 }) 0 0 w0 ∧ c.lo ≠ c.hi) ∧
    (let v : Crew := { crewOf w0 with cid := 1, lo := 10, hi := 16 }
     let s : State := { on w0 with crews := [crewOf w0, v] }
     Issues s (.rtake { ef (group (.g 8) .none .imm .none) with imm := 8 }) 0 0 w0 ∧ (crewOf w0).lo = (crewOf w0).hi ∧ v.lid = (crewOf w0).lid ∧
      v.place = .resident 0 ∧ v.lo.toNat + 2 ≤ v.hi.toNat) ∧
    Issues (on w0) (.rsplit (ef (group .none (.g 2) (.g 4) .none))) 0 0 w0 :=
  ⟨⟨issues_of rfl rfl rfl (by decide +kernel), by decide⟩, ⟨issues_of rfl rfl rfl (by decide +kernel), rfl, rfl, rfl, by decide +kernel⟩,
   issues_on (by decide +kernel)⟩

/-- A stage crew with an output ring of channel 3, rate 2: empty, full, busy; and one with an input ring. -/
def aRing (input : Bool) (cnt recs : Nat) (busy : Bool) : Ring :=
  { chan := 3, input := input, rate := 2, rlog2 := 4, base := 0x1000, cnt := cnt, h0 := ⟨0, recs, busy⟩, h1 := ⟨1, 0, false⟩ }
def cStage (r : Ring) : Crew := { crewOf w0 with stage := some (0, 0, 0, 1), rings := [r] }
theorem witness_DynamicWork_channels :
    (∀ c ∈ [crewOf w0, cStage (aRing false 0 0 false), cStage (aRing false 2 0 false), cStage (aRing false 1 0 true),
        cStage (aRing true 0 1 false), cStage (aRing true 1 1 false)],
      (onC c).crew? 0 = some c ∧ Issues (onC c) (.rpop { ef (group (.g 8) .none .imm .none) with imm := 3 }) 0 0 w0 ∧
        Issues (onC c) (.rpush { ef (group (.g 8) .none .imm .none) with imm := 3 }) 0 0 w0 ∧
        Issues (onC c) (.rdone (ef (lane .none .none .none .none))) 0 0 w0) ∧
    (crewOf w0).stage = none ∧ (cStage (aRing false 2 0 false)).rings = [aRing false 2 0 false] := by
  refine ⟨?_, rfl, rfl⟩
  intro c hc
  simp only [List.mem_cons, List.not_mem_nil, or_false] at hc
  rcases hc with rfl | rfl | rfl | rfl | rfl | rfl <;>
    exact ⟨rfl, issues_of rfl rfl rfl (by decide +kernel), issues_of rfl rfl rfl (by decide +kernel), issues_of rfl rfl rfl (by decide +kernel)⟩

theorem witness_Engines_never : (let f : EForm := { cpyg with hd := { cpyg.hd with neg := true } }
    (∀ i ∈ [Instr.cpyg f, .cpys f], Issues (on wDesc) i 0 0 wDesc) ∧ f.hd.grp = false ∧ f.hd.grd = 0 ∧ f.hd.neg = true) :=
  ⟨issues_all (by decide +kernel), rfl, rfl, rfl⟩

/-- A copy from memory to scratch, from scratch to a commons slice, and each of them past an end. -/
theorem witness_Engines_spaces :
    (∀ ctl ∈ [4, 9, 2], (let f : EForm := { cpy with ctl := ctl }
      CopyReady (on wDesc) (.cpy f) 0 0 wDesc f (crewOf wDesc) 0 ∧ f.hd.grp = true ∧ wDesc.qPass f.hd = true ∧ f.ctl.getLsbD 4 = false)) ∧
    (on wDesc).tenant? (crewOf wDesc).owner = some harnessTenant ∧ (descField wDesc (.g 0) 0 = 0x100 ∧ descField wDesc (.g 0) 2 = 0x200 ∧
      descField wDesc (.g 0) 4 = 64) ∧
    ((4 : BitVec 21).toNat % 4 = 0 ∧ (4 : BitVec 21).toNat / 4 % 4 = 1 ∧ (9 : BitVec 21).toNat % 4 = 1 ∧ (9 : BitVec 21).toNat / 4 % 4 = 2) ∧
    (∀ sp < 3, ¬ pastSpace (crewOf wDesc) 1 sp 0x100 64) ∧ pastSpace (crewOf wDesc) 1 0 (2 ^ 52 - 63) 64 ∧
    ¬ pastSpace (crewOf wDesc) 1 0 (2 ^ 52 - 64) 64 ∧ pastSpace (crewOf wDesc) 1 1 65473 64 ∧ pastSpace (crewOf wDesc) 1 2 (2 ^ 20 - 63) 64 ∧
    pastSpace (crewOf wDesc) 1 2 (2 ^ 28) 64 := by
  refine ⟨?_, rfl, by decide +kernel, by decide, ?_, ?_, ?_, ?_, ?_, ?_⟩
  · intro ctl hc
    simp only [List.mem_cons, List.not_mem_nil, or_false] at hc
    rcases hc with rfl | rfl | rfl <;> exact ⟨copy_ready (formed_of (by decide +kernel)) (by decide +kernel), rfl, by decide +kernel, by decide⟩
  all_goals unfold pastSpace; decide +kernel

/-- A copy of 64 bytes from VA 0x100 to scratch 0x200 that is in flight, its page used. -/
def cCopy : Crew := { crewOf w0 with tickets := [(3, 0)], inflight := 1 }
def sCopy : State :=
  { onC cCopy with hbm := Memory.writeN (onC cCopy).hbm 0x132007 [4],
                   copies := [⟨5, 0, none, none, 0, 0, [⟨.glb 0x100, .scr 0 0x200, 64⟩], 0, .ticket 0 3 none⟩] }
theorem witness_Engines_moves : (let x : Copy := ⟨5, 0, none, none, 0, 0, [⟨.glb 0x100, .scr 0 0x200, 64⟩], 0, .ticket 0 3 none⟩
    sCopy.copies = [x] ∧ sCopy.tenantRuns 0 = true ∧ (sCopy.resolveCopy x x.segs).1 = sCopy ∧ (sCopy.resolveCopy x x.segs).2.1 = .go ∧
      sCopy.dlen 0 = false ∧ noErrors sCopy ∧ sCopy.env.soft = [] ∧ sCopy.crew? 0 = some cCopy ∧ assocGet cCopy.tickets 3 = some 0 ∧
      (∃ srcs, sCopy.enginePlaces 0 false (.glb 0x100) 64 = .ok srcs ∧ srcs.length = 64) ∧
      (∃ dsts, sCopy.enginePlaces 0 true (.scr 0 0x200) 64 = .ok dsts ∧ dsts.length = 64 ∧ dsts.Nodup)) := by
  refine ⟨rfl, rfl, ?_, by decide +kernel, by decide +kernel, ⟨rfl, rfl⟩, rfl, rfl, rfl, ?_, ?_⟩
  · set_option maxRecDepth 10000 in rfl
  · exact ⟨(List.range 64).map fun j => .hbm (0x200100 + j), by decide +kernel, by decide⟩
  · exact ⟨(List.range 64).map fun j => .scratch 0 (0x200 + j), by decide +kernel, by decide, by decide +kernel⟩

/-- A PUBL behind an earlier copy into its group, which the leaf of page 0 names. -/
theorem witness_Engines_flip_waits : (let w : Weave := { w0 with wait := .publ 9 }
    let s : State := { on w with publs := [⟨9, 0, 0, 7⟩], copies := [⟨5, 0, none, none, 0, 0, [⟨.scr 0 0, .glb 0x40, 64⟩], 0, .ticket 0 3 none⟩] }
    let s : State := { s with hbm := Memory.writeN s.hbm 0x132000 (bytesLE 8 (0x200000 + 0x1F + 2 ^ 56 + 7 * 2 ^ 48)) }
    s.crew? 0 = some (crewOf w) ∧ s.weave? 0 0 = some w ∧ s.copyInGroup 9 0 0 7 = true) := by decide +kernel

/-- R360: RTAKE of 8 from [10, 15) gives 10 and 5. -/
theorem test_rtake : (match exec (.rtake { ef (group (.g 8) .none .imm .none) with imm := 8 }) (onC { crewOf w0 with lo := 10, hi := 15 }) with
    | .next t => (t.weave? 0 0).map fun w => (w.readG 0 (.g 8), w.readG 0 (.g 9), w.readG 0 (.g 10))
    | _ => none) = some (10, 0, 5) := by decide +kernel
/-- R361: the record of a push is at the ring's base. -/
theorem test_rpush : (match exec (.rpush { ef (group (.g 8) .none .imm .none) with imm := 3 }) (onC (cStage (aRing false 1 0 false))) with
    | .next t => (t.weave? 0 0).map fun w => w.readG 0 (.g 8)
    | _ => none) = some 0x1010 := by decide +kernel

/-! ## Witnesses: hosts, queues, packets -/

theorem walkFrom_page (s : State) (owner part : Nat) {a b : Nat} (h : a / 2 ^ 16 = b / 2 ^ 16) :
    ∀ fuel level table, walkFrom s owner part a fuel level table = walkFrom s owner part b fuel level table := by
  have hi : ∀ level, walkIndex level a = walkIndex level b := by
    intro level
    have e (x k : Nat) : x / 2 ^ (16 + k) = x / 2 ^ 16 / 2 ^ k := by rw [pow_add, Nat.div_div_eq_div_mul]
    match level with
    | 0 => simp only [walkIndex, show 39 = 16 + 23 from rfl, e, h]
    | 1 => simp only [walkIndex, show 30 = 16 + 14 from rfl, e, h]
    | 2 => simp only [walkIndex, show 21 = 16 + 5 from rfl, e, h]
    | _ + 3 => simp only [walkIndex, h]
  intro fuel
  induction fuel with
  | zero => intro level table; rfl
  | succ n ih => intro level table; simp only [walkFrom, hi, ih]

theorem walk_page {s : State} {owner a b : Nat} (h : a / 2 ^ 16 = b / 2 ^ 16) : s.walk owner a = s.walk owner b := by
  unfold State.walk
  cases s.tenant? owner with
  | none => rfl
  | some t => exact walkFrom_page s owner t.part h 4 0 t.root

def aLeaf : Leaf := ⟨0x200000, 0, true, true, true, 0, false, false, 0⟩

/-- A VA of a page with that leaf is a place of its frame. -/
theorem pa_of {s : State} {owner va e : Nat} (h : s.walk owner va = .leaf aLeaf e) (write : Bool) (x : Nat) (hx : x / 2 ^ 16 = va / 2 ^ 16) :
    s.devicePa owner x write = .ok (0x200000 + x % 65536) := by
  have hb : paBacked (0x200000 + x % 65536) = true := by
    simp only [paBacked, Bool.and_eq_true, decide_eq_true_eq]; omega
  unfold State.devicePa
  rw [walk_page hx, h]
  cases ht : s.tenant? owner with
  | none => simp [State.walk, ht] at h
  | some t =>
    have hl : leafPa aLeaf t.shadow x false = 0x200000 + x % 65536 := rfl
    simp only [hl, hb]
    cases write <;> rfl

/-- A range inside a page whose leaf permits the access and has been used. -/
theorem held_of {s : State} {owner va n : Nat} {write : Bool} {e : Nat} (h1 : s.walk owner va = .leaf aLeaf e)
    (h2 : ((s.hbmByte owner (e + 7)).getLsbD 2 && decide (va % 65536 + n ≤ 65536) &&
      decide (va + n ≤ 2 ^ 52)) = true) : Held s owner va n write := by
  simp only [Bool.and_eq_true, decide_eq_true_eq] at h2
  obtain ⟨⟨h3, h4⟩, h5⟩ := h2
  intro k hk
  refine ⟨aLeaf, e, _, ?_, pa_of h1 write _ (by omega), h3⟩
  rw [← h1]
  exact walk_page (by omega)

/-- What the device reads inside that page. -/
theorem read_of {s : State} {owner va n e : Nat} (hu : s.ueHbm = []) (h1 : s.walk owner va = .leaf aLeaf e)
    (h2 : (decide (0 < n) && decide (va % 65536 + n ≤ 65536) && decide (va + n ≤ 2 ^ 52)) = true) :
    s.deviceRead owner va n = .ok (s.hbmBytes owner (0x200000 + va % 65536) n) := by
  simp only [Bool.and_eq_true, decide_eq_true_eq] at h2
  obtain ⟨⟨h0, h2⟩, h3⟩ := h2
  have pa := pa_of h1 false
  have hr : s.deviceRange owner va n false = none := by
    unfold State.deviceRange
    rw [if_neg (by omega)]
    simp only [show (va + n - 1) / 2 ^ 16 - va / 2 ^ 16 + 1 = 1 by omega, List.range_one, List.findSome?_cons, List.findSome?_nil]
    rw [pa _ (by omega)]
  have hd : s.deviceUe owner va n false = false := by simp [State.deviceUe, hu]
  unfold State.deviceRead
  rw [hr]
  simp only [hd, Bool.false_eq_true, if_false, State.hbmBytes, State.deviceBytes, Except.ok.injEq]
  refine List.map_congr_left fun i hi => ?_
  rw [List.mem_range] at hi
  rw [pa _ (by omega)]
  simp only
  congr 1
  omega

theorem reads {s : State} {va n e : Nat} {bs : List Byte} (h1 : s.walk 0 va = .leaf aLeaf e)
    (h2 : (decide (0 < n) && decide (va % 65536 + n ≤ 65536) && decide (va + n ≤ 2 ^ 52)) = true) (hu : s.ueHbm = [])
    (h : s.hbmBytes 0 (0x200000 + va % 65536) n = bs) : s.deviceRead 0 va n = .ok bs := by rw [read_of hu h1 h2, h]

/-- Bytes in the one page that is mapped, VA 0 at PA 0x200000; its entry has been used. -/
def pageMem (mem : List (Nat × List Byte)) : Memory :=
  mem.foldl (fun m x => Memory.writeN m (0x200000 + x.1) x.2) (Memory.writeN (on w0).hbm 0x132007 [4])
def aCtx (wm : Nat) (keys : List Key) : Ctx := { Ctx.management with id := 1, owner := 0, tss := .named 5, keys := keys, wm := wm }
def sHost (mem : List (Nat × List Byte)) (q : List Queue) : State :=
  { on w0 with hbm := pageMem mem, ctxs := [Ctx.management, aCtx 0 [⟨2, 0x1000, 0x1000, true, true⟩]], queues := q, now := 7 }

theorem inv_host {mem : List (Nat × List Byte)} {q : List Queue} (h : Memory.wf (pageMem mem)) : Inv (sHost mem q) where
  hbm := h
  mailbox := (inv_on formed_w0).mailbox
  scratch := (inv_on formed_w0).scratch
  commons := (inv_on formed_w0).commons
  dies := by rfl
  cores := (inv_on formed_w0).cores
  welt := by rfl
  ports := by rfl
  links := by rfl
  weaves := (inv_on formed_w0).weaves
  flights := by intro f hf; cases hf

def m0 : Msg := ⟨0, 0, 0, .boot, true⟩
def m1 : Msg := ⟨0, 1, 0, .named 5, true⟩

theorem witness_HostAccess :
    FromHost (sHost [] []) m1 (aCtx 0 [⟨2, 0x1000, 0x1000, true, true⟩]) ∧ FromHost (sHost [] []) m0 Ctx.management ∧ Inv (sHost [] []) ∧ noErrors (sHost [] []) ∧
    -- a message behind the watermark's
    ((sHost [] []).ctx? m1.ctx = some (aCtx 0 [⟨2, 0x1000, 0x1000, true, true⟩]) ∧ (aCtx 0 []).wm < ({ m1 with msn := 1 } : Msg).msn ∧
      ordered m1 (.qcmdCreate m1 0) ∧ ordered m1 (.pageRequestAnswer m1 3 ((0 : DWord).toNat))) ∧
    -- no such key; a range beyond one; the key's last byte
    ((aCtx 0 [⟨2, 0x1000, 0x1000, true, true⟩]).keyOf 3 = none ∧ (aCtx 0 [⟨2, 0x1000, 0x1000, true, true⟩]).keyOf 2 = some ⟨2, 0x1000, 0x1000, true, true⟩ ∧
      Key.admits ⟨2, 0x1000, 0x1000, true, true⟩ 0xFFF 2 true = false ∧ Key.admits ⟨2, 0x1000, 0x1000, true, true⟩ 0xFFF 1 true = true ∧
      Key.admits ⟨2, 0x1000, 0x1000, true, true⟩ 0xFFF 1 false = true) ∧
    -- mapped, and not
    ((sHost [] []).deviceRange 0 0x1FFF 1 true = none ∧
      (State.markUsed (sHost [] []) 0 0x1FFF 1).devicePa 0 (0x1FFF % 2 ^ 52) true = .ok 0x201FFF ∧
      (sHost [] []).deviceRange 0 0x10000 1 true ≠ none ∧ (sHost [] []).deviceRead 0 0x1FFF 1 = .ok [0]) ∧
    -- ECLR and RQCONS of the error-control block at 0
    (touches 15 1 (0 + 8) = true ∧ touches 16 1 (0 + 8) = false ∧ touches 88 8 (0 + 8 * 11) = true) := by
  refine ⟨⟨rfl, ⟨rfl, by decide⟩, .inl rfl⟩, ⟨rfl, ⟨rfl, by decide⟩, .inl rfl⟩, inv_host (by decide +kernel), ⟨rfl, rfl⟩, ⟨rfl, by decide, ⟨0, 0, 0, by simp⟩, ⟨0, 0, 3, by simp⟩⟩,
    by decide +kernel, by decide +kernel, by decide +kernel⟩

/-- Queue 5 of tenant 0, in a state. -/
def qIn (st : QState) : Queue := { aQueue 0 0 0 with state := st }
def aStarted (bits : BitVec 512) : Started := ⟨⟨9, bits⟩, [], false, false, 0, none⟩

/-- Every state of a queue under every command; a CMD of 4; a queue of another owner and one never granted. -/
theorem witness_Queues_commands :
    (∀ st ∈ [QState.free, .active, .aborted, .error, .draining], (sHost [] [qIn st]).queue? (cmdQueue 0x1005) = some (qIn st) ∧
      (qIn st).owner = (aCtx 0 []).owner) ∧ (sHost [] []).covered m1 = true ∧
    (cmdQueue 0x1005 = 5 ∧ cmdCode 0x1005 = 1 ∧ cmdCode 0x2005 = 2 ∧ cmdCode 0x3005 = 3 ∧ cmdCode 0x4005 = 4) ∧
    (bitsOf (0x1005 : DWord).toNat 62 2 = 0 ∧ bitsOf (0x1005 : DWord).toNat 10 2 = 0 ∧ bitsOf (0x1405 : DWord).toNat 10 2 ≠ 0) ∧
    ((sHost [] []).queue? 5 = none ∧ (sHost [] [aQueue 1 0 0]).queue? 5 = some (aQueue 1 0 0) ∧ (aQueue 1 0 0).owner ≠ (aCtx 0 []).owner) ∧
    -- DESTROY with nothing started, and with a WAITSIG started
    (qIn .active).started = [] ∧ (let q : Queue := { qIn .active with started := [aStarted 2] }
      q.started ≠ [] ∧ (q.started.map fun p => p.pkt.idx).Nodup ∧ (aStarted 2).posted = false ∧ (aStarted 2).pkt.ty = 2) ∧
    (qIn .error).ready = [] := by
  refine ⟨?_, rfl, by decide, by decide, ⟨rfl, rfl, by decide⟩, rfl, by decide +kernel, rfl⟩
  intro st hs
  simp only [List.mem_cons, List.not_mem_nil, or_false] at hs
  rcases hs with rfl | rfl | rfl | rfl | rfl <;> exact ⟨by decide +kernel, rfl⟩

/-- A queue descriptor at VA 0x40: RING 0x2000 and LOG2N 4, its limits 4 and 16; 3, 17 and an unaligned ring are bad. -/
def aDesc (ring log2n : Nat) : List Byte := bytesLE 8 ring ++ bytesLE 8 log2n ++ List.replicate 48 0
theorem witness_Queues_descriptor :
    (∀ x ∈ [(0x2000, 4), (0x400000, 16)], ∃ bs, (sHost [(0x40, aDesc x.1 x.2)] [qIn .free]).deviceRead 0 0x40 64 = .ok bs ∧
      4 ≤ bitsOf (natLE bs) 64 8 ∧ bitsOf (natLE bs) 64 8 ≤ 16 ∧ bitsOf (natLE bs) 0 64 % (64 * 2 ^ bitsOf (natLE bs) 64 8) = 0 ∧
      bitsOf (natLE bs) 0 64 < 2 ^ 52 ∧ bitsOf (natLE bs) 256 64 = 0) ∧
    (∀ x ∈ [(0x2000, 3), (0x400000, 17), (0x2040, 4)], ∃ bs, (sHost [(0x40, aDesc x.1 x.2)] [qIn .free]).deviceRead 0 0x40 64 = .ok bs ∧
      ¬ (4 ≤ bitsOf (natLE bs) 64 8 ∧ bitsOf (natLE bs) 64 8 ≤ 16 ∧ bitsOf (natLE bs) 0 64 % (64 * 2 ^ bitsOf (natLE bs) 64 8) = 0)) ∧
    bitsOf (0x10000 * 1 + 0x1005 : Nat) 16 46 * 64 = 0x40 := by
  refine ⟨?_, ?_, by decide⟩ <;>
  · intro x hx
    refine ⟨aDesc x.1 x.2, reads (e := 0x132000) ?_ rfl rfl ?_, ?_⟩ <;> revert x <;> decide +kernel

/-- A queue of 16 slots with HEAD 1 and TAIL 2: doorbells of 2, 3, 17 and 18. -/
theorem witness_Queues_doorbells : (let q := aQueue 0 1 2
    (sHost [] [q]).queue? 5 = some q ∧ (2 : DWord).toNat ≤ q.tail ∧ (q.tail < (3 : DWord).toNat ∧ q.res < (3 : DWord).toNat) ∧
      (17 : DWord).toNat ≤ q.head + 2 ^ q.log2n ∧ q.head + 2 ^ q.log2n < (18 : DWord).toNat ∧ (sHost [] [q]).serves q = true ∧
      q.reading = 0 ∧ q.owner = (aCtx 0 []).owner ∧ q.state = .active) := by decide +kernel

/-- A NOTE packet to VA 0x3000, and a packet of TYPE 9; a ring that no page maps. -/
def aNote : List Byte := bytesLE 8 5 ++ bytesLE 8 0 ++ bytesLE 8 0x3000 ++ bytesLE 8 77 ++ bytesLE 8 1 ++ List.replicate 24 0
theorem witness_Queues_reads : (let q : Queue := { aQueue 0 1 2 with reading := 1 }
    let at_ := (q.ring + 64 * (q.head % 2 ^ q.log2n)) % 2 ^ 52
    (sHost [] [q]).queue? 5 = some q ∧ (sHost [] [q]).serves q = true ∧ q.ready = [] ∧ q.started = [] ∧
      (sHost [(0x2040, aNote)] [q]).deviceRead 0 at_ 64 = .ok aNote ∧ Packet.valid ⟨1, BitVec.ofNat 512 (natLE aNote)⟩ = true ∧
      Packet.valid ⟨1, 9⟩ = false ∧ (sHost [(0x2040, [9])] [q]).deviceRead 0 at_ 64 = .ok (bytesLE 64 9) ∧
      ∃ e, (sHost [] [q]).deviceRead 0 ((0x20000 + 64 * (q.head % 2 ^ q.log2n)) % 2 ^ 52) 64 = .error e) := by
  refine ⟨by decide +kernel, by decide +kernel, rfl, rfl, reads (e := 0x132000) ?_ rfl rfl ?_, by decide +kernel, by decide +kernel,
    reads (e := 0x132000) ?_ rfl rfl ?_, .pageNotPresent, by decide +kernel⟩ <;> decide +kernel

/-- Queue 5 with one started packet, of index 9. -/
def qWith (bs : List Byte) : Queue := { aQueue 0 9 9 with started := [aStarted (BitVec.ofNat 512 (natLE bs))] }
theorem opens_packet {mem : List (Nat × List Byte)} (bs : List Byte) :
    OpensPacket (sHost mem [qWith bs]) 5 9 (qWith bs) ⟨9, BitVec.ofNat 512 (natLE bs)⟩ :=
  ⟨rfl, aStarted (BitVec.ofNat 512 (natLE bs)), by simp [qWith, aStarted], rfl, rfl⟩

theorem witness_Packets_end : (sHost [] [qWith aNote]).queue? 5 = some (qWith aNote) ∧
    (qWith aNote).started = [aStarted (BitVec.ofNat 512 (natLE aNote))] ∧ (qWith aNote).ready = [] ∧ (qWith aNote).state = .active ∧
    Packet.csig ⟨9, BitVec.ofNat 512 (natLE aNote)⟩ = 0 ∧
    (Packet.csig ⟨9, BitVec.ofNat 512 (2 ^ 127)⟩).getLsbD 63 = true ∧
    (let s : State := { sHost [] [] with tenants := [{ harnessTenant with peers := [(0, 0, 0)] }] }
     s.peerKnown 0 (Packet.csig ⟨9, BitVec.ofNat 512 (2 ^ 127)⟩) = true) ∧ Packet.aoe ⟨9, 0x200⟩ = true := by
  refine ⟨rfl, rfl, rfl, rfl, by decide +kernel, by decide +kernel, by decide +kernel, by decide +kernel⟩

/-- A launch record at 0x40: `n` threads, 16 registers of each kind, HOMEARG 0xFF; with 0x1FE scratch KiB refused, and one
of 1024 threads with 640 registers that no core holds. -/
def aLrec (n regs : Nat) : List Byte :=
  bytesLE 64 (1 + n * 2 ^ 16 + 0xFF * 2 ^ 40 + 0x100 * 2 ^ 192 + regs * 2 ^ 320 + 16 * 2 ^ 352)
def aLaunchPacket : List Byte := bytesLE 8 1 ++ bytesLE 8 0 ++ bytesLE 8 0x40 ++ bytesLE 8 0x3000 ++ bytesLE 8 3 ++ List.replicate 24 0

theorem witness_Packets_launch :
    (∀ r ∈ [aLrec 32 16, aLrec 0 16, aLrec 1024 640, aLrec 1025 16],
      OpensPacket (sHost [(0x40, r)] [qWith aLaunchPacket]) 5 9 (qWith aLaunchPacket) ⟨9, BitVec.ofNat 512 (natLE aLaunchPacket)⟩ ∧
      Held (sHost [(0x40, r)] [qWith aLaunchPacket]) 0 (Packet.word ⟨9, BitVec.ofNat 512 (natLE aLaunchPacket)⟩ 2) 64 false ∧
      (sHost [(0x40, r)] [qWith aLaunchPacket]).deviceRead 0 (Packet.word ⟨9, BitVec.ofNat 512 (natLE aLaunchPacket)⟩ 2) 64 = .ok r) ∧
    (∀ l ∈ (sHost [] []).launches, l.kind ≠ .packet 5 9) ∧
    (lrecOk (natLE (aLrec 32 16)) = true ∧ lrecOk (natLE (aLrec 1024 640)) = true ∧ lrecOk (natLE (aLrec 0 16)) = false ∧
      lrecOk (natLE (aLrec 1025 16)) = false ∧ (lrecOf (natLE (aLrec 32 16))).homearg = 0xFF ∧
      (lrecOf (natLE (aLrec 1024 640))).homearg = 0xFF) ∧
    (sHost [] []).possible (Launch.start 0 0 0 (.packet 5 9) (lrecOf (natLE (aLrec 32 16))) 0x40 0x3000 none []) = true ∧
    (sHost [] []).possible (Launch.start 0 0 0 (.packet 5 9) (lrecOf (natLE (aLrec 1024 640))) 0x40 0x3000 none []) = false := by
  refine ⟨?_, by decide, by decide +kernel, by decide +kernel, by decide +kernel⟩
  intro r hr
  refine ⟨opens_packet _, held_of (e := 0x132000) ?_ ?_, reads (e := 0x132000) ?_ ?_ rfl ?_⟩ <;> revert r <;> decide +kernel

/-- A WAITSIG on a local signal at 0x80: 3, 0, −1; on one in a page that does not exist; copies of 64 bytes and of none. -/
def aWaitsig (ref : Nat) : List Byte := bytesLE 8 2 ++ bytesLE 8 0 ++ bytesLE 8 ref ++ List.replicate 32 0 ++ bytesLE 8 1
def aCopy (n : Nat) : List Byte := bytesLE 8 3 ++ bytesLE 8 0 ++ bytesLE 8 0x100 ++ bytesLE 8 0x200 ++ bytesLE 8 n ++ List.replicate 24 0
theorem witness_Packets_signal :
    OpensPacket (sHost [] [qWith (aWaitsig 0x80)]) 5 9 (qWith (aWaitsig 0x80)) ⟨9, BitVec.ofNat 512 (natLE (aWaitsig 0x80))⟩ ∧
    (Packet.sigs ⟨9, BitVec.ofNat 512 (natLE (aWaitsig 0x80))⟩).eraseDups = [0x80] ∧ (0x80 : DWord).getLsbD 63 = false ∧
    (qWith (aWaitsig 0x80)).started.find? (fun x => x.pkt.idx == 9) = some (aStarted (BitVec.ofNat 512 (natLE (aWaitsig 0x80)))) ∧
    (sHost [(0x80, [3])] []).sigValue 0 0x80 = some 3 ∧ (sHost [] []).sigValue 0 0x80 = some 0 ∧
    (∃ v, (sHost [(0x80, List.replicate 8 255)] []).sigValue 0 0x80 = some v ∧ v < 0) ∧ (sHost [] []).sigValue 0 0x10000 = none := by
  refine ⟨opens_packet _, by decide +kernel, by decide, by decide +kernel, by decide +kernel, by decide +kernel,
    ⟨-1, by decide +kernel, by decide⟩, by decide +kernel⟩

theorem witness_Packets_moves :
    (∀ n ∈ [0, 64], OpensPacket (sHost [] [qWith (aCopy n)]) 5 9 (qWith (aCopy n)) ⟨9, BitVec.ofNat 512 (natLE (aCopy n))⟩) ∧
    Packet.word ⟨9, BitVec.ofNat 512 (natLE (aCopy 0))⟩ 4 = 0 ∧ Packet.word ⟨9, BitVec.ofNat 512 (natLE (aCopy 64))⟩ 4 ≠ 0 ∧
    (∀ c ∈ (sHost [] []).copies, c.fin ≠ .packet 5 9) ∧
    OpensPacket (sHost [] [qWith aNote]) 5 9 (qWith aNote) ⟨9, BitVec.ofNat 512 (natLE aNote)⟩ ∧ Inv (sHost [] [qWith aNote]) ∧
    noErrors (sHost [] [qWith aNote]) ∧ Packet.word ⟨9, BitVec.ofNat 512 (natLE aNote)⟩ 2 % 16 = 0 ∧
    Held (sHost [] [qWith aNote]) 0 (Packet.word ⟨9, BitVec.ofNat 512 (natLE aNote)⟩ 2) 16 true ∧
    (sHost [] [qWith aNote]).devicePa 0 (Packet.word ⟨9, BitVec.ofNat 512 (natLE aNote)⟩ 2 % 2 ^ 52) true = .ok 0x203000 ∧
    (BitVec.ofNat 512 (natLE aNote)).getLsbD 256 = true := by
  refine ⟨fun n _ => opens_packet _, by decide +kernel, by decide +kernel, by decide, opens_packet _, inv_host (by decide +kernel), ⟨rfl, rfl⟩,
    by decide +kernel, held_of (e := 0x132000) (by decide +kernel) (by decide +kernel), by decide +kernel, by decide +kernel⟩

/-- R41: a NOTE writes its VALUE. -/
theorem test_note : (match exec (.note 5 9) (sHost [] [qWith aNote]) with
    | .next t => some (t.hbmByte 0 0x203000, t.hbmByte 0 0x203008)
    | _ => none) = some (77, 7) := by decide +kernel

/-! ## Witnesses: rate graphs -/

def aChan (p c prate crate : Nat) : Chan := ⟨p, c, prate, crate, 6, 0, 0⟩

/-- Two stages at rates 2 to 1; two channels between the same stages that no firing numbers balance; two stages that no channel
joins; a loop with a delay. -/
theorem witness_RateBalance :
    (∀ c ∈ [aChan 0 1 2 1], c.internal = true → c.pstg < 2 ∧ c.cstg < 2 ∧ 1 ≤ c.prate ∧ 1 ≤ c.crate) ∧
    balance 2 [aChan 0 1 2 1] = .ok [1, 2] ∧ balance 2 [aChan 0 1 2 1, aChan 0 1 1 1] = .error .rateInconsistent ∧
    schedule [aChan 0 1 2 1] [1, 2] = some ([(0, 0), (1, 0), (1, 1)], [4]) ∧
    schedule [aChan 0 1 1 1, { aChan 1 0 1 1 with delay := 1 }] [1, 1] = some ([(0, 0), (1, 0)], [2, 2]) := by decide +kernel

/-- A graph of two stages, 0 to 1 at rates 2 to 1, with a source before stage 0; launch records at 0x40, one parameter line. -/
def gDesc : Desc :=
  { wsva := 0x4000, wslen := 0x3000, parva := 0x1400, parlen := 1, periods := 1, stages := [(0x40, 1), (0x40, 1)],
    chans := [aChan 0xFF 0 0 1, aChan 0 1 2 1] }
def gFree : Graph :=
  { gid := 3, owner := 0, gobj := 0x800, state := .unbound, next := 0, sref := 0, wsva := 0, parlen := 0, periods := 0, done := 0,
    gcause := .noCause, stages := [], chans := [], qv := [], caps := [], table := [], psoff := 0, boff := 0, coff := 0, wsuse := 0,
    shift := [], held := [], insts := [], waiting := [] }
def gTable : List (Nat × Nat) := [(0, 0), (1, 0), (1, 1)]
def gBound : Graph := gFree.bindTo gDesc [1, 2] gTable [0, 4]

/-- The words of a channel, a header and a packet. -/
def chanBytes (c : Chan) : List Byte :=
  bytesLE 32 (c.pstg + c.cstg * 2 ^ 8 + c.prate * 2 ^ 16 + c.crate * 2 ^ 24 + c.rlog2 * 2 ^ 32)
def hdrBytes : List Byte :=
  bytesLE 64 (1 + 2 * 2 ^ 8 + 2 * 2 ^ 16 + 0x1100 * 2 ^ 64 + 0x1200 * 2 ^ 128 + 0x4000 * 2 ^ 192 + 0x3000 * 2 ^ 256 + 0x1400 * 2 ^ 320 +
    1 * 2 ^ 384 + 1 * 2 ^ 448)
def stageBytes : List Byte := [0x40, 0, 0, 0, 0, 0, 0, 0, 1, 0, 0, 0, 0, 0, 0, 0]
def graphPacket (gop va : Nat) : List Byte :=
  bytesLE 8 4 ++ bytesLE 8 0 ++ bytesLE 8 gop ++ bytesLE 8 0x800 ++ bytesLE 8 va ++ List.replicate 24 0
def sGraph (mem : List (Nat × List Byte)) (bs : List Byte) (g : Graph) : State := { sHost mem [qWith bs] with graphs := [g] }
def pk (bs : List Byte) : Packet := ⟨9, BitVec.ofNat 512 (natLE bs)⟩

theorem on_graph {mem : List (Nat × List Byte)} {bs : List Byte} {g : Graph}
    (h : (decide (g.owner = 0) && decide (g.gobj = (pk bs).word 3) && decide (g.waiting = [])) = true) :
    OnGraph (sGraph mem bs g) 5 9 (qWith bs) (pk bs) g := by
  simp only [Bool.and_eq_true, decide_eq_true_eq] at h
  obtain ⟨⟨h1, h2⟩, h3⟩ := h
  refine ⟨⟨rfl, aStarted (BitVec.ofNat 512 (natLE bs)), by simp [qWith, aStarted], rfl, rfl⟩, ?_, ?_, .inl h3⟩
  · show List.find? (fun x => x.owner == 0 && x.gobj == (pk bs).word 3) [g] = some g
    simp [h1, h2]
  · simp [sGraph, State.graph?]

/-- The descriptor in memory, whole, and with a second channel between the stages at another rate. -/
def bindMem (c : Chan) : List (Nat × List Byte) := [(0x1000, hdrBytes), (0x1100, stageBytes ++ stageBytes), (0x1200, chanBytes c ++ chanBytes (aChan 0 1 2 1))]

theorem witness_Graphs_bind_invalid : OnGraph (sGraph [] (graphPacket 1 0x1000) gFree) 5 9 (qWith (graphPacket 1 0x1000)) (pk (graphPacket 1 0x1000)) gFree ∧
    gFree.insts = [] ∧ gFree.state = .unbound ∧ (pk (graphPacket 1 0x1000)).word 4 % 64 = 0 ∧ (pk (graphPacket 1 0x1000)).word 3 % 64 = 0 ∧
    (pk (graphPacket 1 0x1000)).field 128 8 = 1 ∧ (pk (graphPacket 1 0x1000)).ty = 4 ∧
    Held (sGraph [] (graphPacket 1 0x1000) gFree) 0 ((pk (graphPacket 1 0x1000)).word 4) 64 false ∧
    (sGraph [] (graphPacket 1 0x1000) gFree).deviceRead 0 ((pk (graphPacket 1 0x1000)).word 4) 64 = .ok (List.replicate 64 0) ∧
    hdrOk (natLE (List.replicate 64 0)) = false := by
  refine ⟨on_graph (by decide +kernel), rfl, rfl, by decide +kernel, by decide +kernel, by decide +kernel, by decide +kernel,
    held_of (e := 0x132000) ?_ ?_, reads (e := 0x132000) ?_ ?_ rfl ?_, ?_⟩ <;> decide +kernel

theorem witness_Graphs_bind : ∀ c ∈ [aChan 0xFF 0 0 1, aChan 0 1 1 1],
    (let s := sGraph (bindMem c) (graphPacket 1 0x1000) gFree
     Held s 0 0x1000 64 false ∧ s.deviceRead 0 0x1000 64 = .ok hdrBytes ∧ hdrOk (natLE hdrBytes) = true ∧
      Held s 0 (hdrStgva (natLE hdrBytes)) (16 * hdrNstg (natLE hdrBytes)) false ∧
      s.deviceRead 0 (hdrStgva (natLE hdrBytes)) (16 * hdrNstg (natLE hdrBytes)) = .ok (stageBytes ++ stageBytes) ∧
      Held s 0 (hdrChva (natLE hdrBytes)) (32 * hdrNch (natLE hdrBytes)) false ∧
      s.deviceRead 0 (hdrChva (natLE hdrBytes)) (32 * hdrNch (natLE hdrBytes)) = .ok (chanBytes c ++ chanBytes (aChan 0 1 2 1))) := by
  intro c hc
  refine ⟨held_of (e := 0x132000) ?_ ?_, reads (e := 0x132000) ?_ ?_ rfl ?_, ?_, held_of (e := 0x132000) ?_ ?_,
    reads (e := 0x132000) ?_ ?_ rfl ?_, held_of (e := 0x132000) ?_ ?_, reads (e := 0x132000) ?_ ?_ rfl ?_⟩ <;>
    revert c <;> decide +kernel

theorem witness_Graphs_bound :
    ((∀ x ∈ recordsOf 16 2 (stageBytes ++ stageBytes), stageOk x = true) ∧
      ∀ c ∈ [aChan 0xFF 0 0 1, aChan 0 1 1 1], ∀ x ∈ recordsOf 32 2 (chanBytes c ++ chanBytes (aChan 0 1 2 1)), chanOk 2 1 x = true) ∧
    gDesc.ok = true ∧ solve gDesc = .ok ([1, 2], gTable, [0, 4]) ∧
    solve { gDesc with chans := [aChan 0 1 1 1, aChan 0 1 2 1] } = .error .rateInconsistent ∧
    gBound.wsuse ≤ gDesc.wslen ∧
    (let s := sGraph (bindMem (aChan 0xFF 0 0 1)) (graphPacket 1 0x1000) gFree
     Held s 0 gDesc.parva (64 * gDesc.parlen) false ∧ s.deviceRead 0 gDesc.parva (64 * gDesc.parlen) = .ok (List.replicate 64 0) ∧
      Held s 0 gDesc.wsva gBound.wsuse true ∧ Held s 0 gFree.gobj 64 true) := by
  refine ⟨?_, ?_, ?_, ?_, ?_, held_of (e := 0x132000) ?_ ?_, reads (e := 0x132000) ?_ ?_ rfl ?_, held_of (e := 0x132000) ?_ ?_,
    held_of (e := 0x132000) ?_ ?_⟩ <;> decide +kernel

/-- An instance whose RUN is packet 9 of queue 5. -/
def anInst (released : Nat) (doneF : List Nat) : Inst :=
  { id := 7, q := 5, idx := 9, slot := 0, periods := 2, lids := [], arrays := [(0x3000, 4), (0, 0)], feeders := [(0, 0), (0, 0)], released := released, doneF := doneF,
    chans := [⟨0, 0⟩, ⟨0, 0⟩], finished := false, failing := none, lost := [] }

theorem witness_Graphs_unbind :
    (∀ g ∈ [gBound, { gBound with insts := [anInst 0 []] }], OnGraph (sGraph [] (graphPacket 4 0) g) 5 9 (qWith (graphPacket 4 0)) (pk (graphPacket 4 0)) g) ∧
    gBound.insts = [] := by
  refine ⟨?_, rfl⟩
  intro g hg
  refine on_graph ?_
  revert g
  decide +kernel

/-- RUN of an object that is unbound, faulted, bound. -/
theorem witness_Graphs_run : (∀ st ∈ [GState.unbound, .faulted, .bound],
      OnGraph (sGraph [] (graphPacket 2 0) { gBound with state := st }) 5 9 (qWith (graphPacket 2 0)) (pk (graphPacket 2 0)) { gBound with state := st }) ∧
    (pk (graphPacket 2 0)).ty = 4 ∧ (pk (graphPacket 2 0)).field 128 8 = 2 := by
  refine ⟨?_, by decide +kernel, by decide +kernel⟩
  intro st hs
  refine on_graph ?_
  revert st
  decide +kernel

/-- The source array, 2 records long at 0x3000, in slot 0. -/
def runMem : List (Nat × List Byte) := [(0x40, aLrec 32 16), (0x5000, bytesLE 8 0x3000 ++ bytesLE 8 2)]
def gRun : Graph := { gBound with periods := 2 }
def runState : State := sGraph runMem (graphPacket 2 0) gRun
def runPar : List Byte := bytesLE 8 0x3000 ++ bytesLE 8 2 ++ List.replicate 48 0

theorem witness_Graphs_instance : gRun.insts.length < 2 ∧ Held runState 0 (gRun.slotVa gRun.next) (64 * gRun.parlen) false ∧
    runState.deviceRead 0 (gRun.slotVa gRun.next) (64 * gRun.parlen) = .ok runPar ∧
    (∀ x ∈ gRun.chans.zip (arraysOf gRun.chans runPar), gRun.arrayNeed x.1 ≤ x.2.2 ∧ x.2.1 < 2 ^ 52) := by
  refine ⟨?_, held_of (e := 0x132000) ?_ ?_, reads (e := 0x132000) ?_ ?_ rfl ?_, ?_⟩ <;> decide +kernel

theorem witness_Graphs_stages : ∃ s1 rs,
    State.readStages (begun runState 5 9 gRun) (q := qWith (graphPacket 2 0)) (pk (graphPacket 2 0)) { gRun with waiting := [(5, 9)] } gRun.next runPar
      ((List.range gRun.stages.length).zip gRun.stages) = (s1, some rs) ∧
    s1.stagesBad { gRun with waiting := [(5, 9)] } rs = none ∧ s1.graph? gRun.gid = some { gRun with waiting := [(5, 9)] } ∧
    Held s1 0 gRun.gobj 64 true := by
  have h : (match State.readStages (begun runState 5 9 gRun) (q := qWith (graphPacket 2 0)) (pk (graphPacket 2 0)) { gRun with waiting := [(5, 9)] } gRun.next
      runPar ((List.range gRun.stages.length).zip gRun.stages) with
    | (s1, some rs) => decide ((s1.stagesBad { gRun with waiting := [(5, 9)] } rs = none ∧ s1.graph? gRun.gid = some { gRun with waiting := [(5, 9)] }) ∧
        s1.walk 0 gRun.gobj = .leaf aLeaf 0x132000 ∧ (s1.hbmByte 0 0x132007).getLsbD 2 = true)
    | _ => false) = true := by decide +kernel
  split at h
  · next s1 rs e =>
    obtain ⟨⟨h1, h2⟩, h3, h4⟩ := of_decide_eq_true h
    exact ⟨s1, rs, e, h1, h2, held_of h3 (by rw [h4]; rfl)⟩
  · cases h

/-- A PATCH with no entry, with one of 8 bytes, and with 1025; slot 0 in use by an instance and not. -/
def patchHead (n periods : Nat) : List Byte := bytesLE 64 (n + periods * 2 ^ 32)
def patchOne : List Byte := bytesLE 64 (8 * 2 ^ 32 + 77 * 2 ^ 64)
theorem witness_Graphs_patch : ∀ g ∈ [gBound, { gBound with insts := [anInst 0 []], sref := 1 }], ∀ n ∈ [0, 1, 1025],
    (let s := sGraph [(0x2000, patchHead n 3), (0x2040, patchOne)] (graphPacket 3 0x2000) g
     OnGraph s 5 9 (qWith (graphPacket 3 0x2000)) (pk (graphPacket 3 0x2000)) g ∧ (pk (graphPacket 3 0x2000)).ty = 4 ∧
      (pk (graphPacket 3 0x2000)).field 128 8 = 3 ∧ Held s 0 ((pk (graphPacket 3 0x2000)).word 4) 64 false ∧
      s.deviceRead 0 ((pk (graphPacket 3 0x2000)).word 4) 64 = .ok (patchHead n 3) ∧ bitsOf (natLE (patchHead n 3)) 0 32 = n ∧
      bitsOf (natLE (patchHead n 3)) 64 448 = 0 ∧ Held s 0 ((pk (graphPacket 3 0x2000)).word 4 + 64) (64 * 1) false ∧
      s.deviceRead 0 ((pk (graphPacket 3 0x2000)).word 4 + 64) (64 * 1) = .ok patchOne ∧
      patchEntries g.parlen (recordsOf 64 1 patchOne) = some [(0, [77, 0, 0, 0, 0, 0, 0, 0])] ∧
      Held s 0 (g.slotVa g.next) (64 * g.parlen) false ∧ s.deviceRead 0 (g.slotVa g.next) (64 * g.parlen) = .ok (List.replicate 64 0) ∧
      Held s 0 (g.slotVa (if g.sref.getLsbD g.next then freeSlot g.sref else g.next)) (64 * g.parlen) true) := by
  intro g hg n hn
  refine ⟨on_graph ?_, ?_, ?_, held_of (e := 0x132000) ?_ ?_, reads (e := 0x132000) ?_ ?_ rfl ?_, ?_, ?_,
    held_of (e := 0x132000) ?_ ?_, reads (e := 0x132000) ?_ ?_ rfl ?_, ?_, held_of (e := 0x132000) ?_ ?_,
    reads (e := 0x132000) ?_ ?_ rfl ?_, held_of (e := 0x132000) ?_ ?_⟩ <;> revert n <;> revert g <;> decide +kernel

/-- The first firing, the first of the second period once the first of the first is done, the last, and the end; a second
instance behind one that has finished its last period. -/
theorem witness_Graphs_release :
    (∀ i ∈ [anInst 0 [], anInst 3 [0], anInst 5 [2], anInst 6 []], (let g : Graph := { gBound with insts := [i] }
      (sGraph [] (graphPacket 2 0) g).graph? 3 = some g ∧ g.insts.find? (fun x => x.id == 7) = some i)) ∧
    ((anInst 3 [0]).released < (anInst 3 [0]).periods * gBound.table.length ∧ (anInst 3 [0]).doneF.contains (3 - gBound.table.length) = true ∧
      (anInst 6 []).periods * gBound.table.length ≤ (anInst 6 []).released ∧ (anInst 5 [2]).doneF.contains (5 - gBound.table.length) = true) ∧
    (let g : Graph := { gBound with insts := [anInst 6 [3], { anInst 0 [] with id := 8 }] }
     g.older 8 = some (anInst 6 [3]) ∧ (anInst 6 [3]).doneF.contains ((2 - 1) * g.table.length + 0) = true) := by
  refine ⟨?_, by decide, by decide⟩
  intro i hi
  revert i
  decide +kernel

/-- The crews of stages 0 and 1 with their input rings; record 0 of the source, and record 1 of the internal channel. -/
def feedCrew (st ch k : Nat) : Crew :=
  { crewOf w0 with stage := some (3, 7, st, 0), rings := [⟨ch, true, if ch = 1 then 1 else 1, 6, 0x1000, 0, ⟨0, k, false⟩, ⟨1, 0, false⟩⟩] }
def gFeed (released i o : Nat) : Graph := { gBound with insts := [{ anInst released [] with chans := [⟨0, 0⟩, ⟨i, o⟩] }] }
def sFeed (g : Graph) (c : Crew) : State := { sGraph [] (graphPacket 2 0) g with crews := [c] }

theorem witness_Graphs_feed :
    (let g := gFeed 1 0 0
     let i : Inst := { anInst 1 [] with chans := [⟨0, 0⟩, ⟨0, 0⟩] }
     let s := sFeed g (feedCrew 0 0 0)
     let x := aChan 0xFF 0 0 1
     s.graph? 3 = some g ∧ g.insts.find? (fun y => y.id == 7) = some i ∧ g.chans[0]? = some x ∧ s.tenantRuns g.owner = true ∧
      (i.prog 0).movOut = 0 ∧ x.sink = false ∧ 0 < g.outTotal i x ∧ g.olderOut i 0 x = true ∧ g.isReleased i x.cstg (0 / max 1 x.crate) = true ∧
      g.mayStart i x.cstg (0 / max 1 x.crate) = true ∧ s.stageCrew g i x.cstg (0 / max 1 x.crate) false = some (feedCrew 0 0 0, 0) ∧
      (nthD i.arrays 0 (0, 0)).1 + 0 * x.bytes = 0x3000 ∧ noErrors s ∧ Held s 0 0x3000 x.bytes false ∧
      s.deviceRead 0 0x3000 x.bytes = .ok (List.replicate 64 0)) ∧
    (let g := gFeed 2 2 0
     let i : Inst := { anInst 2 [] with chans := [⟨0, 0⟩, ⟨2, 0⟩] }
     let s := sFeed g (feedCrew 1 1 0)
     let x := aChan 0 1 2 1
     x.internal = true ∧ g.occupancy 1 ≠ 0 ∧ g.isReleased i x.cstg (0 / max 1 x.crate) = true ∧ g.mayStart i x.cstg (0 / max 1 x.crate) = true ∧
      s.stageCrew g i x.cstg (0 / max 1 x.crate) false = some (feedCrew 1 1 0, 0) ∧ Held s 0 (g.outVa 1 x) x.bytes false ∧
      s.deviceRead 0 (g.outVa 1 x) x.bytes = .ok (List.replicate 64 0)) := by
  refine ⟨⟨?_, ?_, ?_, ?_, ?_, ?_, ?_, ?_, ?_, ?_, ?_, ?_, ⟨rfl, rfl⟩, held_of (e := 0x132000) ?_ ?_, reads (e := 0x132000) ?_ ?_ rfl ?_⟩,
    ?_, ?_, ?_, ?_, ?_, held_of (e := 0x132000) ?_ ?_, reads (e := 0x132000) ?_ ?_ rfl ?_⟩ <;> decide +kernel

theorem witness_Graphs_fail : (let g : Graph := { gBound with insts := [anInst 1 [0], { anInst 0 [] with id := 8, idx := 10 }] }
    let s := sGraph [] (graphPacket 2 0) g
    s.graph? 3 = some g ∧ g.insts.find? (fun x => x.id == 7) = some (anInst 1 [0]) ∧
      OpensPacket s (anInst 1 [0]).q (anInst 1 [0]).idx (qWith (graphPacket 2 0)) (pk (graphPacket 2 0))) := by
  refine ⟨by decide +kernel, by decide +kernel, rfl, aStarted (BitVec.ofNat 512 (natLE (graphPacket 2 0))), by simp [qWith, aStarted, anInst], rfl, rfl⟩

/-- Images that can be written: after CREATE, RESUME, a doorbell in range and one past the ring, a packet read, a fetch fault. -/
theorem witness_Queues_calm :
    (∀ x ∈ [(0x2000, 4), (0x400000, 16)], imageCalm (created (sHost [(0x40, aDesc x.1 x.2)] [qIn .free]) m1 (qIn .free) 0x40 (natLE (aDesc x.1 x.2))) 5) ∧
    (∀ st ∈ [QState.aborted, .error], imageCalm ((sHost [] [qIn st]).modQueue 5 fun x => { x with state := .active }) 5) ∧
    (let q := aQueue 0 1 2
     let s := sHost [] [q]
     imageCalm (errored (s.perform m1) 5 .queueOverrun 18) 5 ∧
      imageCalm ((s.perform m1).modQueue 5 fun y => { y with tail := 17, res := 17 }) 5 ∧
      (let q : Queue := { q with reading := 1 }
       let s := sHost [(0x2040, aNote)] [q]
       0 < q.reading ∧ imageCalm (((s.countSoft (s.softDevice q.owner (q.slotVa q.head) 64)).markUsed q.owner (q.slotVa q.head) 64).modQueue 5 fun y =>
         { y with head := y.head + 1, reading := y.reading - 1, ready := y.ready ++ [⟨1, BitVec.ofNat 512 (natLE aNote)⟩] }) 5 ∧
        imageCalm (errored (s.modQueue 5 fun y => { y with reading := 0 }) 5 .queueFetchFault q.head) 5)) := by
  simp only [imageCalm, created, errored]
  refine ⟨?_, ?_, ?_, ?_, ?_, ?_, ?_⟩
  all_goals decide +kernel

/-- Packets that DESTROY cancels and that it does not: a WAITSIG that waits, a NOTE that has started. -/
theorem witness_Queues_destroy : (let note : Started := aStarted (BitVec.ofNat 512 (natLE aNote))
    let wait : Started := { aStarted 2 with pkt := ⟨8, 2⟩ }
    let q (ps : List Started) : Queue := { qIn .active with started := ps }
    cancelled wait ∧ ¬ cancelled note ∧ (q [note, wait]).state ≠ .free ∧ (q [note, wait]).state ≠ .draining ∧
      ((q [note, wait]).started.map fun p => p.pkt.idx).Nodup ∧ (∃ p ∈ (q [note, wait]).started, ¬ cancelled p) ∧
      (∀ p ∈ (q [wait]).started, cancelled p) ∧ (sHost [] [q [note, wait]]).queue? 5 = some (q [note, wait])) := by
  have h : ¬ cancelled (aStarted (BitVec.ofNat 512 (natLE aNote))) := by unfold cancelled; decide +kernel
  refine ⟨?_, h, by decide, by decide, by decide +kernel, ⟨_, List.mem_cons_self .., h⟩, ?_, rfl⟩
  · unfold cancelled; decide +kernel
  · intro p hp
    obtain rfl := List.mem_singleton.mp hp
    unfold cancelled; decide +kernel

/-- A LAUNCH whose record has been read. -/
theorem witness_Packets_record : (let q : Queue := { qWith aLaunchPacket with
      started := [{ aStarted (BitVec.ofNat 512 (natLE aLaunchPacket)) with record := some (natLE (aLrec 32 16)) }] }
    q.recordOf 9 = some (natLE (aLrec 32 16)) ∧ (qWith aLaunchPacket).recordOf 9 = none ∧
      OpensPacket (sHost [] [q]) 5 9 q ⟨9, BitVec.ofNat 512 (natLE aLaunchPacket)⟩ ∧
      (∀ g ∈ (sHost [] [q]).graphs, ∀ i ∈ g.insts, ¬ (i.q = 5 ∧ i.idx = 9))) := by
  refine ⟨by decide +kernel, by decide +kernel, ⟨rfl, _, by rfl, rfl, rfl⟩, by simp [sHost]; rintro g ⟨⟩⟩

/-- An operation that begins again as the first of its line; a RUN of a stage that no core can hold; images that can be written. -/
theorem witness_Graphs_again : (let bs := graphPacket 2 0
    let g : Graph := { gBound with waiting := [(5, 9), (5, 10)] }
    OnGraph (sGraph [] bs g) 5 9 (qWith bs) (pk bs) g ∧ (begun (sGraph [] bs g) 5 9 g).graph? 3 = some g ∧ g.insts.length < 2 ∧
    Held (sGraph [] bs g) 0 g.gobj 64 true ∧ Held runState 0 gRun.gobj 64 true) := by
  refine ⟨⟨⟨rfl, aStarted (BitVec.ofNat 512 (natLE (graphPacket 2 0))), by simp [qWith, aStarted], rfl, rfl⟩, ?_, ?_, .inr rfl⟩, ?_, by decide,
    held_of (e := 0x132000) ?_ ?_, held_of (e := 0x132000) ?_ ?_⟩ <;> decide +kernel

def bigMem : List (Nat × List Byte) := [(0x40, aLrec 1024 640), (0x5000, bytesLE 8 0x3000 ++ bytesLE 8 2)]
theorem witness_Graphs_impossible : ∃ s1 rs,
    State.readStages (begun (sGraph bigMem (graphPacket 2 0) gRun) 5 9 gRun) (q := qWith (graphPacket 2 0)) (pk (graphPacket 2 0)) { gRun with waiting := [(5, 9)] }
      gRun.next runPar ((List.range gRun.stages.length).zip gRun.stages) = (s1, some rs) ∧
    s1.stagesBad { gRun with waiting := [(5, 9)] } rs = some .residencyImpossible ∧ s1.graph? gRun.gid = some { gRun with waiting := [(5, 9)] } ∧
    (begun (sGraph bigMem (graphPacket 2 0) gRun) 5 9 gRun).graph? gRun.gid = some { gRun with waiting := [(5, 9)] } := by
  have h : (match State.readStages (begun (sGraph bigMem (graphPacket 2 0) gRun) 5 9 gRun) (q := qWith (graphPacket 2 0)) (pk (graphPacket 2 0)) { gRun with waiting := [(5, 9)] } gRun.next
      runPar ((List.range gRun.stages.length).zip gRun.stages) with
    | (s1, some rs) => decide (s1.stagesBad { gRun with waiting := [(5, 9)] } rs = some .residencyImpossible ∧ s1.graph? gRun.gid = some { gRun with waiting := [(5, 9)] })
    | _ => false) = true := by decide +kernel
  split at h
  · next s1 rs e => exact ⟨s1, rs, e, (of_decide_eq_true h).1, (of_decide_eq_true h).2, by decide +kernel⟩
  · cases h

/-- A failing instance whose launch has a copy in flight; a ring whose crew is past the firing that a record completes. -/
theorem witness_Graphs_busy : (let i : Inst := { anInst 1 [0] with lids := [4] }
    let g : Graph := { gBound with insts := [i] }
    let s : State := { sGraph [] (graphPacket 2 0) g with copies := [⟨5, 0, some 4, none, 0, 0, [], 0, .ticket 0 3 none⟩] }
    s.graph? 3 = some g ∧ g.insts.find? (fun x => x.id == 7) = some i ∧ 4 ∈ i.lids ∧ s.engineBusy 4 = true) ∧
    (let c : Crew := { feedCrew 0 0 0 with f := 1 }
     let g := gFeed 1 0 0
     let i : Inst := { anInst 1 [] with chans := [⟨0, 0⟩, ⟨0, 0⟩] }
     (sFeed g c).stageCrew g i 0 0 false = some (c, 0) ∧ 0 < c.f ∧ (aChan 0xFF 0 0 1).crate = 1 ∧
      (c.rings.map fun r => (r.rate, (r.half 0).firing, (r.half 0).recs)) = [(1, 0, 0)]) := by decide +kernel

/-! ## Witnesses: management and registers -/

/-- The machine with the arguments of a command in its mailbox. -/
def sMail (args : List Nat) (s : State) : State :=
  { s with mgmt := { s.mgmt with mailbox := Memory.writeN [] 0 (args.flatMap fun x => bytesLE 8 x) } }

/-- A word with a bit outside its code, and arguments that name no tenant. -/
theorem witness_Management_refusals : (sMail [9, 9, 0, 9] (sHost [] [])).covered m0 = true ∧
    ((10, Instr.fwStage m0 0x40000A) ∈ commandsOf m0 0x40000A ∧ (0x40000A : DWord).toNat ≠ 10) ∧
    (sMail [9, 9, 0, 9] (sHost [] [])).tenant? ((sMail [9, 9, 0, 9] (sHost [] [])).arg 0) = none ∧
    (sMail [9, 9, 0, 9] (sHost [] [])).tenant? ((sMail [9, 9, 0, 9] (sHost [] [])).arg 3) = none ∧
    (sMail [9, 9, 0, 9] (sHost [] [])).tenant? ((sMail [9, 9, 0, 9] (sHost [] [])).arg 1) = none := by decide +kernel

/-- Slices of 99 and 100 µs, a ring of 2^3 slots, an odd root; no tag left; more commons than die 0 has; a tenant that fits. -/
def aCreate (root log2 mib slice : Nat) : State := sMail [0, root, 0x100, 0x1000, log2, mib, slice] (sHost [] [])
def crowd (n : Nat) : List Tenant := (List.range n).map fun k => { harnessTenant with tag := k, commonsMib := 0 }
theorem witness_Management_create :
    (aCreate 0x100000 4 53 100).createOk = true ∧ (aCreate 0x100000 4 53 100).freeTag 0 = some 1 ∧
    (aCreate 0x100000 4 53 100).commonsFree 0 53 = true ∧ (aCreate 0x100000 4 54 100).commonsFree 0 54 = false ∧
    (aCreate 0x100000 16 1 1000000).createOk = true ∧
    ((aCreate 0x100000 4 1 99).createOk = false ∧ (aCreate 0x100000 3 1 100).createOk = false ∧ (aCreate 0x100001 4 1 100).createOk = false ∧
      (aCreate 0x100000 4 1 1000001).createOk = false) ∧
    ({ aCreate 0x100000 4 1 100 with tenants := crowd 16 } : State).freeTag 0 = none ∧
    ({ aCreate 0x100000 4 1 100 with tenants := crowd 15 } : State).freeTag 0 = some 15 := by decide +kernel

theorem witness_Management_created : (let s := aCreate 0x100000 4 53 100
    let x := Tenant.new 1 0 (s.arg 1) (s.arg 2) (s.arg 3) (s.arg 4) (s.arg 5) (s.arg 6) (s.ids + 1)
    ∃ s1, State.deviceWrite { s.newId with tenants := s.tenants ++ [x] } 1 (s.arg 2)
      ([0, 0, 0, 0x30, 0, 0, 0, 0].flatMap fun v => bytesLE 8 v) = .ok s1) := by
  have h : (match State.deviceWrite { (aCreate 0x100000 4 53 100).newId with tenants := (aCreate 0x100000 4 53 100).tenants ++
        [Tenant.new 1 0 0x100000 0x100 0x1000 4 53 100 ((aCreate 0x100000 4 53 100).ids + 1)] } 1 0x100
      ([0, 0, 0, 0x30, 0, 0, 0, 0].flatMap fun v => bytesLE 8 v) with
    | .ok _ => true
    | .error _ => false) = true := by decide +kernel
  have e : (aCreate 0x100000 4 53 100).arg 1 = 0x100000 ∧ (aCreate 0x100000 4 53 100).arg 2 = 0x100 ∧ (aCreate 0x100000 4 53 100).arg 3 = 0x1000 ∧
      (aCreate 0x100000 4 53 100).arg 4 = 4 ∧ (aCreate 0x100000 4 53 100).arg 5 = 53 ∧ (aCreate 0x100000 4 53 100).arg 6 = 100 := by decide +kernel
  obtain ⟨e1, e2, e3, e4, e5, e6⟩ := e
  intro s x
  simp only [s, x, e1, e2, e3, e4, e5, e6]
  split at h
  · next s1 he => exact ⟨s1, he⟩
  · cases h

/-- A tenant with no queue, with a free one, and with one whose packet has started. -/
theorem witness_Management_destroy :
    (∀ qs ∈ [[], [qIn .free], [qWith aNote]], (sMail [0] (sHost [] qs)).arg 0 = 0 ∧ (sMail [0] (sHost [] qs)).tenant? 0 = some harnessTenant) ∧
    (∀ q ∈ (sMail [0] (sHost [] [qIn .free])).queues, q.owner = 0 → q.state = .free) ∧
    ((sMail [0] (sHost [] [qWith aNote])).queue? 5 = some (qWith aNote) ∧ (qWith aNote).owner = 0 ∧ (qWith aNote).state ≠ .free ∧
      (qWith aNote).started ≠ []) := by
  refine ⟨?_, ?_, rfl, rfl, by decide, by simp [qWith]⟩
  · decide +kernel
  · decide +kernel

/-- Contexts 0, 1, 255 and 256; keys 0, 1, 4095 and 4096, a range at the end of the space; peers 2047 and 2048; queues
1023 and 1024, active and free. -/
theorem witness_Management_bindings :
    (∀ x ∈ [0, 1, 255, 256], (sMail [x, 2, 3, 0, 5] (sHost [] [])).arg 0 = x ∧
      (sMail [x, 2, 3, 0, 5] (sHost [] [])).tenant? ((sMail [x, 2, 3, 0, 5] (sHost [] [])).arg 3) = some harnessTenant) ∧ m0.ctx ≠ 1 ∧
    (∀ x ∈ [(0, 0, 0, 0), (1, 0xFFFFFFFFFFFFF, 1, 3), (4095, 0, 0x1000, 1), (4096, 0, 0, 0), (1, 0xFFFFFFFFFFFFF, 2, 0), (1, 0, 0, 4)],
      (let s := sMail [1, x.1, x.2.1, x.2.2.1, x.2.2.2] (sHost [] [])
       s.arg 0 = 1 ∧ s.arg 1 = x.1 ∧ s.arg 2 = x.2.1 ∧ s.arg 3 = x.2.2.1 ∧ s.arg 4 = x.2.2.2)) ∧
    (sHost [] []).ctx? 1 = some (aCtx 0 [⟨2, 0x1000, 0x1000, true, true⟩]) ∧
    (∀ x ∈ [2047, 2048], (sMail [0, x, 1, 2] (sHost [] [])).tenant? ((sMail [0, x, 1, 2] (sHost [] [])).arg 0) = some harnessTenant ∧
      (sMail [0, x, 1, 2] (sHost [] [])).arg 1 = x) ∧
    (∀ x ∈ [5, 1023, 1024], (sMail [x, 0] (sHost [] [qIn .active])).tenant? ((sMail [x, 0] (sHost [] [qIn .active])).arg 1) = some harnessTenant ∧
      (sMail [x, 0] (sHost [] [qIn .active])).arg 0 = x) ∧
    (sHost [] [qIn .active]).queue? 5 = some (qIn .active) ∧ (sHost [] [qIn .active]).queue? 1023 = none := by
  refine ⟨by decide +kernel, by decide, by decide +kernel, rfl, by decide +kernel, by decide +kernel, by decide +kernel, by decide +kernel⟩

/-- A tenant that runs and holds a core; one that has left; one that is not running. ATTEST with a leaf left and with none.
An image that is nowhere, and one whose verification alone decides. -/
theorem witness_Management_device :
    (let s := sMail [0, 0x3000] (sHost [] [qIn .active])
     s.tenant? (s.arg 0) = some harnessTenant ∧ s.arg 1 < 2 ^ 52 ∧ s.holdsCores (s.arg 0) = true ∧ harnessTenant.running = true ∧
      ({ s with crews := [] } : State).holdsCores (s.arg 0) = false ∧ 2 ^ 52 ≤ (sMail [0, 2 ^ 52] s).arg 1) ∧
    (let s := sMail [0, 0x3000] { sHost [] [] with tenants := [{ harnessTenant with running := false }] }
     s.tenant? (s.arg 0) = some { harnessTenant with running := false } ∧ ∀ u ∈ s.tenants, u.part = 0 → u.running = false) ∧
    (sHost [] []).mgmt.leafIndex < 2 ^ 20 ∧ Inv (sHost [] []) ∧
    (let s : State := { sHost [] [] with mgmt := { Mgmt.reset with leafIndex := 2 ^ 20 } }
     s.covered m0 = true ∧ 2 ^ 20 ≤ s.mgmt.leafIndex) ∧
    paBacked ((sMail [2 ^ 40, 64] (sHost [] [])).arg 0) = false ∧
    (let s := sMail [0x300000, 64] (sHost [] [])
     paBacked (s.arg 0) = true ∧ s.arg 0 % 2 ^ 38 + s.arg 1 ≤ 0x2800000000 ∧
      (Config.imageVerifies (s.hbmBytes 255 (s.arg 0) (s.arg 1)) = true ∨ Config.imageVerifies (s.hbmBytes 255 (s.arg 0) (s.arg 1)) = false)) := by
  refine ⟨by decide +kernel, by decide +kernel, by decide, inv_host (by decide +kernel), by decide +kernel, by decide +kernel,
    by decide +kernel, by decide +kernel, ?_⟩
  cases Config.imageVerifies _ <;> simp

theorem witness_Management_save : ∃ s1, State.writeSave { sHost [] [qIn .active] with crews := [] } 0 0x3000 = .ok s1 := by
  have h : (match State.writeSave { sHost [] [qIn .active] with crews := [] } 0 0x3000 with
    | .ok _ => true
    | .error _ => false) = true := by decide +kernel
  split at h
  · next s1 he => exact ⟨s1, he⟩
  · cases h

/-- PWR_CTL at the limits of CEIL and with one beyond each; dies at P0 and P5. -/
theorem witness_Registers_power :
    (∀ v ∈ [90, 280, 0x50005A], 90 ≤ bitsOf (BitVec.ofNat 32 v).toNat 0 9 ∧ bitsOf (BitVec.ofNat 32 v).toNat 0 9 ≤ 280 ∧ bitsOf (BitVec.ofNat 32 v).toNat 20 4 ≤ 5 ∧
      bitsOf (BitVec.ofNat 32 v).toNat 9 11 = 0 ∧ bitsOf (BitVec.ofNat 32 v).toNat 24 7 = 0) ∧
    (∀ v ∈ [89, 281, 0x60005A, 0x25A, 0x100005A], ¬ (90 ≤ bitsOf (BitVec.ofNat 32 v).toNat 0 9 ∧ bitsOf (BitVec.ofNat 32 v).toNat 0 9 ≤ 280 ∧
      bitsOf (BitVec.ofNat 32 v).toNat 20 4 ≤ 5 ∧ bitsOf (BitVec.ofNat 32 v).toNat 9 11 = 0 ∧ bitsOf (BitVec.ofNat 32 v).toNat 24 7 = 0)) ∧
    Inv (sHost [] []) ∧ ((sHost [] []).die 3).power = .on 0 ∧ ((sHost [] []).die 3).nextP = none ∧ ((sHost [] []).die 3).queuedP = none :=
  ⟨by decide +kernel, by decide +kernel, inv_host (by decide +kernel), rfl, rfl, rfl⟩

/-- PART_CFG: 0, 1, 0, 1 pairs dies that links join, 0, 1, 1, 0 does not, a reserved bit; the tenant holds die 0 and its
commons every die. RRU_CFG at and beyond its limits. -/
theorem witness_Registers_parts :
    (partsOk [0, 1, 0, 1] = true ∧ partsOk [0, 1, 1, 0] = false ∧ partsOk [0, 1, 2, 3] = true ∧ partsOk [0, 0, 0, 1] = false) ∧
    ((sHost [] []).ownerOn harnessTenant 1 = true ∧ bitsOf (0x1044 : Word).toNat 12 19 ≠ 0 ∧ bitsOf (0x44 : Word).toNat 12 19 = 0 ∧
      [0, 1, 2, 3].map (fun d => bitsOf (0x44 : Word).toNat (2 * d) 2) = [0, 1, 0, 1]) ∧
    (∀ te ∈ ({ sHost [] [] with tenants := [] } : State).tenants, ({ sHost [] [] with tenants := [] } : State).ownerOn te 1 = false) ∧
    (∀ v ∈ [0x4000A, 0xFA02710], 10 ≤ bitsOf (BitVec.ofNat 32 v).toNat 0 14 ∧ bitsOf (BitVec.ofNat 32 v).toNat 0 14 ≤ 10000 ∧
      1 ≤ bitsOf (BitVec.ofNat 32 v).toNat 18 10 ∧ bitsOf (BitVec.ofNat 32 v).toNat 18 10 ≤ 1000 ∧ bitsOf (BitVec.ofNat 32 v).toNat 14 3 = 0 ∧ bitsOf (BitVec.ofNat 32 v).toNat 28 3 = 0) ∧
    (∀ v ∈ [0x40009, 0x42711, 10, 0xFA4000A], ¬ (10 ≤ bitsOf (BitVec.ofNat 32 v).toNat 0 14 ∧ bitsOf (BitVec.ofNat 32 v).toNat 0 14 ≤ 10000 ∧
      1 ≤ bitsOf (BitVec.ofNat 32 v).toNat 18 10 ∧ bitsOf (BitVec.ofNat 32 v).toNat 18 10 ≤ 1000)) ∧
    ((sHost [] []).mgmt.spen = true ∧ (0x4000A : Word).getLsbD 17 = false ∧
      (let w : Weave := { w0 with wait := .spin }
       (on w).crew? 0 = some (crewOf w) ∧ (crewOf w).weaves[0]? = some w ∧ w.wait = .spin)) ∧
    (sHost [] []).ports[7]? = some ⟨false, false, false⟩ ∧ linkDies 2 = [0, 2] := by
  refine ⟨by decide +kernel, by decide +kernel, by simp, by decide +kernel, by decide +kernel, by decide +kernel, by decide +kernel, rfl⟩

/-- PREQ bits that are set and cleared; a tenant's block at 0x100, whose ECLR is 5. -/
theorem witness_Registers_eclr :
    ((sHost [] []).mgmt.preq.getLsbD 1 = false ∧ (2 : DWord).getLsbD 1 = true ∧
      ({ Mgmt.reset with preq := 2 } : Mgmt).preq.getLsbD 1 = true) ∧ (sHost [] []).tenant? 255 = none ∧
    (let te : Tenant := { harnessTenant with ecb := 0x100 }
     let s : State := { sHost [(0x100, [7, 0, 0, 0, 0, 0, 0, 0, 5])] [] with tenants := [te] }
     Inv s ∧ noErrors s ∧ s.tenant? 0 = some te ∧ te.ecb % 64 = 0 ∧ te.ecb < 2 ^ 52 ∧ Held s 0 te.ecb 16 true ∧ Held s 0 te.ecb 16 false ∧
      s.devicePa 0 te.ecb true = .ok 0x200100 ∧ s.deviceWord 0 te.ecb = .ok 7 ∧ s.deviceWord 0 (te.ecb + 8) = .ok 5) := by
  refine ⟨by decide, rfl, ?_, ⟨rfl, rfl⟩, rfl, by decide, by decide, held_of (e := 0x132000) (by decide +kernel) (by decide +kernel),
    held_of (e := 0x132000) (by decide +kernel) (by decide +kernel), by decide +kernel, by decide +kernel, by decide +kernel⟩
  have h : Inv (sHost [(0x100, [7, 0, 0, 0, 0, 0, 0, 0, 5])] []) := inv_host (by decide +kernel)
  have hc : ∀ t ∈ [({ harnessTenant with ecb := 0x100 } : Tenant)], t.commons.length = 4 ∧ ∀ m ∈ t.commons, Memory.wf m := by decide +kernel
  exact ⟨h.hbm, h.mailbox, h.scratch, hc, h.dies, h.cores, h.welt, h.ports, h.links, h.weaves, h.flights⟩

/-- A block at 0x100 with DLCTL and TLBGEN changed and not; weaves that wait for room in the ring and the log. -/
def sBlock (mem : List (Nat × List Byte)) (w : Weave) (te : Tenant) : State :=
  { sHost mem [aQueue 0 0 0] with tenants := [{ te with ecb := 0x100 }], crews := [crewOf w] }
theorem witness_Registers_pages :
    (let w : Weave := { wSup with handler := some (.ringFull 3) }
     let s := sBlock [] w harnessTenant
     s.covered m1 = true ∧ s.tenant? 0 = some { harnessTenant with ecb := 0x100 } ∧ s.crew? 0 = some (crewOf w) ∧ (crewOf w).owner = 0 ∧
      s.weave? 0 0 = some w ∧ w.handler = some (.ringFull 3) ∧ s.partOf 3 = harnessTenant.part ∧ 3 < harnessTenant.gens.length) ∧
    (let w : Weave := { w0 with wait := .dirtyLog }
     (sBlock [] w harnessTenant).weave? 0 0 = some w ∧ w.wait = .dirtyLog) ∧
    (let s := sBlock [(0x140 + 80, [1]), (0x140 + 88, [2])] w0 harnessTenant
     (s.psb 0 10).setWidth 32 ≠ harnessTenant.dlctl.setWidth 32 ∧ (s.psb 0 11).setWidth 32 ≠ harnessTenant.tlbgen.setWidth 32 ∧
      (s.psb 0 10).setWidth 32 = ({ harnessTenant with dlctl := 1 } : Tenant).dlctl.setWidth 32 ∧
      (s.psb 0 11).setWidth 32 = ({ harnessTenant with tlbgen := 2 } : Tenant).tlbgen.setWidth 32) := by decide +kernel

/-- A request in slot 2, of generation 4, that a weave waits for; its answer RETRY, FAIL, and one of another generation; a
full log of a queue that is there. -/
def aReq : PageReq := { slot := 2, va := 0x10000, gen := 4, weaves := [(0, 0)], cids := [0], others := [], live := true }
def sAnswer (answer gen : Nat) : State :=
  let w : Weave := { wSup with handler := some (.pageWait 3) }
  sBlock [(0x140, bytesLE 8 0x3000), (0x3080 + 24, bytesLE 4 answer ++ bytesLE 4 gen)] w { harnessTenant with reqs := [aReq] }
theorem witness_Registers_answer :
    (∀ x ∈ [(1, 4), (2, 4), (1, 5), (0, 4)], (let s := sAnswer x.1 x.2
      s.tenant? 0 = some { harnessTenant with ecb := 0x100, reqs := [aReq] } ∧ ((s.psb 0 0).toNat + 64 * 2) % 2 ^ 52 = 0x3080 ∧
        (match s.deviceRead 0 0x3080 64 with
          | .ok bs => natLE ((bs.drop 24).take 4) == x.1 && natLE ((bs.drop 28).take 4) == x.2
          | .error _ => false) = true)) ∧
    (∀ g ∈ [4, 5], [aReq].find? (fun r => r.live && r.slot == 2 && r.gen.toNat == g) = if g = 4 then some aReq else none) ∧
    (sAnswer 1 4).weave? 0 0 = some { wSup with handler := some (.pageWait 3) } ∧
    ((State.markUsed (sAnswer 2 4) 0 0x3080 64).severity 0).getLsbD 3 = false ∧
    (let te : Tenant := { harnessTenant with dlctl := 5 * 2 ^ 32 }
     (sBlock [] w0 te).queue? (bitsOf te.dlctl.toNat 32 10) = some (aQueue 0 0 0)) := by
  refine ⟨?_, by decide +kernel, by decide +kernel, by decide +kernel, by decide +kernel⟩
  decide +kernel

/-- R59: KEY_SET with arguments in range answers STATUS 0, SEQ 1. -/
theorem test_keySet : (match exec (.keySet m0 4) (sMail [1, 7, 0x2000, 0x100, 1] (sHost [] [])) with
    | .next t => some t.mgmt.mres
    | _ => none) = some 0x10000 := by decide +kernel
/-- R25: a ceiling of 281 is refused. -/
theorem test_pwrCtl : (match exec (.pwrCtlWrite m0 281) (sHost [] []) with
    | .next t => some (t.mgmt.pwrErr, t.mgmt.ceil)
    | _ => none) = some (true, 250) := by decide +kernel

/-! ## Witnesses: power, links, errors, placement, Scevar -/

def onDie (d : Nat) (p : Power) (next : Option Nat) (s : State) : State := s.modDie d fun x => { x with power := p, nextP := next }

/-- 99 and 98 samples before this one; a prediction at and above five times the ceiling; die 2 the hottest at P4. -/
theorem witness_Platform_power :
    (∀ n ∈ [98, 99], (([100] ++ List.replicate n 100).drop (n + 1 - 100)).length = n + 1) ∧ Inv (sHost [] []) ∧
    (1250 ≤ 5 * (sHost [] []).mgmt.ceil.toNat ∧ 5 * (sHost [] []).mgmt.ceil.toNat < 1251 ∧ (sHost [] []).now < (sHost [] []).mgmt.lastLift + 1000000) ∧
    (let s := onDie 2 (.on 4) none { sHost [] [] with env := { Env.quiet with predicted := [1251], hottest := [2], hotDies := [2] } }
     s.env.predicted = [1251] ∧ s.hottest.find? (fun d => (s.die d).target.getD 5 < 5) = some 2 ∧ (s.die 2).power = .on 4 ∧
      (s.die 2).nextP = none ∧ (s.die 2).queuedP = none ∧ s.env.hotDies.contains 2 = true) ∧
    (let s := onDie 3 (.on 1) (some 2) (sHost [] [])
     3 < s.dies.length ∧ (s.die 3).power = .on 1 ∧ (s.die 3).nextP = some 2 ∧ (s.die 3).queuedP = none) :=
  ⟨by decide +kernel, inv_host (by decide +kernel), by decide +kernel, by decide +kernel, by decide +kernel⟩

/-- Die 0 with a crew and without, in every state; die 1 stands in for it; PREQ set and clear. -/
theorem witness_Platform_parking : Inv (sHost [] []) ∧
    (∀ p ∈ [Power.on 0, .parking, .parked, .unparking], ((onDie 0 p none (sHost [] [])).die 0).power = p ∧
      (onDie 0 p none (sHost [] [])).partOf 1 = (onDie 0 p none (sHost [] [])).partOf 0 ∧
      ((onDie 0 p none (sHost [] [])).die 1).power ≠ .parked) ∧
    (∃ c ∈ (sHost [] []).crews, ∃ k, c.holds? = some k ∧ k / 64 = 0) ∧
    (∀ c ∈ ({ sHost [] [] with crews := [] } : State).crews, ∀ k, c.holds? = some k → k / 64 ≠ 0) ∧
    (sHost [] []).mgmt.preq.getLsbD 0 = false ∧ ({ Mgmt.reset with preq := 1 } : Mgmt).preq.getLsbD 0 = true :=
  ⟨inv_host (by decide +kernel), by decide +kernel, ⟨crewOf w0, List.mem_singleton.mpr rfl, 0, rfl, rfl⟩, by simp, by decide +kernel, by decide⟩

/-- Link 0 up after 62 and after 63 failures in a row, retraining and dead; port 7. -/
theorem witness_Platform_links :
    (∀ l ∈ [Welt.mk .up 62, ⟨.up, 63⟩, ⟨.retraining, 64⟩, ⟨.dead, 0⟩],
      (let s : State := { sHost [] [] with welt := l :: List.replicate 3 ⟨.up, 0⟩, env := { Env.quiet with passed := false } }
       s.env.badLink = 0 ∧ s.welt[(0 : Nat)]? = some l ∧ s.env.passed = false)) ∧
    (sHost [] []).ports[(7 : Nat)]? = some ⟨false, false, false⟩ := by decide +kernel

/-- Errors of every kind, each at something that is there; scrub of stack 3. -/
theorem witness_Platform_errors :
    ({ sHost [] [] with env := { Env.quiet with sites := [.hbm 0x200021, .l1 0 5] } } : State).env.sites = [.hbm 0x200021, .l1 0 5] ∧
    (assocGet (sHost [] []).keyTags (0x200021 / 256) = none ∧ (sHost [] []).tenant? 255 = none) ∧
    (0 < 1 ∧ ∃ k < 32, 0x200021 / 32 * 32 + k < 0x200021 + 1 ∧ 0x200021 ≤ 0x200021 / 32 * 32 + k) ∧
    ((onC (cTbl .valid)).crew? 0 = some (cTbl .valid) ∧ ((onC (cTbl .valid)).severity 0).getLsbD 4 = false ∧
      (cTbl .valid).tables[(0 : Nat)]? = some (aTbl .valid) ∧ (aTbl .valid).state = .valid) ∧
    ((on w0).crew? 0 = some (crewOf w0) ∧ (on w0).weave? 0 0 = some w0 ∧ w0.pend = none ∧ ((on w0).severity 0).getLsbD 4 = false) ∧
    (sHost [] []).stackErrs[(3 : Nat)]? = some 0 := by
  refine ⟨rfl, by decide +kernel, ⟨by decide, 1, by decide, by decide, by decide⟩, by decide +kernel, by decide +kernel, by decide +kernel⟩

/-- A launch with unit 4 unplaced, at home on die 0; the same as gangs of two. -/
def aLaunch (gang : Bool) : Launch :=
  { harnessLaunch with lid := 1, count := 8, unplaced := [(4, 8)], recDie := some 0, lrec := ⟨gang, false, 40, if gang then 1 else 0, 0, 0xFF, 0, 0, 0x100, 0, 16, 0, 0, 8, 16, 0, 0, 1⟩ }
def sPlace (gang : Bool) : State := { sHost [] [] with launches := [harnessLaunch, aLaunch gang], ids := 2 }
def anItem (gang : Bool) : Item := ⟨aLaunch gang, 0, 0, 4, .unit 4⟩

theorem witness_Residency_place : (sPlace false).firstAct 0 = some (.plain (anItem false) 1) ∧ (anItem false).what = .unit 4 ∧
    (sPlace false).launch? (anItem false).l.lid = some (anItem false).l ∧
    (sPlace false).bestCore [] 0 (aLaunch false).shape.need = some 1 := by decide +kernel

/-- A core whose first `n` steps of accumulator tiles are out of use. -/
def tilesOut (n : Nat) : Core := { Core.reset with out := (List.range n).map fun k => (3, k) }

/-- A gang that finds its cores, and one for which only core 1 has accumulator tiles left, each member needing them all. -/
theorem witness_Residency_gang :
    (let s : State := { sPlace true with gangRes := [⟨1, 4, 0, [1, 2], []⟩] }
     s.firstAct 0 = some (.gang (anItem true) [1, 2]) ∧ (anItem true).unit = 4 ∧ (anItem true).what = .unit 4 ∧ s.freeBlock 0 = some 0 ∧
      s.launch? (anItem true).l.lid = some (anItem true).l) ∧
    (let l : Launch := { aLaunch true with lrec := { (aLaunch true).lrec with accq := 128 } }
     let full : Core := tilesOut 16
     let s : State := { sPlace true with launches := [l], cores := Core.reset :: Core.reset :: List.replicate 254 full }
     s.firstAct 0 = some .reserve) := by decide +kernel

/-- A crew that waits at barrier 1 of its launch on the one core with room, and a unit of the launch that waits for it. -/
def cWaits : Crew := crewOf { w0 with wait := .barrier 4 1 0 }
def sRotate : State :=
  let one : Launch := { harnessLaunch with count := 2, unplaced := [(1, 2)], recDie := some 0, lrec := { harnessLaunch.lrec with accq := 16 } }
  let s : State := { sHost [] [] with launches := [one], crews := [cWaits] }
  let s : State := { s with cores := tilesOut 14 :: List.replicate 255 (tilesOut 16) }
  onDie 1 .parked none (onDie 2 .parked none (onDie 3 .parked none s))

theorem witness_Residency_rotate : 0 < sRotate.dies.length ∧ sRotate.pre = [] ∧ (∀ e < 4, e ≠ 0 → (sRotate.die e).accepts = false) ∧
    (sRotate.die 0).accepts = true ∧ (sRotate.die 0).save = none ∧ sRotate.firstAct 0 = none ∧
    (∃ x, sRotate.dropImpossible 0 = sRotate ∧ (sRotate.waiting 0).filter (fun x => sRotate.canRestore 0 x || sRotate.limitReached x.l) = [x] ∧ sRotate.firstTier 0 x = true ∧
      sRotate.victimsFor 0 x = [cWaits]) ∧
    (sRotate.die 0).stashFor (sRotate.imageSize (sRotate.unitCids cWaits)) = some false ∧
    (∀ c ∈ sRotate.crews, ∀ w ∈ c.weaves, w.handler = none) ∧ sRotate.crew? 0 = some cWaits ∧ cWaits.place = .resident 0 := by
  and_intros
  all_goals try decide +kernel
  have h : (match sRotate.waiting 0 with
    | [x] => decide (x.what = .unit 1) && sRotate.canRestore 0 x && sRotate.firstTier 0 x && decide (sRotate.victimsFor 0 x = [cWaits])
    | _ => false) = true := by decide +kernel
  split at h
  · next x e =>
    simp only [Bool.and_eq_true, decide_eq_true_eq] at h
    obtain ⟨⟨⟨hu, hr⟩, ht⟩, hv⟩ := h
    refine ⟨x, ?_, by simp [e, hr], ht, hv⟩
    unfold State.dropImpossible
    rw [e]
    simp [hu]
  · cases h

/-- A save under way, to the commons and to HBM; one that waits for a load; a restore. -/
theorem witness_Residency_save :
    (let s : State := (sHost [] []).modDie 0 fun d => { d with save := some ⟨[0], 0, false, none, []⟩ }
     0 < s.dies.length ∧ (s.die 0).save = some ⟨[0], 0, false, none, []⟩ ∧ s.pre = [] ∧ s.crew? 0 = some (crewOf w0) ∧ (crewOf w0).inGang = false ∧
      s.inFlight 0 = false ∧ (s.die 0).stashFor (crewOf w0).imageBytes = some false ∧ (s.saved 0 [0] false).bringIn 0 none = none ∧
      ({ Die.reset with stashBytes := 2 ^ 23 } : Die).stashFor (crewOf w0).imageBytes = some true ∧
      ({ s with publs := [⟨9, 0, 0, 0⟩] } : State).inFlight 0 = true) ∧
    (let c : Crew := { crewOf w0 with place := .restoring 3 }
     let s : State := (onC c).modDie 0 fun d => { d with restore := some ⟨[0], 0, false, none, []⟩ }
     0 < s.dies.length ∧ (s.die 0).restore = some ⟨[0], 0, false, none, []⟩ ∧ s.crews = [c] ∧ c.cid = 0 ∧ c.place = .restoring 3 ∧ c.inGang = false ∧
      c.imageBad = false) := by decide +kernel

/-- A save that makes room for unit 4 of another launch, and one that makes room for a saved crew. -/
theorem witness_Residency_bring :
    (let s : State := (sPlace false).modDie 0 fun d => { d with save := some ⟨[0], 0, false, some (1, .unit 4), []⟩ }
     (s.saved 0 [0] false).bringIn 0 (some (1, .unit 4)) = some (anItem false, 0) ∧ [0].head?.bind s.crew? = some (crewOf w0) ∧
      (∀ cid ∈ [0], s.inFlight cid = false) ∧ (s.die 0).stashFor (s.imageSize [0]) = some false) ∧
    (let away : Crew := { crewOf w0 with cid := 1, place := .stashed 0 false }
     let s : State := { sHost [] [] with crews := [crewOf w0, away], launches := [{ harnessLaunch with recDie := some 0 }] }
     let s : State := s.modDie 0 fun d => { d with save := some ⟨[0], 0, false, some (0, .back [1]), []⟩ }
     ((s.saved 0 [0] false).bringIn 0 (some (0, .back [1]))).map (fun y => (y.1.what, y.2)) = some (.back [1], 0)) := by
  decide +kernel

theorem witness_Residency_preempt :
    ((∀ p ∈ (sHost [] []).pre, p.why ≠ .forSwitch 0 ∧ p.id ≤ (sHost [] []).ids) ∧ (sHost [] []).preTargets (.forSwitch 0) ≠ []) ∧
    (∀ c ∈ ({ sHost [] [] with crews := [] } : State).crews, c.owner = 0 → c.holds? = none) ∧
    (let p : PreReq := ⟨1, .forPark 0, [0], [], false⟩
     let s : State := { sHost [] [] with pre := [p] }
     p ∈ s.pre ∧ s.pre = [p] ∧ p.targets = [(crewOf w0).cid] ∧ s.crew? (crewOf w0).cid = some (crewOf w0) ∧ (crewOf w0).inGang = false ∧
      (crewOf w0).place = .resident 0 ∧ 0 / 64 < s.dies.length ∧ (s.die (0 / 64)).save = none ∧
      (s.die (0 / 64)).stashFor (crewOf w0).imageBytes = some false ∧ ∀ w ∈ (crewOf w0).weaves, w.handler = none) := by
  refine ⟨⟨by decide +kernel, by decide +kernel⟩, by simp, by decide, ?_⟩
  exact ⟨rfl, rfl, rfl, rfl, rfl, by decide, rfl, by decide +kernel, by decide +kernel⟩

/-- Message 3 at the leaf's end of a command link, after message 2 and after message 3: a crew's end, a launch's end. -/
def aLink (acc : Option Nat) (b : LinkBody) : CmdLink :=
  { CmdLink.reset with up := { LinkDir.reset 16 with permits := 15, nextSeq := 4, wire := [(3, b)], sent := [(3, b)], accepted := acc } }
theorem witness_Scevar_links :
    (∀ b ∈ [LinkBody.crewDone 0 0, .endCause 0 .debugHalt],
      (let s : State := { sHost [] [] with links := aLink (some 2) b :: List.replicate 31 CmdLink.reset }
       s.links[(0 : Nat)]? = some (aLink (some 2) b) ∧ (aLink (some 2) b).up.wire = [(3, b)] ∧ (aLink (some 2) b).up.queue = [] ∧
        (∀ x, b ≠ .resync x) ∧ s.launch? 0 = some harnessLaunch ∧ harnessLaunch.ended = false ∧ harnessLaunch.firstErr = none ∧
        harnessLaunch.outstanding ≤ 1 ∧ harnessLaunch.unplaced = [] ∧ harnessLaunch.bins = [] ∧ s.copies = [] ∧ s.colls = [] ∧
        harnessLaunch.kind = .packet 0 0)) ∧
    (∀ a, (aLink (some 2) (.crewDone 0 0)).up.accepted = some a → a < 3) ∧ (aLink (some 3) (.crewDone 0 0)).up.accepted = some 3 := by
  refine ⟨?_, by simp [aLink], rfl⟩
  intro b hb
  simp only [List.mem_cons, List.not_mem_nil, or_false] at hb
  rcases hb with rfl | rfl <;> exact ⟨rfl, rfl, rfl, by simp, rfl, rfl, rfl, by decide, rfl, rfl, rfl, rfl, rfl⟩

/-- A committed transaction 1 that set object 7 to 9, an open one 2 that set object 8 to 6 from 5; two restarts within 1 s
before this one, and one. -/
def aRec (lsn tx : Nat) (ty : LogType) (obj : Nat) (b a : BitVec 128) (cmd : Option Instr) : LogRec := LogRec.sealed ⟨lsn, tx, ty, obj, b, a, cmd, 0⟩
/-- HBM holds every record. -/
def held (_ : LogRec) : Bool := true
def aScevar : Scevar :=
  { log := [aRec 1 1 .begin 0 0 0 (some (.qcmdCreate m1 0)), aRec 2 1 .update 7 0 9 none, aRec 3 1 .commit 0 0 0 none,
      aRec 4 2 .begin 0 0 0 (some (.qcmdDestroy m1 0)), aRec 5 2 .update 8 5 6 none],
    lsn := 5, txid := 2, objs := [(8, 6)], recent := [], hang := none, hung := false }
theorem sealed_ok (r : LogRec) : r.sealed.crcOk = true := by
  simp [LogRec.crcOk, LogRec.sealed, LogRec.body, LogRec.objField]
/-- Without a CHECKPOINT every record is read, when HBM holds each. -/
theorem scan_all {v : Scevar} (hc : v.log.all (fun r => r.type != .checkpoint) = true) : v.scan held = v.log := by
  rw [List.all_eq_true] at hc
  have hn : v.log.reverse.find? (fun r => r.type == .checkpoint && held r) = none := by
    rw [List.find?_eq_none]
    intro r hr
    have := hc r (List.mem_reverse.mp hr)
    simp_all
  simp only [Scevar.scan, hn, Nat.zero_le, decide_true, List.filter_true]
  exact List.takeWhile_eq_self_iff.mpr fun r _ => rfl
theorem scan_aScevar : aScevar.scan held = aScevar.log := scan_all rfl
theorem witness_Scevar_log :
    (∀ x ∈ aScevar.log, 0 < x.lsn ∧ x.lsn ≤ aScevar.lsn) ∧ (∃ r ∈ aScevar.log, r.type = .begin ∧ r.txid ∈ openTx aScevar.log) ∧
    aScevar.log.Pairwise (fun a b => a.lsn < b.lsn) ∧
    (∀ r ∈ aScevar.scan held, r.type = .update → r.obj = 7 → ∃ x ∈ aScevar.scan held, x.txid = r.txid ∧ x.type = .commit) ∧
    ((aScevar.scan held).filter fun r => r.type == .update && r.obj == 7).getLast? = some (aRec 2 1 .update 7 0 9 none) ∧
    ((aScevar.scan held).filter fun r => r.type == .update && r.obj == 8) = [aRec 5 2 .update 8 5 6 none] ∧ 2 ∈ openTx (aScevar.scan held) := by
  rw [scan_aScevar]
  refine ⟨?_, ?_, ?_, ?_, rfl, rfl, ?_⟩ <;> decide +kernel
theorem witness_Scevar_restart : (∀ n ∈ [1, 2], (let s : State := { sHost [] [] with scv := { aScevar with recent := List.replicate n 0 }, now := 999999999 }
      s.mgmt.ftl = false ∧ ((s.scv.recent.filter fun x => s.now < x + 1000000000) ++ [s.now]).length = n + 1)) ∧
    ({ Mgmt.reset with ftl := true } : Mgmt).ftl = true := by decide +kernel

/-- Tenant 0's slice at and past its end, with another that has work and with none; a tenant that has not run. -/
def aWaiter : Tenant := { harnessTenant with tag := 1, running := false }
theorem witness_Scevar_switch :
    (let te : Tenant := { harnessTenant with sliceEnd := 7 }
     let s : State := { sHost [] [aQueue 1 0 1] with tenants := [te, aWaiter] }
     (∀ p < 4, p ≠ 0 → ∀ u ∈ s.tenants, u.tag / 16 ≠ p) ∧ s.tenant? te.tag = some te ∧ te.tag / 16 = 0 ∧ te.running = true ∧
      (∀ u ∈ s.tenants, u.running = true → u.tag = te.tag) ∧ te.sliceEnd ≤ s.now ∧ s.tenant? aWaiter.tag = some aWaiter ∧
      aWaiter.tag / 16 = 0 ∧ s.tenantReady aWaiter = true ∧ ({ s with queues := [] } : State).tenantReady aWaiter = false ∧
      (sHost [] []).now < ({ te with sliceEnd := 8 } : Tenant).sliceEnd) ∧
    (let te : Tenant := { harnessTenant with running := false }
     let s : State := { sHost [] [] with tenants := [te], crews := [] }
     s.tenants = [te] ∧ te.tag < 64 ∧ te.running = false ∧ te.migrated = false ∧ te.sliceEnd = 0 ∧ s.holdsCores te.tag = false) := by
  decide +kernel

/-- R58: the third restart within 1 s is fatal. -/
theorem test_restart : (match exec .scevarRestart { sHost [] [] with scv := { aScevar with recent := [5, 6] } } with
    | .next t => some (t.mgmt.ftl, t.mgmt.restarts)
    | _ => none) = some (true, 1) := by decide +kernel

/-- A save area that cannot be written, one that holds no image that can be read, and one that holds the image of no queue;
a QGRANT of a queue that is in use. -/
theorem witness_Management_areas :
    (∃ e, State.writeSave (sHost [] []) 0 0x10000 = .error e) ∧ (∃ e, State.readSave (sHost [] []) 0 0x10000 = .error e) ∧
    (let s : State := { sMail [0, 0x3000] (sHost [(0x3000, bytesLE 8 16)] []) with tenants := [{ harnessTenant with running := false }] }
     s.tenant? (s.arg 0) = some { harnessTenant with running := false } ∧ s.arg 1 < 2 ^ 52 ∧
      (∀ u ∈ s.tenants, u.part = 0 → u.running = false ∧ u.phase = 0) ∧ ∃ s1, s.readSave (s.arg 0) (s.arg 1) = .ok s1) ∧
    (let s := sMail [0, 0x3000] (sHost [] [qIn .active])
     s.holdsCores (s.arg 0) = true ∧ ∃ s1, s.writeSave (s.arg 0) (s.arg 1) = .ok s1) ∧
    stateCode (sHost [] [qIn .active]) 5 = 1 := by
  have a : (match State.writeSave (sHost [] []) 0 0x10000 with | .error _ => true | .ok _ => false) = true := by decide +kernel
  have b : (match State.readSave (sHost [] []) 0 0x10000 with | .error _ => true | .ok _ => false) = true := by decide +kernel
  have c : (let s : State := { sMail [0, 0x3000] (sHost [(0x3000, bytesLE 8 16)] []) with tenants := [{ harnessTenant with running := false }] }
    match s.readSave (s.arg 0) (s.arg 1) with | .error _ => false | .ok _ => true) = true := by decide +kernel
  have d : (let s := sMail [0, 0x3000] (sHost [] [qIn .active])
    match s.writeSave (s.arg 0) (s.arg 1) with | .error _ => false | .ok _ => true) = true := by decide +kernel
  refine ⟨?_, ?_, ⟨by decide +kernel, by decide +kernel, by decide +kernel, ?_⟩, ⟨by decide +kernel, ?_⟩, by decide +kernel⟩
  · split at a
    · next e he => exact ⟨e, he⟩
    · cases a
  · split at b
    · next e he => exact ⟨e, he⟩
    · cases b
  · dsimp only at c
    split at c
    · cases c
    · next s1 he => exact ⟨s1, he⟩
  · dsimp only at d
    split at d
    · cases d
    · next s1 he => exact ⟨s1, he⟩

/-- The last die of an all-parked partition that comes back while another is still on its way and two are parked. -/
theorem witness_Platform_unpark : (let s : State := onDie 0 .unparking none (onDie 1 .unparking none (onDie 2 .parked none (onDie 3 .parked none (sHost [] []))))
    (s.die 0).power = .unparking ∧ (∀ e < 4, e ≠ 0 → s.partOf e = s.partOf 0 → (s.die e).power = .parked ∨ (s.die e).power = .unparking)) := by
  decide +kernel

/-- Errors in a die's TLB, in the table RAM, in the image of a crew that is away and in a core that holds no crew, new there
and found before; a new image that verifies or not. -/
theorem witness_Platform_units :
    (let away : Crew := { crewOf w0 with place := .stashed 0 false }
     (onC away).crew? 0 = some away ∧ away.core? = none ∧ ((onC away).severity 0).getLsbD 4 = false) ∧
    ((1 < (sHost [] []).cores.length ∧ ∀ c ∈ (sHost [] []).crews, c.holds? ≠ some 1) ∧
      (let s : State := (sHost [] []).modCore 1 fun k => { k with out := [(1, 3)] }
       (1, 3) ∈ (s.core 1).out ∧ (s.core 1).repairs = [] ∧ s.tenant? 255 = none)) ∧
    (∀ x ∈ [UeSite.dieTlb 2 0 7, .emptyCore 1 1 3], ({ sHost [] [] with env := { Env.quiet with sites := [x] } } : State).env.sites = [x]) ∧
    (∀ st ∈ [none, some [(0 : Byte), 1]], (let s : State := { sHost [] [] with mgmt := { Mgmt.reset with staged := st } }
      Config.imageVerifies ((if s.mgmt.staged.isSome then s.mgmt.staged else s.mgmt.running).getD Config.factoryImage) = true ∨
      Config.imageVerifies ((if s.mgmt.staged.isSome then s.mgmt.staged else s.mgmt.running).getD Config.factoryImage) = false)) := by
  refine ⟨by decide +kernel, ⟨by decide +kernel, by decide +kernel⟩, by decide +kernel, ?_⟩
  intro st _ s
  cases Config.imageVerifies _ <;> simp

theorem witness_Residency_first : (sPlace false).reserveLaunches.firstAct 0 = some (.plain (anItem false) 1) ∧
    (sPlace false).reserveLaunches.launch? (anItem false).l.lid = some (anItem false).l := by decide +kernel

/-- A save whose image is in error, and one for which no stash has room, of a tenant that is gone. -/
theorem witness_Residency_fails :
    (let bad : Crew := { crewOf w0 with place := .saving 0, imageBad := true }
     let s : State := { (onC bad).modDie 0 (fun d => { d with save := some ⟨[0], 0, false, none, []⟩ }) with tenants := [] }
     0 < s.dies.length ∧ (s.die 0).save = some ⟨[0], 0, false, none, []⟩ ∧ s.crew? 0 = some bad ∧ s.inFlight 0 = false ∧ bad.imageBad = true ∧
      s.tenant? bad.owner = none ∧ s.launch? bad.lid = some harnessLaunch ∧ harnessLaunch.kind = .packet 0 0 ∧ harnessLaunch.ended = false ∧
      harnessLaunch.firstErr = none) ∧
    (let s : State := (onC { crewOf w0 with place := .saving 0 }).modDie 0 fun d => { d with stashBytes := 2 ^ 23, hbmStashBytes := 2 ^ 40 }
     (s.die 0).stashFor (s.imageSize [0]) = none) := by decide +kernel

/-- A crew that comes back; a weave that no debugger halts. -/
theorem witness_Residency_calm : ∀ w ∈ ({ crewOf w0 with place := .restoring 3 } : Crew).weaves, w.haltsScope = false := by decide

/-- A pre-emption for a unit that has been placed, and for one that waits; a target that holds a core. -/
theorem witness_Residency_passed :
    (let p : PreReq := ⟨1, .forUnit 0 1 9, [0], [], false⟩
     let s : State := { sPlace false with pre := [p] }
     s.pre = [p] ∧ s.passed p = true ∧ p.saving = false) ∧
    (let p : PreReq := ⟨1, .forUnit 0 1 4, [0], [], false⟩
     let s : State := { sPlace false with pre := [p] }
     s.passed p = false ∧ p.targets = [(crewOf w0).cid] ∧ s.crew? 0 = some (crewOf w0) ∧ (s.die 0).save = none ∧ p.targets ≠ [] ∧ p ∈ s.pre) ∧
    (let p : PreReq := ⟨1, .forPark 0, [0], [], false⟩
     ({ sHost [] [] with pre := [p] } : State).passed p = false) := by decide +kernel

theorem witness_Scevar_end : (let s : State := { sHost [] [] with links := aLink (some 2) (.endCause 0 .debugHalt) :: List.replicate 31 CmdLink.reset }
    s.launch? 0 = some harnessLaunch ∧ harnessLaunch.kind = .packet 0 0 ∧ harnessLaunch.posted = false ∧ s.engineBusy 0 = false) := by decide +kernel

/-- A state in which a queue has been granted beside the one before. -/
def sGranted : State := { sHost [] [] with queues := [qIn .active] }
/-- A step that changes an object, on a log with room, at a point where Scevar stops, and while it is stopped. -/
theorem witness_Scevar_transaction :
    (changedObjects (sHost [] []).scvObjects sGranted.scvObjects ≠ [] ∧ Instr.qgrant m0 6 ≠ .moduleReset ∧ (sHost [] []).scv.hang = none ∧
      sGranted.scv = (sHost [] []).scv) ∧
    (let s : State := { sHost [] [] with scv := { aScevar with hang := some 1 } }
     changedObjects s.scvObjects sGranted.scvObjects ≠ [] ∧ scevarEvent (.qgrant m0 6) = true ∧ scevarEvent .tenantSwitch = true ∧
      s.scv.hang = some 1 ∧ (∀ r ∈ s.scv.log, r.txid ≤ s.scv.txid)) ∧
    (let s : State := { sHost [] [] with scv := { aScevar with hung := true }, agenda := [.event 0], pending := [.tenantSwitch] }
     s.agenda = .event 0 :: [] ∧ s.pending[0]? = some .tenantSwitch ∧ isEvent .tenantSwitch = true ∧ s.works .tenantSwitch = true ∧
      s.scv.hung = true ∧ scevarEvent .tenantSwitch = true ∧ Instr.tenantSwitch ≠ .scevarRestart) := by
  refine ⟨?_, ?_, ?_⟩ <;> and_intros <;> first | rfl | decide +kernel

/-- A tenant that is to run, in each phase of a switch. -/
theorem witness_Scevar_phases : ∀ p ∈ [0, 3, 4, 5], ∀ e ∈ [0, 9], (let te : Tenant := { harnessTenant with running := false, phase := p, sliceEnd := e }
    let s : State := { sHost [] [] with tenants := [te], crews := [] }
    s.tenants = [te] ∧ te.tag < 64 ∧ te.running = false ∧ te.migrated = false ∧ s.holdsCores te.tag = false) := by decide +kernel
/-- R64: the three steps of a switch, each a step of the machine. -/
theorem test_switch : (let s (p e : Nat) : State := { sHost [] [] with tenants := [{ harnessTenant with running := false, phase := p, sliceEnd := e }], crews := [] }
    let go (s : State) : Option (Nat × Bool) := match exec .tenantSwitch s with
      | .next t => (t.tenant? 0).map fun x => (x.phase, x.running)
      | _ => none
    go (s 0 9) = some (3, false) ∧ go (s 3 9) = some (4, false) ∧ go (s 4 0) = some (5, false) ∧ go (s 5 0) = some (0, true)) := by decide +kernel

/-- R58: recovery redoes transaction 1, undoes 2 and carries its DESTROY out again. -/
theorem test_recovery : (aScevar.recover held).objs = [(8, 5), (7, 9)] ∧ aScevar.again held = [.qcmdDestroy m1 0] := by
  unfold Scevar.recover Scevar.again
  rw [scan_aScevar]
  exact ⟨rfl, rfl⟩

/-! ## Witnesses: further forms -/

/-- Elements 3 and 4 of a `TDEC`. -/
def tdecAt (n : Word) : VForm := { vf (lane (.v 8) (.v 4) .imm .none) with ty1 := .f32, ty2 := .t8, imm := n }
theorem witness_RegisterFrame_element : elementInRange (tdecAt 3) ∧ ¬ elementInRange (tdecAt 4) ∧
    (∀ n ∈ [3, 4], Issues (on w0) (.tdec (tdecAt n)) 0 0 w0) ∧ w0.mode = .user := by
  refine ⟨fun _ => by decide, fun h => absurd (h rfl) (by decide), ?_, rfl⟩
  intro n hn
  simp only [List.mem_cons, List.not_mem_nil, or_false] at hn
  rcases hn with rfl | rfl <;> exact issues_on (by decide +kernel)

/-- `EXMW` of a mask that holds no lane, without a record and with one that holds a lane. -/
theorem witness_SpecialRegisters_empty : (let f : VForm := vf (group .none .zero .none .none)
    Issues (on w0) (.exmw f) 0 0 w0 ∧ w0.readG f.imm f.hd.a &&& ~~~ w0.absent &&& ~~~ w0.helper &&& ~~~ w0.exited = 0 ∧ w0.toks = [] ∧
      w0.done = false ∧ w0.qPass f.hd = true ∧ Issues (on (wTok [anIf])) (.exmw f) 0 0 (wTok [anIf]) ∧
      ∃ t ∈ (wTok [anIf]).toks, t.rmask ≠ 0 ∨ t.pmask ≠ 0) :=
  ⟨issues_on (by decide +kernel), by decide +kernel, rfl, rfl, by decide +kernel, issues_on (by decide +kernel), anIf, by simp [wTok], .inl (by decide)⟩

/-- Loads and atomics of which helper lanes alone write, and of which no lane does; a die with a walker to spare and none. -/
def wHelp : Weave := { wXlb with exec := 0, helper := BitVec.allOnes 32 }
theorem witness_Access_helpers :
    (let f := mem (.v 5) 2
     let g : MForm := { mf (lane (.v 8) (.v 5) (.v 4) .none) with wid := 2, atop := 1 }
     (∀ i ∈ [Instr.ld f, .lds f, .ldc f, .atom g], Issues (on wHelp) i 0 0 wHelp) ∧ wHelp.actors f.hd = 0 ∧ wHelp.writers f.hd ≠ 0 ∧
      ({ wHelp with helper := 0 } : Weave).writers f.hd = 0 ∧ isVector g.hd.d = true) ∧
    walkerFree (on wXlb) 0 (.global 1) ∧
    ¬ walkerFree ((on wXlb).modDie 0 fun d => { d with walks := List.replicate 128 ⟨0, 0, [], [], []⟩ }) 0 (.global 1) := by
  refine ⟨⟨issues_all (by decide +kernel), by decide +kernel⟩, fun _ _ => by decide +kernel, fun h => ?_⟩
  have := h 1 rfl
  revert this; decide +kernel

/-- The log on, with a ring of 2 entries at 0x3000: empty, full; the page of VA 0 logged before and not. -/
def sDirty (prod : Nat) (te : Tenant) : State :=
  sBlock [(0x140 + 8, bytesLE 8 (2 ^ 13 + 2 ^ 8)), (0x140 + 56, bytesLE 8 0x3000), (0x140 + 64, bytesLE 8 prod)] wXlb te
theorem witness_Stores_log :
    (∀ n ∈ [0, 2], (sDirty n harnessTenant).dlen 0 = true ∧ (sDirty n harnessTenant).dlLog2 0 = 1 ∧
      (sDirty n harnessTenant).tenant? 0 = some { harnessTenant with ecb := 0x100 } ∧ 0 < harnessTenant.logged.length ∧
      ((0, 0) : Nat × Nat) ∉ nthD harnessTenant.logged 0 [] ∧ ((sDirty n harnessTenant).psb 0 8).toNat = n ∧
      ((sDirty n harnessTenant).dlcons 0).toNat = 0) ∧
    (let te : Tenant := { harnessTenant with logged := [[(0, 0)], [], [], []] }
     (sDirty 0 te).tenant? 0 = some { te with ecb := 0x100 } ∧ ((0, 0) : Nat × Nat) ∈ nthD te.logged 0 []) ∧
    ((sDirty 2 harnessTenant).logPages 0 0 [(0, 0)]).2 = false ∧ ((sDirty 0 harnessTenant).logPages 0 0 [(0, 0)]).2 = true := by
  decide +kernel

/-- `BARW` at a gang's and at a launch's barrier, before and after the weave has arrived; a wait that `TRET` finds again. -/
theorem witness_Barriers_wait :
    (∀ scp ∈ [2, 4], Issues (sGang w0) (.barw (bar scp)) 0 0 w0 ∧ w0.uniform (bar scp).hd = true) ∧
    (gangCrew w0).cont = false ∧ (gangCrew w0).inGang = true ∧ ((gangCrew w0).pendOf 2 15).getLsbD 0 = false ∧
    ((gangCrew w0).setPend 2 15 1).pendOf 2 15 = 1 ∧
    (∀ scp ∈ [1, 2, 4], (let w : Weave := { wSup with kept := .barrier scp 15 0 }
      Issues (sGang w) (.tret (sf (lane .none .none .none .none))) 0 0 w ∧ (gangCrew w).known scp 15 = 0 ∧
        w.acts (lane .none .none .none .none) = true)) := by
  refine ⟨?_, rfl, rfl, by decide +kernel, by decide +kernel, ?_⟩
  · intro scp h
    simp only [List.mem_cons, List.not_mem_nil, or_false] at h
    rcases h with rfl | rfl <;> exact ⟨issues_of rfl rfl rfl (by decide +kernel), by decide +kernel⟩
  · intro scp h
    simp only [List.mem_cons, List.not_mem_nil, or_false] at h
    rcases h with rfl | rfl | rfl <;> exact ⟨issues_of rfl rfl rfl (by decide +kernel), by decide +kernel, by decide +kernel⟩

/-- Lanes that name two format words; two `LKA`s on one B block and on two, and their sets. -/
theorem witness_LookupAndTiles_fusion :
    (let f : EForm := ef (lane .none .zero (.v 1) .none)
     AccordReady (onC (cTbl .valid)) (.lka f) 0 0 w0 f (cTbl .valid) 0 ∧ ∀ fw, ¬ votesFor w0 f fw) ∧
    (let c : Crew := { crewOf w0 with tables := [aTbl .valid, aTbl .valid] ++ List.replicate 14 Tbl.unbound }
     let d : PlaneD := ⟨0, List.replicate 256 0⟩
     let s (off : Nat) : State := (onC c).modCore 0 fun k => { k with accq := [.lka 0 0 0 1 0 0 0x200 0 d, .lka 0 0 0 1 1 1 off 0 d] }
     (∀ off ∈ [0x200, 0x400], ((s off).core 0).accq = [.lka 0 0 0 1 0 0 0x200 0 d, .lka 0 0 0 1 1 1 off 0 d] ∧ (s off).crew? 0 = some c) ∧
      c.inGang = false ∧ c.tiles.length = 128 ∧ c.tables[(1 : Nat)]? = some (aTbl .valid) ∧ (0 : Word).getLsbD 3 = false ∧
      (aTbl .valid).kg = kgOf 0 ∧ 0x200 + (0 + 1) * (32 + (0 + 1) * 32 * 4) ≤ windowBytes c ∧
      ∀ b ∈ [0, 1], (nthD c.tiles b ⟨false, []⟩).data = []) := by
  refine ⟨⟨accord_ready rfl (by decide +kernel), fun fw h => ?_⟩, by decide +kernel⟩
  have h0 := h 0 (by decide) (by decide +kernel)
  have h1 := h 1 (by decide) (by decide +kernel)
  rw [← h1] at h0
  revert h0; decide +kernel

/-- A collective of two that waits for its second participant, who names another kind; one of three. -/
theorem witness_Engines_disagree : (let w := wColl 16 1 2
    let p (n : Nat) : Part := ⟨1, 1, 0, 2, 1, 0, 0x1000, 0x2000, 16, 0, n, 0⟩
    let x (n : Nat) : Coll := ⟨7, 0, 0, [p n], false, false, 0⟩
    let s (n : Nat) : State := { on w with colls := [x n] }
    (∀ n ∈ [2, 3], Issues (s n) (.coll (coll 1 0)) 0 0 w ∧ (s n).colls = [x n] ∧ (s n).crew? 0 = some (crewOf w)) ∧
      w.readG 0 ((Operand.g 0).plus 7) = 0 ∧ (p 2).kind ≠ (coll 1 0).ctl.toNat % 8 ∧ (x 2).parts.length + 1 = (p 2).n ∧
      (x 3).parts.length + 1 ≠ (p 3).n) := by
  refine ⟨?_, by decide +kernel⟩
  intro n hn
  simp only [List.mem_cons, List.not_mem_nil, or_false] at hn
  rcases hn with rfl | rfl <;> exact ⟨issues_of rfl rfl rfl (by decide +kernel), rfl, rfl⟩

/-- An `ENQ` for whose slot the log has no room. -/
theorem witness_DynamicWork_log : (let s : State := { sDirty 2 harnessTenant with queues := [aQueue 0 0 15] }
    s.queue? 5 = some (aQueue 0 0 15) ∧ (s.logPages 0 0 (s.rangePages 0 (.glb 0x23C0) 64)).2 = false ∧ noErrors s) := by
  refine ⟨by decide +kernel, by decide +kernel, rfl, rfl⟩

/-- A message under another key, one of a context whose key is void, and one of no context. -/
theorem witness_HostAccess_forged :
    ((sHost [] []).ctx? m1.ctx = some (aCtx 0 [⟨2, 0x1000, 0x1000, true, true⟩]) ∧ ({ m1 with auth := .named 6 } : Msg).auth ≠ (aCtx 0 []).tss) ∧
    (sHost [] []).ctx? ({ m1 with ctx := 9 } : Msg).ctx = none := ⟨⟨rfl, by decide⟩, rfl⟩

/-- A read that has met a fault, a queue that has stopped with a read under way. -/
theorem witness_Queues_fault : (let q : Queue := { aQueue 0 1 2 with reading := 1, fault := some 1 }
    (sHost [] [q]).queue? 5 = some q ∧ imageCalm (errored ((sHost [] [q]).modQueue 5 fun y => { y with reading := 0, fault := none }) 5 .queueFetchFault 1) 5 ∧
    (let q : Queue := { qIn .error with tail := 2, reading := 1 }
     (sHost [] [q]).queue? 5 = some q ∧ (sHost [] [q]).serves q = false ∧ 0 < q.reading ∧ q.fault = none)) := by
  simp only [imageCalm, errored]
  refine ⟨?_, ?_, ?_, ?_, ?_, ?_⟩ <;> decide +kernel

/-- Two instances that live, for a third RUN. -/
theorem witness_Graphs_third : (let g : Graph := { gBound with insts := [anInst 0 [], { anInst 0 [] with id := 8 }] }
    OnGraph (sGraph [] (graphPacket 2 0) g) 5 9 (qWith (graphPacket 2 0)) (pk (graphPacket 2 0)) g ∧ g.state = .bound ∧ 2 ≤ g.insts.length) :=
  ⟨on_graph (by decide +kernel), rfl, by decide⟩

/-- A RUN whose source array is short, and one whose stages ask for a gang. -/
theorem witness_Graphs_refused :
    ¬ (∀ x ∈ gRun.chans.zip (arraysOf gRun.chans (List.replicate 64 0)), gRun.arrayNeed x.1 ≤ x.2.2 ∧ x.2.1 < 2 ^ 52) ∧
    (let n := natLE (aLrec 32 16) + 2 ^ 8
     lrecOk n = true ∧ (lrecOf n).gang = true) ∧ lrecOk (natLE (aLrec 0 16)) = false := by
  refine ⟨fun h => ?_, by decide +kernel, by decide +kernel⟩
  have := (h (aChan 0xFF 0 0 1, (0, 0)) (by decide +kernel)).1
  revert this; decide +kernel

/-- A failing instance whose crews have handed over nothing that is left. -/
theorem witness_Graphs_drained : (let i : Inst := { anInst 1 [0] with lids := [0], failing := some .memoryUe }
    i.failing.getD .graphFaulted = .memoryUe ∧ ∀ y ∈ (sHost [] []).crews, y.lid ∈ i.lids ∨ (∃ st j, y.stage = some (3, 7, st, j)) →
      ∀ r ∈ y.rings, r.input = false → r.h0.busy = false ∧ r.h1.busy = false) := by
  refine ⟨rfl, fun y hy _ r hr => ?_⟩
  obtain rfl := List.mem_singleton.mp hy
  cases hr

/-- A MIGRATE_OUT whose tenant has left its cores, with an operation of its that waits for the log; one that has stopped it. -/
theorem witness_Management_leaving :
    (let s : State := { sMail [0, 0x3000] (sHost [] [qIn .active]) with tenants := [{ harnessTenant with running := false }], crews := [] }
     s.leaving (s.arg 0) = false ∧ (s.logCursors (s.arg 0)).2 = true ∧ s.mgmt.args = [] ∧
      (match s.writeSave (s.arg 0) (s.arg 1) with | .ok u => (u.logCursors 0).2 | .error _ => false) = true) ∧
    (let s := sMail [0, 0x3000] (sHost [] [qIn .active])
     s.leaving (s.arg 0) = true) ∧
    (let g : Graph := gBound
     let s : State := { sMail [0, 0x3000] (sDirty 2 harnessTenant) with graphs := [g], crews := [] }
     (s.logCursors (s.arg 0)).2 = false) := by decide +kernel

/-- A save whose crew has met a second trap; nothing that it makes room for; a unit for which a core is free at the drain's end. -/
theorem witness_Residency_second :
    (let w : Weave := { wSup with pend := some ⟨.memoryUe, true, 0x100, 1, []⟩ }
     let c : Crew := { crewOf w with place := .saving 0 }
     let s : State := { (onC c).modDie 0 (fun d => { d with save := some ⟨[0], 0, false, none, []⟩ }) with tenants := [] }
     s.crew? 0 = some c ∧ c.weaves = [w] ∧ w.mode = .super ∧ w.pendReady = true ∧ s.tenant? c.owner = none ∧ s.inFlight 0 = false ∧
      c.inGang = false ∧ (s.die 0).stashFor c.imageBytes = some false) ∧
    (let s : State := (sHost [] []).modDie 0 fun d => { d with save := some ⟨[0], 0, false, none, []⟩ }
     ((s.saved 0 [0] false).reserveShares 0).bringIn 0 none = none ∧ (∀ w ∈ (crewOf w0).weaves, w.mode = .super → w.pendReady = false)) ∧
    (let s : State := (sPlace false).modDie 0 fun d => { d with save := some ⟨[0], 0, false, some (1, .unit 4), []⟩ }
     ((s.saved 0 [0] false).reserveShares 0).bringIn 0 (some (1, .unit 4)) = some (anItem false, 0)) ∧
    (let p : PreReq := ⟨1, .forUnit 0 1 4, [0], [], false⟩
     let s : State := { sPlace false with pre := [p] }
     s.passed p = false ∧ s.placeFirst p.id = some 0 ∧ ({ sHost [] [] with pre := [⟨1, .forPark 0, [0], [], false⟩] } : State).placeFirst 1 = none) := by
  decide +kernel

/-- A weave that a debugger has halted and that no image keeps so. -/
theorem witness_LaterTraps_kept : ({ wSup with handler := some .halted } : Weave).haltKept = false := by decide +kernel

/-- A switch whose crews have just left, and one whose cursors find no room in the log. -/
theorem witness_Scevar_steps :
    (let te : Tenant := { harnessTenant with running := false, phase := 1, sliceEnd := 9 }
     let s : State := { sHost [] [] with tenants := [te], crews := [] }
     s.tenants = [te] ∧ te.sliceEnd ≠ 0 ∧ te.phase = 1 ∧ s.holdsCores te.tag = false ∧ (s.logCursors te.tag).2 = true) ∧
    (let te : Tenant := { harnessTenant with running := false, phase := 2, sliceEnd := 9 }
     let s : State := { sDirty 2 te with graphs := [gBound], crews := [] }
     s.tenants = [{ te with ecb := 0x100 }] ∧ (s.logCursors te.tag).2 = false) := by decide +kernel

/-- A record of the log as HBM holds it. -/
theorem witness_Scevar_held : (let r := aRec 1 1 .checkpoint 0 0 0 none
    let s : State := ({ sHost [] [] with tenants := [] } : State).hbmWrite 255 r.pa r.bytes
    r.crcOk = true ∧ s.hbmUe r.pa 64 = false) := by
  refine ⟨sealed_ok _, rfl⟩

/-! ## The spec's worked results -/

/-- v4, v5 and v6 hold 3.0, −10.3 and 0.25 in lane 0 and 0 in the others. -/
def wPack : Weave :=
  { w0 with v := (w0.v.zip (List.range 16)).map fun x => match x.2 with
      | 4 => .gen (Lane.ofWord 0x40400000 :: List.replicate 31 Lane.zero)
      | 5 => .gen (Lane.ofWord 0xC124CCCD :: List.replicate 31 Lane.zero)
      | 6 => .gen (Lane.ofWord 0x3E800000 :: List.replicate 31 Lane.zero)
      | 7 => .uni Lane.zero
      | _ => x.1 }
/-- VALUE of lane 0 and the side bits of lanes 0 to 7 of v8 after an instruction. -/
def packed (w : Weave) (i : Instr) : Option (Word × List Bool) :=
  match exec i (on w) with
  | .next t => (t.weave? 0 0).map fun w' => (w'.valueOf 0 (.v 8) 0, (List.range 8).map fun l => ((nthD w'.v 8 (.uni Lane.zero)).lane l).sb)
  | _ => none

/-- R324: the I8G and the T8 granule of the worked example. -/
theorem test_gpack :
    packed wPack (.gpack { vf (lane (.v 8) (.v 4) .none .none) with ty1 := .i8g }) =
      some (0x0002AE18, [false, false, true, true, true, true, true, false]) ∧
    packed wPack (.gpack { vf (lane (.v 8) (.v 4) .none .none) with ty1 := .t8 }) =
      some (0x000CC528, [false, true, false, false, false, false, false, true]) := by decide +kernel

/-- Lane 0 after a conversion of `x`. -/
def converted (a b : Ty) (rnd : BitVec 4) (x : Word) : Option Word :=
  after { w0 with v := modNth w0.v 4 fun _ => .uni (Lane.ofWord x) } (.cvt { vf (lane (.v 8) (.v 4) .none .none) with ty1 := a, ty2 := b, mod := rnd }) (.v 8) 0

/-- R202: FP32 to INT8 of 2.5, −3.5 and 300, to E8M0 of 0.75 and 3; T8 to T6 of 1.5. -/
theorem test_cvt : converted .i8 .f32 0 0x40200000 = some 2 ∧ converted .i8 .f32 1 0xC0600000 = some 0xFFFFFFFD ∧
    converted .i8 .f32 0 0x43960000 = some 0x7F ∧ converted .e8m0 .f32 0 0x3F400000 = some 0x7E ∧
    converted .e8m0 .f32 0 0x40400000 = some 0x80 ∧ converted .t6 .t8 0 0x48 = some 0x12 ∧ converted .t6 .t8 0 0x23 = some 0x09 := by decide +kernel

/-- R315: HADD2 of 0x3C00_7BFF and itself, without `.sat` and with it. -/
theorem test_hadd2 : (let w : Weave := { w0 with v := modNth w0.v 4 fun _ => .uni (Lane.ofWord 0x3C007BFF) }
    after w (.hadd2 (vf (lane (.v 8) (.v 4) (.v 4) .none))) (.v 8) 0 = some 0x40007C00 ∧
    after w (.hadd2 { vf (lane (.v 8) (.v 4) (.v 4) .none) with mod := 8 }) (.v 8) 0 = some 0x40007BFF) := by decide +kernel

end Sys2Proof.Tests
end

section
/-! Exchanges, votes and reductions (R203, R305 to R307): how an instruction with one destination register completes, the
pairwise tree level by level, votes lane by lane, and obligation O14. -/

namespace Sys2Proof.Machine

/-! ## Instructions with one destination register -/

/-- A V-format instruction whose D names one register and which the Spin Recognizer does not exclude. -/
structure SingleDest (i : Instr) (f : VForm) : Prop where
  form : formOf i = .v f
  one : (specOf i).rd = .one
  plain : spinExcluded i = false

theorem Weave.issued_of_not_excluded {w : Weave} {i : Instr} (h : spinExcluded i = false) : w.issued i = w := by
  simp [Weave.issued, h]

/-- D, with the length of its run, is the first of the fields of an instruction. -/
theorem dest_mem_fieldRuns {i : Instr} {h : Head} (hh : (formOf i).head? = some h) :
    (h.d, runLen i (specOf i).rd) ∈ fieldRuns i := by
  simp [fieldRuns, hh, Head.operands, Spec.runs]

theorem Issues.dest_allotted {s : State} {i : Instr} {f : VForm} {cid wx : Nat} {w : Weave} (h : Issues s i cid wx w)
    (hd : SingleDest i f) : w.outOfRange f.hd.d 1 = false := by
  have hrun := h.allotted _ (dest_mem_fieldRuns (h := f.hd) (by rw [hd.form]; rfl))
  rwa [hd.one] at hrun

/-- The weave after a register instruction that the Spin Recognizer does not exclude. -/
theorem Issues.completes_plain {s : State} {i : Instr} {cid wx : Nat} {w : Weave} (h : Issues s i cid wx w)
    (hp : spinExcluded i = false) {run : Weave → Weave} (he : exec i s = s.issueAlu i run) {P : Weave → Prop}
    (hP : ∀ ws, P ((run w).note ws).next) : Completes s i cid wx P := by
  refine h.completesAlu he fun ws => ?_
  rw [Weave.issued_of_not_excluded hp]
  exact hP ws

/-- An instruction that writes D by `putGen` gives its writing lanes what it computes of the weave at issue (R126, R305). -/
theorem computesLanes_of_putGen {mk : VForm → Instr} {g lane : Weave → VForm → Nat → Lane} (hd : ∀ f, SingleDest (mk f) f)
    (he : ∀ f s, exec (mk f) s = s.issueAlu (mk f) fun w => w.putGen f.hd (g w f))
    (hl : ∀ w f, ∀ l < 32, g w f l = lane w f l) : ComputesLanes mk laneForm lane := by
  intro s cid wx w f hok hi
  refine hi.completes_plain (hd f).plain (he f s) fun ws => ?_
  have hr : Receives w (w.putGen f.hd (g w f)) f.hd f.hd.d (lane w f) :=
    receives_putV hok (hi.dest_allotted (hd f)) hi.formed.h fun l hlt _ => (lane_ofFn hlt).trans (hl w f l hlt)
  exact hr.of_eq rfl rfl rfl rfl

/-! ## What a predicate D receives -/

theorem ReceivesBits.of_eq {w w' w'' : Weave} {h : Head} {o : Operand} {f : Nat → Bool} (hr : ReceivesBits w w' h o f)
    (hp : w''.p = w'.p) (hq : w''.q = w'.q) : ReceivesBits w w'' h o f where
  lane := by rw [hp]; exact hr.lane
  group := by rw [hq]; exact hr.group

theorem putP_bit {w : Weave} {n : Fin 16} {m bits : Mask} (hn : n.val ≠ 0) (hp : w.p.length = 16) {l : Nat} (hl : l < 32) :
    (nthD (w.putP (.p n) m bits).p n.val 0).getLsbD l =
      if m.getLsbD l then bits.getLsbD l else (nthD w.p n.val 0).getLsbD l := by
  simp only [Weave.putP, if_neg hn]
  rw [nthD_modNth_same (by omega), BitVec.getLsbD_or, BitVec.getLsbD_and, BitVec.getLsbD_and, BitVec.getLsbD_not]
  cases m.getLsbD l <;> simp [hl]

theorem putQ_bit_same {w : Weave} {n : Fin 16} {b : Bool} (hn : n.val ≠ 0) : (w.putQ (.q n) b).q.getLsbD n.val = b := by
  simp only [Weave.putQ, if_neg hn]
  cases b <;> simp

/-- Bits written by `putPred` reach p in the writing lanes, and q when the guard passes (R286). -/
theorem receivesBits_putPred {w : Weave} {h : Head} {bits : Mask} {f : Nat → Bool} (hp : w.p.length = 16)
    (hf : ∀ l < 32, bits.getLsbD l = f l) : ReceivesBits w (w.putPred h bits) h h.d f where
  lane := fun hg n hd hn l hl => by
    simp only [Weave.putPred, hg, hd, Bool.false_eq_true, if_false]
    rw [putP_bit hn hp hl, hf l hl]
  group := fun hg n hd hn => by
    simp only [Weave.putPred, hg, if_true, hd]
    split
    · rw [putQ_bit_same hn, hf 0 (by decide)]
    · rfl

theorem computesBits_of_putPred {mk : VForm → Instr} {g : Weave → VForm → Mask} {bit : Weave → VForm → Nat → Bool}
    (hd : ∀ f, SingleDest (mk f) f) (he : ∀ f s, exec (mk f) s = s.issueAlu (mk f) fun w => w.putPred f.hd (g w f))
    (hb : ∀ w f, ∀ l < 32, (g w f).getLsbD l = bit w f l) : ComputesBits mk anyForm bit := by
  intro s cid wx w f _ hi
  refine hi.completes_plain (hd f).plain (he f s) fun ws => ?_
  exact (receivesBits_putPred hi.formed.p (hb w f)).of_eq rfl rfl

/-! ## What each instruction runs

An exchange or a reduction runs its `putGen` on the weave, a vote its `putPred`: `exec` unfolded for one instruction. -/

section

variable (f : VForm) (s : State)

theorem exec_qswz : exec (.qswz f) s = s.issueAlu (.qswz f) fun w => w.putGen f.hd fun l =>
    (w.read f.imm f.hd.a).lane (l / 4 * 4 + bitsOf (w.readG f.imm f.hd.b).toNat (2 * (l % 4)) 2) := rfl

theorem exec_qbc : exec (.qbc f) s = s.issueAlu (.qbc f) fun w => w.putGen f.hd fun l =>
    (w.read f.imm f.hd.a).lane (l / 4 * 4 + bitsOf (w.readG f.imm f.hd.b).toNat 0 2) := rfl

theorem exec_shfl (sel : ShflSel) : exec (.shfl sel f) s = s.issueAlu (.shfl sel f) fun w => w.putGen f.hd fun l =>
    (w.read f.imm f.hd.a).lane (shflLane sel l (w.valueOf f.imm f.hd.b l).toNat) := rfl

theorem exec_ball : exec (.ball f) s = s.issueAlu (.ball f) fun w => w.putGen f.hd fun _ =>
    Lane.ofWord (w.actors f.hd &&& w.predBits f.hd.a) := rfl

theorem exec_match : exec (.match_ f) s = s.issueAlu (.match_ f) fun w => w.putGen f.hd fun l =>
    Lane.ofWord (maskOf fun i => contributes w f i && w.valueOf f.imm f.hd.a i == w.valueOf f.imm f.hd.a l) := rfl

theorem exec_vote (sel : VoteSel) : exec (.vote sel f) s = s.issueAlu (.vote sel f) fun w =>
    w.putPred f.hd (if voteHolds sel (w.actors f.hd) (w.predBits f.hd.a) then BitVec.allOnes 32 else 0) := rfl

theorem exec_qred (sel : RedSel) : exec (.qred sel f) s = s.issueAlu (.qred sel f) fun w => w.putGen f.hd fun l =>
    Lane.ofWord ((redTree (redOp sel f.ty1 (VForm.rnd f)) 2 ((List.range (2 ^ 2)).map fun i =>
      some (w.valueOf f.imm f.hd.a (4 * (l / 4) + i)))).getD 0) := rfl

theorem exec_redw (sel : RedSel) : exec (.redw sel f) s = s.issueAlu (.redw sel f) fun w => w.putGen f.hd fun _ =>
    Lane.ofWord (w.redLanes sel f fun _ => true) := rfl

theorem exec_scanw (sel : RedSel) : exec (.scanw sel f) s = s.issueAlu (.scanw sel f) fun w => w.putGen f.hd fun l =>
    Lane.ofWord (w.redLanes sel f fun i => decide (i ≤ l)) := rfl

end

/-! ## Exchanges (R305, R306) -/

/-- Two-bit field k of a control value. -/
theorem bitsOf_pair (c k : Nat) : bitsOf c (2 * k) 2 = c / 4 ^ k % 4 :=
  calc bitsOf c (2 * k) 2 = c / 2 ^ (2 * k) % 4 := congrArg (· % 4) (Nat.shiftRight_eq_div_pow c (2 * k))
    _ = c / 4 ^ k % 4 := congrArg (fun d => c / d % 4) (Nat.pow_mul 2 2 k)

theorem computesLanes_qswz : ComputesLanes .qswz laneForm (fun w f l =>
    (w.read f.imm f.hd.a).lane (4 * (l / 4) + (w.readG f.imm f.hd.b).toNat / 4 ^ (l % 4) % 4)) :=
  computesLanes_of_putGen (fun _ => ⟨rfl, rfl, rfl⟩) exec_qswz fun w f l _ => by
    rw [bitsOf_pair, Nat.mul_comm]

theorem computesLanes_qbc : ComputesLanes .qbc laneForm (fun w f l =>
    (w.read f.imm f.hd.a).lane (4 * (l / 4) + (w.readG f.imm f.hd.b).toNat % 4)) :=
  computesLanes_of_putGen (fun _ => ⟨rfl, rfl, rfl⟩) exec_qbc fun w f l _ => by
    have hfirst : bitsOf (w.readG f.imm f.hd.b).toNat 0 2 = (w.readG f.imm f.hd.b).toNat % 4 := rfl
    rw [hfirst, Nat.mul_comm]

theorem computesLanes_shfl (sel : ShflSel) : ComputesLanes (.shfl sel) laneForm (fun w f l =>
    (w.read f.imm f.hd.a).lane (shflLane sel l (w.valueOf f.imm f.hd.b l).toNat)) :=
  computesLanes_of_putGen (fun _ => ⟨rfl, rfl, rfl⟩) (fun f s => exec_shfl f s sel) fun _ _ _ _ => rfl

theorem exchanges_hold : exchangesRules :=
  ⟨computesLanes_qswz, computesLanes_qbc, computesLanes_shfl .idx, computesLanes_shfl .up, computesLanes_shfl .down,
   computesLanes_shfl .xor⟩

/-! ## Votes (R307) -/

theorem and_eq_maskOf (x y : Mask) : x &&& y = maskOf fun i => x.getLsbD i && y.getLsbD i := by
  ext i hi
  simp only [← BitVec.getLsbD_eq_getElem, BitVec.getLsbD_and, maskOf_getLsbD, hi, decide_true, Bool.true_and]

/-- Two masks are equal when they agree lane by lane. -/
theorem mask_beq (x y : Mask) : (x == y) = laneList.all fun i => x.getLsbD i == y.getLsbD i := by
  rw [Bool.eq_iff_iff, beq_iff_eq, List.all_eq_true]
  constructor
  · rintro rfl i -
    exact beq_self_eq_true _
  · intro h
    exact BitVec.eq_of_getLsbD_eq fun i hi => beq_iff_eq.1 (h i (mem_laneList.2 hi))

/-- The bits of every contributor are 1. -/
theorem and_beq_left (c b : Mask) : (c &&& b == c) = laneList.all fun i => !c.getLsbD i || b.getLsbD i := by
  rw [mask_beq]
  congr 1
  funext i
  rw [BitVec.getLsbD_and]
  cases c.getLsbD i <;> cases b.getLsbD i <;> rfl

/-- The bits of every contributor are 0. -/
theorem and_beq_zero (c b : Mask) : (c &&& b == 0) = laneList.all fun i => !c.getLsbD i || !b.getLsbD i := by
  rw [mask_beq]
  congr 1
  funext i
  rw [BitVec.getLsbD_and, BitVec.ofNat_eq_ofNat, BitVec.getLsbD_zero]
  cases c.getLsbD i <;> cases b.getLsbD i <;> rfl

theorem voteHolds_all (c b : Mask) : voteHolds .all c b = laneList.all fun i => !c.getLsbD i || b.getLsbD i :=
  and_beq_left c b

theorem voteHolds_any (c b : Mask) : voteHolds .any c b = laneList.any fun i => c.getLsbD i && b.getLsbD i := by
  have hnot : voteHolds .any c b = !(c &&& b == 0) := rfl
  rw [hnot, and_beq_zero, List.not_all_eq_any_not]
  simp only [Bool.not_or, Bool.not_not]

theorem voteHolds_uni (c b : Mask) : voteHolds .uni c b =
    ((laneList.all fun i => !c.getLsbD i || b.getLsbD i) || (laneList.all fun i => !c.getLsbD i || !b.getLsbD i)) := by
  rw [← and_beq_left, ← and_beq_zero, Bool.or_comm]
  rfl

theorem computesLanes_ball : ComputesLanes .ball laneForm (fun w f _ => Lane.ofWord (maskOf fun i =>
    contributes w f i && (w.predBits f.hd.a).getLsbD i)) :=
  computesLanes_of_putGen (fun _ => ⟨rfl, rfl, rfl⟩) exec_ball fun _ _ _ _ =>
    congrArg Lane.ofWord (and_eq_maskOf _ _)

theorem computesLanes_match : ComputesLanes .match_ laneForm (fun w f l => Lane.ofWord (maskOf fun i =>
    contributes w f i && w.valueOf f.imm f.hd.a i == w.valueOf f.imm f.hd.a l)) :=
  computesLanes_of_putGen (fun _ => ⟨rfl, rfl, rfl⟩) exec_match fun _ _ _ _ => rfl

/-- `VOTE` sets every bit that it writes to the outcome. -/
theorem computesBits_vote (sel : VoteSel) {bit : Weave → VForm → Nat → Bool}
    (hv : ∀ w f l, voteHolds sel (w.actors f.hd) (w.predBits f.hd.a) = bit w f l) : ComputesBits (.vote sel) anyForm bit :=
  computesBits_of_putPred (fun _ => ⟨rfl, rfl, rfl⟩) (fun f s => exec_vote f s sel) fun w f l hl => by
    rw [← hv w f l]
    cases voteHolds sel (w.actors f.hd) (w.predBits f.hd.a) with
    | true => exact (BitVec.getLsbD_allOnes ..).trans (decide_eq_true hl)
    | false => exact BitVec.getLsbD_zero

theorem votes_hold : votesRules :=
  ⟨computesLanes_ball, computesLanes_match, computesBits_vote .all fun _ _ _ => voteHolds_all _ _,
   computesBits_vote .any fun _ _ _ => voteHolds_any _ _, computesBits_vote .uni fun _ _ _ => voteHolds_uni _ _⟩

/-! ## Reductions (R203) -/

/-- Two operands of the tree combined: an absent one passes its partner through (R203). -/
def combine (op : Word → Word → Word) (a b : Option Word) : Option Word :=
  match a, b with
  | some x, some y => some (op x y)
  | some x, none => some x
  | none, y => y

theorem pairUp_cons (op : Word → Word → Word) (a b : Option Word) (xs : List (Option Word)) :
    pairUp op (a :: b :: xs) = combine op a b :: pairUp op xs := rfl

theorem reduceTree_succ (op : Word → Word → Word) (c : Nat → Option Word) (n j : Nat) :
    reduceTree op c (n + 1) j = combine op (reduceTree op c n j) (reduceTree op c n (j + 2 ^ n)) := rfl

/-- What one level makes of the contributions `c`. -/
def nextLevel (op : Word → Word → Word) (c : Nat → Option Word) (k : Nat) : Option Word :=
  combine op (c (2 * k)) (c (2 * k + 1))

theorem pairUp_range (op : Word → Word → Word) (m : Nat) : ∀ c : Nat → Option Word,
    pairUp op ((List.range (2 * m)).map c) = (List.range m).map (nextLevel op c) := by
  induction m with
  | zero => exact fun _ => rfl
  | succ m ih =>
    intro c
    have hsplit : (List.range (2 * (m + 1))).map c = c 0 :: c 1 :: (List.range (2 * m)).map fun i => c (i + 2) := by
      rw [Nat.mul_succ, List.range_succ_eq_map, List.range_succ_eq_map]
      simp
    rw [hsplit, pairUp_cons, ih, List.range_succ_eq_map, List.map_cons, List.map_map]
    rfl

/-- The tree over the results of one level is the upper part of the tree one level higher. -/
theorem reduceTree_nextLevel (op : Word → Word → Word) (c : Nat → Option Word) (n : Nat) : ∀ j,
    reduceTree op (nextLevel op c) n j = reduceTree op c (n + 1) (2 * j) := by
  induction n with
  | zero => exact fun _ => rfl
  | succ n ih =>
    intro j
    have hright : 2 * (j + 2 ^ n) = 2 * j + 2 ^ (n + 1) := by rw [Nat.mul_add, Nat.pow_succ']
    rw [reduceTree_succ, ih, ih, hright, ← reduceTree_succ]

/-- Level by level from the lanes up, or by halves from the root down: one tree (R203). -/
theorem redTree_range (op : Word → Word → Word) (n : Nat) : ∀ c : Nat → Option Word,
    redTree op n ((List.range (2 ^ n)).map c) = reduceTree op c n 0 := by
  induction n with
  | zero => exact fun _ => rfl
  | succ n ih =>
    intro c
    rw [redTree, Nat.pow_succ', pairUp_range, ih]
    exact reduceTree_nextLevel op c n 0

theorem reduceTree_shift (op : Word → Word → Word) (c : Nat → Option Word) (a n : Nat) : ∀ j,
    reduceTree op (fun i => c (a + i)) n j = reduceTree op c n (a + j) := by
  induction n with
  | zero => exact fun _ => rfl
  | succ n ih =>
    intro j
    rw [reduceTree_succ, ih, ih, ← Nat.add_assoc, ← reduceTree_succ]

/-- The model's operation of a reduction is the one of R305 in the type that TY1 names. -/
theorem redOp_eq_reduceOp (sel : RedSel) (f : VForm) : redOp sel f.ty1 (VForm.rnd f) = reduceOp sel f := by
  funext x y
  cases sel with
  | and | or | xor => rfl
  | add => cases h : f.ty1 <;> simp [redOp, reduceOp, h]
  | min => cases h : f.ty1 <;> simp [redOp, reduceOp, h, BitVec.ult, BitVec.slt]
  | max => cases h : f.ty1 <;> simp [redOp, reduceOp, h, BitVec.ult, BitVec.slt]

theorem redIdentity_eq_reduceNone (sel : RedSel) (t : Ty) : redIdentity sel t = reduceNone sel t := by
  cases sel <;> cases t <;> rfl

/-- The reduction over the contributing lanes that `p` picks is the tree of R203 over the 32 lanes. -/
theorem redLanes_eq (w : Weave) (sel : RedSel) (f : VForm) (p : Nat → Bool) : w.redLanes sel f p =
    (reduceTree (reduceOp sel f) (fun i => if contributes w f i && p i then some (w.valueOf f.imm f.hd.a i) else none) 5 0).getD
      (reduceNone sel f.ty1) := by
  rw [← redOp_eq_reduceOp, ← redIdentity_eq_reduceNone, ← redTree_range]
  rfl

theorem computesLanes_qred (sel : RedSel) : ComputesLanes (.qred sel) laneForm (fun w f l => Lane.ofWord
    ((reduceTree (reduceOp sel f) (fun i => some (w.valueOf f.imm f.hd.a i)) 2 (4 * (l / 4))).getD 0)) :=
  computesLanes_of_putGen (fun _ => ⟨rfl, rfl, rfl⟩) (fun f s => exec_qred f s sel) fun w f l _ => by
    have hquad : redTree (redOp sel f.ty1 (VForm.rnd f)) 2 ((List.range (2 ^ 2)).map fun i =>
        some (w.valueOf f.imm f.hd.a (4 * (l / 4) + i))) =
        reduceTree (reduceOp sel f) (fun i => some (w.valueOf f.imm f.hd.a i)) 2 (4 * (l / 4)) := by
      rw [redOp_eq_reduceOp]
      exact (redTree_range _ 2 _).trans (reduceTree_shift _ (fun i => some (w.valueOf f.imm f.hd.a i)) _ 2 0)
    exact congrArg (fun x => Lane.ofWord (x.getD 0)) hquad

theorem computesLanes_redw (sel : RedSel) : ComputesLanes (.redw sel) laneForm (fun w f _ => Lane.ofWord
    ((reduceTree (reduceOp sel f) (fun i => if contributes w f i then some (w.valueOf f.imm f.hd.a i) else none) 5 0).getD
      (reduceNone sel f.ty1))) :=
  computesLanes_of_putGen (fun _ => ⟨rfl, rfl, rfl⟩) (fun f s => exec_redw f s sel) fun w f _ _ => by
    rw [redLanes_eq]
    simp only [Bool.and_true]

theorem computesLanes_scanw (sel : RedSel) : ComputesLanes (.scanw sel) laneForm (fun w f l => Lane.ofWord
    ((reduceTree (reduceOp sel f) (fun i => if contributes w f i && decide (i ≤ l) then some (w.valueOf f.imm f.hd.a i) else none)
      5 0).getD (reduceNone sel f.ty1))) :=
  computesLanes_of_putGen (fun _ => ⟨rfl, rfl, rfl⟩) (fun f s => exec_scanw f s sel) fun w f l _ =>
    congrArg Lane.ofWord (redLanes_eq w sel f fun i => decide (i ≤ l))

theorem reductions_hold : reductionsRules := ⟨computesLanes_qred, computesLanes_redw, computesLanes_scanw⟩

/-- Settles O14: each exchange, vote and reduction writes D by one masked write, votes agree with the contributors lane by
lane, and the level-by-level tree of the model is the tree of R203. -/
theorem exchangesAndVotes : Obligations.ExchangesAndVotes := ⟨exchanges_hold, votes_hold, reductions_hold⟩

end Sys2Proof.Machine
end

section
/-! The opcode map by majors (R278): the row behind a decoded word, the two forms of a row's instruction, a word under each
assigned major, and obligation O3. -/

namespace Sys2Proof

/-! ## The row behind a word -/

/-- A row that the map gives has the even major of the pair and the minor asked for. -/
theorem lookupOp_eq_some {maj minor : Nat} {row : OpRow} (h : lookupOp maj minor = some row) :
    row ∈ opcodeMap ∧ row.maj = maj / 2 * 2 ∧ row.minor = minor := by
  have hkey := List.find?_some h
  simp only [Bool.and_eq_true, beq_iff_eq] at hkey
  exact ⟨List.mem_of_find?_eq_some h, hkey⟩

theorem decode_of_no_row {w : BitVec 128} (h : lookupOp (fld w 120 8).toNat (fld w 112 8).toNat = none) :
    decode w = .error .illegalOpcode := by
  simp [decode, h]

theorem decode_of_opcodeFate_false {w : BitVec 128} {row : OpRow}
    (hrow : lookupOp (fld w 120 8).toNat (fld w 112 8).toNat = some row) (h : opcodeFateOk (row.make.run w) = false) :
    decode w = .error .illegalOpcode := by
  simp [decode, hrow, h]

/-- What decodes is the instruction that the map's row makes of the word. -/
theorem row_of_decode {w : BitVec 128} {i : Instr} (h : decode w = .ok i) :
    ∃ row ∈ opcodeMap, i = row.make.run w := by
  cases hrow : lookupOp (fld w 120 8).toNat (fld w 112 8).toNat with
  | none => simp [decode_of_no_row hrow] at h
  | some row =>
    obtain ⟨hmem, -⟩ := lookupOp_eq_some hrow
    refine ⟨row, hmem, ?_⟩
    simp only [decode, hrow] at h
    split_ifs at h
    exact (Except.ok.inj h).symm

/-! ## What a row makes of a word -/

/-- The fields of a row's instruction are those of the word, in the row's format. -/
theorem formOf_run {row : OpRow} (h : row ∈ opcodeMap) (w : BitVec 128) : formOf (row.make.run w) = row.make.form w := by
  have hmap : opcodeMap.map (fun r w => formOf (r.make.run w)) = opcodeMap.map (fun r w => r.make.form w) := rfl
  exact congrFun (List.map_inj_left.mp hmap row h) w

theorem head?_form (mk : Maker) (w : BitVec 128) : (mk.form w).head? = some (unpackHead w) := by
  cases mk <;> rfl

theorem head?_run {row : OpRow} (h : row ∈ opcodeMap) (w : BitVec 128) :
    (formOf (row.make.run w)).head? = some (unpackHead w) := by
  rw [formOf_run h, head?_form]

/-- The map's row is the one that the encoder's code names. -/
theorem codeOf_run {row : OpRow} (h : row ∈ opcodeMap) (w : BitVec 128) :
    codeOf (row.make.run w) = (row.maj, row.minor) := by
  have hmap : opcodeMap.map (fun r w => codeOf (r.make.run w)) = opcodeMap.map (fun r _ => (r.maj, r.minor)) := rfl
  exact congrFun (List.map_inj_left.mp hmap row h) w

/-! ## Lane and group forms -/

/-- The instruction exists in the group form, or in the lane form. -/
def Spec.hasForm (s : Spec) (grp : Bool) : Bool := if grp then s.grp else s.lane

theorem hasForm_of_opcodeFate {i : Instr} {h : Head} (hh : (formOf i).head? = some h) (ho : opcodeFateOk i = true) :
    (specOf i).hasForm h.grp = true := by
  unfold opcodeFateOk at ho
  cases hf : formOf i with
  | event => rw [hf] at hh; exact absurd hh (Option.some_ne_none h).symm
  | v f | e f =>
    rw [hf] at hh ho
    obtain rfl := Option.some.inj hh
    exact (Bool.and_eq_true_iff.mp ho).1
  | m f | b f | s f =>
    rw [hf] at hh ho
    obtain rfl := Option.some.inj hh
    exact ho

/-- MAJ[120] is the G bit: the majors of group forms are odd. -/
theorem grp_unpackHead (w : BitVec 128) : (unpackHead w).grp = decide ((fld w 120 8).toNat % 2 = 1) := by
  have hbit : (fld w 120 8).getLsbD 0 = w.getLsbD 120 := by simp [fld]
  calc (unpackHead w).grp = (fld w 120 8).getLsbD 0 := hbit.symm
    _ = decide ((fld w 120 8).toNat % 2 = 1) := Nat.testBit_zero _

/-- A major is the even major of its pair and the G bit. -/
theorem major_eq_add_grp (w : BitVec 128) :
    (fld w 120 8).toNat = (fld w 120 8).toNat / 2 * 2 + if (unpackHead w).grp then 1 else 0 := by
  rw [grp_unpackHead]
  simp only [decide_eq_true_eq]
  split <;> omega

/-- The grid of R278 assigns a cell to each form in which an instruction exists. -/
theorem assigned_of_hasForm {i : Instr} {grp : Bool} (h : (specOf i).hasForm grp = true) :
    ((codeOf i).1 + if grp then 1 else 0) ∈ assignedMajors := by
  have hgrid : (!(specOf i).hasForm grp || assignedMajors.contains ((codeOf i).1 + if grp then 1 else 0)) = true := by
    cases i <;> cases grp <;> rfl
  rw [h] at hgrid
  exact List.contains_iff_mem.mp hgrid

/-- A word that passes the opcode check is in a form that the instruction of its row has, so its major is assigned. -/
theorem assigned_of_opcodeFate {w : BitVec 128} {row : OpRow}
    (hrow : lookupOp (fld w 120 8).toNat (fld w 112 8).toNat = some row) (ho : opcodeFateOk (row.make.run w) = true) :
    (fld w 120 8).toNat ∈ assignedMajors := by
  obtain ⟨hmem, hmaj, -⟩ := lookupOp_eq_some hrow
  have hcell := assigned_of_hasForm (hasForm_of_opcodeFate (head?_run hmem w) ho)
  rwa [codeOf_run hmem, hmaj, ← major_eq_add_grp] at hcell

theorem decode_of_unassigned {w : BitVec 128} (h : (fld w 120 8).toNat ∉ assignedMajors) :
    decode w = .error .illegalOpcode := by
  cases hrow : lookupOp (fld w 120 8).toNat (fld w 112 8).toNat with
  | none => exact decode_of_no_row hrow
  | some row =>
    refine decode_of_opcodeFate_false hrow (Bool.eq_false_iff.mpr fun ho => ?_)
    exact h (assigned_of_opcodeFate hrow ho)

theorem grp_of_decode {w : BitVec 128} {i : Instr} {h : Head} (hd : decode w = .ok i) (hh : (formOf i).head? = some h) :
    h.grp = decide ((fld w 120 8).toNat % 2 = 1) := by
  obtain ⟨row, hmem, rfl⟩ := row_of_decode hd
  rw [head?_run hmem] at hh
  obtain rfl := Option.some.inj hh
  exact grp_unpackHead w

/-! ## The word of a well-formed instruction -/

theorem exists_head?_of_ne_event {F : Form} (h : F ≠ .event) : ∃ hd, F.head? = some hd := by
  cases F with
  | event => exact absurd rfl h
  | v f | m f | b f | e f | s f => exact ⟨f.hd, rfl⟩

/-- MAJ of an instruction: the even major of its code and the G bit of its form (R278). -/
def majorOf (i : Instr) : Nat := (codeOf i).1 + if (formOf i).head?.any Head.grp then 1 else 0

theorem majorOf_eq {i : Instr} {hd : Head} (hh : (formOf i).head? = some hd) :
    majorOf i = (codeOf i).1 + if hd.grp then 1 else 0 := by
  rw [majorOf, hh, Option.any_some]

theorem encode_eq {i : Instr} {hd : Head} (hh : (formOf i).head? = some hd) :
    encode i = packHead (codeOf i).1 (codeOf i).2 hd ++ packLow (formOf i) := by
  simp only [encode, hh]

theorem major_encode {i : Instr} (h : formOf i ≠ .event) : (fld (encode i) 120 8).toNat = majorOf i := by
  obtain ⟨hd, hh⟩ := exists_head?_of_ne_event h
  obtain ⟨-, -, -, hlt, -⟩ := lookupOp_codeOf i h false
  rw [encode_eq hh, fld_major, BitVec.toNat_ofNat, majorOf_eq hh, Nat.mod_eq_of_lt]
  split <;> omega

theorem minor_encode {i : Instr} (h : formOf i ≠ .event) : (fld (encode i) 112 8).toNat = (codeOf i).2 := by
  obtain ⟨hd, hh⟩ := exists_head?_of_ne_event h
  obtain ⟨-, -, -, -, hlt, -⟩ := lookupOp_codeOf i h false
  rw [encode_eq hh, fld_minor, BitVec.toNat_ofNat, Nat.mod_eq_of_lt hlt]

/-- The row of the encoded word takes the form's fields back, and no static check refuses them. -/
theorem decode_encode {i : Instr} (h : WeaveForm i) : decode (encode i) = .ok i := by
  obtain ⟨hne, hstatic⟩ := h
  obtain ⟨hd, hh⟩ := exists_head?_of_ne_event hne
  obtain ⟨row, hrow, heven, -, -, hfits, hrun⟩ := lookupOp_codeOf i hne hd.grp
  rw [← majorOf_eq hh, ← major_encode hne, ← minor_encode hne] at hrow
  obtain ⟨hform, hclear⟩ := fits_pack (n := (codeOf i).2) hfits hh heven
  rw [← encode_eq hh] at hform hclear
  simp only [staticOk, Bool.and_eq_true] at hstatic
  obtain ⟨⟨hopcode, hfield⟩, hoperand⟩ := hstatic
  simp [decode, hrow, hrun _ hform, hopcode, hclear, hfield, hoperand]

/-! ## A word under each assigned major -/

/-- An unguarded head whose D is absent or discarded. -/
def sampleHead (grp : Bool) (a b : Operand) : Head := headOf grp 0 false .none a b .none 0

def sampleV (grp : Bool) (a b : Operand) : VForm := ⟨sampleHead grp a b, 0, .named, .named, 0⟩
def sampleM (grp : Bool) (a b : Operand) : MForm := ⟨sampleHead grp a b, 0, 0, 0, 0, 0, 0, 0⟩
def sampleB (grp : Bool) : BForm := ⟨sampleHead grp .none .none, 0, 0⟩
def sampleE (grp : Bool) (a b : Operand) : EForm := ⟨sampleHead grp a b, 0, 0, 0, 0⟩
def sampleS (grp : Bool) : SForm := ⟨sampleHead grp .none .none, 0, 0⟩

/-- An instruction for each assigned cell of the grid, block by block in the order of the majors (R278, R279). -/
def samples : List Instr :=
  [.exit_ (sampleB false), .exit_ (sampleB true),
   .elsb (sampleB false),
   .nop (sampleB false), .nop (sampleB true),
   .iabs (sampleV false .zero .none), .iabs (sampleV true .zero .none),
   .not_ (sampleV false .zero .none), .not_ (sampleV true .zero .none),
   .mov (sampleV false .zero .none), .mov (sampleV true .zero .none),
   .pnot (sampleV false .zero .none), .pnot (sampleV true .zero .none),
   .fcls (sampleV false .zero .none),
   .frcp (sampleV false .zero .none),
   .badd2 (sampleV false .zero .zero),
   .cvt { sampleV false .zero .none with ty1 := .f32, ty2 := .bf16 },
   .gscl { sampleV false (.v 0) .zero with ty1 := .t8 },
   .qbc (sampleV false .zero .zero),
   .ball (sampleV false .zero .none),
   .exmr (sampleV true .none .none),
   .sreg (sampleV false .none .none), .sreg (sampleV true .none .none),
   .pft (sampleM false .zero .none),
   .lds (sampleM false .zero .none),
   .ldc (sampleM false .zero .none),
   .cctl (sampleM true (.g 0) .none),
   .ifence (sampleM false .none .none), .ifence (sampleM true .none .none),
   .unwch (sampleM false .none .none), .unwch (sampleM true .none .none),
   .bara { sampleM false .none .none with scp := 1 }, .bara { sampleM true .none .none with scp := 1 },
   .sigwt (sampleM true (.g 0) .none),
   .tinv (sampleE false .none .none), .tinv (sampleE true .none .none),
   .azro (sampleE false .none .none), .azro (sampleE true .none .none),
   .publ (sampleE false .zero .none), .publ (sampleE true .zero .none),
   .emit (sampleE false (.v 0) (.v 0)), .rsplit (sampleE true (.g 0) (.g 0)),
   .rdone (sampleE false .none .none), .rdone (sampleE true .none .none),
   .tret (sampleS false), .tret (sampleS true)]

theorem majors_samples : samples.map majorOf = assignedMajors := rfl

theorem weaveForm_samples : ∀ i ∈ samples, WeaveForm i := by decide

theorem exists_decode_of_assigned {m : Nat} (h : m ∈ assignedMajors) :
    ∃ w i, (fld w 120 8).toNat = m ∧ decode w = .ok i := by
  rw [← majors_samples] at h
  obtain ⟨i, hi, rfl⟩ := List.mem_map.mp h
  have hwf := weaveForm_samples i hi
  exact ⟨encode i, i, major_encode hwf.1, decode_encode hwf⟩

/-- Settles O3: a word passes the opcode check only in a form that its row's instruction has, whose major the grid assigns;
an instruction for each of the 46 cells encodes to a word that decodes; G is the lowest bit of MAJ. -/
theorem unassignedMajor : Obligations.UnassignedMajor :=
  ⟨fun _ => decode_of_unassigned, fun _ => exists_decode_of_assigned, fun _ _ _ => grp_of_decode⟩

end Sys2Proof
end

section
/-! Bit fields (R300): how a 32-bit instruction completes, the two's-complement reading as a sign extension, and obligation
O11. -/

namespace Sys2Proof.Machine

/-! ## Instructions of 32 bits -/

/-- An instruction that runs `alu32` gives D its operation of the values of A, B and C (R126, R286). -/
theorem computes32_of_alu32 {mk : VForm → Instr} {ok : VForm → Prop} {aff : AffRule} {op : VForm → Word → Word → Word → Word}
    (hd : ∀ f, SingleDest (mk f) f) (he : ∀ f s, exec (mk f) s = s.issueAlu (mk f) fun w => w.alu32 f.hd f.imm aff (op f))
    (hs : ∀ f, aff.Sound (op f)) : Computes32 mk ok op := by
  intro s cid wx w f _ hi
  refine hi.completes_plain (hd f).plain (he f s) fun ws => ?_
  have hr := receives_alu32 (imm := f.imm) (hs f) (hi.dest_allotted (hd f)) hi.formed.h hi.formed.hg
  exact Receives.of_eq hr rfl rfl rfl rfl

/-! ## The two's-complement reading -/

/-- Reading the low n bits in two's complement is reading them as a bit vector. -/
theorem signedOf_eq_toInt (n x : Nat) : signedOf n x = (BitVec.ofNat n x).toInt := by
  cases n with
  | zero => simp [signedOf, BitVec.of_length_zero]
  | succ n =>
    have hhalf : x % 2 ^ (n + 1) < 2 ^ n ↔ 2 * (x % 2 ^ (n + 1)) < 2 ^ (n + 1) := by rw [Nat.pow_succ']; omega
    simp only [signedOf, BitVec.toInt_eq_toNat_cond, BitVec.toNat_ofNat, Nat.add_one_ne_zero, if_false, Nat.add_sub_cancel,
      hhalf]
    push_cast
    rfl

theorem signedOf_toNat {n : Nat} (x : BitVec n) : signedOf n x.toNat = x.toInt := by
  rw [signedOf_eq_toInt, BitVec.ofNat_toNat, BitVec.setWidth_eq]

/-! ## The control word -/

theorem fieldPos_eq (c : Word) : fieldPos c = c.toNat % 256 := rfl

theorem fieldLen_eq (c : Word) : fieldLen c = min (c.toNat / 256 % 256) 32 :=
  congrArg (fun d => min (d % 256) 32) (Nat.shiftRight_eq_div_pow c.toNat 8)

/-! ## `BFX` -/

/-- The field of a word, as long as the control word says. -/
def fieldOf (x c : Word) : BitVec (fieldLen c) := x.extractLsb' (fieldPos c) (fieldLen c)

theorem fieldOf_toNat (x c : Word) : (fieldOf x c).toNat = bitsOf x.toNat (fieldPos c) (fieldLen c) :=
  BitVec.extractLsb'_toNat ..

/-- `BFX` extends the field by its sign or by zeros. -/
theorem bfxWord_eq (signed : Bool) (x c : Word) : bfxWord signed x c =
    if signed && decide (0 < fieldLen c) then (fieldOf x c).signExtend 32 else (fieldOf x c).setWidth 32 := by
  have hsigned : signedOf (fieldLen c) (bitsOf x.toNat (fieldPos c) (fieldLen c)) = (fieldOf x c).toInt := by
    rw [← fieldOf_toNat, signedOf_toNat]
  have hzeros : BitVec.ofNat 32 (bitsOf x.toNat (fieldPos c) (fieldLen c)) = (fieldOf x c).setWidth 32 := by
    rw [← fieldOf_toNat, BitVec.ofNat_toNat]
  rw [bfxWord, hsigned, hzeros]
  rfl

/-- Bit i of the field; no bit from the length on. -/
theorem fieldOf_getLsbD (x c : Word) (i : Nat) :
    (fieldOf x c).getLsbD i = (decide (i < fieldLen c) && x.getLsbD (fieldPos c + i)) :=
  BitVec.getLsbD_extractLsb' ..

theorem fieldOf_msb {x c : Word} (h : 0 < fieldLen c) : (fieldOf x c).msb = x.getLsbD (fieldPos c + fieldLen c - 1) := by
  rw [BitVec.msb_eq_getLsbD_last, fieldOf_getLsbD, decide_eq_true (Nat.sub_lt h Nat.one_pos), Bool.true_and,
    ← Nat.add_sub_assoc h]

theorem bfxWord_getLsbD (signed : Bool) (x c : Word) {i : Nat} (hi : i < 32) : (bfxWord signed x c).getLsbD i =
    if i < fieldLen c then x.getLsbD (fieldPos c + i)
    else signed && decide (0 < fieldLen c) && x.getLsbD (fieldPos c + fieldLen c - 1) := by
  rw [bfxWord_eq]
  split
  · rename_i hs
    have hlen : 0 < fieldLen c := of_decide_eq_true (Bool.and_eq_true_iff.1 hs).2
    rw [BitVec.getLsbD_signExtend, fieldOf_getLsbD, fieldOf_msb hlen, hs, decide_eq_true hi, Bool.true_and, Bool.true_and]
    split
    · rename_i hin
      rw [decide_eq_true hin, Bool.true_and]
    · rfl
  · rename_i hs
    rw [BitVec.getLsbD_setWidth, fieldOf_getLsbD, Bool.eq_false_iff.2 hs, decide_eq_true hi, Bool.true_and, Bool.false_and]
    split
    · rename_i hin
      rw [decide_eq_true hin, Bool.true_and]
    · rename_i hin
      rw [decide_eq_false hin, Bool.false_and]

theorem exec_bfx (f : VForm) (s : State) : exec (.bfx f) s = s.issueAlu (.bfx f) fun w =>
    w.alu32 f.hd f.imm affNone fun x y _ => bfxWord (f.ty1 == .named) x y := rfl

theorem computes32_bfx : Computes32 .bfx anyForm (fun f x c _ => bfxWord (f.ty1 == .named) x c) :=
  computes32_of_alu32 (fun _ => ⟨rfl, rfl, rfl⟩) exec_bfx fun _ => affNone_sound _

/-! ## `BFI` -/

/-- The positions that the control word names. -/
def fieldMask (c : Word) : Word := BitVec.ofNat 32 ((2 ^ fieldLen c - 1) * 2 ^ fieldPos c)

theorem fieldMask_getLsbD (c : Word) {i : Nat} (hi : i < 32) :
    (fieldMask c).getLsbD i = decide (fieldPos c ≤ i ∧ i < fieldPos c + fieldLen c) := by
  rw [fieldMask, BitVec.getLsbD_ofNat, Nat.testBit_mul_two_pow, Nat.testBit_two_pow_sub_one, Bool.eq_iff_iff]
  simp only [Bool.and_eq_true, decide_eq_true_eq]
  omega

theorem bfiWord_eq (x y c : Word) : bfiWord x y c =
    (x &&& ~~~ fieldMask c) ||| (BitVec.ofNat 32 (y.toNat * 2 ^ fieldPos c) &&& fieldMask c) := rfl

theorem bfiWord_getLsbD (x y c : Word) {i : Nat} (hi : i < 32) : (bfiWord x y c).getLsbD i =
    if fieldPos c ≤ i ∧ i < fieldPos c + fieldLen c then y.getLsbD (i - fieldPos c) else x.getLsbD i := by
  have hshift : fieldPos c ≤ i → (BitVec.ofNat 32 (y.toNat * 2 ^ fieldPos c)).getLsbD i = y.getLsbD (i - fieldPos c) := by
    intro hp
    rw [BitVec.getLsbD_ofNat, Nat.testBit_mul_two_pow, decide_eq_true hi, decide_eq_true hp, BitVec.testBit_toNat]
    rfl
  rw [bfiWord_eq, BitVec.getLsbD_or, BitVec.getLsbD_and, BitVec.getLsbD_and, BitVec.getLsbD_not, fieldMask_getLsbD c hi]
  split
  · rename_i h
    simp [h, hshift h.1]
  · rename_i h
    simp [h, hi]

theorem exec_bfi (f : VForm) (s : State) : exec (.bfi f) s = s.issueAlu (.bfi f) fun w =>
    w.alu32 f.hd f.imm affNone bfiWord := rfl

theorem computes32_bfi : Computes32 .bfi anyForm (fun _ x y c => bfiWord x y c) :=
  computes32_of_alu32 (fun _ => ⟨rfl, rfl, rfl⟩) exec_bfi fun _ => affNone_sound _

/-- Settles O11: `BFX` extends a slice of A, `BFI` merges B under a mask of the named positions, each bit by bit. -/
theorem bitFields : Obligations.BitFields := by
  refine ⟨⟨bfxWord, computes32_bfx, fun sg x c i hi => ?_⟩, ⟨bfiWord, computes32_bfi, fun x y c i hi => ?_⟩⟩
  · rw [bfxWord_getLsbD sg x c hi, fieldPos_eq, fieldLen_eq]
  · rw [bfiWord_getLsbD x y c hi, fieldPos_eq, fieldLen_eq]

end Sys2Proof.Machine
end

section
/-! Comparisons and predicate results (R302 to R304): the value of an operand in its type, the bits that each instruction
gives a predicate, `PMOV` by the class of D, and obligation O13. -/

namespace Sys2Proof.Machine

/-! ## Bits by the forms of an instruction -/

theorem ReceivesBits.congr {w w' : Weave} {h : Head} {o : Operand} {f g : Nat → Bool} (hr : ReceivesBits w w' h o f)
    (hfg : ∀ l < 32, f l = g l) : ReceivesBits w w' h o g where
  lane := fun hg n hn h0 l hl => by rw [hr.lane hg n hn h0 l hl, hfg l hl]
  group := fun hg n hn h0 => by rw [hr.group hg n hn h0, hfg 0 (by decide)]

/-- What an instruction gives a predicate in every form, said for the forms that `ok` names. -/
theorem ComputesBits.restrict {mk : VForm → Instr} {ok : VForm → Prop} {f g : Weave → VForm → Nat → Bool}
    (h : ComputesBits mk anyForm f) (hfg : ∀ w x, ok x → ∀ l < 32, f w x l = g w x l) : ComputesBits mk ok g := by
  intro s cid wx w x hok hi
  obtain ⟨t, w', ht, hw, hr⟩ := h s cid wx w x trivial hi
  exact ⟨t, w', ht, hw, hr.congr (hfg w x hok)⟩

/-! ## Comparisons (R302) -/

theorem holds_eq_compares (c : CmpSel) (x y : Int) : CmpSel.holds c x y = compares c x y := by
  cases c with
  | eq | lt | gt => rfl
  | ne => simp [CmpSel.holds, compares, bne, beq_eq_decide]
  | le | ge => simp [CmpSel.holds, compares]

/-- Numbers without a sign compare as they do among the integers. -/
theorem holds_natCast (c : CmpSel) (x y : Nat) : CmpSel.holds c x y = compares c x y := by
  rw [holds_eq_compares]
  cases c <;> simp [compares]

theorem intVal_named (x : Word) : intVal .named x.toNat = x.toInt := signedOf_toNat x

theorem intVal_i64 (x : DWord) : intVal .i64 x.toNat = x.toInt := signedOf_toNat x

theorem intVal_ui32 (x : Word) : intVal .ui32 x.toNat = x.toNat := congrArg Nat.cast (Nat.mod_eq_of_lt x.isLt)

theorem intVal_ui64 (x : DWord) : intVal .ui64 x.toNat = x.toNat := congrArg Nat.cast (Nat.mod_eq_of_lt x.isLt)

/-- A comparison of 32-bit operands, lane by lane. -/
theorem cmpBits_of_narrow {w : Weave} {f : VForm} (sel : CmpSel) (hf : f.ty1.wide = false) {l : Nat} (hl : l < 32) :
    (w.cmpBits f sel).getLsbD l =
      CmpSel.holds sel (intVal f.ty1 (w.valueOf f.imm f.hd.a l).toNat) (intVal f.ty1 (w.valueOf f.imm f.hd.b l).toNat) := by
  rw [Weave.cmpBits, maskOf_getLsbD, decide_eq_true hl, Bool.true_and, hf]
  rfl

/-- A comparison of 64-bit operands, lane by lane. -/
theorem cmpBits_of_wide {w : Weave} {f : VForm} (sel : CmpSel) (hf : f.ty1.wide = true) {l : Nat} (hl : l < 32) :
    (w.cmpBits f sel).getLsbD l = CmpSel.holds sel (intVal f.ty1 (w.wideLane f.imm (f.ty1 == .i64) f.hd.a l).toNat)
      (intVal f.ty1 (w.wideLane f.imm (f.ty1 == .i64) f.hd.b l).toNat) := by
  rw [Weave.cmpBits, maskOf_getLsbD, decide_eq_true hl, Bool.true_and, hf]
  rfl

/-! ## What each instruction runs -/

section

variable (f : VForm) (s : State)

theorem exec_icmp (c : CmpSel) : exec (.icmp c f) s = s.issueAlu (.icmp c f) fun w => w.putPred f.hd (w.cmpBits f c) := rfl

theorem exec_pand : exec (.pand f) s = s.issueAlu (.pand f) fun w =>
    w.putPred f.hd (w.predBits f.hd.a &&& w.predBits f.hd.b) := rfl

theorem exec_por : exec (.por f) s = s.issueAlu (.por f) fun w =>
    w.putPred f.hd (w.predBits f.hd.a ||| w.predBits f.hd.b) := rfl

theorem exec_pxor : exec (.pxor f) s = s.issueAlu (.pxor f) fun w =>
    w.putPred f.hd (w.predBits f.hd.a ^^^ w.predBits f.hd.b) := rfl

theorem exec_pnot : exec (.pnot f) s = s.issueAlu (.pnot f) fun w => w.putPred f.hd (~~~ w.predBits f.hd.a) := rfl

end

/-- `ICMP` gives D the mask of its comparison. -/
theorem computesBits_icmp (c : CmpSel) : ComputesBits (.icmp c) anyForm (fun w f l => (w.cmpBits f c).getLsbD l) :=
  computesBits_of_putPred (fun _ => ⟨rfl, rfl, rfl⟩) (fun f s => exec_icmp f s c) fun _ _ _ _ => rfl

theorem integerCompare_holds : integerCompareRules := by
  intro c
  have hbits := computesBits_icmp c
  refine ⟨hbits.restrict fun w f ht l hl => ?_, hbits.restrict fun w f ht l hl => ?_, hbits.restrict fun w f ht l hl => ?_,
    hbits.restrict fun w f ht l hl => ?_⟩
  · rw [cmpBits_of_narrow c (by rw [ht]; rfl) hl, ht, intVal_named, intVal_named, holds_eq_compares]
  · rw [cmpBits_of_narrow c (by rw [ht]; rfl) hl, ht, intVal_ui32, intVal_ui32, holds_natCast]
  · rw [cmpBits_of_wide c (by rw [ht]; rfl) hl, ht, intVal_i64, intVal_i64, holds_eq_compares]
    rfl
  · rw [cmpBits_of_wide c (by rw [ht]; rfl) hl, ht, intVal_ui64, intVal_ui64, holds_natCast]
    rfl

/-! ## Predicate logic (R303) -/

theorem computesBits_pand : ComputesBits .pand anyForm
    (fun w f l => (w.predBits f.hd.a).getLsbD l && (w.predBits f.hd.b).getLsbD l) :=
  computesBits_of_putPred (fun _ => ⟨rfl, rfl, rfl⟩) exec_pand fun _ _ _ _ => BitVec.getLsbD_and

theorem computesBits_por : ComputesBits .por anyForm
    (fun w f l => (w.predBits f.hd.a).getLsbD l || (w.predBits f.hd.b).getLsbD l) :=
  computesBits_of_putPred (fun _ => ⟨rfl, rfl, rfl⟩) exec_por fun _ _ _ _ => BitVec.getLsbD_or

theorem computesBits_pxor : ComputesBits .pxor anyForm
    (fun w f l => (w.predBits f.hd.a).getLsbD l != (w.predBits f.hd.b).getLsbD l) :=
  computesBits_of_putPred (fun _ => ⟨rfl, rfl, rfl⟩) exec_pxor fun _ _ _ _ => BitVec.getLsbD_xor

theorem computesBits_pnot : ComputesBits .pnot anyForm (fun w f l => !(w.predBits f.hd.a).getLsbD l) :=
  computesBits_of_putPred (fun _ => ⟨rfl, rfl, rfl⟩) exec_pnot fun w f l hl => by
    rw [BitVec.getLsbD_not, decide_eq_true hl, Bool.true_and]

/-! ## `PMOV` (R304) -/

/-- What `PMOV` moves from a predicate, and from a value. -/
theorem pmovBits_of_pred {w : Weave} {f : VForm} (ha : isPredOperand f.hd.a = true) : w.pmovBits f = w.predBits f.hd.a := by
  rw [Weave.pmovBits, if_pos ha]

theorem pmovBits_of_value {w : Weave} {f : VForm} (ha : isPredOperand f.hd.a = false) {l : Nat} (hl : l < 32) :
    (w.pmovBits f).getLsbD l = (w.valueOf f.imm f.hd.a l != 0) := by
  rw [Weave.pmovBits, if_neg (ne_true_of_eq_false ha), maskOf_getLsbD, decide_eq_true hl, Bool.true_and]
  rfl

/-- The weave after a `PMOV` whose D is no predicate: D takes each bit as 0 or 1, UNI when A is. -/
def Weave.putBits (w : Weave) (f : VForm) : Weave :=
  let bit (l : Nat) : Lane := Lane.ofWord (if (w.pmovBits f).getLsbD l then 1 else 0)
  if f.hd.grp then if w.qPass f.hd then w.putG f.hd.d (bit 0).val else w
  else w.putV f.hd.d (w.writers f.hd) (if (w.read f.imm f.hd.a).isUni then .uni (bit 0) else .ofFn bit)

/-- The operand is a predicate register. -/
def IsPredReg (o : Operand) : Prop := (∃ n, o = .p n) ∨ ∃ n, o = .q n

theorem exec_pmov (f : VForm) (s : State) : exec (.pmov f) s = execPmov f s := rfl

theorem exec_pmov_predicate {f : VForm} (h : IsPredReg f.hd.d) (s : State) :
    exec (.pmov f) s = s.issueAlu (.pmov f) fun w => w.putPred f.hd (w.pmovBits f) := by
  obtain ⟨n, hn⟩ | ⟨n, hn⟩ := h <;> simp only [exec_pmov, execPmov, hn]

theorem exec_pmov_value {f : VForm} (h : ¬ IsPredReg f.hd.d) (s : State) :
    exec (.pmov f) s = s.issueAlu (.pmov f) fun w => w.putBits f := by
  rw [exec_pmov, execPmov]
  congr 1
  funext w
  dsimp only
  split
  · exact absurd (.inl ⟨_, ‹_›⟩) h
  · exact absurd (.inr ⟨_, ‹_›⟩) h
  · rfl

/-- Where D is no predicate register there is no bit to receive. -/
theorem receivesBits_of_not_predReg {w w' : Weave} {h : Head} {o : Operand} {bit : Nat → Bool} (ho : ¬ IsPredReg o) :
    ReceivesBits w w' h o bit :=
  ⟨fun _ n hn => absurd (.inl ⟨n, hn⟩) ho, fun _ n hn => absurd (.inr ⟨n, hn⟩) ho⟩

/-- `PMOV` gives a predicate D the bits of A. -/
theorem computesBits_pmov : ComputesBits .pmov anyForm (fun w f l => (w.pmovBits f).getLsbD l) := by
  intro s cid wx w f _ hi
  by_cases hd : IsPredReg f.hd.d
  · exact hi.completes_plain rfl (exec_pmov_predicate hd s) fun _ =>
      (receivesBits_putPred hi.formed.p fun _ _ => rfl).of_eq rfl rfl
  · exact hi.completes_plain rfl (exec_pmov_value hd s) fun _ => receivesBits_of_not_predReg hd

/-- A predicate operand that reads as UNI has one bit in every lane: p0 is all ones (R124). -/
theorem predBits_of_isUni {w : Weave} {imm : Word} {o : Operand} (hw : WeaveFormed w) (hu : (w.read imm o).isUni = true)
    {l : Nat} (hl : l < 32) : (w.predBits o).getLsbD l = (w.predBits o).getLsbD 0 := by
  have hones : (BitVec.allOnes 32).getLsbD l = (BitVec.allOnes 32).getLsbD 0 := by
    rw [BitVec.getLsbD_allOnes, BitVec.getLsbD_allOnes, decide_eq_true hl]
    rfl
  have hzero : (0 : Mask).getLsbD l = (0 : Mask).getLsbD 0 := BitVec.getLsbD_zero.trans BitVec.getLsbD_zero.symm
  cases o with
  | p n =>
    by_cases hn : n.val = 0
    · simp only [Weave.predBits, hn, hw.p0, hones]
    · simp [Weave.read, hn, VReg.ofFn, VReg.isUni] at hu
  | q n =>
    simp only [Weave.predBits]
    split
    · exact hones
    · exact hzero
  | ones => exact hones
  | _ => exact hzero

/-- `PMOV` gives a register the bits of a predicate A, as values. -/
theorem computesLanes_pmov : ComputesLanes .pmov (fun f => isPredOperand f.hd.d = false ∧ isPredOperand f.hd.a = true)
    (fun w f l => Lane.ofWord (if (w.predBits f.hd.a).getLsbD l then 1 else 0)) := by
  rintro s cid wx w f ⟨hd, ha⟩ hi
  have hreg : ¬ IsPredReg f.hd.d := by
    rintro (⟨n, hn⟩ | ⟨n, hn⟩) <;> rw [hn] at hd <;> cases hd
  have hrange : w.outOfRange f.hd.d 1 = false := hi.dest_allotted ⟨rfl, rfl, rfl⟩
  refine hi.completes_plain rfl (exec_pmov_value hreg s) fun _ => Receives.of_eq (w' := w.putBits f) ?_ rfl rfl rfl rfl
  unfold Weave.putBits
  rw [pmovBits_of_pred ha]
  dsimp only
  split
  · rename_i hg
    exact receives_putG hg hrange hi.formed.hg rfl
  · rename_i hg
    refine receives_putV (Bool.eq_false_iff.2 hg) hrange hi.formed.h fun l hl _ => ?_
    split
    · rename_i hu
      rw [predBits_of_isUni hi.formed hu hl]
      rfl
    · exact lane_ofFn hl

theorem predicateResults_hold : predicateResultsRules :=
  ⟨computesBits_pand, computesBits_por, computesBits_pxor, computesBits_pnot,
   computesBits_pmov.restrict fun _ _ ⟨_, ha⟩ _ _ => by rw [pmovBits_of_pred ha],
   computesBits_pmov.restrict fun _ _ ⟨_, ha⟩ _ hl => pmovBits_of_value ha hl, computesLanes_pmov⟩

/-- Settles O13: each instruction writes one mask of bits, which is the comparison or the combination lane by lane; `PMOV`
to a register keeps the shape of A, and a UNI predicate is the same in every lane. -/
theorem compareAndPredicates : Obligations.CompareAndPredicates := ⟨integerCompare_holds, predicateResults_hold⟩

end Sys2Proof.Machine
end
